-- ==== Sys2Proof/Word.lean ====
section
/-! DEFINITION. The word types of the machine (00_scope R3, R5). Everything that computes with fields
of a word stands in Machine/Bits.lean. -/
namespace Sys2Proof

/-- One byte of memory. -/
abbrev Byte := BitVec 8
/-- A 32-bit register value, and a 32-bit parcel of the instruction stream. -/
abbrev Word := BitVec 32
/-- A 64-bit value: a uniform pair, a table entry, a service register. -/
abbrev DWord := BitVec 64
/-- One bit per lane of a wave, lane `l` in bit `l` (R52): a lane set, or a predicate register. -/
abbrev Mask := BitVec 64

end Sys2Proof
end

