-- ==== Sys2Proof/Fields.lean ====
section
/-! DEFINITION. The operand types of the instructions: the head and the prefix (R60, R70), the operand
kinds of R62, the element types of R63, and one structure for each operand layout of the formats
R65 to R69. Syntax.lean puts them together. -/
namespace Sys2Proof

/-- Uniform register number, `s0`-`s127` (R39, R62). -/
abbrev UReg := BitVec 7
/-- Vector register number, `v0`-`v511`. -/
abbrev VReg := BitVec 9
/-- Predicate register number, `p0`-`p15`. -/
abbrev PReg := BitVec 4
/-- Tile descriptor register number, `t0`-`t15`. -/
abbrev TReg := BitVec 4

/-- The instruction classes of R59 that begin an instruction. -/
inductive Cls where
  | v3 | v4 | vi | mem | br | asy | sys | long
  deriving DecidableEq, Repr, Inhabited

/-- Element types TY (R63). -/
inductive Ty where
  | b32 | i32 | n32 | i8 | n8 | f32 | bf16 | f16 | e4m3 | e5m2 | b4
  deriving DecidableEq, Repr, Inhabited

/-- Conditions of `set.cc` (R82) and of the vector compares (R107). -/
inductive Cond where
  | eq | ne | lt | ge | le | gt
  deriving DecidableEq, Repr, Inhabited

/-- Conditions of the uniform-compare branch (R67). -/
inductive BrCond where
  | eq | ne | lt | ge | ltn | gen | always
  deriving DecidableEq, Repr, Inhabited

/-- Conditions of the vote branch (R88). -/
inductive VoteCond where
  | any | all | none | nall
  deriving DecidableEq, Repr, Inhabited

/-- Relations of `fcmp` (R121). -/
inductive FRel where
  | eq | ne | lt | le | gt | ge | un | ord
  deriving DecidableEq, Repr, Inhabited

/-- Operations of the reductions and scans (R113). -/
inductive RedOp where
  | add | adds | min | max | and | or | xor
  deriving DecidableEq, Repr, Inhabited

/-- Scopes SCO (R64). -/
inductive Scope where
  | wave | team | gang | dev | sys
  deriving DecidableEq, Repr, Inhabited

/-- Orderings ORD (R64). -/
inductive Ord where
  | relaxed | acquire | release | acqRel
  deriving DecidableEq, Repr, Inhabited

/-- Memory spaces SP (R66); the reserved code 11 has no constructor. -/
inductive Space where
  | global | sp | gw
  deriving DecidableEq, Repr, Inhabited

/-- The prefix parcel (R70), its reserved bits and marker left out. -/
structure Prefix where
  go   : BitVec 2
  tz   : Bool
  mz   : Bool
  v4th : VReg
  rm   : BitVec 3
  mn   : Bool
  mask : PReg
  deriving DecidableEq, Repr, Inhabited

/-- The head of R60 without CLS and OPC, and the prefix when there is one. -/
structure Head where
  hold : BitVec 3
  acc  : BitVec 2
  pn   : Bool
  pred : PReg
  pfx  : Option Prefix
  deriving DecidableEq, Repr, Inhabited

/-- The B operand of a uniform form: V3, VI, or the immediate parcel of LONG (R80). -/
inductive UB where
  | reg (r : UReg) | imm (i : BitVec 16) | long (i : Word)
  deriving DecidableEq, Repr, Inhabited

/-- The B operand of a vector form (R99): V3 with BS 0 or 1, VI, LONG. -/
inductive VB where
  | vec (r : VReg) | uni (r : UReg) | imm (i : BitVec 16) | long (i : Word)
  deriving DecidableEq, Repr, Inhabited

/-- An immediate in VI or in LONG. -/
inductive Imm where
  | short (i : BitVec 16) | long (i : Word)
  deriving DecidableEq, Repr, Inhabited

/-- A branch offset in BR or in LONG (R67, R69), in units of 8 bytes. -/
inductive Off where
  | short (o : BitVec 22) | long (o : Word)
  deriving DecidableEq, Repr, Inhabited

/-- A memory displacement: DISP of the 64-bit form, or the immediate parcel (R66, R69). -/
inductive Disp where
  | short (d : BitVec 10) | long (d : Word)
  deriving DecidableEq, Repr, Inhabited

/-- The amount or index of a lane-movement form (R110): VI, or V3 with BS = 1. -/
inductive LaneArg where
  | imm (i : BitVec 16) | uni (r : UReg)
  deriving DecidableEq, Repr, Inhabited

/-- The field operand of `bfx` and `bfi` (R106): VI, or V3 with BS = 1. -/
inductive FieldArg where
  | imm (pos : BitVec 5) (len : BitVec 6) | uni (r : UReg)
  deriving DecidableEq, Repr, Inhabited

/-- The destination of `red` (R113): a vector, or a uniform with UD = 1. -/
inductive RedDst where
  | vec (r : VReg) | uni (r : UReg)
  deriving DecidableEq, Repr, Inhabited

/-- The two forms of `wait` (R93): Z of the 64-bit form, or the bounds of LONG. -/
inductive WaitArg where
  | zero (z : BitVec 4) | bounds (b : Word)
  deriving DecidableEq, Repr, Inhabited

/-- A memory operand (R66). `ix` holds IX and SC when IXE = 1. -/
structure MemOp where
  sp   : Space
  ix   : Option (VReg × BitVec 2)
  sb   : UReg
  disp : Disp
  deriving DecidableEq, Repr, Inhabited

structure UBin where
  ty  : Ty
  dst : UReg
  sa  : UReg
  b   : UB
  deriving DecidableEq, Repr, Inhabited

structure SetCc where
  ty  : Ty
  cc  : Cond
  dst : UReg
  sa  : UReg
  b   : UB
  deriving DecidableEq, Repr, Inhabited

structure LeaOp where
  ty  : Ty
  k   : BitVec 2
  dst : UReg
  sa  : UReg
  sb  : UReg
  deriving DecidableEq, Repr, Inhabited

/-- Two uniform registers: a destination or first operand, and a source. -/
structure U2 where
  dst : UReg
  sa  : UReg
  deriving DecidableEq, Repr, Inhabited

/-- Three uniform registers. -/
structure U3 where
  dst : UReg
  sa  : UReg
  sb  : UReg
  deriving DecidableEq, Repr, Inhabited

structure UImm where
  dst : UReg
  imm : Imm
  deriving DecidableEq, Repr, Inhabited

structure FromSpecial where
  dst  : UReg
  spec : BitVec 6
  pair : Bool
  deriving DecidableEq, Repr, Inhabited

structure VSpecial where
  dst  : VReg
  spec : BitVec 6
  deriving DecidableEq, Repr, Inhabited

structure ToSpecial where
  spec : BitVec 6
  sa   : UReg
  deriving DecidableEq, Repr, Inhabited

structure PBin where
  d : PReg
  a : PReg
  b : PReg
  deriving DecidableEq, Repr, Inhabited

structure PUn where
  d : PReg
  a : PReg
  deriving DecidableEq, Repr, Inhabited

structure PFromU where
  d  : PReg
  sa : UReg
  deriving DecidableEq, Repr, Inhabited

structure UFromP where
  dst : UReg
  a   : PReg
  deriving DecidableEq, Repr, Inhabited

structure BrCc where
  cnd : BrCond
  sa  : UReg
  sb  : UReg
  off : Off
  deriving DecidableEq, Repr, Inhabited

structure BrVoteOp where
  cnd : VoteCond
  pa  : PReg
  off : Off
  deriving DecidableEq, Repr, Inhabited

structure CallOp where
  sa  : UReg
  off : Off
  deriving DecidableEq, Repr, Inhabited

structure SetVl where
  dst : UReg
  sa  : UReg
  imm : BitVec 16
  deriving DecidableEq, Repr, Inhabited

structure SetVtype where
  sa  : UReg
  imm : BitVec 16
  deriving DecidableEq, Repr, Inhabited

/-- V3, VI or LONG with a type and a B operand (R99, R102). -/
structure VBin where
  ty  : Ty
  dst : VReg
  sa  : VReg
  b   : VB
  deriving DecidableEq, Repr, Inhabited

structure VUn where
  dst : VReg
  sa  : VReg
  deriving DecidableEq, Repr, Inhabited

structure VUnTy where
  ty  : Ty
  dst : VReg
  sa  : VReg
  deriving DecidableEq, Repr, Inhabited

/-- V4 with a type. -/
structure VTri where
  ty  : Ty
  dst : VReg
  sa  : VReg
  sb  : VReg
  sc  : VReg
  deriving DecidableEq, Repr, Inhabited

structure Funnel where
  dst : VReg
  sa  : VReg
  sb  : VReg
  n   : BitVec 5
  va  : Bool
  deriving DecidableEq, Repr, Inhabited

structure Lut3Op where
  dst   : VReg
  sa    : VReg
  sb    : VReg
  sc    : VReg
  table : BitVec 8
  deriving DecidableEq, Repr, Inhabited

structure BField where
  ty  : Ty
  dst : VReg
  sa  : VReg
  f   : FieldArg
  deriving DecidableEq, Repr, Inhabited

structure VCmp where
  ty : Ty
  pd : PReg
  sa : VReg
  b  : VB
  deriving DecidableEq, Repr, Inhabited

structure SelOp where
  dst  : VReg
  selp : PReg
  sa   : VReg
  b    : VB
  deriving DecidableEq, Repr, Inhabited

structure PackOp where
  ty  : Ty
  dst : VReg
  sa  : VReg
  b   : VB
  h   : Bool
  deriving DecidableEq, Repr, Inhabited

structure LMove where
  dst : VReg
  sa  : VReg
  k   : LaneArg
  deriving DecidableEq, Repr, Inhabited

structure V3R where
  dst : VReg
  sa  : VReg
  sb  : VReg
  deriving DecidableEq, Repr, Inhabited

structure LextOp where
  dst : UReg
  sa  : VReg
  k   : LaneArg
  deriving DecidableEq, Repr, Inhabited

structure LinsOp where
  dst : VReg
  sa  : UReg
  k   : LaneArg
  deriving DecidableEq, Repr, Inhabited

structure UFromV where
  dst : UReg
  sa  : VReg
  deriving DecidableEq, Repr, Inhabited

structure VFromU where
  dst : VReg
  sa  : UReg
  deriving DecidableEq, Repr, Inhabited

structure RedArg where
  op  : RedOp
  ty  : Ty
  dst : RedDst
  sa  : VReg
  deriving DecidableEq, Repr, Inhabited

structure ScanArg where
  op  : RedOp
  ty  : Ty
  dst : VReg
  sa  : VReg
  deriving DecidableEq, Repr, Inhabited

structure VImm where
  dst : VReg
  imm : Imm
  deriving DecidableEq, Repr, Inhabited

structure IxRead where
  dst : VReg
  a   : UReg
  imm : BitVec 9
  deriving DecidableEq, Repr, Inhabited

structure IxWrite where
  a   : UReg
  sb  : VReg
  imm : BitVec 9
  deriving DecidableEq, Repr, Inhabited

structure FCmpOp where
  rel : FRel
  pd  : PReg
  sa  : VReg
  b   : VB
  deriving DecidableEq, Repr, Inhabited

structure CvtOp where
  sat : Bool
  pos : BitVec 2
  src : Ty
  dty : Ty
  dst : VReg
  sa  : VReg
  deriving DecidableEq, Repr, Inhabited

structure BScale where
  bt  : BitVec 2
  dst : VReg
  sa  : VReg
  deriving DecidableEq, Repr, Inhabited

structure BQuant where
  pos : BitVec 3
  dst : VReg
  sa  : VReg
  b   : VB
  deriving DecidableEq, Repr, Inhabited

structure XMac where
  ty : Ty
  sa : VReg
  sb : VReg
  deriving DecidableEq, Repr, Inhabited

structure ActLd where
  rd : UReg
  sb : UReg
  tb : BitVec 2
  deriving DecidableEq, Repr, Inhabited

structure FactOp where
  tb  : BitVec 2
  dst : VReg
  sa  : VReg
  deriving DecidableEq, Repr, Inhabited

/-- A vector load or store: RD and the memory operand. -/
structure VMem where
  rd : VReg
  m  : MemOp
  deriving DecidableEq, Repr, Inhabited

/-- A uniform load or store. -/
structure UMem where
  rd : UReg
  m  : MemOp
  deriving DecidableEq, Repr, Inhabited

structure PfOp where
  lvl : BitVec 2
  m   : MemOp
  deriving DecidableEq, Repr, Inhabited

/-- An atomic in the ordered MEM layout (R66, R281); its displacement is zero or LONG's. -/
structure AtomOp where
  rd   : VReg
  sp   : Space
  ix   : Option (VReg × BitVec 2)
  sb   : UReg
  disp : Option Word
  ord  : Ord
  sco  : Scope
  rmt  : Bool
  deriving DecidableEq, Repr, Inhabited

structure FenceOp where
  ord : Ord
  sco : Scope
  rmt : Bool
  deriving DecidableEq, Repr, Inhabited

/-- An engine command with a block offset or a handle in sb and a scope (R68). -/
structure AsyOp where
  sco : Scope
  sb  : UReg
  deriving DecidableEq, Repr, Inhabited

structure AqPop where
  vd : VReg
  q  : BitVec 2
  deriving DecidableEq, Repr, Inhabited

structure MxMma where
  va  : VReg
  sb  : UReg
  sco : Scope
  deriving DecidableEq, Repr, Inhabited

structure MxSt where
  ty  : Ty
  sb  : UReg
  sco : Scope
  deriving DecidableEq, Repr, Inhabited

structure MxLd where
  sto : Bool
  ty  : Ty
  sb  : UReg
  sco : Scope
  deriving DecidableEq, Repr, Inhabited

structure MxClr where
  sto : Bool
  sb  : UReg
  sc  : UReg
  sco : Scope
  deriving DecidableEq, Repr, Inhabited

structure TdOp where
  t  : TReg
  sb : UReg
  deriving DecidableEq, Repr, Inhabited

structure BagPut where
  fp  : PReg
  nf  : Bool
  sco : Scope
  sb  : UReg
  va  : VReg
  deriving DecidableEq, Repr, Inhabited

/-- `bag.each` and `root.run`: handle or block, parameter, root code offset. -/
structure RootCmd where
  sco : Scope
  sb  : UReg
  sc  : UReg
  tgt : Word
  deriving DecidableEq, Repr, Inhabited

structure BagDrain where
  sco : Scope
  sb  : UReg
  sc  : UReg
  deriving DecidableEq, Repr, Inhabited

structure BagCnt where
  sel : BitVec 2
  dst : UReg
  sa  : UReg
  sb  : UReg
  deriving DecidableEq, Repr, Inhabited

structure CrownSum where
  gw  : Bool
  clr : Bool
  sco : Scope
  sb  : UReg
  deriving DecidableEq, Repr, Inhabited

structure RecLd where
  dst : VReg
  off : BitVec 7
  deriving DecidableEq, Repr, Inhabited

structure RecSt where
  off : BitVec 7
  sa  : VReg
  deriving DecidableEq, Repr, Inhabited

structure CrownPut where
  ty : Ty
  sa : VReg
  sb : UReg
  deriving DecidableEq, Repr, Inhabited

/-- `mig.up`, `mig.down`: an address pair and a count. -/
structure MigOp where
  sb : UReg
  sc : UReg
  deriving DecidableEq, Repr, Inhabited

/-- A system form with a reply register and up to two source fields (R300, R327). -/
structure Sys3 where
  rd : UReg
  sb : UReg
  sc : UReg
  deriving DecidableEq, Repr, Inhabited

structure VfStop where
  rd : UReg
  sb : UReg
  sc : UReg
  nb : BitVec 8
  deriving DecidableEq, Repr, Inhabited

structure TlbInv where
  sb : UReg
  sc : UReg
  n  : BitVec 12
  deriving DecidableEq, Repr, Inhabited

structure VfPre where
  rd : UReg
  sc : UReg
  m  : BitVec 16
  deriving DecidableEq, Repr, Inhabited

structure PoolAdd where
  rd : UReg
  sb : UReg
  sc : UReg
  n  : BitVec 12
  deriving DecidableEq, Repr, Inhabited

/-! Who or what an event of the table concerns. -/

/-- A wave of an admitted team: the team's identifier and `%wave`. -/
structure WaveRef where
  team : Nat
  wave : Nat
  deriving DecidableEq, Repr, Inhabited

/-- Which set of a group issues (R17, R19, R320). -/
inductive SetKind where
  | save | trap | ordinary
  deriving DecidableEq, Repr, Inhabited

/-- A register of the functions' BARs whose write has no behaviour of its own (R3, R329, R333). -/
inductive PlainReg where
  | queueBase (level : BitVec 3) | queueSize (level : BitVec 3)
  | complBase | complSize | errBase | errSize | errConsumer
  | hwBase | hwSize | tenancy0 | tenancy1
  | troot | save | saveLen | svs | svr | hdef | dmask | aith
  | srf | scap | calIdx | nonce (i : BitVec 2)
  deriving DecidableEq, Repr, Inhabited

/-- A flit of a Brusko link (R336): the header's fields and the payload. -/
structure Flit where
  ctx     : BitVec 6
  kind    : BitVec 4
  ack     : BitVec 12
  seq     : BitVec 12
  payload : List Byte
  deriving DecidableEq, Repr, Inhabited

/-- An engine class that acknowledges a stop (R319, R320). -/
inductive EngineRef where
  | matrix (core : Nat) | access (core : Nat) | root (unit : Nat)
  deriving DecidableEq, Repr, Inhabited

end Sys2Proof
end

