-- ==== Sys2Proof/Machine/Bits.lean ====
section
/-! DEFINITION. Bit fields, byte order, sign extension and lane sets: the helpers every other file of
Machine/ uses (00_scope R3, R5; 04_encoding_and_opcode_map R77). -/
namespace Sys2Proof

/-- `x[h:l]` of R77, on a natural number. -/
def bits (x h l : Nat) : Nat := (x >>> l) % 2 ^ (h + 1 - l)

/-- Bit `i` of a natural number. -/
def bit (x i : Nat) : Bool := x.testBit i

/-- Little-endian value of bytes, the lowest address first (R3). -/
def leNat : List Byte → Nat
  | [] => 0
  | b :: bs => b.toNat + 256 * leNat bs

/-- The `n` bytes of `x`, little-endian. -/
def leBytes : Nat → Nat → List Byte
  | 0, _ => []
  | n + 1, x => BitVec.ofNat 8 x :: leBytes n (x / 256)

/-- `n` bytes at offset `off` of a byte image; a byte past its end reads 0. -/
def sliceB (b : List Byte) (off n : Nat) : List Byte :=
  (List.range n).map fun i => b.getD (off + i) 0

/-- Little-endian field of `n` bytes at offset `off` of a byte image. -/
def fieldB (b : List Byte) (off n : Nat) : Nat := leNat (sliceB b off n)

/-- `sext(x, n)` of R77 as an integer. -/
def sextI (x n : Nat) : Int :=
  let y := x % 2 ^ n
  if y < 2 ^ (n - 1) then (y : Int) else (y : Int) - 2 ^ n

/-- The value of a word under a type: signed for `.i32` and `.i8`, unsigned otherwise (R80, R102). -/
def Ty.signed : Ty → Bool
  | .i32 | .i8 => true
  | _ => false

def tyVal (ty : Ty) (x : Word) : Int := bif ty.signed then x.toInt else x.toNat

/-- A 16-bit immediate, sign-extended to a word. -/
def imm16 (i : BitVec 16) : Word := i.signExtend 32

/-- An integer taken modulo 2^32. -/
def wordOf (x : Int) : Word := BitVec.ofInt 32 x

/-- An integer taken modulo 2^64. -/
def dwordOf (x : Int) : DWord := BitVec.ofInt 64 x

/-- Clamp to a range. -/
def clampI (lo hi x : Int) : Int := if x < lo then lo else if hi < x then hi else x

def Ty.minI : Ty → Int
  | .i32 => -2147483648
  | .i8 => -128
  | _ => 0

def Ty.maxI : Ty → Int
  | .i32 => 2147483647
  | .n32 => 4294967295
  | .i8 => 127
  | .n8 => 255
  | _ => 4294967295

/-- The low and high halves of a pair value. -/
def loW (x : DWord) : Word := x.extractLsb' 0 32
def hiW (x : DWord) : Word := x.extractLsb' 32 32
def dword (lo hi : Word) : DWord := hi ++ lo

/-- A Bool as one bit. -/
def b2v (b : Bool) : BitVec n := bif b then 1 else 0

/-! ### Lane sets -/

/-- Lane `l` is in the set. -/
def Mask.has (m : Mask) (l : Nat) : Bool := m.getLsbD l

/-- Lanes 0 to `w − 1`. -/
def Mask.full (w : Nat) : Mask := BitVec.ofNat 64 (2 ^ w - 1)

/-- The lanes below `w` where `p` holds. -/
def Mask.ofFn (w : Nat) (p : Nat → Bool) : Mask :=
  BitVec.ofNat 64 ((List.range w).foldl (fun a l => bif p l then a + 2 ^ l else a) 0)

/-- The lanes of a set in ascending order. -/
def Mask.lanes (m : Mask) : List Nat := (List.range 64).filter m.has

def Mask.count (m : Mask) : Nat := m.lanes.length

/-- The lowest lane of a set. -/
def Mask.low (m : Mask) : Option Nat := (List.range 64).find? m.has

/-- The set with lane `l` set to `b`. -/
def Mask.put (m : Mask) (l : Nat) (b : Bool) : Mask :=
  bif b then m ||| (1#64 <<< l) else m &&& ~~~(1#64 <<< l)

/-! ### Lists by index -/

/-- Change entry `i`, if there is one. -/
def modAt (xs : List α) (i : Nat) (f : α → α) : List α := xs.modify i f

/-- Replace entry `i`, if there is one. -/
def setAt (xs : List α) (i : Nat) (x : α) : List α := xs.set i x

/-- Association lists kept by key: read, and write keeping one entry for a key. -/
def alGet [BEq κ] (xs : List (κ × α)) (k : κ) : Option α := (xs.find? fun p => p.1 == k).map (·.2)

def alSet [BEq κ] (k : κ) (x : α) : List (κ × α) → List (κ × α)
  | [] => [(k, x)]
  | p :: ps => bif p.1 == k then (k, x) :: ps else p :: alSet k x ps

/-- The integer of the signed 32-bit two's-complement value. -/
def wordI (x : Word) : Int := x.toInt

end Sys2Proof
end

