-- ==== Sys2Proof/Machine/Flags.lean ====
section
/-! DEFINITION. Floating-point formats, values, rounding, and the flags that rounding raises
(13_number_formats R201 to R208; R132 for stochastic rounding). -/
namespace Sys2Proof.Machine

/-! ### Flags (R207) -/

def flagNV : BitVec 6 := 1
def flagDZ : BitVec 6 := 2
def flagOF : BitVec 6 := 4
def flagUF : BitVec 6 := 8
def flagNX : BitVec 6 := 16
def flagRG : BitVec 6 := 32

/-- The flags whose trap enables are set, among those that arose (R116, R207). -/
def trappedFlags (fflags : Word) (arose : BitVec 6) : BitVec 6 := arose &&& fflags.extractLsb' 8 6

/-- OR flags into bits [5:0] (R208). -/
def orFlags (fflags : Word) (arose : BitVec 6) : Word := fflags ||| arose.setWidth 32

/-! ### Formats (R201, R202) -/

/-- A format: exponent bits and fraction bits; `e4m3` has no infinity. -/
structure Fmt where
  eb   : Nat
  fb   : Nat
  e4m3 : Bool := false
  deriving DecidableEq, Repr, Inhabited

def f32 : Fmt := ⟨8, 23, false⟩
def f16 : Fmt := ⟨5, 10, false⟩
def bf16 : Fmt := ⟨8, 7, false⟩
def e5m2 : Fmt := ⟨5, 2, false⟩
def e4m3 : Fmt := ⟨4, 3, true⟩

def fmtOf : Ty → Fmt
  | .bf16 => bf16 | .f16 => f16 | .e4m3 => e4m3 | .e5m2 => e5m2 | _ => f32

namespace Fmt
def width (f : Fmt) : Nat := 1 + f.eb + f.fb
def bias (f : Fmt) : Int := 2 ^ (f.eb - 1) - 1
def emin (f : Fmt) : Int := 1 - f.bias
/-- The exponent of the smallest subnormal. -/
def qmin (f : Fmt) : Int := f.emin - f.fb
def signBit (f : Fmt) : Nat := 2 ^ (f.eb + f.fb)
/-- The magnitude code of infinity; of the NaNs in E4M3. -/
def infCode (f : Fmt) : Nat := bif f.e4m3 then 0x7F else (2 ^ f.eb - 1) * 2 ^ f.fb
/-- The largest finite magnitude code. -/
def maxCode (f : Fmt) : Nat := f.infCode - 1
def nan (f : Fmt) : Nat := bif f.e4m3 then 0x7F else f.infCode + 2 ^ (f.fb - 1)
def withSign (f : Fmt) (neg : Bool) (mag : Nat) : Nat := bif neg then f.signBit + mag else mag
/-- The result code of an infinity: E4M3 has none (R205, R206). -/
def inf (f : Fmt) (neg : Bool) : Nat := bif f.e4m3 then 0x7F else f.withSign neg f.infCode
end Fmt

/-- A value: `fin neg m e` is ±m·2^e with m > 0 (R202, R203). -/
inductive FVal where
  | nan (signalling : Bool) | inf (neg : Bool) | zero (neg : Bool) | fin (neg : Bool) (m : Nat) (e : Int)
  deriving DecidableEq, Repr, Inhabited

/-- The value of a bit pattern (R202, R203). -/
def Fmt.val (f : Fmt) (x : Nat) : FVal :=
  let neg := bit x (f.eb + f.fb)
  let mag := x % f.signBit
  let E := mag / 2 ^ f.fb
  let F := mag % 2 ^ f.fb
  if f.e4m3 && mag == 0x7F then .nan false
  else if !f.e4m3 && E == 2 ^ f.eb - 1 then
    if F = 0 then .inf neg else .nan (!bit F (f.fb - 1))
  else if E = 0 then if F = 0 then .zero neg else .fin neg F f.qmin
  else .fin neg (2 ^ f.fb + F) (f.qmin + (E - 1))

def FVal.isNan : FVal → Bool
  | .nan _ => true
  | _ => false
def FVal.isSnan : FVal → Bool
  | .nan true => true
  | _ => false
def FVal.neg : FVal → Bool
  | .nan _ => false
  | .inf n | .zero n | .fin n _ _ => n
def FVal.flip : FVal → FVal
  | .nan s => .nan s
  | .inf n => .inf !n
  | .zero n => .zero !n
  | .fin n m e => .fin (!n) m e

/-- Invalid, when an operand is a signalling NaN (R116). -/
def snanFlag (xs : List FVal) : BitVec 6 := bif xs.any FVal.isSnan then flagNV else 0

/-! ### Exact reals -/

/-- An exact real that is not zero: ±x with x = m·2^e when `more` is false, and x strictly between m·2^e and
(m + 1)·2^e when it is true. -/
structure Ex where
  neg  : Bool
  m    : Nat
  e    : Int
  more : Bool := false
  deriving DecidableEq, Repr, Inhabited

/-- The exact sum of dyadic numbers given as signed mantissas and exponents: mantissa and exponent. -/
def dySum (xs : List (Int × Int)) : Int × Int :=
  xs.foldl (fun a x =>
    if a.1 = 0 then x else if x.1 = 0 then a else
    let e := min a.2 x.2
    (a.1 * 2 ^ (a.2 - e).toNat + x.1 * 2 ^ (x.2 - e).toNat, e)) (0, 0)

def FVal.dy : FVal → Int × Int
  | .fin n m e => (bif n then -(m : Int) else m, e)
  | _ => (0, 0)

/-- Rounding modes of R204, and of stochastic rounding with the 16 bits that it draws (R132). -/
inductive RMode where
  | rne | rtz | rdn | rup | rna | sto (q : Nat)
  deriving DecidableEq, Repr, Inhabited

/-- The mode of an RM code on an instruction that does not round stochastically: 101 is RNE (R70, R116). -/
def RMode.ofCode (c : BitVec 3) : RMode :=
  if c = 1 then .rtz else if c = 2 then .rdn else if c = 3 then .rup else if c = 4 then .rna else .rne

/-- Whether to take `floor(n) + 1`, for `n = k + r/d` with `more` for a remainder a little above `r` (R204). -/
def roundUp (rm : RMode) (neg : Bool) (k r d : Nat) (more : Bool) : Bool :=
  let any := r != 0 || more
  match rm with
  | .rtz => false
  | .rup => any && !neg
  | .rdn => any && neg
  | .rna => d ≤ 2 * r
  | .rne => d < 2 * r || (d == 2 * r && (more || k % 2 == 1))
  | .sto q => q * d < 65536 * r

/-- The value at overflow (R205). -/
def overflowCode (f : Fmt) (rm : RMode) (neg : Bool) : Nat :=
  match rm with
  | .rtz => f.withSign neg f.maxCode
  | .rup => bif neg then f.withSign true f.maxCode else f.inf false
  | .rdn => bif neg then f.inf true else f.withSign false f.maxCode
  | _ => f.inf neg

/-- The quantum's exponent, the integer below, the remainder and the divisor of `|x|` in a format (R204). -/
def quantum (f : Fmt) (x : Ex) : Int × Nat × Nat × Nat :=
  let q := max ((Nat.log2 x.m : Int) + x.e) f.emin - f.fb
  if x.e < q then
    let d := 2 ^ (q - x.e).toNat
    (q, x.m / d, x.m % d, d)
  else (q, x.m * 2 ^ (x.e - q).toNat, 0, 1)

/-- `round(x, fmt, rm)` of R204 and R205 for a nonzero exact real: the bits and the flags. -/
def roundEx (f : Fmt) (rm : RMode) (x : Ex) : Nat × BitVec 6 :=
  let (q, k, r, d) := quantum f x
  let inexact := r != 0 || x.more
  let n := bif roundUp rm x.neg k r d x.more then k + 1 else k
  -- the magnitude code counts quanta from the format's smallest exponent
  let code := (q - f.qmin).toNat * 2 ^ f.fb + n
  if f.maxCode < code then (overflowCode f rm x.neg, flagOF ||| flagNX)
  else
    (f.withSign x.neg code,
      bif inexact then (bif code < 2 ^ f.fb then flagNX ||| flagUF else flagNX) else 0)

/-- Saturating narrowing: overflow gives the largest finite value (R127, R205). -/
def roundSat (f : Fmt) (rm : RMode) (sat : Bool) (x : Ex) : Nat × BitVec 6 :=
  let r := roundEx f rm x
  bif sat && r.2 &&& flagOF != 0 then (f.withSign x.neg f.maxCode, r.2) else r

def exOf (m : Int) (e : Int) : Ex := { neg := decide (m < 0), m := m.natAbs, e := e }

/-- The sign of an exact zero sum: RDN gives −0, every other mode +0 (R118). -/
def zeroSign (rm : RMode) : Bool := rm == .rdn

/-- A sum of two values, each finite or not, rounded once (R118). -/
def fsum (f : Fmt) (rm : RMode) (a b : FVal) : Nat × BitVec 6 :=
  match a, b with
  | .nan _, _ | _, .nan _ => (f.nan, snanFlag [a, b])
  | .inf x, .inf y => if x = y then (f.inf x, 0) else (f.nan, flagNV)
  | .inf x, _ => (f.inf x, 0)
  | _, .inf y => (f.inf y, 0)
  | .zero x, .zero y => (f.withSign (if x = y then x else zeroSign rm) 0, 0)
  | a, b =>
    let s := dySum [a.dy, b.dy]
    if s.1 = 0 then (f.withSign (zeroSign rm) 0, 0) else roundEx f rm (exOf s.1 s.2)

/-- FP32 addition in RNE without flags: atomics, the crown's finite case, `bmac` (R189, R281). -/
def fadd32 (a b : Word) : Word :=
  BitVec.ofNat 32 (fsum f32 .rne (f32.val a.toNat) (f32.val b.toNat)).1

end Sys2Proof.Machine
end

