-- ==== Sys2Proof/Machine/Accuracy.lean ====
section
/-! DEFINITION. The accuracy classes (14_accuracy_classes R219 to R223): exact, truncated and logarithmic products
of integers and of floating-point values. -/
namespace Sys2Proof.Machine

/-- A significand shifted left until its leading one stands in bit p − 1 (R219). -/
def normSig (p m : Nat) : Nat := m * 2 ^ (p - 1 - Nat.log2 m)

/-- `D` of R221: the partial products in the columns below p − 1. -/
def discarded (p A B : Nat) : Nat :=
  (List.range (p - 1)).foldl (fun d i => bif bit A i then d + 2 ^ i * (B % 2 ^ (p - 1 - i)) else d) 0

/-- `K` of R221. -/
def truncSig (p A B : Nat) : Nat := A * B - discarded p A B + 2 ^ (p - 1)

/-- Mitchell's sum (R222) as a significand `m` and an exponent step `k`: L = m · 2^(e + k − p + 1). -/
def logSig (p A B : Nat) : Nat × Nat :=
  if A + B < 3 * 2 ^ (p - 1) then (A + B - 2 ^ (p - 1), 0) else (A + B - 2 ^ p, 1)

/-- The magnitude of an integer product of two nonzero magnitudes of width W under a class (R221, R222). -/
def mulMag (W : Nat) (acc : BitVec 2) (a b : Nat) : Nat :=
  let la := Nat.log2 a
  let lb := Nat.log2 b
  let A := normSig W a
  let B := normSig W b
  if acc = 1 then truncSig W A B / 2 ^ (2 * W - 2 - (la + lb))
  else if acc = 2 then
    let l := logSig W A B
    l.1 * 2 ^ (la + lb + l.2) / 2 ^ (W - 1)
  else a * b

/-- `mul(a, b, type, acc)` of R77 for integers: the signed product P (R223). -/
def mulInt (W : Nat) (acc : BitVec 2) (a b : Int) : Int :=
  if a = 0 || b = 0 then 0
  else
    let m : Int := mulMag W acc a.natAbs b.natAbs
    bif decide (a < 0) != decide (b < 0) then -m else m

/-- Bits a format's significand has (R201). -/
def Fmt.prec (f : Fmt) : Nat := f.fb + 1

/-- The product of two values under a class at precision p, and the flags it raises (R219 to R222). -/
def mulF (p : Nat) (acc : BitVec 2) (a b : FVal) : FVal × BitVec 6 :=
  match a, b with
  | .nan _, _ | _, .nan _ => (.nan false, snanFlag [a, b])
  | .inf _, .zero _ | .zero _, .inf _ => (.nan false, flagNV)
  | .inf x, _ => (.inf (x != b.neg), 0)
  | _, .inf y => (.inf (a.neg != y), 0)
  | .zero x, _ => (.zero (x != b.neg), 0)
  | _, .zero y => (.zero (a.neg != y), 0)
  | .fin x m e, .fin y n k =>
    let A := normSig p m
    let B := normSig p n
    -- ea + eb − 2p + 2
    let q : Int := (e + Nat.log2 m) + (k + Nat.log2 n) - 2 * p + 2
    if acc = 1 then (.fin (x != y) (truncSig p A B) q, 0)
    else if acc = 2 then
      let l := logSig p A B
      (.fin (x != y) l.1 (q + (p - 1) + l.2), 0)
    else (.fin (x != y) (m * n) (e + k), 0)

end Sys2Proof.Machine
end

