-- ==== Sys2Proof/Syntax.lean ====
section
/-! DEFINITION. The instructions of spec/opcode_table.json, one constructor for each row and in the table's
order. A row with an encoding carries its head (and with it the prefix) and its operands; a row without one is a
step of the machine itself (95_what_each_step_holds), and carries the parameters that say which unit or object
acts. -/
namespace Sys2Proof

inductive Instr where
  /-- R80. Uniform add, modulo 2^32, written once per wave. -/
  | addUniform (h : Head) (o : UBin)
  /-- R80. Uniform subtract, modulo 2^32. -/
  | subUniform (h : Head) (o : UBin)
  /-- R80. Uniform multiply giving the low 32 bits of the product under the accuracy class. -/
  | mulUniform (h : Head) (o : UBin)
  /-- R80. Uniform multiply giving the high 32 bits of the product. -/
  | mulhUniform (h : Head) (o : UBin)
  /-- R80. Uniform minimum, signed or unsigned. -/
  | minUniform (h : Head) (o : UBin)
  /-- R80. Uniform maximum, signed or unsigned. -/
  | maxUniform (h : Head) (o : UBin)
  /-- R80. Uniform bitwise and. -/
  | andUniform (h : Head) (o : UBin)
  /-- R80. Uniform bitwise or. -/
  | orUniform (h : Head) (o : UBin)
  /-- R80. Uniform bitwise exclusive or. -/
  | xorUniform (h : Head) (o : UBin)
  /-- R80. Uniform a and not b. -/
  | andnUniform (h : Head) (o : UBin)
  /-- R80. Uniform divide toward zero, with defined results for zero divisor and overflow. -/
  | divUniform (h : Head) (o : UBin)
  /-- R80. Uniform remainder, with defined results for zero divisor and overflow. -/
  | remUniform (h : Head) (o : UBin)
  /-- R80. Uniform saturating add. -/
  | addsUniform (h : Head) (o : UBin)
  /-- R80. Uniform saturating subtract. -/
  | subsUniform (h : Head) (o : UBin)
  /-- R81. Uniform shift left; amounts 32 to 63 give zero. -/
  | shlUniform (h : Head) (o : UBin)
  /-- R81. Uniform logical or arithmetic shift right. -/
  | shrUniform (h : Head) (o : UBin)
  /-- R82. Uniform compare writing 1 or 0 to the destination. -/
  | setCc (h : Head) (o : SetCc)
  /-- R83. 64-bit pair add, register or immediate. -/
  | add64 (h : Head) (o : UBin)
  /-- R83. 64-bit pair subtract. -/
  | sub64 (h : Head) (o : UBin)
  /-- R83. Full 64-bit product of two uniforms into a pair. -/
  | mulw (h : Head) (o : UBin)
  /-- R83. 64-bit pair shift left. -/
  | shl64 (h : Head) (o : UBin)
  /-- R83. 64-bit pair logical shift right. -/
  | shr64 (h : Head) (o : UBin)
  /-- R83. 64-bit pair arithmetic shift right. -/
  | sar64 (h : Head) (o : UBin)
  /-- R83. Pair plus extended uniform scaled by k. -/
  | lea (h : Head) (o : LeaOp)
  /-- R84. Writes a sign-extended immediate to a uniform register. -/
  | movUniformImm (h : Head) (o : UImm)
  /-- R84. Copies one uniform register to another. -/
  | movUniformReg (h : Head) (o : U2)
  /-- R84. Copies a uniform pair. -/
  | mov64 (h : Head) (o : U2)
  /-- R84. Reads a per-wave special register into a uniform or pair. -/
  | movUniformFromSpecial (h : Head) (o : FromSpecial)
  /-- R115. Reads a special register into each active element of a vector. -/
  | movVectorFromSpecial (h : Head) (o : VSpecial)
  /-- R84. Writes %frm or %fflags from a uniform. -/
  | movToSpecial (h : Head) (o : ToSpecial)
  /-- R85. Predicate and over the enabled lanes. -/
  | pand (h : Head) (o : PBin)
  /-- R85. Predicate or. -/
  | por (h : Head) (o : PBin)
  /-- R85. Predicate exclusive or. -/
  | pxor (h : Head) (o : PBin)
  /-- R85. Predicate a and not b. -/
  | pandn (h : Head) (o : PBin)
  /-- R85. Predicate negation. -/
  | pnot (h : Head) (o : PUn)
  /-- R85. Sets predicate lanes from the bits of a pair. -/
  | pset (h : Head) (o : PFromU)
  /-- R85. Gathers predicate lanes into a pair. -/
  | pget (h : Head) (o : UFromP)
  /-- R85. Counts true predicate lanes of the enabled set. -/
  | pcnt (h : Head) (o : UFromP)
  /-- R87. Branch on a uniform compare, taken by every enabled lane. -/
  | brCc (h : Head) (o : BrCc)
  /-- R88. Branch on any, all, none or not-all of a predicate over the enabled set. -/
  | brVote (h : Head) (o : BrVoteOp)
  /-- R89. Jump to the entry header plus a uniform offset. -/
  | jmpUniform (h : Head) (sa : UReg)
  /-- R89. Per-lane jump to the entry header plus a vector offset. -/
  | jmpVector (h : Head)
  /-- R89. Call writing the link to a uniform register. -/
  | callUniform (h : Head) (o : CallOp)
  /-- R89. Call writing the link per lane to a vector register. -/
  | callVector (h : Head) (off : Off)
  /-- R90. Ends the enabled lanes. -/
  | exit (h : Head)
  /-- R90. Ends every lane of the wave and may signal the task done. -/
  | done (h : Head)
  /-- R91. Makes the group not ready for n cycles. -/
  | nap (h : Head) (n : BitVec 12)
  /-- R91. The nap's cycle count runs out and the group may issue again. -/
  | napExpiry (w : WaveRef)
  /-- R92. Sets %vl to min(request, w·g) and copies it to a uniform. -/
  | setvl (h : Head) (o : SetVl)
  /-- R92. Sets %vtype and clamps %vl to the new group size. -/
  | setvtype (h : Head) (o : SetVtype)
  /-- R93. Parks the enabled lanes until the named counters are at or below their bounds. -/
  | wait (h : Head) (a : WaitArg)
  /-- R94. Arrival of the enabled lanes at a team barrier. -/
  | barTeam (h : Head)
  /-- R94. Arrival of the enabled lanes at a gang barrier. -/
  | barGang (h : Head)
  /-- R95. Reads a post record and sends a post to the launch scheduler. -/
  | taskPost (h : Head) (o : U2)
  /-- R95. The launch scheduler checks the post, adds the task or fails, and writes the reply. -/
  | taskPostReply (k : Nat)
  /-- R97. Raises a precise software trap carrying n. -/
  | trap (h : Head) (n : BitVec 12)
  /-- R18. After 64 consecutive group issues without a runnable wave issuing, the slot issues for that wave alone. -/
  | laggingWaveStep (core : Nat) (slot : Nat) (grp : Nat)
  /-- R102. Vector add modulo 2^32. -/
  | addVector (h : Head) (o : VBin)
  /-- R102. Vector subtract modulo 2^32. -/
  | subVector (h : Head) (o : VBin)
  /-- R102. Vector saturating add. -/
  | addsVector (h : Head) (o : VBin)
  /-- R102. Vector saturating subtract. -/
  | subsVector (h : Head) (o : VBin)
  /-- R102. Vector minimum. -/
  | minVector (h : Head) (o : VBin)
  /-- R102. Vector maximum. -/
  | maxVector (h : Head) (o : VBin)
  /-- R102. Vector absolute value. -/
  | abs (h : Head) (o : VUnTy)
  /-- R102. Vector absolute difference. -/
  | absd (h : Head) (o : VBin)
  /-- R102. Vector multiply, low 32 bits, under the accuracy class. -/
  | mulVector (h : Head) (o : VBin)
  /-- R102. Vector multiply, high 32 bits. -/
  | mulhVector (h : Head) (o : VBin)
  /-- R102. Vector multiply-add modulo 2^32. -/
  | mad (h : Head) (o : VTri)
  /-- R103. Vector shift left. -/
  | shlVector (h : Head) (o : VBin)
  /-- R103. Vector shift right. -/
  | shrVector (h : Head) (o : VBin)
  /-- R103. Funnel shift left of two sources. -/
  | fshl (h : Head) (o : Funnel)
  /-- R103. Funnel shift right of two sources. -/
  | fshr (h : Head) (o : Funnel)
  /-- R104. Bitwise three-input table lookup. -/
  | lut3 (h : Head) (o : Lut3Op)
  /-- R104. Vector bitwise and. -/
  | andVector (h : Head) (o : VBin)
  /-- R104. Vector bitwise or. -/
  | orVector (h : Head) (o : VBin)
  /-- R104. Vector bitwise exclusive or. -/
  | xorVector (h : Head) (o : VBin)
  /-- R104. Vector a and not b. -/
  | andnVector (h : Head) (o : VBin)
  /-- R104. Vector bitwise not. -/
  | not (h : Head) (o : VUn)
  /-- R105. Population count per element. -/
  | popc (h : Head) (o : VUn)
  /-- R105. Count leading zeros per element. -/
  | clz (h : Head) (o : VUn)
  /-- R105. Count trailing zeros per element. -/
  | ctz (h : Head) (o : VUn)
  /-- R105. Bit reversal per element. -/
  | brev (h : Head) (o : VUn)
  /-- R106. Bit-field extract, signed or unsigned. -/
  | bfx (h : Head) (o : BField)
  /-- R106. Bit-field insert into the destination. -/
  | bfi (h : Head) (o : BField)
  /-- R107. Vector compare equal into a predicate. -/
  | cmpEq (h : Head) (o : VCmp)
  /-- R107. Vector compare not equal into a predicate. -/
  | cmpNe (h : Head) (o : VCmp)
  /-- R107. Vector compare less than into a predicate. -/
  | cmpLt (h : Head) (o : VCmp)
  /-- R107. Vector compare greater or equal into a predicate. -/
  | cmpGe (h : Head) (o : VCmp)
  /-- R107. Vector compare less or equal into a predicate. -/
  | cmpLe (h : Head) (o : VCmp)
  /-- R107. Vector compare greater than into a predicate. -/
  | cmpGt (h : Head) (o : VCmp)
  /-- R108. Selects per element between two sources by a predicate. -/
  | sel (h : Head) (o : SelOp)
  /-- R109. Packed byte add. -/
  | padd (h : Head) (o : VBin)
  /-- R109. Packed byte subtract. -/
  | psub (h : Head) (o : VBin)
  /-- R109. Packed byte saturating add. -/
  | padds (h : Head) (o : VBin)
  /-- R109. Packed byte saturating subtract. -/
  | psubs (h : Head) (o : VBin)
  /-- R109. Packed byte minimum. -/
  | pmin (h : Head) (o : VBin)
  /-- R109. Packed byte maximum. -/
  | pmax (h : Head) (o : VBin)
  /-- R109. Packed byte absolute difference. -/
  | pabsd (h : Head) (o : VBin)
  /-- R109. Four-byte dot product accumulated into 32 bits. -/
  | pdot (h : Head) (o : VTri)
  /-- R109. Clamps two values to bytes and inserts them. -/
  | pack (h : Head) (o : PackOp)
  /-- R111. Rotates elements modulo %vl. -/
  | lrot (h : Head) (o : LMove)
  /-- R111. Shifts elements, filling with zero. -/
  | lsh (h : Head) (o : LMove)
  /-- R111. Broadcasts element j to every active element. -/
  | bcast (h : Head) (o : LMove)
  /-- R111. Permutes elements by a vector of indices. -/
  | perm (h : Head) (o : V3R)
  /-- R111. Extracts element j into a uniform. -/
  | lext (h : Head) (o : LextOp)
  /-- R111. Inserts a uniform into element j. -/
  | lins (h : Head) (o : LinsOp)
  /-- R112. Uniform 1 if some active predicate element is true. -/
  | voteAny (h : Head) (o : UFromP)
  /-- R112. Uniform 1 if every active predicate element is true. -/
  | voteAll (h : Head) (o : UFromP)
  /-- R112. Counts true active predicate elements. -/
  | voteCnt (h : Head) (o : UFromP)
  /-- R112. Mask of true active elements into a pair. -/
  | voteMsk (h : Head) (o : UFromP)
  /-- R112. Uniform 1 if all active elements are equal. -/
  | voteEq (h : Head) (o : UFromV)
  /-- R112. Predicate true at the lowest active element. -/
  | elect (h : Head) (pd : PReg)
  /-- R113. Fixed-tree reduction over active elements. -/
  | red (h : Head) (o : RedArg)
  /-- R113. Inclusive fixed-tree scan. -/
  | scan (h : Head) (o : ScanArg)
  /-- R113. Exclusive fixed-tree scan. -/
  | scanx (h : Head) (o : ScanArg)
  /-- R114. Copies a vector register. -/
  | movVectorReg (h : Head) (o : VUn)
  /-- R114. Writes an immediate into each active element. -/
  | movVectorImm (h : Head) (o : VImm)
  /-- R114. Writes a uniform into each active element. -/
  | movVectorUniform (h : Head) (o : VFromU)
  /-- R53. Reads a vector register whose number is computed at run time. -/
  | movIxRead (h : Head) (o : IxRead)
  /-- R53. Writes a vector register whose number is computed at run time. -/
  | movIxWrite (h : Head) (o : IxWrite)
  /-- R118. Float add, rounded once. -/
  | fadd (h : Head) (o : VBin)
  /-- R118. Float subtract, rounded once. -/
  | fsub (h : Head) (o : VBin)
  /-- R118. Float multiply under the accuracy class. -/
  | fmul (h : Head) (o : VBin)
  /-- R118. Fused multiply-add. -/
  | fma (h : Head) (o : VTri)
  /-- R118. Fused multiply-subtract. -/
  | fms (h : Head) (o : VTri)
  /-- R118. Negated fused multiply-add. -/
  | fnma (h : Head) (o : VTri)
  /-- R118. Negated fused multiply-subtract. -/
  | fnms (h : Head) (o : VTri)
  /-- R119. Flips the sign bit. -/
  | fneg (h : Head) (o : VUnTy)
  /-- R119. Clears the sign bit. -/
  | fabs (h : Head) (o : VUnTy)
  /-- R119. Copies the sign of b onto a. -/
  | fsgn (h : Head) (o : VBin)
  /-- R120. Float minimum. -/
  | fmin (h : Head) (o : VBin)
  /-- R120. Float maximum. -/
  | fmax (h : Head) (o : VBin)
  /-- R121. Float compare into a predicate. -/
  | fcmp (h : Head) (o : FCmpOp)
  /-- R121. Classifies each value into a one-hot word. -/
  | fclass (h : Head) (o : VUn)
  /-- R122. Correctly rounded division. -/
  | fdiv (h : Head) (o : VBin)
  /-- R122. Correctly rounded square root. -/
  | fsqrt (h : Head) (o : VUnTy)
  /-- R122. Correctly rounded reciprocal. -/
  | frcp (h : Head) (o : VUn)
  /-- R122. Correctly rounded reciprocal square root. -/
  | frsq (h : Head) (o : VUn)
  /-- R123. Correctly rounded sine. -/
  | fsin (h : Head) (o : VUn)
  /-- R123. Correctly rounded cosine. -/
  | fcos (h : Head) (o : VUn)
  /-- R123. Correctly rounded 2^x. -/
  | fexp2 (h : Head) (o : VUn)
  /-- R123. Correctly rounded log2. -/
  | flog2 (h : Head) (o : VUn)
  /-- R127. Widening or narrowing conversion between float formats. -/
  | cvtFloat (h : Head) (o : CvtOp)
  /-- R128. Conversion between integer and FP32. -/
  | cvtIntFloat (h : Head) (o : CvtOp)
  /-- R128. Rounds to an integral FP32 value. -/
  | frint (h : Head) (o : VUn)
  /-- R129. Computes the scale byte of each 32-element block. -/
  | bscale (h : Head) (o : BScale)
  /-- R130. Quantises into a 4-bit code at a nibble position. -/
  | bq (h : Head) (o : BQuant)
  /-- R130. Dequantises a 4-bit code. -/
  | bdq (h : Head) (o : BQuant)
  /-- R131. Clears the exact accumulator and its marks. -/
  | xaccClr (h : Head)
  /-- R131. Adds active FP32 values exactly to the exact accumulator. -/
  | xaccAdd (h : Head) (va : VReg)
  /-- R131. Adds 16-bit products exactly to the exact accumulator. -/
  | xaccMac (h : Head) (o : XMac)
  /-- R131. Rounds the exact accumulator once into a uniform. -/
  | xaccRd (h : Head) (sd : UReg)
  /-- R126. Validates an activation table image and loads it into the shadow copy. -/
  | actLd (h : Head) (o : ActLd)
  /-- R126. When no fact using the old version is in flight, the shadow becomes live and 0 is written. -/
  | actLdFlip (team : Nat) (tb : BitVec 2)
  /-- R125. Activation table interpolation, latching the live version. -/
  | fact (h : Head) (o : FactOp)
  /-- R125. An in-flight fact completes and ORs its flags. -/
  | factComplete (w : WaveRef)
  /-- R133. Seeds a lane's generator state by jumping from the launch seed. -/
  | rngInit (h : Head) (o : VFromU)
  /-- R133. Steps a generator and outputs 32 bits. -/
  | rngNext (h : Head) (o : VUn)
  /-- R133. Jumps a generator ahead by m·2^64 steps. -/
  | rngJump (h : Head) (o : VFromU)
  /-- R140. Vector word load. -/
  | ldB32 (h : Head) (o : VMem)
  /-- R140. Vector byte load, sign-extended. -/
  | ldI8 (h : Head) (o : VMem)
  /-- R140. Vector byte load, zero-extended. -/
  | ldN8 (h : Head) (o : VMem)
  /-- R140. Vector half load. -/
  | ldF16 (h : Head) (o : VMem)
  /-- R140. Vector nibble load. -/
  | ldB4 (h : Head) (o : VMem)
  /-- R140. Vector two-word load into two registers. -/
  | ldW2 (h : Head) (o : VMem)
  /-- R140. Vector four-word load into four registers. -/
  | ldW4 (h : Head) (o : VMem)
  /-- R143. First-fault word load that shortens %vl instead of trapping. -/
  | ldFfB32 (h : Head) (o : VMem)
  /-- R143. First-fault byte load. -/
  | ldFfN8 (h : Head) (o : VMem)
  /-- R142. Uniform word load. -/
  | ldsB32 (h : Head) (o : UMem)
  /-- R142. Uniform pair load. -/
  | ldsW2 (h : Head) (o : UMem)
  /-- R144. Full/empty load: parks on empty, reads and empties on full. -/
  | ldSync (h : Head) (o : VMem)
  /-- R140. Vector word store. -/
  | stB32 (h : Head) (o : VMem)
  /-- R140. Vector byte store. -/
  | stN8 (h : Head) (o : VMem)
  /-- R140. Vector half store. -/
  | stF16 (h : Head) (o : VMem)
  /-- R140. Vector nibble store, read-modify-write of its byte. -/
  | stB4 (h : Head) (o : VMem)
  /-- R140. Vector two-word store. -/
  | stW2 (h : Head) (o : VMem)
  /-- R140. Vector four-word store. -/
  | stW4 (h : Head) (o : VMem)
  /-- R142. Uniform word store. -/
  | stsB32 (h : Head) (o : UMem)
  /-- R142. Uniform pair store. -/
  | stsW2 (h : Head) (o : UMem)
  /-- R144. Full/empty store: parks on full, writes and fills on empty. -/
  | stSync (h : Head) (o : VMem)
  /-- R144. Stores and marks the word full without parking. -/
  | stFill (h : Head) (o : VMem)
  /-- R144. Marks a word empty without parking. -/
  | feClr (h : Head) (m : MemOp)
  /-- R145. Prefetch into the grove cache, optionally starting migration. -/
  | pf (h : Head) (o : PfOp)
  /-- R138. Load data arrives, destination written, LD decremented in issue order. -/
  | loadComplete (w : WaveRef) (k : Nat)
  /-- R32. A store is performed and its ST decrement is made in issue order. -/
  | storeRetire (w : WaveRef) (failed : Bool)
  /-- R136. A translation walk completes and parked lanes reissue the instruction. -/
  | pageWalkComplete (k : Nat)
  /-- R271. The page copy ends, the leaf is rewritten, waiters resume at anchors or positions. -/
  | migrationComplete (k : Nat) (failed : Bool)
  /-- R281. Atomic add, value-returning forms per ORD. -/
  | atomAdd (h : Head) (o : AtomOp)
  /-- R281. Atomic signed minimum. -/
  | atomMinI32 (h : Head) (o : AtomOp)
  /-- R281. Atomic unsigned minimum. -/
  | atomMinN32 (h : Head) (o : AtomOp)
  /-- R281. Atomic signed maximum. -/
  | atomMaxI32 (h : Head) (o : AtomOp)
  /-- R281. Atomic unsigned maximum. -/
  | atomMaxN32 (h : Head) (o : AtomOp)
  /-- R281. Atomic and. -/
  | atomAnd (h : Head) (o : AtomOp)
  /-- R281. Atomic or. -/
  | atomOr (h : Head) (o : AtomOp)
  /-- R281. Atomic exclusive or. -/
  | atomXor (h : Head) (o : AtomOp)
  /-- R281. Atomic exchange. -/
  | atomXchg (h : Head) (o : AtomOp)
  /-- R281. Atomic compare-and-swap. -/
  | atomCas (h : Head) (o : AtomOp)
  /-- R281. Atomic FP32 add with RNE. -/
  | atomFadd (h : Head) (o : AtomOp)
  /-- R281. Non-returning atomic add counted on ST. -/
  | updAdd (h : Head) (o : AtomOp)
  /-- R281. Non-returning atomic signed minimum. -/
  | updMinI32 (h : Head) (o : AtomOp)
  /-- R281. Non-returning atomic unsigned minimum. -/
  | updMinN32 (h : Head) (o : AtomOp)
  /-- R281. Non-returning atomic signed maximum. -/
  | updMaxI32 (h : Head) (o : AtomOp)
  /-- R281. Non-returning atomic unsigned maximum. -/
  | updMaxN32 (h : Head) (o : AtomOp)
  /-- R281. Non-returning atomic and. -/
  | updAnd (h : Head) (o : AtomOp)
  /-- R281. Non-returning atomic or. -/
  | updOr (h : Head) (o : AtomOp)
  /-- R281. Non-returning atomic exclusive or. -/
  | updXor (h : Head) (o : AtomOp)
  /-- R281. Non-returning atomic FP32 add. -/
  | updFadd (h : Head) (o : AtomOp)
  /-- R295. A core receiving an RMT request performs its pending team-scope releases at the wider scope. -/
  | remotePromotionRequest (line : Nat)
  /-- R283. Acquire, release or full fence at a scope, optionally promoting remote releases. -/
  | fence (h : Head) (o : FenceOp)
  /-- R258. Checks a gather block and sends the indexed gather to the access processor. -/
  | apGth (h : Head) (o : AsyOp)
  /-- R275. Sends a one-row copy command. -/
  | apCpy (h : Head) (o : AsyOp)
  /-- R275. Sends a strided multi-row copy command. -/
  | apCp2 (h : Head) (o : AsyOp)
  /-- R279. Sends an indexed scatter command. -/
  | apSct (h : Head) (o : AsyOp)
  /-- R260. The access processor performs a gather step's positions, writing rows and filling signals. -/
  | apGatherStep (core : Nat)
  /-- R276. The access processor copies a row in 4 KiB pieces and signals at the end. -/
  | apCopyRow (core : Nat)
  /-- R279. The access processor writes one scatter row and fills its signal. -/
  | apScatterPosition (core : Nat)
  /-- R277. A queue-destined copy pushes a 256-byte entry once the queue has room. -/
  | apQueuePush (core : Nat)
  /-- R274. A command held 110,000 cycles on a full queue ends with a queue stall. -/
  | apQueueStall (core : Nat)
  /-- R278. Pops the oldest access-queue entry into a vector. -/
  | aqPop (h : Head) (o : AqPop)
  /-- R284. Sends a scratchpad-to-global tile copy to the matrix engine. -/
  | tst (h : Head) (o : AsyOp)
  /-- R284. Sends a versioned global-to-scratchpad tile load. -/
  | tldV (h : Head) (o : AsyOp)
  /-- R242. The engine reads a tile between two even equal readings of its version word, repeating as needed. -/
  | versionedTileRead (core : Nat)
  /-- R285. Requests migration of pages to the fast tier. -/
  | migUp (h : Head) (o : MigOp)
  /-- R285. Requests demotion of pages to the capacity tier. -/
  | migDown (h : Head) (o : MigOp)
  /-- R163. Sends a bag creation request with a descriptor address. -/
  | bagNew (h : Head) (o : U2)
  /-- R164. Reads keys and records and sends an answered put. -/
  | bagPut (h : Head) (o : BagPut)
  /-- R165. Sends a snapshot command. -/
  | bagSnap (h : Head) (o : AsyOp)
  /-- R166. Sends an iteration command naming root code. -/
  | bagEach (h : Head) (o : RootCmd)
  /-- R167. Sends a drain command with a destination. -/
  | bagDrain (h : Head) (o : BagDrain)
  /-- R168. Sends a count query. -/
  | bagCnt (h : Head) (o : BagCnt)
  /-- R169. Sends a capacity growth request. -/
  | bagGrow (h : Head) (o : U3)
  /-- R165. Sends a seal command. -/
  | bagSeal (h : Head) (o : AsyOp)
  /-- R165. Sends a free command. -/
  | bagFree (h : Head) (o : AsyOp)
  /-- R163. Placement unit checks the descriptor, reserves rows and replies a handle or failure. -/
  | bagNewTake (k : Nat)
  /-- R164. Placement unit refuses or places the put's records by the placement rule. -/
  | bagPutTake (k : Nat)
  /-- R165. Placement unit sets every snapshot to its count. -/
  | bagSnapTake (k : Nat)
  /-- R166. Placement unit checks target and busy state, binds the snapshot and starts root code. -/
  | bagEachTake (k : Nat)
  /-- R167. Placement unit checks busy, pins the destination and accepts or refuses the drain. -/
  | bagDrainTake (k : Nat)
  /-- R167. The drain's copies finish, counts reset, and held commands are taken. -/
  | bagDrainComplete (k : Nat)
  /-- R168. Placement unit replies the selected count. -/
  | bagCntTake (k : Nat)
  /-- R169. Placement unit grows the shares or replies a failure. -/
  | bagGrowTake (k : Nat)
  /-- R165. Placement unit marks the bag sealed. -/
  | bagSealTake (k : Nat)
  /-- R165. Placement unit discards records, raises GEN or retires the entry, and releases rows. -/
  | bagFreeTake (k : Nat)
  /-- R157. An answer or reply reaches the wave, writing the destination or raising the refusal trap. -/
  | bagAnswerArrival (k : Nat)
  /-- R180. Checks a run block and sends it to the stand's engine. -/
  | rootRun (h : Head) (o : RootCmd)
  /-- R180. The engine checks each entry, refusing some and starting invocations for the rest. -/
  | rootRunTake (k : Nat)
  /-- R186. Checks a bmac block and sends the broadcast multiply-accumulate. -/
  | bmac (h : Head) (o : AsyOp)
  /-- R186. The engine checks the block and pages, refusing or running each entry. -/
  | bmacTake (k : Nat)
  /-- R186. A unit computes a group of 32 output rows, poisoning outputs of failing reads. -/
  | bmacRowGroup (unit : Nat) (errs : List Nat)
  /-- R190. Sends a crown sum with a destination. -/
  | crownSum (h : Head) (o : CrownSum)
  /-- R190. Reads, optionally clears, reduces the function's slots and writes 256 results. -/
  | crownSumTake (k : Nat)
  /-- R190. Sends a crown clear. -/
  | crownClr (h : Head) (sco : Scope)
  /-- R190. Sets every slot of the function to +0. -/
  | crownClrTake (k : Nat)
  /-- R175. A root unit zeroes registers, sets parameters and binds block 0. -/
  | rootInvocationStart (k : Nat)
  /-- R182. Root load of a word of the lane's bound record. -/
  | recLd (h : Head) (o : RecLd)
  /-- R182. Root store of a word into the lane's bound record. -/
  | recSt (h : Head) (o : RecSt)
  /-- R182. Writes each lane's record index. -/
  | recIdx (h : Head) (vd : VReg)
  /-- R183. Root window load by address. -/
  | rld (h : Head) (o : VMem)
  /-- R183. Root window store by address. -/
  | rst (h : Head) (o : VMem)
  /-- R184. Finds the next set bit of a skip bitmap. -/
  | zskip (h : Head) (o : U3)
  /-- R188. Writes or adds lane values into the unit's crown slot. -/
  | crownPut (h : Head) (o : CrownPut)
  /-- R185. Ends the block and binds the next or ends the invocation. -/
  | rkNext (h : Head)
  /-- R176. A block reaching 2^20 instructions takes a root fault with cause 5. -/
  | rootBlockLimit (unit : Nat)
  /-- R231. Votes, reads and checks the block and sends a matrix multiply-accumulate. -/
  | mxMma (h : Head) (o : MxMma)
  /-- R238. Sends an accumulator store command. -/
  | mxSt (h : Head) (o : MxSt)
  /-- R239. Sends an accumulator load command. -/
  | mxLd (h : Head) (o : MxLd)
  /-- R240. Sends an accumulator clear command. -/
  | mxClr (h : Head) (o : MxClr)
  /-- R243. Sends a requantising transposition command. -/
  | mxRq (h : Head) (o : AsyOp)
  /-- R244. Loads a tile descriptor register from the window. -/
  | tdLd (h : Head) (o : TdOp)
  /-- R244. Stores a tile descriptor register to the window. -/
  | tdSt (h : Head) (o : TdOp)
  /-- R244. Sets the BASE of a tile descriptor register. -/
  | tdBase (h : Head) (o : TdOp)
  /-- R234. The engine takes a command and checks accumulator formats. -/
  | matrixCommandTake (core : Nat)
  /-- R234. The engine performs one K-slice of one output tile. -/
  | matrixStep (core : Nat)
  /-- R238. The engine converts and writes a group of destination rows. -/
  | matrixStoreRows (core : Nat)
  /-- R241. All-or-nothing store under the version-word protocol. -/
  | aonStore (core : Nat)
  /-- R239. The engine fills one accumulator tile from a source. -/
  | matrixLoadTile (core : Nat)
  /-- R243. The engine forms new blocks for one destination block column. -/
  | requantiseBlockColumn (core : Nat)
  /-- R256. Reads the context's event accumulator. -/
  | emeter (h : Head) (sd : UReg)
  /-- R256. Reads the context's share accumulator. -/
  | emeterShr (h : Head) (sd : UReg)
  /-- R256. Reads the quota counter. -/
  | equota (h : Head) (sd : UReg)
  /-- R256. Reads the refill amount. -/
  | equotaFill (h : Head) (sd : UReg)
  /-- R256. Reads the quota cap. -/
  | equotaCap (h : Head) (sd : UReg)
  /-- R251. A weighed event's charge is added to its context's event accumulator. -/
  | chargePost (k : Nat)
  /-- R250. Each 110,000-cycle period recomputes weights, splits shared costs and updates quotas. -/
  | periodEnd
  /-- R253. A write to Q takes effect at the next update and clears the carry. -/
  | sqWrite (fn : Nat) (v : DWord)
  /-- R254. Writes RLS, IRQ and EN of a function's quota control. -/
  | sctlWrite (fn : Nat) (v : DWord)
  /-- R301. Reads and clears dirty bits of 64 pages and arms tracking. -/
  | dirtySnap (h : Head) (o : Sys3)
  /-- R301. Reads and clears dirty bits and disarms tracking. -/
  | dirtySnapFin (h : Head) (o : Sys3)
  /-- R302. Stops a function, saves its teams and writes a stop record. -/
  | vfStop (h : Head) (o : VfStop)
  /-- R314. Leaves trap mode resuming at TPC. -/
  | tret (h : Head)
  /-- R314. Leaves trap mode resuming after the trapping item. -/
  | tretNext (h : Head)
  /-- R314. Leaves trap mode resuming at the region anchor. -/
  | tretAnc (h : Head)
  /-- R314. Leaves trap mode resuming at a per-lane target. -/
  | tretVector (h : Head) (va : VReg)
  /-- R314. Writes TDET into a vector register pair. -/
  | tinfo (h : Head) (vd : VReg)
  /-- R328. Saves the wave image and registers, and team parts in wave 0. -/
  | wentSt (h : Head) (sd : UReg)
  /-- R328. Restores the wave image and registers. -/
  | wentLd (h : Head) (sd : UReg)
  /-- R328. Ends save mode and leaves the core. -/
  | svEnd (h : Head)
  /-- R328. Ends restore and resumes the wave from its restored state. -/
  | svEndRes (h : Head)
  /-- R73. Validates and loads a decode map into an idle function. -/
  | dtabLd (h : Head) (o : Sys3)
  /-- R328. Invalidates a function's translations module-wide and waits for translated accesses. -/
  | tlbInv (h : Head) (o : TlbInv)
  /-- R328. Moves a stopped function to RUN and restores its teams. -/
  | vfStart (h : Head) (o : U2)
  /-- R328. Pre-empts a function's teams on selected stands. -/
  | vfPre (h : Head) (o : VfPre)
  /-- R328. Performs a function-level reset of a function. -/
  | vfRst (h : Head) (sc : UReg)
  /-- R328. Reads and accepts a slice descriptor. -/
  | sliceSet (h : Head) (o : U2)
  /-- R328. Adds fast-tier frames to a function's pool. -/
  | poolAdd (h : Head) (o : PoolAdd)
  /-- R328. Adds capacity-tier frames to a function's pool. -/
  | poolAddCap (h : Head) (o : PoolAdd)
  /-- R306. The launch scheduler takes and checks a launch record, refusing or accepting it. -/
  | launchRecordTake (fn : Nat)
  /-- R34. The task scheduler, predecessors done, makes tiles resident, copies them and starts the task. -/
  | taskStart (launch : Nat) (task : Nat)
  /-- R311. The core scheduler admits a team or gang with entries, granules and save slot. -/
  | teamAdmit (launch : Nat) (task : Nat) (core : Nat)
  /-- R50. A qualifying wave's live set and entry are copied to its swap record. -/
  | swapOut (w : WaveRef)
  /-- R51. The head of the swap-in order is restored into a free entry. -/
  | swapIn (core : Nat) (slot : Nat)
  /-- R37. All tasks done and counts zero; the completion entry is written or held. -/
  | launchComplete (launch : Nat)
  /-- R299. A done team's staged writes are performed in order after earlier teams. -/
  | ringUnitRelease (launch : Nat)
  /-- R320. The collector stops task starts and sends a stop to engines and waves. -/
  | preemptRequest (fn : Nat)
  /-- R320. A fully reconverged wave with no reply outstanding enters save mode. -/
  | saveModeEntry (w : WaveRef)
  /-- R320. An engine stops at its unit, writes progress records and acknowledges. -/
  | engineStopAck (e : EngineRef)
  /-- R320. At 22,000 cycles, remaining waves are forced into save mode where they stand. -/
  | forcedSaveTimeout (fn : Nat)
  /-- R320. A saved team is admitted, reloaded and its engine work requeued. -/
  | teamRestore (team : Nat) (core : Nat)
  /-- R326. At START, other functions are pre-empted and the slice function dispatched. -/
  | sliceStart
  /-- R326. At START + LEN, the slice function is pre-empted and others restored. -/
  | sliceEnd
  /-- R323. A row's activation count crossing the threshold triggers refresh, delay and a record. -/
  | rowDisturbance (ch : Nat) (bank : Nat) (row : Nat)
  /-- R322. Discards the function's context, work, bags, queues and state. -/
  | functionLevelReset (fn : Nat)
  /-- R339. Boot ROM verifies and runs firmware; all state returns to reset. -/
  | moduleReset
  /-- R331. A producer-index write makes new launch records available, as a release at .sys. -/
  | queueProducerWrite (fn : Nat) (level : BitVec 3) (v : Word)
  /-- R330. Advancing the completion consumer index lets held entries be written. -/
  | completionConsumerWrite (fn : Nat) (v : Word)
  /-- R333. Sets the power cap, ignoring values outside 1,000–4,800 W. -/
  | pcapWrite (v : DWord)
  /-- R341. Requests a stack data-rate change. -/
  | srateWrite (stack : Nat) (v : DWord)
  /-- R341. After save deadlines pass, the stack retrains, parking its accesses. -/
  | stackRetrain (stack : Nat)
  /-- R333. Sets the BAR2 aperture, ignoring invalid REG values. -/
  | mwselWrite (v : DWord)
  /-- R333. Host access to device physical memory through the aperture. -/
  | bar2Access (a : Nat) (wr : Option (List Byte))
  /-- R340. CMD 1 produces a signed report over the nonce. -/
  | attestReport
  /-- R340. CMD 2 exposes the identity certificate chain. -/
  | attestCertChain
  /-- R340. The mailbox operation finishes and STS becomes data ready or error. -/
  | attestDataReady (ok : Bool)
  /-- R3. A write to a register with no behaviour of its own stores its RW fields. -/
  | registerWrite (fn : Nat) (r : PlainReg) (v : DWord)
  /-- R335. Link training exchanges LCAP and sets the version or reports mismatch. -/
  | linkUp (n : Nat) (lcap : DWord)
  /-- R337. A received flit is accepted or discarded, executing a command on its last flit. -/
  | bruskoFlitReceive (n : Nat) (b : List Byte)
  /-- R337. A NAK makes the sender resend from the named sequence number. -/
  | bruskoNakReceive (n : Nat) (seq : Nat)
  /-- R337. Ten NAKs for one SEQ start a retraining; three failures take the link down. -/
  | linkRetrain (n : Nat)
  /-- R334. A capacity port goes down and its frames become unreachable. -/
  | cxlPortDown (n : Nat)
  /-- R342. A frame with an uncorrectable or repeated corrected error is retired and logged. -/
  | frameRetirement
  /-- R344. At 115 °C all work stops, every function resets and a fatal error is reported. -/
  | thermalShutdown
  /-- R251. A virtual function is created, zeroing its accumulators, quota registers and crown slots. -/
  | functionCreation (fn : Nat)
  /-- R170. A function's context is destroyed, ending its bags and other persistent state. -/
  | contextDestruction (fn : Nat)
  /-- R337. A Brusko link retraining finishes, bringing the link back up with its replay buffer or counting a failure. -/
  | linkRetrainingEnd (n : Nat) (ok : Bool)
  /-- R341. A stack's retraining finishes and its parked accesses proceed at the new rate. -/
  | stackRetrainingEnd (stack : Nat)
  /-- R341. The thermal controller requests a stack data-rate change. -/
  | thermalControllerRequest (stack : Nat) (rate : BitVec 16)
  deriving DecidableEq, Repr, Inhabited

end Sys2Proof
end

