-- ==== Sys2Proof/Machine/Map1.lean ====
section
/-! DEFINITION. Map 1 of the decode table (R72 to R79 and the entry tables of the instruction chapters), the
register operands of every instruction (R62), and the conditions that R75 steps 10 to 12 put on an
instruction's own fields. -/
namespace Sys2Proof

/-! ### Codes -/

/-- The CLS number of R59. -/
def Cls.code : Cls → BitVec 4
  | .v3 => 0 | .v4 => 1 | .vi => 2 | .mem => 3 | .br => 4 | .asy => 5 | .sys => 6 | .long => 0xA

/-- The bit of FMT that allows a class (R72). -/
def Cls.fmtBit : Cls → Nat
  | .v3 => 0 | .v4 => 1 | .vi => 2 | .mem => 3 | .br => 4 | .asy => 5 | .sys => 6 | .long => 7

/-- The type codes of R63. -/
def Ty.code : Ty → BitVec 4
  | .b32 => 0 | .i32 => 1 | .n32 => 2 | .i8 => 3 | .n8 => 4 | .f32 => 5 | .bf16 => 6 | .f16 => 7
  | .e4m3 => 8 | .e5m2 => 9 | .b4 => 10

/-! ### Classes of the forms -/

def UB.cls : UB → Cls
  | .reg _ => .v3 | .imm _ => .vi | .long _ => .long
def VB.cls : VB → Cls
  | .vec _ => .v3 | .uni _ => .v3 | .imm _ => .vi | .long _ => .long
def Imm.cls : Imm → Cls
  | .short _ => .vi | .long _ => .long
def Off.cls : Off → Cls
  | .short _ => .br | .long _ => .long
def Disp.cls : Disp → Cls
  | .short _ => .mem | .long _ => .long
def LaneArg.cls : LaneArg → Cls
  | .imm _ => .vi | .uni _ => .v3
def FieldArg.cls : FieldArg → Cls
  | .imm .. => .vi | .uni _ => .v3
def WaitArg.cls : WaitArg → Cls
  | .zero _ => .sys | .bounds _ => .long
def AtomOp.cls (o : AtomOp) : Cls := match o.disp with
  | none => .mem
  | some _ => .long

/-! ### Register operands -/

/-- The register classes an operand field can name (R39). -/
inductive RegClass where
  | vec | uni | pred | tile
  deriving DecidableEq, Repr, Inhabited

/-- A register operand: registers `num` to `num + span − 1`, times the group when `grp` (R28). `pair`
asks for an even number (R62). `pos` is the HOLD position of a source (R48). -/
structure Opnd where
  cls  : RegClass
  num  : Nat
  span : Nat := 1
  grp  : Bool := false
  rd   : Bool := false
  wr   : Bool := false
  pair : Bool := false
  pos  : Option Nat := none
  deriving DecidableEq, Repr, Inhabited

namespace Opnd
def ur (r : UReg) : Opnd := { cls := .uni, num := r.toNat, rd := true }
def uw (r : UReg) : Opnd := { cls := .uni, num := r.toNat, wr := true }
def pr (r : UReg) : Opnd := { cls := .uni, num := r.toNat, span := 2, rd := true, pair := true }
def pw (r : UReg) : Opnd := { cls := .uni, num := r.toNat, span := 2, wr := true, pair := true }
/-- Grouped vector source in HOLD position `k`. -/
def vr (k : Nat) (r : VReg) : Opnd := { cls := .vec, num := r.toNat, grp := true, rd := true, pos := some k }
/-- Grouped vector source with no HOLD position. -/
def vrx (r : VReg) : Opnd := { cls := .vec, num := r.toNat, grp := true, rd := true }
/-- The fourth operand of a prefix. -/
def vr4 (r : VReg) : Opnd := vrx r
def vw (r : VReg) : Opnd := { cls := .vec, num := r.toNat, grp := true, wr := true }
def vrw (r : VReg) : Opnd := { cls := .vec, num := r.toNat, grp := true, rd := true, wr := true }
/-- The data register of an atomic that returns a value. -/
def vrwc (r : VReg) : Opnd := vrw r
/-- Vector registers outside the group rule: a fixed run of `n`. -/
def v1r (r : VReg) (n : Nat) : Opnd := { cls := .vec, num := r.toNat, span := n, rd := true }
def v1w (r : VReg) (n : Nat) : Opnd := { cls := .vec, num := r.toNat, span := n, wr := true }
def v1rw (r : VReg) (n : Nat) : Opnd := { cls := .vec, num := r.toNat, span := n, rd := true, wr := true }
def p1r (r : PReg) : Opnd := { cls := .pred, num := r.toNat, rd := true }
def p1w (r : PReg) : Opnd := { cls := .pred, num := r.toNat, wr := true }
def pgr (r : PReg) : Opnd := { cls := .pred, num := r.toNat, grp := true, rd := true }
def pgw (r : PReg) : Opnd := { cls := .pred, num := r.toNat, grp := true, wr := true }
def tr (r : TReg) : Opnd := { cls := .tile, num := r.toNat, rd := true }
def tw (r : TReg) : Opnd := { cls := .tile, num := r.toNat, wr := true }
def trw (r : TReg) : Opnd := { cls := .tile, num := r.toNat, rd := true, wr := true }
/-- How many registers the operand names under group `g`. -/
def regs (o : Opnd) (g : Nat) : Nat := bif o.grp then o.span * g else o.span
end Opnd

def UB.ops : UB → List Opnd
  | .reg r => [.ur r]
  | _ => []
def UB.pairOps : UB → List Opnd
  | .reg r => [.pr r]
  | _ => []
def VB.ops : VB → List Opnd
  | .vec r => [.vr 1 r]
  | .uni r => [.ur r]
  | _ => []
def LaneArg.ops : LaneArg → List Opnd
  | .imm _ => []
  | .uni r => [.ur r]
def FieldArg.ops : FieldArg → List Opnd
  | .imm .. => []
  | .uni r => [.ur r]
def UBin.ops (o : UBin) : List Opnd := [.uw o.dst, .ur o.sa] ++ o.b.ops
def VBin.ops (o : VBin) : List Opnd := [.vw o.dst, .vr 0 o.sa] ++ o.b.ops
def RedDst.opnd : RedDst → Opnd
  | .vec r => .vw r
  | .uni r => .uw r
/-- The base pair and the index of an address (R66); base 0 reads no register. -/
def addrOps (sb : UReg) (ix : Option (VReg × BitVec 2)) : List Opnd :=
  (if sb = 0 then [] else [.pr sb]) ++ (match ix with
    | none => []
    | some x => [.vrx x.1])
def MemOp.ops (m : MemOp) : List Opnd := addrOps m.sb m.ix
def AtomOp.ops (o : AtomOp) : List Opnd := addrOps o.sb o.ix

/-! ### Conditions on the fields -/

/-- Which RM values a prefix may carry (R70, R116): none, the nearest and directed modes with the dynamic
one, those with stochastic rounding, or the modes of `bq`. -/
inductive RmUse where
  | zero | near | stoch | block
  deriving DecidableEq, Repr

def RmUse.ok : RmUse → BitVec 3 → Bool
  | .zero, r => r == 0
  | .near, r => r.toNat ≤ 4 || r == 6
  | .stoch, r => r.toNat ≤ 6
  | .block, r => r == 0 || r == 5 || r == 6

/-- A prefix, if there is one, has an accepted RM and no fourth operand. -/
def pfxOk (h : Head) (rm : RmUse) : Bool :=
  match h.pfx with
  | none => true
  | some p => rm.ok p.rm && p.v4th == 0

/-- A prefix is required, because the instruction takes a fourth operand. -/
def pfxOkV4 (h : Head) (rm : RmUse) : Bool :=
  match h.pfx with
  | none => false
  | some p => rm.ok p.rm

/-- The prefix of a per-lane `jmp` or `call`: V4TH and nothing else (R89). -/
def laneTargetPfx (h : Head) : Bool :=
  match h.pfx with
  | none => false
  | some p => p.go == 0 && !p.tz && !p.mz && p.rm == 0 && !p.mn && p.mask == 0

/-- A prefix with a group override alone (R280). -/
def goOnly (h : Head) : Bool :=
  match h.pfx with
  | none => true
  | some p => !p.tz && !p.mz && p.rm == 0 && !p.mn && p.mask == 0 && p.v4th == 0

/-- GO is 00 or 01 (R164, R179). -/
def goPlain (h : Head) : Bool :=
  match h.pfx with
  | none => true
  | some p => p.go == 0 || p.go == 1

/-- The fourth operand; 0 without a prefix. -/
def v4th (h : Head) : VReg := (h.pfx.map (·.v4th)).getD 0

/-- RM is 101 or 110, so V4TH names a generator (R132). -/
def rmStoch (h : Head) : Bool :=
  match h.pfx with
  | none => false
  | some p => p.rm == 5 || p.rm == 6

/-- The generator registers of a stochastic prefix do not overlap the destination (R132). -/
def genClear (h : Head) (d : VReg) : Bool :=
  !rmStoch h || !((v4th h).toNat ≤ d.toNat && d.toNat ≤ (v4th h).toNat + 3)

def genOps (h : Head) : List Opnd := bif rmStoch h then [.v1rw (v4th h) 4] else []

/-- A special-register number that R41 defines. -/
def specialOk (n : BitVec 6) : Bool := n.toNat < 0x14

def UB.shiftOk : UB → Bool
  | .reg _ => true
  | .imm i => i.toNat ≤ 63
  | .long _ => false
def VB.shiftOk : VB → Bool
  | .vec _ | .uni _ => true
  | .imm i => i.toNat ≤ 63
  | .long _ => false

/-- `lrot` and `lsh`: −63 to 63 (R110). -/
def LaneArg.rotOk : LaneArg → Bool
  | .imm i => -63 ≤ i.toInt && i.toInt ≤ 63
  | .uni _ => true
/-- `bcast`, `lext`, `lins`: 0 to 511 (R110). -/
def LaneArg.indexOk : LaneArg → Bool
  | .imm i => i.toNat ≤ 511
  | .uni _ => true
def FieldArg.ok : FieldArg → Bool
  | .imm p l => 1 ≤ l.toNat && l.toNat ≤ 32 && p.toNat + l.toNat ≤ 32
  | .uni _ => true
/-- The types of each reduction (R113). -/
def redTyOk : RedOp → Ty → Bool
  | .add, t => [Ty.b32, .i32, .n32].contains t
  | .adds, t | .min, t | .max, t => [Ty.i32, .n32].contains t
  | _, t => t == .b32
/-- The bounds of `wait` use the layout of `%ctr`; its reserved bits are zero (R93). -/
def WaitArg.ok : WaitArg → Bool
  | .zero _ => true
  | .bounds b => b &&& 0xC0C0C0C0 == 0

/-- `cvt` between float formats: the pairs, POS and SAT of R127. -/
def CvtOp.widening (o : CvtOp) : Bool := o.dty == .f32
def narrowPosOk (t : Ty) (pos : BitVec 2) : Bool :=
  match t with
  | .bf16 | .f16 => pos.toNat ≤ 1
  | .e4m3 | .e5m2 => true
  | _ => false
def CvtOp.floatOk (o : CvtOp) : Bool :=
  bif o.widening then narrowPosOk o.src o.pos && !o.sat
  else o.src == .f32 && narrowPosOk o.dty o.pos
/-- RM of `cvt`: none when widening; when narrowing every mode, with the generator under 101 and 110. -/
def CvtOp.floatPfx (o : CvtOp) (h : Head) : Bool :=
  bif o.widening then pfxOk h .zero
  else bif rmStoch h then pfxOkV4 h .stoch else pfxOk h .stoch
def CvtOp.floatOps (o : CvtOp) (h : Head) : List Opnd :=
  bif o.widening then [.vw o.dst, .vr 0 o.sa] else [.vrw o.dst, .vr 0 o.sa] ++ genOps h
/-- `cvt` between integer and float (R128). -/
def CvtOp.intOk (o : CvtOp) : Bool :=
  !o.sat && o.pos == 0 && ((o.dty == .f32 && (o.src == .i32 || o.src == .n32))
    || (o.src == .f32 && (o.dty == .i32 || o.dty == .n32)))

/-- SB is 0 for the windows (R66). -/
def MemOp.sbOk (m : MemOp) : Bool := m.sp == .global || m.sb == 0

/-- RMT needs an acquire at `.dev` or `.sys` (R282). -/
def rmtOk (rmt : Bool) (o : Ord) (s : Scope) : Bool :=
  !rmt || ((o == .acquire || o == .acqRel) && (s == .dev || s == .sys))
def AtomOp.ok (o : AtomOp) : Bool :=
  (o.sp == .global || o.sb == 0) && rmtOk o.rmt o.ord o.sco && (!o.rmt || o.sp == .global)

/-- SCO of the bag and root commands is `.dev` or `.sys` (R162, R179). -/
def farSco : Scope → Bool
  | .dev | .sys => true
  | _ => false

/-- What an instruction is to the decoder: its map-1 OPC, its head, its class, the conditions that
steps 10, 11 and 12 of R75 put on its fields, and its register operands. -/
structure Shape where
  opc   : Nat
  head  : Head
  cls   : Cls
  six   : Bool
  seven : Bool
  eight : Bool
  ops   : List Opnd
  deriving DecidableEq, Repr


/-- The shape of each instruction; the machine's own steps have none. -/
def Instr.shape : Instr → Option Shape
  | .addUniform h o =>
    some ⟨0x000, h, o.b.cls, true, ([Ty.b32, .i32, .n32].contains o.ty), true, o.ops⟩
  | .subUniform h o =>
    some ⟨0x001, h, o.b.cls, true, ([Ty.b32, .i32, .n32].contains o.ty), true, o.ops⟩
  | .mulUniform h o =>
    some ⟨0x002, h, o.b.cls, true, ([Ty.i32, .n32].contains o.ty), true, o.ops⟩
  | .mulhUniform h o =>
    some ⟨0x003, h, o.b.cls, true, ([Ty.i32, .n32].contains o.ty), true, o.ops⟩
  | .minUniform h o =>
    some ⟨0x004, h, o.b.cls, true, ([Ty.i32, .n32].contains o.ty), true, o.ops⟩
  | .maxUniform h o =>
    some ⟨0x005, h, o.b.cls, true, ([Ty.i32, .n32].contains o.ty), true, o.ops⟩
  | .andUniform h o =>
    some ⟨0x006, h, o.b.cls, true, ([Ty.b32].contains o.ty), true, o.ops⟩
  | .orUniform h o =>
    some ⟨0x007, h, o.b.cls, true, ([Ty.b32].contains o.ty), true, o.ops⟩
  | .xorUniform h o =>
    some ⟨0x008, h, o.b.cls, true, ([Ty.b32].contains o.ty), true, o.ops⟩
  | .andnUniform h o =>
    some ⟨0x009, h, o.b.cls, true, ([Ty.b32].contains o.ty), true, o.ops⟩
  | .divUniform h o =>
    some ⟨0x00A, h, o.b.cls, true, ([Ty.i32, .n32].contains o.ty), true, o.ops⟩
  | .remUniform h o =>
    some ⟨0x00B, h, o.b.cls, true, ([Ty.i32, .n32].contains o.ty), true, o.ops⟩
  | .addsUniform h o =>
    some ⟨0x00C, h, o.b.cls, true, ([Ty.i32, .n32].contains o.ty), true, o.ops⟩
  | .subsUniform h o =>
    some ⟨0x00D, h, o.b.cls, true, ([Ty.i32, .n32].contains o.ty), true, o.ops⟩
  | .shlUniform h o =>
    some ⟨0x020, h, o.b.cls, true, ([Ty.b32].contains o.ty && o.b.shiftOk), true, o.ops⟩
  | .shrUniform h o =>
    some ⟨0x021, h, o.b.cls, true, ([Ty.i32, .n32].contains o.ty && o.b.shiftOk), true, o.ops⟩
  | .setCc h o =>
    some ⟨0x022, h, o.b.cls, true, ([Ty.b32, .i32, .n32].contains o.ty && (o.ty != .b32 || o.cc == .eq || o.cc == .ne)), true, [.uw o.dst, .ur o.sa] ++ o.b.ops⟩
  | .add64 h o =>
    some ⟨0x023, h, o.b.cls, true, ([Ty.b32].contains o.ty), true, [.pw o.dst, .pr o.sa] ++ o.b.pairOps⟩
  | .sub64 h o =>
    some ⟨0x024, h, o.b.cls, true, ([Ty.b32].contains o.ty), true, [.pw o.dst, .pr o.sa] ++ o.b.pairOps⟩
  | .mulw h o =>
    some ⟨0x025, h, o.b.cls, true, ([Ty.i32, .n32].contains o.ty), true, [.pw o.dst, .ur o.sa] ++ o.b.ops⟩
  | .shl64 h o =>
    some ⟨0x026, h, o.b.cls, true, ([Ty.b32].contains o.ty && o.b.shiftOk), true, [.pw o.dst, .pr o.sa] ++ o.b.ops⟩
  | .shr64 h o =>
    some ⟨0x027, h, o.b.cls, true, ([Ty.b32].contains o.ty && o.b.shiftOk), true, [.pw o.dst, .pr o.sa] ++ o.b.ops⟩
  | .sar64 h o =>
    some ⟨0x028, h, o.b.cls, true, ([Ty.b32].contains o.ty && o.b.shiftOk), true, [.pw o.dst, .pr o.sa] ++ o.b.ops⟩
  | .lea h o =>
    some ⟨0x029, h, .v3, true, ([Ty.i32, .n32].contains o.ty), true, [.pw o.dst, .pr o.sa, .ur o.sb]⟩
  | .movUniformImm h o =>
    some ⟨0x030, h, o.imm.cls, true, true, true, [.uw o.dst]⟩
  | .movUniformReg h o =>
    some ⟨0x031, h, .vi, true, true, true, [.uw o.dst, .ur o.sa]⟩
  | .mov64 h o =>
    some ⟨0x035, h, .vi, true, true, true, [.pw o.dst, .pr o.sa]⟩
  | .movUniformFromSpecial h o =>
    some ⟨0x032, h, .vi, true, (specialOk o.spec), true, [bif o.pair then .pw o.dst else .uw o.dst]⟩
  | .movVectorFromSpecial h o =>
    some ⟨0x033, h, .vi, (pfxOk h .zero), (specialOk o.spec), true, [.vw o.dst]⟩
  | .movToSpecial h o =>
    some ⟨0x034, h, .vi, true, (o.spec == 0x0E || o.spec == 0x0F), true, [.ur o.sa]⟩
  | .pand h o =>
    some ⟨0x040, h, .v3, true, true, true, [.p1w o.d, .p1r o.a, .p1r o.b]⟩
  | .por h o =>
    some ⟨0x041, h, .v3, true, true, true, [.p1w o.d, .p1r o.a, .p1r o.b]⟩
  | .pxor h o =>
    some ⟨0x042, h, .v3, true, true, true, [.p1w o.d, .p1r o.a, .p1r o.b]⟩
  | .pandn h o =>
    some ⟨0x043, h, .v3, true, true, true, [.p1w o.d, .p1r o.a, .p1r o.b]⟩
  | .pnot h o =>
    some ⟨0x044, h, .v3, true, true, true, [.p1w o.d, .p1r o.a]⟩
  | .pset h o =>
    some ⟨0x045, h, .v3, true, true, true, [.p1w o.d, .pr o.sa]⟩
  | .pget h o =>
    some ⟨0x046, h, .v3, true, true, true, [.pw o.dst, .p1r o.a]⟩
  | .pcnt h o =>
    some ⟨0x047, h, .v3, true, true, true, [.uw o.dst, .p1r o.a]⟩
  | .brCc h o =>
    some ⟨0x080, h, o.off.cls, true, (o.cnd != .always || (o.sa == 0 && o.sb == 0)), true, [.ur o.sa, .ur o.sb]⟩
  | .brVote h o =>
    some ⟨0x081, h, o.off.cls, true, true, true, [.p1r o.pa]⟩
  | .jmpUniform h sa =>
    some ⟨0x082, h, .br, h.pfx.isNone, true, true, [.ur sa]⟩
  | .jmpVector h =>
    some ⟨0x082, h, .br, (laneTargetPfx h), true, true, [.v1r (v4th h) 1]⟩
  | .callUniform h o =>
    some ⟨0x083, h, o.off.cls, h.pfx.isNone, true, true, [.uw o.sa]⟩
  | .callVector h off =>
    some ⟨0x083, h, off.cls, (laneTargetPfx h), true, true, [.v1w (v4th h) 1]⟩
  | .exit h =>
    some ⟨0x0A0, h, .sys, true, true, true, []⟩
  | .nap h n =>
    some ⟨0x0A1, h, .sys, true, (n != 0), true, []⟩
  | .done h =>
    some ⟨0x0A2, h, .sys, true, true, true, []⟩
  | .setvl h o =>
    some ⟨0x0A3, h, .vi, true, true, true, [.uw o.dst, .ur o.sa]⟩
  | .setvtype h o =>
    some ⟨0x0A4, h, .vi, true, true, true, [.ur o.sa]⟩
  | .wait h a =>
    some ⟨0x0B0, h, a.cls, true, a.ok, true, []⟩
  | .barTeam h =>
    some ⟨0x0B1, h, .sys, true, true, true, []⟩
  | .barGang h =>
    some ⟨0x0B2, h, .sys, true, true, true, []⟩
  | .taskPost h o =>
    some ⟨0x0C0, h, .sys, true, true, true, [.uw o.dst, .ur o.sa]⟩
  | .trap h _ =>
    some ⟨0x0C1, h, .sys, true, true, true, []⟩
  | .addVector h o =>
    some ⟨0x100, h, o.b.cls, (pfxOk h .zero), ([Ty.b32, .i32, .n32].contains o.ty), true, o.ops⟩
  | .subVector h o =>
    some ⟨0x101, h, o.b.cls, (pfxOk h .zero), ([Ty.b32, .i32, .n32].contains o.ty), true, o.ops⟩
  | .addsVector h o =>
    some ⟨0x102, h, o.b.cls, (pfxOk h .zero), ([Ty.i32, .n32].contains o.ty), true, o.ops⟩
  | .subsVector h o =>
    some ⟨0x103, h, o.b.cls, (pfxOk h .zero), ([Ty.i32, .n32].contains o.ty), true, o.ops⟩
  | .minVector h o =>
    some ⟨0x104, h, o.b.cls, (pfxOk h .zero), ([Ty.i32, .n32].contains o.ty), true, o.ops⟩
  | .maxVector h o =>
    some ⟨0x105, h, o.b.cls, (pfxOk h .zero), ([Ty.i32, .n32].contains o.ty), true, o.ops⟩
  | .abs h o =>
    some ⟨0x106, h, .v3, (pfxOk h .zero), ([Ty.i32].contains o.ty), true, [.vw o.dst, .vr 0 o.sa]⟩
  | .absd h o =>
    some ⟨0x107, h, o.b.cls, (pfxOk h .zero), ([Ty.i32, .n32].contains o.ty), true, o.ops⟩
  | .mulVector h o =>
    some ⟨0x108, h, o.b.cls, (pfxOk h .zero), ([Ty.i32, .n32].contains o.ty), true, o.ops⟩
  | .mulhVector h o =>
    some ⟨0x109, h, o.b.cls, (pfxOk h .zero), ([Ty.i32, .n32].contains o.ty), true, o.ops⟩
  | .mad h o =>
    some ⟨0x10A, h, .v4, (pfxOk h .zero), ([Ty.i32, .n32].contains o.ty), true, [.vw o.dst, .vr 0 o.sa, .vr 1 o.sb, .vr 2 o.sc]⟩
  | .shlVector h o =>
    some ⟨0x120, h, o.b.cls, (pfxOk h .zero), ([Ty.b32].contains o.ty && o.b.shiftOk), true, o.ops⟩
  | .shrVector h o =>
    some ⟨0x121, h, o.b.cls, (pfxOk h .zero), ([Ty.i32, .n32].contains o.ty && o.b.shiftOk), true, o.ops⟩
  | .fshl h o =>
    some ⟨0x124, h, .v3, (bif o.va then pfxOkV4 h .zero else pfxOk h .zero), (!o.va || o.n == 0), true, [.vw o.dst, .vr 0 o.sa, .vr 1 o.sb] ++ (bif o.va then [.vr4 (v4th h)] else [])⟩
  | .fshr h o =>
    some ⟨0x125, h, .v3, (bif o.va then pfxOkV4 h .zero else pfxOk h .zero), (!o.va || o.n == 0), true, [.vw o.dst, .vr 0 o.sa, .vr 1 o.sb] ++ (bif o.va then [.vr4 (v4th h)] else [])⟩
  | .lut3 h o =>
    some ⟨0x130, h, .long, (pfxOk h .zero), true, true, [.vw o.dst, .vr 0 o.sa, .vr 1 o.sb, .vr 2 o.sc]⟩
  | .andVector h o =>
    some ⟨0x131, h, o.b.cls, (pfxOk h .zero), ([Ty.b32].contains o.ty), true, o.ops⟩
  | .orVector h o =>
    some ⟨0x132, h, o.b.cls, (pfxOk h .zero), ([Ty.b32].contains o.ty), true, o.ops⟩
  | .xorVector h o =>
    some ⟨0x133, h, o.b.cls, (pfxOk h .zero), ([Ty.b32].contains o.ty), true, o.ops⟩
  | .andnVector h o =>
    some ⟨0x134, h, o.b.cls, (pfxOk h .zero), ([Ty.b32].contains o.ty), true, o.ops⟩
  | .not h o =>
    some ⟨0x135, h, .v3, (pfxOk h .zero), true, true, [.vw o.dst, .vr 0 o.sa]⟩
  | .popc h o =>
    some ⟨0x140, h, .v3, (pfxOk h .zero), true, true, [.vw o.dst, .vr 0 o.sa]⟩
  | .clz h o =>
    some ⟨0x141, h, .v3, (pfxOk h .zero), true, true, [.vw o.dst, .vr 0 o.sa]⟩
  | .ctz h o =>
    some ⟨0x142, h, .v3, (pfxOk h .zero), true, true, [.vw o.dst, .vr 0 o.sa]⟩
  | .brev h o =>
    some ⟨0x143, h, .v3, (pfxOk h .zero), true, true, [.vw o.dst, .vr 0 o.sa]⟩
  | .bfx h o =>
    some ⟨0x144, h, o.f.cls, (pfxOk h .zero), ([Ty.i32, .n32].contains o.ty && o.f.ok), true, [.vw o.dst, .vr 0 o.sa] ++ o.f.ops⟩
  | .bfi h o =>
    some ⟨0x145, h, o.f.cls, (pfxOk h .zero), (o.ty == .b32 && o.f.ok), true, [.vrw o.dst, .vr 0 o.sa] ++ o.f.ops⟩
  | .cmpEq h o =>
    some ⟨0x150, h, o.b.cls, (pfxOk h .zero), ([Ty.b32, .i32, .n32].contains o.ty), true, [.pgw o.pd, .vr 0 o.sa] ++ o.b.ops⟩
  | .cmpNe h o =>
    some ⟨0x151, h, o.b.cls, (pfxOk h .zero), ([Ty.b32, .i32, .n32].contains o.ty), true, [.pgw o.pd, .vr 0 o.sa] ++ o.b.ops⟩
  | .cmpLt h o =>
    some ⟨0x152, h, o.b.cls, (pfxOk h .zero), ([Ty.i32, .n32].contains o.ty), true, [.pgw o.pd, .vr 0 o.sa] ++ o.b.ops⟩
  | .cmpGe h o =>
    some ⟨0x153, h, o.b.cls, (pfxOk h .zero), ([Ty.i32, .n32].contains o.ty), true, [.pgw o.pd, .vr 0 o.sa] ++ o.b.ops⟩
  | .cmpLe h o =>
    some ⟨0x154, h, o.b.cls, (pfxOk h .zero), ([Ty.i32, .n32].contains o.ty), true, [.pgw o.pd, .vr 0 o.sa] ++ o.b.ops⟩
  | .cmpGt h o =>
    some ⟨0x155, h, o.b.cls, (pfxOk h .zero), ([Ty.i32, .n32].contains o.ty), true, [.pgw o.pd, .vr 0 o.sa] ++ o.b.ops⟩
  | .sel h o =>
    some ⟨0x156, h, o.b.cls, (pfxOk h .zero), true, true, [.vw o.dst, .pgr o.selp, .vr 0 o.sa] ++ o.b.ops⟩
  | .padd h o =>
    some ⟨0x160, h, o.b.cls, (pfxOk h .zero), ([Ty.i8, Ty.n8].contains o.ty), true, o.ops⟩
  | .psub h o =>
    some ⟨0x161, h, o.b.cls, (pfxOk h .zero), ([Ty.i8, Ty.n8].contains o.ty), true, o.ops⟩
  | .padds h o =>
    some ⟨0x162, h, o.b.cls, (pfxOk h .zero), ([Ty.i8, Ty.n8].contains o.ty), true, o.ops⟩
  | .psubs h o =>
    some ⟨0x163, h, o.b.cls, (pfxOk h .zero), ([Ty.i8, Ty.n8].contains o.ty), true, o.ops⟩
  | .pmin h o =>
    some ⟨0x164, h, o.b.cls, (pfxOk h .zero), ([Ty.i8, Ty.n8].contains o.ty), true, o.ops⟩
  | .pmax h o =>
    some ⟨0x165, h, o.b.cls, (pfxOk h .zero), ([Ty.i8, Ty.n8].contains o.ty), true, o.ops⟩
  | .pabsd h o =>
    some ⟨0x166, h, o.b.cls, (pfxOk h .zero), ([Ty.i8, Ty.n8].contains o.ty), true, o.ops⟩
  | .pdot h o =>
    some ⟨0x167, h, .v4, (pfxOk h .zero), ([Ty.i8, Ty.n8].contains o.ty), true, [.vw o.dst, .vr 0 o.sa, .vr 1 o.sb, .vr 2 o.sc]⟩
  | .pack h o =>
    some ⟨0x168, h, o.b.cls, (pfxOk h .zero), ([Ty.i8, Ty.n8].contains o.ty), true, [.vrw o.dst, .vr 0 o.sa] ++ o.b.ops⟩
  | .lrot h o =>
    some ⟨0x180, h, o.k.cls, (pfxOk h .zero), o.k.rotOk, true, [.vw o.dst, .vr 0 o.sa] ++ o.k.ops⟩
  | .lsh h o =>
    some ⟨0x181, h, o.k.cls, (pfxOk h .zero), o.k.rotOk, true, [.vw o.dst, .vr 0 o.sa] ++ o.k.ops⟩
  | .bcast h o =>
    some ⟨0x182, h, o.k.cls, (pfxOk h .zero), o.k.indexOk, true, [.vw o.dst, .vr 0 o.sa] ++ o.k.ops⟩
  | .perm h o =>
    some ⟨0x183, h, .v3, (pfxOk h .zero), true, true, [.vw o.dst, .vr 0 o.sa, .vr 1 o.sb]⟩
  | .lext h o =>
    some ⟨0x184, h, o.k.cls, (pfxOk h .zero), o.k.indexOk, true, [.uw o.dst, .vr 0 o.sa] ++ o.k.ops⟩
  | .lins h o =>
    some ⟨0x185, h, o.k.cls, (pfxOk h .zero), o.k.indexOk, true, [.vw o.dst, .ur o.sa] ++ o.k.ops⟩
  | .voteAny h o =>
    some ⟨0x1B0, h, .v3, (pfxOk h .zero), true, true, [.uw o.dst, .pgr o.a]⟩
  | .voteAll h o =>
    some ⟨0x1B1, h, .v3, (pfxOk h .zero), true, true, [.uw o.dst, .pgr o.a]⟩
  | .voteCnt h o =>
    some ⟨0x1B2, h, .v3, (pfxOk h .zero), true, true, [.uw o.dst, .pgr o.a]⟩
  | .voteMsk h o =>
    some ⟨0x1B3, h, .v3, (pfxOk h .zero), true, true, [.pw o.dst, .pgr o.a]⟩
  | .voteEq h o =>
    some ⟨0x1B4, h, .v3, (pfxOk h .zero), true, true, [.uw o.dst, .vr 0 o.sa]⟩
  | .elect h pd =>
    some ⟨0x1B5, h, .v3, (pfxOk h .zero), true, true, [.pgw pd]⟩
  | .red h o =>
    some ⟨0x1C0, h, .v3, (pfxOk h .zero), (redTyOk o.op o.ty), true, [o.dst.opnd, .vr 0 o.sa]⟩
  | .scan h o =>
    some ⟨0x1C1, h, .v3, (pfxOk h .zero), (redTyOk o.op o.ty), true, [.vw o.dst, .vr 0 o.sa]⟩
  | .scanx h o =>
    some ⟨0x1C2, h, .v3, (pfxOk h .zero), (redTyOk o.op o.ty), true, [.vw o.dst, .vr 0 o.sa]⟩
  | .movVectorReg h o =>
    some ⟨0x1F2, h, .v3, (pfxOk h .zero), true, true, [.vw o.dst, .vr 0 o.sa]⟩
  | .movVectorImm h o =>
    some ⟨0x1F3, h, o.imm.cls, (pfxOk h .zero), true, true, [.vw o.dst]⟩
  | .movVectorUniform h o =>
    some ⟨0x1F4, h, .v3, (pfxOk h .zero), true, true, [.vw o.dst, .ur o.sa]⟩
  | .movIxRead h o =>
    some ⟨0x1F0, h, .v3, (pfxOk h .zero), true, true, [.vw o.dst, .ur o.a]⟩
  | .movIxWrite h o =>
    some ⟨0x1F1, h, .v3, (pfxOk h .zero), true, true, [.vrx o.sb, .ur o.a]⟩
  | .fadd h o =>
    some ⟨0x200, h, o.b.cls, (pfxOk h .near), ([Ty.f32, .bf16, .f16].contains o.ty), true, o.ops⟩
  | .fsub h o =>
    some ⟨0x201, h, o.b.cls, (pfxOk h .near), ([Ty.f32, .bf16, .f16].contains o.ty), true, o.ops⟩
  | .fmul h o =>
    some ⟨0x202, h, o.b.cls, (pfxOk h .near), ([Ty.f32, .bf16, .f16].contains o.ty), true, o.ops⟩
  | .fma h o =>
    some ⟨0x203, h, .v4, (pfxOk h .near), ([Ty.f32, .bf16, .f16].contains o.ty), true, [.vw o.dst, .vr 0 o.sa, .vr 1 o.sb, .vr 2 o.sc]⟩
  | .fms h o =>
    some ⟨0x204, h, .v4, (pfxOk h .near), ([Ty.f32, .bf16, .f16].contains o.ty), true, [.vw o.dst, .vr 0 o.sa, .vr 1 o.sb, .vr 2 o.sc]⟩
  | .fnma h o =>
    some ⟨0x205, h, .v4, (pfxOk h .near), ([Ty.f32, .bf16, .f16].contains o.ty), true, [.vw o.dst, .vr 0 o.sa, .vr 1 o.sb, .vr 2 o.sc]⟩
  | .fnms h o =>
    some ⟨0x206, h, .v4, (pfxOk h .near), ([Ty.f32, .bf16, .f16].contains o.ty), true, [.vw o.dst, .vr 0 o.sa, .vr 1 o.sb, .vr 2 o.sc]⟩
  | .fneg h o =>
    some ⟨0x207, h, .v3, (pfxOk h .zero), ([Ty.f32, .bf16, .f16].contains o.ty), true, [.vw o.dst, .vr 0 o.sa]⟩
  | .fabs h o =>
    some ⟨0x208, h, .v3, (pfxOk h .zero), ([Ty.f32, .bf16, .f16].contains o.ty), true, [.vw o.dst, .vr 0 o.sa]⟩
  | .fsgn h o =>
    some ⟨0x209, h, o.b.cls, (pfxOk h .zero), ([Ty.f32, .bf16, .f16].contains o.ty), true, o.ops⟩
  | .fmin h o =>
    some ⟨0x220, h, o.b.cls, (pfxOk h .zero), ([Ty.f32, .bf16, .f16].contains o.ty), true, o.ops⟩
  | .fmax h o =>
    some ⟨0x221, h, o.b.cls, (pfxOk h .zero), ([Ty.f32, .bf16, .f16].contains o.ty), true, o.ops⟩
  | .fcmp h o =>
    some ⟨0x222, h, o.b.cls, (pfxOk h .zero), true, true, [.pgw o.pd, .vr 0 o.sa] ++ o.b.ops⟩
  | .fclass h o =>
    some ⟨0x223, h, .v3, (pfxOk h .zero), true, true, [.vw o.dst, .vr 0 o.sa]⟩
  | .fdiv h o =>
    some ⟨0x230, h, o.b.cls, (pfxOk h .near), ([Ty.f32, .bf16, .f16].contains o.ty), true, o.ops⟩
  | .fsqrt h o =>
    some ⟨0x231, h, .v3, (pfxOk h .near), ([Ty.f32, .bf16, .f16].contains o.ty), true, [.vw o.dst, .vr 0 o.sa]⟩
  | .frcp h o =>
    some ⟨0x232, h, .v3, (pfxOk h .near), true, true, [.vw o.dst, .vr 0 o.sa]⟩
  | .frsq h o =>
    some ⟨0x233, h, .v3, (pfxOk h .near), true, true, [.vw o.dst, .vr 0 o.sa]⟩
  | .fsin h o =>
    some ⟨0x280, h, .v3, (pfxOk h .near), true, true, [.vw o.dst, .vr 0 o.sa]⟩
  | .fcos h o =>
    some ⟨0x281, h, .v3, (pfxOk h .near), true, true, [.vw o.dst, .vr 0 o.sa]⟩
  | .fexp2 h o =>
    some ⟨0x282, h, .v3, (pfxOk h .near), true, true, [.vw o.dst, .vr 0 o.sa]⟩
  | .flog2 h o =>
    some ⟨0x283, h, .v3, (pfxOk h .near), true, true, [.vw o.dst, .vr 0 o.sa]⟩
  | .cvtFloat h o =>
    some ⟨0x240, h, .v3, (o.floatPfx h), o.floatOk, genClear h o.dst, o.floatOps h⟩
  | .cvtIntFloat h o =>
    some ⟨0x241, h, .v3, (pfxOk h .near), o.intOk, true, [.vw o.dst, .vr 0 o.sa]⟩
  | .frint h o =>
    some ⟨0x242, h, .v3, (pfxOk h .near), true, true, [.vw o.dst, .vr 0 o.sa]⟩
  | .bscale h o =>
    some ⟨0x243, h, .v3, (pfxOk h .zero), true, true, [.vw o.dst, .vr 0 o.sa]⟩
  | .bq h o =>
    some ⟨0x244, h, o.b.cls, (bif rmStoch h then pfxOkV4 h .block else pfxOk h .block), true, (genClear h o.dst), [.vrw o.dst, .vr 0 o.sa] ++ o.b.ops ++ genOps h⟩
  | .bdq h o =>
    some ⟨0x245, h, o.b.cls, (pfxOk h .zero), true, true, [.vw o.dst, .vr 0 o.sa] ++ o.b.ops⟩
  | .xaccClr h =>
    some ⟨0x260, h, .sys, true, true, true, []⟩
  | .xaccAdd h va =>
    some ⟨0x261, h, .v3, (pfxOk h .zero), true, true, [.vr 0 va]⟩
  | .xaccMac h o =>
    some ⟨0x262, h, .v3, (pfxOk h .zero), ([Ty.bf16, Ty.f16].contains o.ty), true, [.vr 0 o.sa, .vr 1 o.sb]⟩
  | .xaccRd h sd =>
    some ⟨0x263, h, .v3, (pfxOk h .near), true, true, [.uw sd]⟩
  | .actLd h o =>
    some ⟨0x290, h, .sys, true, true, true, [.uw o.rd, .ur o.sb]⟩
  | .fact h o =>
    some ⟨0x291, h, .v3, (pfxOk h .near), true, true, [.vw o.dst, .vr 0 o.sa]⟩
  | .rngInit h o =>
    some ⟨0x2A0, h, .v3, (pfxOk h .zero), true, true, [.v1w o.dst 4, .ur o.sa]⟩
  | .rngNext h o =>
    some ⟨0x2A1, h, .v3, (pfxOk h .zero), true, (!(o.sa.toNat ≤ o.dst.toNat && o.dst.toNat ≤ o.sa.toNat + 3)), [.v1w o.dst 1, .v1rw o.sa 4]⟩
  | .rngJump h o =>
    some ⟨0x2A2, h, .v3, (pfxOk h .zero), true, true, [.v1rw o.dst 4, .ur o.sa]⟩
  | .ldB32 h o =>
    some ⟨0x2C0, h, o.m.disp.cls, (pfxOk h .zero), ([Space.global, .sp, .gw].contains o.m.sp && o.m.sbOk), true, [.vw o.rd] ++ o.m.ops⟩
  | .ldI8 h o =>
    some ⟨0x2C1, h, o.m.disp.cls, (pfxOk h .zero), ([Space.global, .sp, .gw].contains o.m.sp && o.m.sbOk), true, [.vw o.rd] ++ o.m.ops⟩
  | .ldN8 h o =>
    some ⟨0x2C2, h, o.m.disp.cls, (pfxOk h .zero), ([Space.global, .sp, .gw].contains o.m.sp && o.m.sbOk), true, [.vw o.rd] ++ o.m.ops⟩
  | .ldF16 h o =>
    some ⟨0x2C3, h, o.m.disp.cls, (pfxOk h .zero), ([Space.global, .sp, .gw].contains o.m.sp && o.m.sbOk), true, [.vw o.rd] ++ o.m.ops⟩
  | .ldB4 h o =>
    some ⟨0x2C4, h, o.m.disp.cls, (pfxOk h .zero), ([Space.global, .sp, .gw].contains o.m.sp && o.m.sbOk), true, [.vw o.rd] ++ o.m.ops⟩
  | .ldW2 h o =>
    some ⟨0x2C5, h, o.m.disp.cls, (pfxOk h .zero), ([Space.global, .sp, .gw].contains o.m.sp && o.m.sbOk), (o.rd.toNat % 2 == 0), [.v1w o.rd 2] ++ o.m.ops⟩
  | .ldW4 h o =>
    some ⟨0x2C6, h, o.m.disp.cls, (pfxOk h .zero), ([Space.global, .sp, .gw].contains o.m.sp && o.m.sbOk), (o.rd.toNat % 4 == 0), [.v1w o.rd 4] ++ o.m.ops⟩
  | .ldFfB32 h o =>
    some ⟨0x2C8, h, o.m.disp.cls, (pfxOk h .zero), ([Space.global].contains o.m.sp && o.m.sbOk), true, [.vw o.rd] ++ o.m.ops⟩
  | .ldFfN8 h o =>
    some ⟨0x2C9, h, o.m.disp.cls, (pfxOk h .zero), ([Space.global].contains o.m.sp && o.m.sbOk), true, [.vw o.rd] ++ o.m.ops⟩
  | .ldsB32 h o =>
    some ⟨0x2CC, h, o.m.disp.cls, true, ([Space.global, .sp].contains o.m.sp && o.m.sbOk && o.m.ix.isNone), true, [.uw o.rd] ++ o.m.ops⟩
  | .ldsW2 h o =>
    some ⟨0x2CD, h, o.m.disp.cls, true, ([Space.global, .sp].contains o.m.sp && o.m.sbOk && o.m.ix.isNone), true, [.pw o.rd] ++ o.m.ops⟩
  | .ldSync h o =>
    some ⟨0x2D0, h, o.m.disp.cls, (pfxOk h .zero), ([Space.sp, .gw].contains o.m.sp && o.m.sbOk), true, [.vw o.rd] ++ o.m.ops⟩
  | .stB32 h o =>
    some ⟨0x2E0, h, o.m.disp.cls, (pfxOk h .zero), ([Space.global, .sp, .gw].contains o.m.sp && o.m.sbOk), true, [.vrx o.rd] ++ o.m.ops⟩
  | .stN8 h o =>
    some ⟨0x2E1, h, o.m.disp.cls, (pfxOk h .zero), ([Space.global, .sp, .gw].contains o.m.sp && o.m.sbOk), true, [.vrx o.rd] ++ o.m.ops⟩
  | .stF16 h o =>
    some ⟨0x2E2, h, o.m.disp.cls, (pfxOk h .zero), ([Space.global, .sp, .gw].contains o.m.sp && o.m.sbOk), true, [.vrx o.rd] ++ o.m.ops⟩
  | .stB4 h o =>
    some ⟨0x2E3, h, o.m.disp.cls, (pfxOk h .zero), ([Space.global, .sp, .gw].contains o.m.sp && o.m.sbOk), true, [.vrx o.rd] ++ o.m.ops⟩
  | .stW2 h o =>
    some ⟨0x2E4, h, o.m.disp.cls, (pfxOk h .zero), ([Space.global, .sp, .gw].contains o.m.sp && o.m.sbOk), (o.rd.toNat % 2 == 0), [.v1r o.rd 2] ++ o.m.ops⟩
  | .stW4 h o =>
    some ⟨0x2E5, h, o.m.disp.cls, (pfxOk h .zero), ([Space.global, .sp, .gw].contains o.m.sp && o.m.sbOk), (o.rd.toNat % 4 == 0), [.v1r o.rd 4] ++ o.m.ops⟩
  | .stsB32 h o =>
    some ⟨0x2E8, h, o.m.disp.cls, true, ([Space.global, .sp].contains o.m.sp && o.m.sbOk && o.m.ix.isNone), true, [.ur o.rd] ++ o.m.ops⟩
  | .stsW2 h o =>
    some ⟨0x2E9, h, o.m.disp.cls, true, ([Space.global, .sp].contains o.m.sp && o.m.sbOk && o.m.ix.isNone), true, [.pr o.rd] ++ o.m.ops⟩
  | .stSync h o =>
    some ⟨0x2F0, h, o.m.disp.cls, (pfxOk h .zero), ([Space.sp, .gw].contains o.m.sp && o.m.sbOk), true, [.vrx o.rd] ++ o.m.ops⟩
  | .pf h o =>
    some ⟨0x2F8, h, o.m.disp.cls, (pfxOk h .zero), ([Space.global].contains o.m.sp && o.lvl.toNat ≤ 1), true, o.m.ops⟩
  | .stFill h o =>
    some ⟨0x2F9, h, o.m.disp.cls, (pfxOk h .zero), ([Space.sp, .gw].contains o.m.sp && o.m.sbOk), true, [.vrx o.rd] ++ o.m.ops⟩
  | .feClr h m =>
    some ⟨0x2FA, h, m.disp.cls, (pfxOk h .zero), ([Space.sp, .gw].contains m.sp && m.sbOk), true, m.ops⟩
  | .atomAdd h o =>
    some ⟨0x300, h, o.cls, (pfxOk h .zero), o.ok, true, [.vrwc o.rd] ++ o.ops⟩
  | .atomMinI32 h o =>
    some ⟨0x301, h, o.cls, (pfxOk h .zero), o.ok, true, [.vrwc o.rd] ++ o.ops⟩
  | .atomMinN32 h o =>
    some ⟨0x302, h, o.cls, (pfxOk h .zero), o.ok, true, [.vrwc o.rd] ++ o.ops⟩
  | .atomMaxI32 h o =>
    some ⟨0x303, h, o.cls, (pfxOk h .zero), o.ok, true, [.vrwc o.rd] ++ o.ops⟩
  | .atomMaxN32 h o =>
    some ⟨0x304, h, o.cls, (pfxOk h .zero), o.ok, true, [.vrwc o.rd] ++ o.ops⟩
  | .atomAnd h o =>
    some ⟨0x305, h, o.cls, (pfxOk h .zero), o.ok, true, [.vrwc o.rd] ++ o.ops⟩
  | .atomOr h o =>
    some ⟨0x306, h, o.cls, (pfxOk h .zero), o.ok, true, [.vrwc o.rd] ++ o.ops⟩
  | .atomXor h o =>
    some ⟨0x307, h, o.cls, (pfxOk h .zero), o.ok, true, [.vrwc o.rd] ++ o.ops⟩
  | .atomXchg h o =>
    some ⟨0x308, h, o.cls, (pfxOk h .zero), o.ok, true, [.vrwc o.rd] ++ o.ops⟩
  | .atomCas h o =>
    some ⟨0x309, h, o.cls, (pfxOkV4 h .zero), o.ok, true, [.vrwc o.rd] ++ o.ops ++ [.vr4 (v4th h)]⟩
  | .atomFadd h o =>
    some ⟨0x30A, h, o.cls, (pfxOk h .zero), o.ok, true, [.vrwc o.rd] ++ o.ops⟩
  | .updAdd h o =>
    some ⟨0x310, h, o.cls, (pfxOk h .zero), (o.ok && (o.ord == .relaxed || o.ord == .release)), true, [.vrx o.rd] ++ o.ops⟩
  | .updMinI32 h o =>
    some ⟨0x311, h, o.cls, (pfxOk h .zero), (o.ok && (o.ord == .relaxed || o.ord == .release)), true, [.vrx o.rd] ++ o.ops⟩
  | .updMinN32 h o =>
    some ⟨0x312, h, o.cls, (pfxOk h .zero), (o.ok && (o.ord == .relaxed || o.ord == .release)), true, [.vrx o.rd] ++ o.ops⟩
  | .updMaxI32 h o =>
    some ⟨0x313, h, o.cls, (pfxOk h .zero), (o.ok && (o.ord == .relaxed || o.ord == .release)), true, [.vrx o.rd] ++ o.ops⟩
  | .updMaxN32 h o =>
    some ⟨0x314, h, o.cls, (pfxOk h .zero), (o.ok && (o.ord == .relaxed || o.ord == .release)), true, [.vrx o.rd] ++ o.ops⟩
  | .updAnd h o =>
    some ⟨0x315, h, o.cls, (pfxOk h .zero), (o.ok && (o.ord == .relaxed || o.ord == .release)), true, [.vrx o.rd] ++ o.ops⟩
  | .updOr h o =>
    some ⟨0x316, h, o.cls, (pfxOk h .zero), (o.ok && (o.ord == .relaxed || o.ord == .release)), true, [.vrx o.rd] ++ o.ops⟩
  | .updXor h o =>
    some ⟨0x317, h, o.cls, (pfxOk h .zero), (o.ok && (o.ord == .relaxed || o.ord == .release)), true, [.vrx o.rd] ++ o.ops⟩
  | .updFadd h o =>
    some ⟨0x31A, h, o.cls, (pfxOk h .zero), (o.ok && (o.ord == .relaxed || o.ord == .release)), true, [.vrx o.rd] ++ o.ops⟩
  | .fence h o =>
    some ⟨0x320, h, .sys, true, (o.ord != .relaxed && rmtOk o.rmt o.ord o.sco), true, []⟩
  | .apCpy h o =>
    some ⟨0x330, h, .asy, true, true, true, [.ur o.sb]⟩
  | .apCp2 h o =>
    some ⟨0x331, h, .asy, true, true, true, [.ur o.sb]⟩
  | .apGth h o =>
    some ⟨0x332, h, .asy, true, true, true, [.ur o.sb]⟩
  | .apSct h o =>
    some ⟨0x333, h, .asy, true, true, true, [.ur o.sb]⟩
  | .aqPop h o =>
    some ⟨0x334, h, .asy, (goOnly h), true, true, [.vw o.vd]⟩
  | .tst h o =>
    some ⟨0x350, h, .asy, true, true, true, [.ur o.sb]⟩
  | .tldV h o =>
    some ⟨0x351, h, .asy, true, true, true, [.ur o.sb]⟩
  | .migUp h o =>
    some ⟨0x360, h, .sys, true, true, true, [.pr o.sb, .ur o.sc]⟩
  | .migDown h o =>
    some ⟨0x361, h, .sys, true, true, true, [.pr o.sb, .ur o.sc]⟩
  | .mxMma h o =>
    some ⟨0x380, h, .asy, true, true, true, [.v1r o.va 1, .ur o.sb]⟩
  | .mxSt h o =>
    some ⟨0x381, h, .asy, true, (5 ≤ o.ty.code.toNat), true, [.ur o.sb]⟩
  | .mxLd h o =>
    some ⟨0x382, h, .asy, true, (5 ≤ o.ty.code.toNat && o.ty.code.toNat ≤ 9), true, [.ur o.sb]⟩
  | .mxClr h o =>
    some ⟨0x383, h, .asy, true, true, true, [.ur o.sb, .ur o.sc]⟩
  | .mxRq h o =>
    some ⟨0x384, h, .asy, true, true, true, [.ur o.sb]⟩
  | .tdLd h o =>
    some ⟨0x385, h, .asy, true, true, true, [.tw o.t, .ur o.sb]⟩
  | .tdSt h o =>
    some ⟨0x386, h, .asy, true, true, true, [.tr o.t, .ur o.sb]⟩
  | .tdBase h o =>
    some ⟨0x387, h, .asy, true, true, true, [.trw o.t, .pr o.sb]⟩
  | .bagNew h o =>
    some ⟨0x390, h, .v3, true, true, true, [.uw o.dst, .pr o.sa]⟩
  | .bagPut h o =>
    some ⟨0x391, h, .asy, (pfxOk h .zero && goPlain h), (farSco o.sco && (o.nf || o.fp == 0)), true, [.ur o.sb, .v1r o.va 1] ++ (bif o.nf then [.p1w o.fp] else [])⟩
  | .bagSnap h o =>
    some ⟨0x392, h, .asy, true, (farSco o.sco), true, [.ur o.sb]⟩
  | .bagSeal h o =>
    some ⟨0x397, h, .asy, true, (farSco o.sco), true, [.ur o.sb]⟩
  | .bagFree h o =>
    some ⟨0x398, h, .asy, true, (farSco o.sco), true, [.ur o.sb]⟩
  | .bagEach h o =>
    some ⟨0x393, h, .long, true, (farSco o.sco && o.tgt.toNat % 8 == 0), true, [.ur o.sb, .ur o.sc]⟩
  | .bagDrain h o =>
    some ⟨0x394, h, .asy, true, (farSco o.sco), true, [.ur o.sb, .pr o.sc]⟩
  | .bagCnt h o =>
    some ⟨0x395, h, .v3, true, (o.sel == 1 || o.sel == 2 || o.sb == 0), true, [.uw o.dst, .ur o.sa, .ur o.sb]⟩
  | .bagGrow h o =>
    some ⟨0x396, h, .v3, true, true, true, [.uw o.dst, .ur o.sa, .ur o.sb]⟩
  | .rootRun h o =>
    some ⟨0x3A0, h, .long, true, (farSco o.sco && o.tgt.toNat % 8 == 0), true, [.ur o.sb, .ur o.sc]⟩
  | .bmac h o =>
    some ⟨0x3A1, h, .asy, true, (farSco o.sco), true, [.ur o.sb]⟩
  | .crownSum h o =>
    some ⟨0x3A2, h, .asy, true, (farSco o.sco), true, [.ur o.sb]⟩
  | .crownClr h sco =>
    some ⟨0x3A3, h, .asy, true, (farSco sco), true, []⟩
  | .recLd h o =>
    some ⟨0x3A4, h, .v3, (pfxOk h .zero && goPlain h), (o.off.toNat % 4 == 0), true, [.v1w o.dst 1]⟩
  | .recSt h o =>
    some ⟨0x3A5, h, .v3, (pfxOk h .zero && goPlain h), (o.off.toNat % 4 == 0), true, [.v1r o.sa 1]⟩
  | .recIdx h vd =>
    some ⟨0x3A6, h, .v3, (pfxOk h .zero && goPlain h), true, true, [.v1w vd 1]⟩
  | .rld h o =>
    some ⟨0x3A7, h, o.m.disp.cls, (pfxOk h .zero && goPlain h), ([Space.global].contains o.m.sp), true, [.vw o.rd] ++ o.m.ops⟩
  | .rst h o =>
    some ⟨0x3A8, h, o.m.disp.cls, (pfxOk h .zero && goPlain h), ([Space.global].contains o.m.sp), true, [.vrx o.rd] ++ o.m.ops⟩
  | .zskip h o =>
    some ⟨0x3A9, h, .v3, true, true, true, [.uw o.dst, .pr o.sa, .ur o.sb]⟩
  | .crownPut h o =>
    some ⟨0x3AA, h, .v3, (pfxOk h .zero && goPlain h), (o.ty == .b32 || o.ty == .f32), true, [.v1r o.sa 1, .ur o.sb]⟩
  | .rkNext h =>
    some ⟨0x3AB, h, .v3, true, true, true, []⟩
  | .emeter h sd =>
    some ⟨0x3B0, h, .sys, true, true, true, [.pw sd]⟩
  | .emeterShr h sd =>
    some ⟨0x3B0, h, .sys, true, true, true, [.pw sd]⟩
  | .equota h sd =>
    some ⟨0x3B1, h, .sys, true, true, true, [.pw sd]⟩
  | .equotaFill h sd =>
    some ⟨0x3B1, h, .sys, true, true, true, [.pw sd]⟩
  | .equotaCap h sd =>
    some ⟨0x3B1, h, .sys, true, true, true, [.pw sd]⟩
  | .dirtySnap h o =>
    some ⟨0x3D0, h, .sys, true, true, true, [.pw o.rd, .pr o.sb, .ur o.sc]⟩
  | .dirtySnapFin h o =>
    some ⟨0x3D0, h, .sys, true, true, true, [.pw o.rd, .pr o.sb, .ur o.sc]⟩
  | .vfStop h o =>
    some ⟨0x3D1, h, .sys, true, (o.nb != 0), true, [.uw o.rd, .pr o.sb, .ur o.sc]⟩
  | .tret h =>
    some ⟨0x3C0, h, .sys, true, true, true, []⟩
  | .tretNext h =>
    some ⟨0x3C0, h, .sys, true, true, true, []⟩
  | .tretAnc h =>
    some ⟨0x3C0, h, .sys, true, true, true, []⟩
  | .tretVector h va =>
    some ⟨0x3C0, h, .sys, true, true, true, [.v1r va 1]⟩
  | .tinfo h vd =>
    some ⟨0x3C1, h, .sys, true, true, true, [.v1w vd 2]⟩
  | .wentSt h sd =>
    some ⟨0x3C2, h, .sys, true, true, true, [.pw sd]⟩
  | .wentLd h sd =>
    some ⟨0x3C3, h, .sys, true, true, true, [.pw sd]⟩
  | .svEnd h =>
    some ⟨0x3C4, h, .sys, true, true, true, []⟩
  | .svEndRes h =>
    some ⟨0x3C4, h, .sys, true, true, true, []⟩
  | .dtabLd h o =>
    some ⟨0x3C5, h, .sys, true, true, true, [.uw o.rd, .pr o.sb, .ur o.sc]⟩
  | .tlbInv h o =>
    some ⟨0x3C6, h, .sys, true, true, true, [.pr o.sb, .ur o.sc]⟩
  | .vfStart h o =>
    some ⟨0x3C7, h, .sys, true, true, true, [.uw o.dst, .ur o.sa]⟩
  | .vfPre h o =>
    some ⟨0x3C8, h, .sys, true, true, true, [.uw o.rd, .ur o.sc]⟩
  | .vfRst h sc =>
    some ⟨0x3C9, h, .sys, true, true, true, [.ur sc]⟩
  | .sliceSet h o =>
    some ⟨0x3CA, h, .sys, true, true, true, [.uw o.dst, .pr o.sa]⟩
  | .poolAdd h o =>
    some ⟨0x3CB, h, .sys, true, true, true, [.uw o.rd, .pr o.sb, .ur o.sc]⟩
  | .poolAddCap h o =>
    some ⟨0x3CB, h, .sys, true, true, true, [.uw o.rd, .pr o.sb, .ur o.sc]⟩
  | _ => none

/-! ### The entries of map 1 -/

/-- One entry of a decode table (R72). `lb` is the long base, none for no long form. -/
structure Entry where
  fmts : BitVec 8
  lb   : Option Cls
  accs : BitVec 3
  mul  : Bool
  pfx  : Bool
  sup  : Bool
  op   : Nat
  deriving DecidableEq, Repr, Inhabited

/-- The classes allowed: exact alone, or with `.t` and `.l` for a multiplying operation. -/
def accExact : BitVec 3 := 1
def accAll : BitVec 3 := 7

/-- Entries of one chapter, each with its OPC: uniform and control (R79). -/
def map1Uniform : List Entry := [
  ⟨0x85, (some .vi), accExact, false, false, false, 0x000⟩,
  ⟨0x85, (some .vi), accExact, false, false, false, 0x001⟩,
  ⟨0x85, (some .vi), accAll, true, false, false, 0x002⟩,
  ⟨0x85, (some .vi), accAll, true, false, false, 0x003⟩,
  ⟨0x85, (some .vi), accExact, false, false, false, 0x004⟩,
  ⟨0x85, (some .vi), accExact, false, false, false, 0x005⟩,
  ⟨0x85, (some .vi), accExact, false, false, false, 0x006⟩,
  ⟨0x85, (some .vi), accExact, false, false, false, 0x007⟩,
  ⟨0x85, (some .vi), accExact, false, false, false, 0x008⟩,
  ⟨0x85, (some .vi), accExact, false, false, false, 0x009⟩,
  ⟨0x85, (some .vi), accExact, false, false, false, 0x00A⟩,
  ⟨0x85, (some .vi), accExact, false, false, false, 0x00B⟩,
  ⟨0x85, (some .vi), accExact, false, false, false, 0x00C⟩,
  ⟨0x85, (some .vi), accExact, false, false, false, 0x00D⟩,
  ⟨0x05, none, accExact, false, false, false, 0x020⟩,
  ⟨0x05, none, accExact, false, false, false, 0x021⟩,
  ⟨0x81, (some .v3), accExact, false, false, false, 0x022⟩,
  ⟨0x85, (some .vi), accExact, false, false, false, 0x023⟩,
  ⟨0x85, (some .vi), accExact, false, false, false, 0x024⟩,
  ⟨0x01, none, accAll, true, false, false, 0x025⟩,
  ⟨0x05, none, accExact, false, false, false, 0x026⟩,
  ⟨0x05, none, accExact, false, false, false, 0x027⟩,
  ⟨0x05, none, accExact, false, false, false, 0x028⟩,
  ⟨0x01, none, accExact, false, false, false, 0x029⟩,
  ⟨0x84, (some .vi), accExact, false, false, false, 0x030⟩,
  ⟨0x04, none, accExact, false, false, false, 0x031⟩,
  ⟨0x04, none, accExact, false, false, false, 0x032⟩,
  ⟨0x04, none, accExact, false, true, false, 0x033⟩,
  ⟨0x04, none, accExact, false, false, false, 0x034⟩,
  ⟨0x04, none, accExact, false, false, false, 0x035⟩,
  ⟨0x01, none, accExact, false, false, false, 0x040⟩,
  ⟨0x01, none, accExact, false, false, false, 0x041⟩,
  ⟨0x01, none, accExact, false, false, false, 0x042⟩,
  ⟨0x01, none, accExact, false, false, false, 0x043⟩,
  ⟨0x01, none, accExact, false, false, false, 0x044⟩,
  ⟨0x01, none, accExact, false, false, false, 0x045⟩,
  ⟨0x01, none, accExact, false, false, false, 0x046⟩,
  ⟨0x01, none, accExact, false, false, false, 0x047⟩,
  ⟨0x90, (some .br), accExact, false, false, false, 0x080⟩,
  ⟨0x90, (some .br), accExact, false, false, false, 0x081⟩,
  ⟨0x10, none, accExact, false, true, false, 0x082⟩,
  ⟨0x90, (some .br), accExact, false, true, false, 0x083⟩,
  ⟨0x40, none, accExact, false, false, false, 0x0A0⟩,
  ⟨0x40, none, accExact, false, false, false, 0x0A1⟩,
  ⟨0x40, none, accExact, false, false, false, 0x0A2⟩,
  ⟨0x04, none, accExact, false, false, false, 0x0A3⟩,
  ⟨0x04, none, accExact, false, false, false, 0x0A4⟩,
  ⟨0xC0, (some .sys), accExact, false, false, false, 0x0B0⟩,
  ⟨0x40, none, accExact, false, false, false, 0x0B1⟩,
  ⟨0x40, none, accExact, false, false, false, 0x0B2⟩,
  ⟨0x40, none, accExact, false, false, false, 0x0C0⟩,
  ⟨0x40, none, accExact, false, false, false, 0x0C1⟩]

/-- Entries of vector integer (R53, R101). -/
def map1Vector : List Entry := [
  ⟨0x85, (some .vi), accExact, false, true, false, 0x100⟩,
  ⟨0x85, (some .vi), accExact, false, true, false, 0x101⟩,
  ⟨0x85, (some .vi), accExact, false, true, false, 0x102⟩,
  ⟨0x85, (some .vi), accExact, false, true, false, 0x103⟩,
  ⟨0x85, (some .vi), accExact, false, true, false, 0x104⟩,
  ⟨0x85, (some .vi), accExact, false, true, false, 0x105⟩,
  ⟨0x01, none, accExact, false, true, false, 0x106⟩,
  ⟨0x01, none, accExact, false, true, false, 0x107⟩,
  ⟨0x85, (some .vi), accAll, true, true, false, 0x108⟩,
  ⟨0x85, (some .vi), accAll, true, true, false, 0x109⟩,
  ⟨0x02, none, accAll, true, true, false, 0x10A⟩,
  ⟨0x05, none, accExact, false, true, false, 0x120⟩,
  ⟨0x05, none, accExact, false, true, false, 0x121⟩,
  ⟨0x01, none, accExact, false, true, false, 0x124⟩,
  ⟨0x01, none, accExact, false, true, false, 0x125⟩,
  ⟨0x80, (some .v4), accExact, false, true, false, 0x130⟩,
  ⟨0x81, (some .v3), accExact, false, true, false, 0x131⟩,
  ⟨0x81, (some .v3), accExact, false, true, false, 0x132⟩,
  ⟨0x81, (some .v3), accExact, false, true, false, 0x133⟩,
  ⟨0x81, (some .v3), accExact, false, true, false, 0x134⟩,
  ⟨0x01, none, accExact, false, true, false, 0x135⟩,
  ⟨0x01, none, accExact, false, true, false, 0x140⟩,
  ⟨0x01, none, accExact, false, true, false, 0x141⟩,
  ⟨0x01, none, accExact, false, true, false, 0x142⟩,
  ⟨0x01, none, accExact, false, true, false, 0x143⟩,
  ⟨0x05, none, accExact, false, true, false, 0x144⟩,
  ⟨0x05, none, accExact, false, true, false, 0x145⟩,
  ⟨0x85, (some .vi), accExact, false, true, false, 0x150⟩,
  ⟨0x85, (some .vi), accExact, false, true, false, 0x151⟩,
  ⟨0x85, (some .vi), accExact, false, true, false, 0x152⟩,
  ⟨0x85, (some .vi), accExact, false, true, false, 0x153⟩,
  ⟨0x85, (some .vi), accExact, false, true, false, 0x154⟩,
  ⟨0x85, (some .vi), accExact, false, true, false, 0x155⟩,
  ⟨0x01, none, accExact, false, true, false, 0x156⟩,
  ⟨0x01, none, accExact, false, true, false, 0x160⟩,
  ⟨0x01, none, accExact, false, true, false, 0x161⟩,
  ⟨0x01, none, accExact, false, true, false, 0x162⟩,
  ⟨0x01, none, accExact, false, true, false, 0x163⟩,
  ⟨0x01, none, accExact, false, true, false, 0x164⟩,
  ⟨0x01, none, accExact, false, true, false, 0x165⟩,
  ⟨0x01, none, accExact, false, true, false, 0x166⟩,
  ⟨0x02, none, accAll, true, true, false, 0x167⟩,
  ⟨0x01, none, accExact, false, true, false, 0x168⟩,
  ⟨0x05, none, accExact, false, true, false, 0x180⟩,
  ⟨0x05, none, accExact, false, true, false, 0x181⟩,
  ⟨0x05, none, accExact, false, true, false, 0x182⟩,
  ⟨0x01, none, accExact, false, true, false, 0x183⟩,
  ⟨0x05, none, accExact, false, true, false, 0x184⟩,
  ⟨0x05, none, accExact, false, true, false, 0x185⟩,
  ⟨0x01, none, accExact, false, true, false, 0x1B0⟩,
  ⟨0x01, none, accExact, false, true, false, 0x1B1⟩,
  ⟨0x01, none, accExact, false, true, false, 0x1B2⟩,
  ⟨0x01, none, accExact, false, true, false, 0x1B3⟩,
  ⟨0x01, none, accExact, false, true, false, 0x1B4⟩,
  ⟨0x01, none, accExact, false, true, false, 0x1B5⟩,
  ⟨0x01, none, accExact, false, true, false, 0x1C0⟩,
  ⟨0x01, none, accExact, false, true, false, 0x1C1⟩,
  ⟨0x01, none, accExact, false, true, false, 0x1C2⟩,
  ⟨0x01, none, accExact, false, true, false, 0x1F0⟩,
  ⟨0x01, none, accExact, false, true, false, 0x1F1⟩,
  ⟨0x01, none, accExact, false, true, false, 0x1F2⟩,
  ⟨0x84, (some .vi), accExact, false, true, false, 0x1F3⟩,
  ⟨0x01, none, accExact, false, true, false, 0x1F4⟩]

/-- Entries of floating point (R117). -/
def map1Float : List Entry := [
  ⟨0x01, none, accExact, false, true, false, 0x200⟩,
  ⟨0x01, none, accExact, false, true, false, 0x201⟩,
  ⟨0x01, none, accAll, true, true, false, 0x202⟩,
  ⟨0x02, none, accAll, true, true, false, 0x203⟩,
  ⟨0x02, none, accAll, true, true, false, 0x204⟩,
  ⟨0x02, none, accAll, true, true, false, 0x205⟩,
  ⟨0x02, none, accAll, true, true, false, 0x206⟩,
  ⟨0x01, none, accExact, false, true, false, 0x207⟩,
  ⟨0x01, none, accExact, false, true, false, 0x208⟩,
  ⟨0x01, none, accExact, false, true, false, 0x209⟩,
  ⟨0x01, none, accExact, false, true, false, 0x220⟩,
  ⟨0x01, none, accExact, false, true, false, 0x221⟩,
  ⟨0x01, none, accExact, false, true, false, 0x222⟩,
  ⟨0x01, none, accExact, false, true, false, 0x223⟩,
  ⟨0x01, none, accExact, false, true, false, 0x230⟩,
  ⟨0x01, none, accExact, false, true, false, 0x231⟩,
  ⟨0x01, none, accExact, false, true, false, 0x232⟩,
  ⟨0x01, none, accExact, false, true, false, 0x233⟩,
  ⟨0x01, none, accExact, false, true, false, 0x240⟩,
  ⟨0x01, none, accExact, false, true, false, 0x241⟩,
  ⟨0x01, none, accExact, false, true, false, 0x242⟩,
  ⟨0x01, none, accExact, false, true, false, 0x243⟩,
  ⟨0x01, none, accExact, false, true, false, 0x244⟩,
  ⟨0x01, none, accExact, false, true, false, 0x245⟩,
  ⟨0x40, none, accExact, false, false, false, 0x260⟩,
  ⟨0x01, none, accExact, false, true, false, 0x261⟩,
  ⟨0x01, none, accExact, true, true, false, 0x262⟩,
  ⟨0x01, none, accExact, false, true, false, 0x263⟩,
  ⟨0x01, none, accExact, false, true, false, 0x280⟩,
  ⟨0x01, none, accExact, false, true, false, 0x281⟩,
  ⟨0x01, none, accExact, false, true, false, 0x282⟩,
  ⟨0x01, none, accExact, false, true, false, 0x283⟩,
  ⟨0x40, none, accExact, false, false, false, 0x290⟩,
  ⟨0x01, none, accExact, false, true, false, 0x291⟩,
  ⟨0x01, none, accExact, false, true, false, 0x2A0⟩,
  ⟨0x01, none, accExact, false, true, false, 0x2A1⟩,
  ⟨0x01, none, accExact, false, true, false, 0x2A2⟩]

/-- Entries of loads and stores (R134). -/
def map1Memory : List Entry := [
  ⟨0x88, (some .mem), accExact, false, true, false, 0x2C0⟩,
  ⟨0x88, (some .mem), accExact, false, true, false, 0x2C1⟩,
  ⟨0x88, (some .mem), accExact, false, true, false, 0x2C2⟩,
  ⟨0x88, (some .mem), accExact, false, true, false, 0x2C3⟩,
  ⟨0x88, (some .mem), accExact, false, true, false, 0x2C4⟩,
  ⟨0x88, (some .mem), accExact, false, true, false, 0x2C5⟩,
  ⟨0x88, (some .mem), accExact, false, true, false, 0x2C6⟩,
  ⟨0x88, (some .mem), accExact, false, true, false, 0x2C8⟩,
  ⟨0x88, (some .mem), accExact, false, true, false, 0x2C9⟩,
  ⟨0x88, (some .mem), accExact, false, false, false, 0x2CC⟩,
  ⟨0x88, (some .mem), accExact, false, false, false, 0x2CD⟩,
  ⟨0x88, (some .mem), accExact, false, true, false, 0x2D0⟩,
  ⟨0x88, (some .mem), accExact, false, true, false, 0x2E0⟩,
  ⟨0x88, (some .mem), accExact, false, true, false, 0x2E1⟩,
  ⟨0x88, (some .mem), accExact, false, true, false, 0x2E2⟩,
  ⟨0x88, (some .mem), accExact, false, true, false, 0x2E3⟩,
  ⟨0x88, (some .mem), accExact, false, true, false, 0x2E4⟩,
  ⟨0x88, (some .mem), accExact, false, true, false, 0x2E5⟩,
  ⟨0x88, (some .mem), accExact, false, false, false, 0x2E8⟩,
  ⟨0x88, (some .mem), accExact, false, false, false, 0x2E9⟩,
  ⟨0x88, (some .mem), accExact, false, true, false, 0x2F0⟩,
  ⟨0x88, (some .mem), accExact, false, true, false, 0x2F8⟩,
  ⟨0x88, (some .mem), accExact, false, true, false, 0x2F9⟩,
  ⟨0x88, (some .mem), accExact, false, true, false, 0x2FA⟩]

/-- Entries of atomics, fences, the access processor, hints (R258, R280). -/
def map1Order : List Entry := [
  ⟨0x88, (some .mem), accExact, false, true, false, 0x300⟩,
  ⟨0x88, (some .mem), accExact, false, true, false, 0x301⟩,
  ⟨0x88, (some .mem), accExact, false, true, false, 0x302⟩,
  ⟨0x88, (some .mem), accExact, false, true, false, 0x303⟩,
  ⟨0x88, (some .mem), accExact, false, true, false, 0x304⟩,
  ⟨0x88, (some .mem), accExact, false, true, false, 0x305⟩,
  ⟨0x88, (some .mem), accExact, false, true, false, 0x306⟩,
  ⟨0x88, (some .mem), accExact, false, true, false, 0x307⟩,
  ⟨0x88, (some .mem), accExact, false, true, false, 0x308⟩,
  ⟨0x88, (some .mem), accExact, false, true, false, 0x309⟩,
  ⟨0x88, (some .mem), accExact, false, true, false, 0x30A⟩,
  ⟨0x88, (some .mem), accExact, false, true, false, 0x310⟩,
  ⟨0x88, (some .mem), accExact, false, true, false, 0x311⟩,
  ⟨0x88, (some .mem), accExact, false, true, false, 0x312⟩,
  ⟨0x88, (some .mem), accExact, false, true, false, 0x313⟩,
  ⟨0x88, (some .mem), accExact, false, true, false, 0x314⟩,
  ⟨0x88, (some .mem), accExact, false, true, false, 0x315⟩,
  ⟨0x88, (some .mem), accExact, false, true, false, 0x316⟩,
  ⟨0x88, (some .mem), accExact, false, true, false, 0x317⟩,
  ⟨0x88, (some .mem), accExact, false, true, false, 0x31A⟩,
  ⟨0x40, none, accExact, false, false, false, 0x320⟩,
  ⟨0x20, none, accExact, false, false, false, 0x330⟩,
  ⟨0x20, none, accExact, false, false, false, 0x331⟩,
  ⟨0x20, none, accExact, false, false, false, 0x332⟩,
  ⟨0x20, none, accExact, false, false, false, 0x333⟩,
  ⟨0x20, none, accExact, false, true, false, 0x334⟩,
  ⟨0x20, none, accExact, false, false, false, 0x350⟩,
  ⟨0x20, none, accExact, false, false, false, 0x351⟩,
  ⟨0x40, none, accExact, false, false, false, 0x360⟩,
  ⟨0x40, none, accExact, false, false, false, 0x361⟩]

/-- Entries of the matrix engine, bags, root units (R162, R179, R230). -/
def map1Engines : List Entry := [
  ⟨0x20, none, accAll, true, false, false, 0x380⟩,
  ⟨0x20, none, accExact, false, false, false, 0x381⟩,
  ⟨0x20, none, accExact, false, false, false, 0x382⟩,
  ⟨0x20, none, accExact, false, false, false, 0x383⟩,
  ⟨0x20, none, accExact, false, false, false, 0x384⟩,
  ⟨0x20, none, accExact, false, false, false, 0x385⟩,
  ⟨0x20, none, accExact, false, false, false, 0x386⟩,
  ⟨0x20, none, accExact, false, false, false, 0x387⟩,
  ⟨0x01, none, accExact, false, false, false, 0x390⟩,
  ⟨0x20, none, accExact, false, true, false, 0x391⟩,
  ⟨0x20, none, accExact, false, false, false, 0x392⟩,
  ⟨0x80, (some .asy), accExact, false, false, false, 0x393⟩,
  ⟨0x20, none, accExact, false, false, false, 0x394⟩,
  ⟨0x01, none, accExact, false, false, false, 0x395⟩,
  ⟨0x01, none, accExact, false, false, false, 0x396⟩,
  ⟨0x20, none, accExact, false, false, false, 0x397⟩,
  ⟨0x20, none, accExact, false, false, false, 0x398⟩,
  ⟨0x80, (some .asy), accExact, false, false, false, 0x3A0⟩,
  ⟨0x20, none, accAll, true, false, false, 0x3A1⟩,
  ⟨0x20, none, accExact, false, false, false, 0x3A2⟩,
  ⟨0x20, none, accExact, false, false, false, 0x3A3⟩,
  ⟨0x01, none, accExact, false, true, false, 0x3A4⟩,
  ⟨0x01, none, accExact, false, true, false, 0x3A5⟩,
  ⟨0x01, none, accExact, false, true, false, 0x3A6⟩,
  ⟨0x08, none, accExact, false, true, false, 0x3A7⟩,
  ⟨0x08, none, accExact, false, true, false, 0x3A8⟩,
  ⟨0x01, none, accExact, false, false, false, 0x3A9⟩,
  ⟨0x01, none, accExact, false, true, false, 0x3AA⟩,
  ⟨0x01, none, accExact, false, false, false, 0x3AB⟩]

/-- Entries of the meter and the system (R256, R300, R327). -/
def map1System : List Entry := [
  ⟨0x40, none, accExact, false, false, false, 0x3B0⟩,
  ⟨0x40, none, accExact, false, false, false, 0x3B1⟩,
  ⟨0x40, none, accExact, false, false, false, 0x3C0⟩,
  ⟨0x40, none, accExact, false, false, false, 0x3C1⟩,
  ⟨0x40, none, accExact, false, false, false, 0x3C2⟩,
  ⟨0x40, none, accExact, false, false, false, 0x3C3⟩,
  ⟨0x40, none, accExact, false, false, false, 0x3C4⟩,
  ⟨0x40, none, accExact, false, false, true, 0x3C5⟩,
  ⟨0x40, none, accExact, false, false, true, 0x3C6⟩,
  ⟨0x40, none, accExact, false, false, true, 0x3C7⟩,
  ⟨0x40, none, accExact, false, false, true, 0x3C8⟩,
  ⟨0x40, none, accExact, false, false, true, 0x3C9⟩,
  ⟨0x40, none, accExact, false, false, true, 0x3CA⟩,
  ⟨0x40, none, accExact, false, false, true, 0x3CB⟩,
  ⟨0x40, none, accExact, false, false, true, 0x3D0⟩,
  ⟨0x40, none, accExact, false, false, true, 0x3D1⟩]

/-- Map 1 (R72, R76): every OPC that an instruction description names. -/
def map1 : List Entry :=
  map1Uniform ++ map1Vector ++ map1Float ++ map1Memory ++ map1Order ++ map1Engines ++ map1System

/-- The map-1 entry of an operation, which is numbered by its map-1 OPC. -/
def map1Entry (op : Nat) : Option Entry := map1.find? fun e => e.op == op

/-! ### The conditions together -/

/-- Steps 6 and 7 of R75 for an entry: the class is allowed by FMT, and LONG also by LB. -/
def Entry.allows (e : Entry) (c : Cls) : Bool :=
  e.fmts.getLsbD c.fmtBit && (c != .long || e.lb.isSome)

/-- ACC obeys R61: not 11, and a class the entry allows; 00 alone where the operation does not multiply. -/
def Entry.accOk (e : Entry) (acc : BitVec 2) : Bool :=
  acc.toNat < 3 && e.accs.getLsbD acc.toNat && (e.mul || acc == 0)

/-- The prefix is allowed, and MASK, MN and RM obey R70. -/
def Entry.pfxOk (e : Entry) (p : Option Prefix) : Bool :=
  match p with
  | none => true
  | some p => e.pfx && !(p.mask == 0 && p.mn) && p.rm != 7

/-- Step 12 of R75 on the fields alone: pairs are even, and the instruction's own register limits hold. -/
def Shape.regsOk (s : Shape) : Bool :=
  s.eight && s.ops.all fun o => !o.pair || o.num % 2 == 0

/-- The first condition of steps 7 and 9 to 12 of R75 that the instruction's own fields break, by its
reason number. -/
def Shape.reason (s : Shape) (e : Entry) : Option Nat :=
  if !e.allows s.cls then some 4
  else if !e.accOk s.head.acc then some 5
  else if !(e.pfxOk s.head.pfx && s.six) then some 6
  else if !s.seven then some 7
  else if !s.regsOk then some 8
  else none

/-- Every condition that map 1 puts on the fields of an instruction holds. The machine's own steps have
no encoding and obey it. -/
def Instr.fieldsOk (i : Instr) : Bool :=
  match i.shape with
  | none => true
  | some s =>
    match map1Entry s.opc with
    | none => false
    | some e => (s.reason e).isNone

end Sys2Proof
end

