-- ==== Sys2Proof/WellFormed.lean ====
section
/-! DEFINITION. Which instructions are well formed: those that some word encodes, by the conditions of R61 to
R75 on their fields (Machine/Map1.lean). -/
namespace Sys2Proof

/-- The instruction has an encoding under map 1: its class, accuracy class, prefix, types, conditions,
scopes, ranges, pairs and register limits are as R75 asks. -/
def Instr.encodable (i : Instr) : Bool := i.shape.isSome && i.fieldsOk

/-- A well-formed instruction: one with an encoding, or a step of the machine itself, which has none. -/
abbrev Instr.WellFormed (i : Instr) : Prop := i.fieldsOk = true

end Sys2Proof
end

