-- ==== Sys2Proof/Decode.lean ====
section
/-! DEFINITION. The decoder (R59 to R75), total on any parcels and rejecting by the reason of R75, and the
encoder beside it, both from the format tables of R65 to R70. -/
namespace Sys2Proof

/-! ### The formats -/

/-- Bits [63:24] of an instruction, the operand area. -/
abbrev Body := BitVec 40

structure V3F where
  fn  : BitVec 13
  sb  : BitVec 9
  sa  : BitVec 9
  dst : BitVec 9
structure V4F where
  fn  : BitVec 4
  sc  : BitVec 9
  sb  : BitVec 9
  sa  : BitVec 9
  dst : BitVec 9
structure VIF where
  imm : BitVec 16
  fn  : BitVec 6
  sa  : BitVec 9
  dst : BitVec 9
structure MemF where
  disp : BitVec 10
  ixe  : BitVec 1
  sp   : BitVec 2
  sc   : BitVec 2
  ix   : BitVec 9
  sb   : BitVec 7
  rd   : BitVec 9
structure BrF where
  off : BitVec 22
  sb  : BitVec 7
  sa  : BitVec 7
  cnd : BitVec 4
structure AsyF where
  fn  : BitVec 14
  sco : BitVec 3
  sc  : BitVec 7
  sb  : BitVec 7
  va  : BitVec 9
structure SysF where
  fn : BitVec 17
  sc : BitVec 7
  sb : BitVec 7
  rd : BitVec 9

def V3F.of (b : Body) : V3F := ⟨b.extractLsb' 27 13, b.extractLsb' 18 9, b.extractLsb' 9 9, b.extractLsb' 0 9⟩
def V4F.of (b : Body) : V4F :=
  ⟨b.extractLsb' 36 4, b.extractLsb' 27 9, b.extractLsb' 18 9, b.extractLsb' 9 9, b.extractLsb' 0 9⟩
def VIF.of (b : Body) : VIF := ⟨b.extractLsb' 24 16, b.extractLsb' 18 6, b.extractLsb' 9 9, b.extractLsb' 0 9⟩
def MemF.of (b : Body) : MemF :=
  ⟨b.extractLsb' 30 10, b.extractLsb' 29 1, b.extractLsb' 27 2, b.extractLsb' 25 2, b.extractLsb' 16 9,
    b.extractLsb' 9 7, b.extractLsb' 0 9⟩
def BrF.of (b : Body) : BrF := ⟨b.extractLsb' 18 22, b.extractLsb' 11 7, b.extractLsb' 4 7, b.extractLsb' 0 4⟩
def AsyF.of (b : Body) : AsyF :=
  ⟨b.extractLsb' 26 14, b.extractLsb' 23 3, b.extractLsb' 16 7, b.extractLsb' 9 7, b.extractLsb' 0 9⟩
def SysF.of (b : Body) : SysF := ⟨b.extractLsb' 23 17, b.extractLsb' 16 7, b.extractLsb' 9 7, b.extractLsb' 0 9⟩

def V3F.body (f : V3F) : Body := f.fn ++ f.sb ++ f.sa ++ f.dst
def V4F.body (f : V4F) : Body := f.fn ++ f.sc ++ f.sb ++ f.sa ++ f.dst
def VIF.body (f : VIF) : Body := f.imm ++ f.fn ++ f.sa ++ f.dst
def MemF.body (f : MemF) : Body := f.disp ++ f.ixe ++ f.sp ++ f.sc ++ f.ix ++ f.sb ++ f.rd
def BrF.body (f : BrF) : Body := f.off ++ f.sb ++ f.sa ++ f.cnd
def AsyF.body (f : AsyF) : Body := f.fn ++ f.sco ++ f.sc ++ f.sb ++ f.va
def SysF.body (f : SysF) : Body := f.fn ++ f.sc ++ f.sb ++ f.rd

/-! ### Codes -/

def Ty.ofCode (c : BitVec 4) : Option Ty :=
  [Ty.b32, .i32, .n32, .i8, .n8, .f32, .bf16, .f16, .e4m3, .e5m2, .b4][c.toNat]?
def Cond.ofCode (c : BitVec 4) : Option Cond := [Cond.eq, .ne, .lt, .ge, .le, .gt][c.toNat]?
def Cond.code : Cond → BitVec 4
  | .eq => 0 | .ne => 1 | .lt => 2 | .ge => 3 | .le => 4 | .gt => 5
def BrCond.ofCode (c : BitVec 4) : Option BrCond :=
  [BrCond.eq, .ne, .lt, .ge, .ltn, .gen, .always][c.toNat]?
def BrCond.code : BrCond → BitVec 4
  | .eq => 0 | .ne => 1 | .lt => 2 | .ge => 3 | .ltn => 4 | .gen => 5 | .always => 6
def VoteCond.ofCode (c : BitVec 4) : Option VoteCond := [VoteCond.any, .all, .none, .nall][c.toNat]?
def VoteCond.code : VoteCond → BitVec 4
  | .any => 0 | .all => 1 | .none => 2 | .nall => 3
def FRel.ofCode (c : BitVec 3) : FRel :=
  [FRel.eq, .ne, .lt, .le, .gt, .ge, .un, .ord].getD c.toNat .eq
def FRel.code : FRel → BitVec 3
  | .eq => 0 | .ne => 1 | .lt => 2 | .le => 3 | .gt => 4 | .ge => 5 | .un => 6 | .ord => 7
def RedOp.ofCode (c : BitVec 4) : Option RedOp :=
  [RedOp.add, .adds, .min, .max, .and, .or, .xor][c.toNat]?
def RedOp.code : RedOp → BitVec 4
  | .add => 0 | .adds => 1 | .min => 2 | .max => 3 | .and => 4 | .or => 5 | .xor => 6
def Scope.ofCode (c : BitVec 3) : Option Scope := [Scope.wave, .team, .gang, .dev, .sys][c.toNat]?
def Scope.code : Scope → BitVec 3
  | .wave => 0 | .team => 1 | .gang => 2 | .dev => 3 | .sys => 4
def Ord.ofCode (c : BitVec 2) : Ord := [Ord.relaxed, .acquire, .release, .acqRel].getD c.toNat .relaxed
def Ord.code : Ord → BitVec 2
  | .relaxed => 0 | .acquire => 1 | .release => 2 | .acqRel => 3
def Space.ofCode (c : BitVec 2) : Option Space := [Space.global, .sp, .gw][c.toNat]?
def Space.code : Space → BitVec 2
  | .global => 0 | .sp => 1 | .gw => 2
def Cls.ofCode (c : BitVec 4) : Option Cls :=
  if c = 0xA then some .long else [Cls.v3, .v4, .vi, .mem, .br, .asy, .sys][c.toNat]?

/-! ### Fields -/

/-- What parsing the operand area gives: the value, whether reserved and zero bits are zero and codes
defined (step 11), and whether the register fields obey R62 (step 12). -/
structure Parsed (α : Type) where
  seven : Bool
  eight : Bool
  val   : α

def Parsed.map (f : α → β) (p : Parsed α) : Parsed β := ⟨p.seven, p.eight, f p.val⟩

def tyF (c : BitVec 4) : Ty := (Ty.ofCode c).getD .b32
def tyOk (c : BitVec 4) : Bool := (Ty.ofCode c).isSome
def scoF (c : BitVec 3) : Scope := (Scope.ofCode c).getD .wave
def scoOk (c : BitVec 3) : Bool := (Scope.ofCode c).isSome
/-- A uniform number in a 9-bit field: bits [8:7] are zero (R62). -/
def uF (f : BitVec 9) : UReg := f.extractLsb' 0 7
def uOk (f : BitVec 9) : Bool := f.extractLsb' 7 2 == 0
def pF (f : BitVec 9) : PReg := f.extractLsb' 0 4
def pOk (f : BitVec 9) : Bool := f.extractLsb' 4 5 == 0
def sF (f : BitVec 9) : BitVec 6 := f.extractLsb' 0 6
def sOk (f : BitVec 9) : Bool := f.extractLsb' 6 3 == 0
/-- TY, and the function bits above it, of a V3 instruction. -/
def V3F.ty (f : V3F) : BitVec 4 := f.fn.extractLsb' 0 4
def V3F.hi (f : V3F) : BitVec 9 := f.fn.extractLsb' 4 9
def V3F.bs (f : V3F) : Bool := f.fn.getLsbD 4
/-- Function bits `[63:51+k]` are zero. -/
def V3F.zeroFrom (f : V3F) (k : Nat) : Bool := (f.fn >>> k) == 0
def VIF.ty (f : VIF) : BitVec 4 := f.fn.extractLsb' 0 4
def VIF.top (f : VIF) : BitVec 2 := f.fn.extractLsb' 4 2
/-- The B operand of a V3 vector form, and its register condition (R99). -/
def V3F.b (f : V3F) : VB := bif f.bs then .uni (uF f.sb) else .vec f.sb
def V3F.bOk (f : V3F) : Bool := !f.bs || uOk f.sb

/-- An encoded body: the class, the operand area and the immediate parcel. -/
structure Enc where
  cls  : Cls
  body : Body
  imm  : Option Word := none

def encV3 (fn : BitVec 13) (sb sa dst : BitVec 9) : Enc := ⟨.v3, (V3F.mk fn sb sa dst).body, none⟩
def encV4 (fn : BitVec 4) (sc sb sa dst : BitVec 9) : Enc := ⟨.v4, (V4F.mk fn sc sb sa dst).body, none⟩
def encVI (imm : BitVec 16) (fn : BitVec 6) (sa dst : BitVec 9) : Enc := ⟨.vi, (VIF.mk imm fn sa dst).body, none⟩
def encSys (fn : BitVec 17) (sc sb : BitVec 7) (rd : BitVec 9) : Enc := ⟨.sys, (SysF.mk fn sc sb rd).body, none⟩
def encAsy (fn : BitVec 14) (sco : Scope) (sc sb : BitVec 7) (va : BitVec 9) : Enc :=
  ⟨.asy, (AsyF.mk fn sco.code sc sb va).body, none⟩
/-- The same body as a LONG instruction with its immediate parcel. -/
def Enc.long (e : Enc) (imm : Word) : Enc := ⟨.long, e.body, some imm⟩
def fnTy (t : BitVec 4) : BitVec 13 := t.setWidth 13
def u9 (r : UReg) : BitVec 9 := r.setWidth 9
def p9 (r : PReg) : BitVec 9 := r.setWidth 9
/-- The function bits and the sb field of a V3 B operand, TY among them. -/
def bFn (t : Ty) (hi : BitVec 8) (b : VB) : BitVec 13 :=
  hi ++ (match b with
    | .uni _ => 1#1
    | _ => 0#1) ++ t.code
def bSb : VB → BitVec 9
  | .vec r => r
  | .uni r => u9 r
  | _ => 0

/-! ### One layout each: reading it, and writing it -/

def UBin.dec (c : Cls) (b : Body) (imm : Word) : Parsed UBin :=
  match c with
  | .v3 =>
    let f := V3F.of b
    ⟨f.hi == 0 && tyOk f.ty, uOk f.dst && uOk f.sa && uOk f.sb, ⟨tyF f.ty, uF f.dst, uF f.sa, .reg (uF f.sb)⟩⟩
  | .vi =>
    let f := VIF.of b
    ⟨f.top == 0 && tyOk f.ty, uOk f.dst && uOk f.sa, ⟨tyF f.ty, uF f.dst, uF f.sa, .imm f.imm⟩⟩
  | _ =>
    let f := VIF.of b
    ⟨f.imm == 0 && f.top == 0 && tyOk f.ty, uOk f.dst && uOk f.sa, ⟨tyF f.ty, uF f.dst, uF f.sa, .long imm⟩⟩
def UBin.enc (o : UBin) : Enc :=
  match o.b with
  | .reg r => encV3 (fnTy o.ty.code) (u9 r) (u9 o.sa) (u9 o.dst)
  | .imm i => encVI i (o.ty.code.setWidth 6) (u9 o.sa) (u9 o.dst)
  | .long i => (encVI 0 (o.ty.code.setWidth 6) (u9 o.sa) (u9 o.dst)).long i

def SetCc.dec (c : Cls) (b : Body) (imm : Word) : Parsed SetCc :=
  let f := V3F.of b
  let cc := f.fn.extractLsb' 4 4
  ⟨f.zeroFrom 8 && tyOk f.ty && (Cond.ofCode cc).isSome && (c == .v3 || f.sb == 0),
    uOk f.dst && uOk f.sa && uOk f.sb,
    ⟨tyF f.ty, (Cond.ofCode cc).getD .eq, uF f.dst, uF f.sa, bif c == .v3 then .reg (uF f.sb) else .long imm⟩⟩
def SetCc.enc (o : SetCc) : Enc :=
  let fn : BitVec 13 := (0 : BitVec 5) ++ o.cc.code ++ o.ty.code
  match o.b with
  | .reg r => encV3 fn (u9 r) (u9 o.sa) (u9 o.dst)
  | .imm i => encVI i 0 (u9 o.sa) (u9 o.dst)
  | .long i => (encV3 fn 0 (u9 o.sa) (u9 o.dst)).long i

def LeaOp.dec (b : Body) : Parsed LeaOp :=
  let f := V3F.of b
  ⟨f.zeroFrom 6 && tyOk f.ty, uOk f.dst && uOk f.sa && uOk f.sb,
    ⟨tyF f.ty, f.fn.extractLsb' 4 2, uF f.dst, uF f.sa, uF f.sb⟩⟩
def LeaOp.enc (o : LeaOp) : Enc :=
  encV3 ((0 : BitVec 7) ++ o.k ++ o.ty.code) (u9 o.sb) (u9 o.sa) (u9 o.dst)

def UImm.dec (c : Cls) (b : Body) (imm : Word) : Parsed UImm :=
  let f := VIF.of b
  ⟨f.fn == 0 && f.sa == 0 && (c == .vi || f.imm == 0), uOk f.dst,
    ⟨uF f.dst, bif c == .vi then .short f.imm else .long imm⟩⟩
def UImm.enc (o : UImm) : Enc :=
  match o.imm with
  | .short i => encVI i 0 0 (u9 o.dst)
  | .long i => (encVI 0 0 0 (u9 o.dst)).long i

def U2.decVI (b : Body) : Parsed U2 :=
  let f := VIF.of b
  ⟨f.fn == 0 && f.imm == 0, uOk f.dst && uOk f.sa, ⟨uF f.dst, uF f.sa⟩⟩
def U2.encVI (o : U2) : Enc := Sys2Proof.encVI 0 0 (u9 o.sa) (u9 o.dst)
/-- rd and sb of SYS. -/
def U2.decSb (b : Body) : Parsed U2 :=
  let f := SysF.of b
  ⟨f.fn == 0 && f.sc == 0, uOk f.rd, ⟨uF f.rd, f.sb⟩⟩
/-- rd and sc of SYS. -/
def U2.decSc (b : Body) : Parsed U2 :=
  let f := SysF.of b
  ⟨f.fn == 0 && f.sb == 0, uOk f.rd, ⟨uF f.rd, f.sc⟩⟩
def U2.decV3 (b : Body) : Parsed U2 :=
  let f := V3F.of b
  ⟨f.fn == 0 && f.sb == 0, uOk f.dst && uOk f.sa, ⟨uF f.dst, uF f.sa⟩⟩

def FromSpecial.dec (b : Body) : Parsed FromSpecial :=
  let f := VIF.of b
  ⟨f.imm == 0 && f.ty == 0 && !f.fn.getLsbD 5, uOk f.dst && sOk f.sa,
    ⟨uF f.dst, sF f.sa, f.fn.getLsbD 4⟩⟩
def FromSpecial.enc (o : FromSpecial) : Enc :=
  encVI 0 ((0 : BitVec 1) ++ (b2v o.pair : BitVec 1) ++ (0 : BitVec 4)) (o.spec.setWidth 9) (u9 o.dst)

def VSpecial.dec (b : Body) : Parsed VSpecial :=
  let f := VIF.of b
  ⟨f.imm == 0 && f.fn == 0, sOk f.sa, ⟨f.dst, sF f.sa⟩⟩
def VSpecial.enc (o : VSpecial) : Enc := encVI 0 0 (o.spec.setWidth 9) o.dst

def ToSpecial.dec (b : Body) : Parsed ToSpecial :=
  let f := VIF.of b
  ⟨f.imm == 0 && f.fn == 0, sOk f.dst && uOk f.sa, ⟨sF f.dst, uF f.sa⟩⟩
def ToSpecial.enc (o : ToSpecial) : Enc := encVI 0 0 (u9 o.sa) (o.spec.setWidth 9)

def PBin.dec (b : Body) : Parsed PBin :=
  let f := V3F.of b
  ⟨f.fn == 0, pOk f.dst && pOk f.sa && pOk f.sb, ⟨pF f.dst, pF f.sa, pF f.sb⟩⟩
def PBin.enc (o : PBin) : Enc := encV3 0 (p9 o.b) (p9 o.a) (p9 o.d)
def PUn.dec (b : Body) : Parsed PUn :=
  let f := V3F.of b
  ⟨f.fn == 0 && f.sb == 0, pOk f.dst && pOk f.sa, ⟨pF f.dst, pF f.sa⟩⟩
def PUn.enc (o : PUn) : Enc := encV3 0 0 (p9 o.a) (p9 o.d)
def PFromU.dec (b : Body) : Parsed PFromU :=
  let f := V3F.of b
  ⟨f.fn == 0 && f.sb == 0, pOk f.dst && uOk f.sa, ⟨pF f.dst, uF f.sa⟩⟩
def PFromU.enc (o : PFromU) : Enc := encV3 0 0 (u9 o.sa) (p9 o.d)
def UFromP.dec (b : Body) : Parsed UFromP :=
  let f := V3F.of b
  ⟨f.fn == 0 && f.sb == 0, uOk f.dst && pOk f.sa, ⟨uF f.dst, pF f.sa⟩⟩
def UFromP.enc (o : UFromP) : Enc := encV3 0 0 (p9 o.a) (u9 o.dst)

def offF (c : Cls) (f : BrF) (imm : Word) : Off := bif c == .br then .short f.off else .long imm
def offOk (c : Cls) (f : BrF) : Bool := c == .br || f.off == 0
def encBr (cnd : BitVec 4) (sa sb : BitVec 7) : Off → Enc
  | .short o => ⟨.br, (BrF.mk o sb sa cnd).body, none⟩
  | .long i => ⟨.long, (BrF.mk 0 sb sa cnd).body, some i⟩
def BrCc.dec (c : Cls) (b : Body) (imm : Word) : Parsed BrCc :=
  let f := BrF.of b
  ⟨offOk c f && (BrCond.ofCode f.cnd).isSome, true, ⟨(BrCond.ofCode f.cnd).getD .eq, f.sa, f.sb, offF c f imm⟩⟩
def BrCc.enc (o : BrCc) : Enc := encBr o.cnd.code o.sa o.sb o.off
def BrVoteOp.dec (c : Cls) (b : Body) (imm : Word) : Parsed BrVoteOp :=
  let f := BrF.of b
  ⟨offOk c f && (VoteCond.ofCode f.cnd).isSome && f.sb == 0, f.sa.extractLsb' 4 3 == 0,
    ⟨(VoteCond.ofCode f.cnd).getD .any, f.sa.extractLsb' 0 4, offF c f imm⟩⟩
def BrVoteOp.enc (o : BrVoteOp) : Enc := encBr o.cnd.code (o.pa.setWidth 7) 0 o.off
/-- CND tells the two forms of `jmp` and of `call` apart (R89). -/
def decJmp (h : Head) (b : Body) : Parsed Instr :=
  let f := BrF.of b
  bif f.cnd == 1 then ⟨f.off == 0 && f.sb == 0 && f.sa == 0, true, .jmpVector h⟩
  else ⟨f.cnd == 0 && f.off == 0 && f.sb == 0, true, .jmpUniform h f.sa⟩
def encJmp (cnd : BitVec 4) (sa : UReg) : Enc := encBr cnd sa 0 (.short 0)
def decCall (h : Head) (c : Cls) (b : Body) (imm : Word) : Parsed Instr :=
  let f := BrF.of b
  bif f.cnd == 1 then ⟨offOk c f && f.sb == 0 && f.sa == 0, true, .callVector h (offF c f imm)⟩
  else ⟨f.cnd == 0 && offOk c f && f.sb == 0, true, .callUniform h ⟨f.sa, offF c f imm⟩⟩
def encCall (cnd : BitVec 4) (sa : UReg) (o : Off) : Enc := encBr cnd sa 0 o

/-- SYS with every operand bit zero. -/
def decSys0 (b : Body) : Parsed Unit := ⟨b == 0, true, ()⟩
/-- SYS with a 12-bit number in the function bits. -/
def decN12 (b : Body) : Parsed (BitVec 12) :=
  let f := SysF.of b
  ⟨f.fn.extractLsb' 12 5 == 0 && f.sc == 0 && f.sb == 0 && f.rd == 0, true, f.fn.extractLsb' 0 12⟩
def SetVl.dec (b : Body) : Parsed SetVl :=
  let f := VIF.of b
  ⟨f.fn == 0, uOk f.dst && uOk f.sa, ⟨uF f.dst, uF f.sa, f.imm⟩⟩
def SetVl.enc (o : SetVl) : Enc := encVI o.imm 0 (u9 o.sa) (u9 o.dst)
def SetVtype.dec (b : Body) : Parsed SetVtype :=
  let f := VIF.of b
  ⟨f.fn == 0 && f.dst == 0, uOk f.sa, ⟨uF f.sa, f.imm⟩⟩
def SetVtype.enc (o : SetVtype) : Enc := encVI o.imm 0 (u9 o.sa) 0
def WaitArg.dec (c : Cls) (b : Body) (imm : Word) : Parsed WaitArg :=
  let f := SysF.of b
  bif c == .sys then
    ⟨f.fn.extractLsb' 4 13 == 0 && f.sc == 0 && f.sb == 0 && f.rd == 0, true, .zero (f.fn.extractLsb' 0 4)⟩
  else ⟨b == 0, true, .bounds imm⟩
def WaitArg.enc : WaitArg → Enc
  | .zero z => encSys (z.setWidth 17) 0 0 0
  | .bounds i => (encSys 0 0 0 0).long i

/-- A vector form with the long base VI. -/
def VBin.dec (c : Cls) (b : Body) (imm : Word) : Parsed VBin :=
  match c with
  | .v3 =>
    let f := V3F.of b
    ⟨f.zeroFrom 5 && tyOk f.ty, f.bOk, ⟨tyF f.ty, f.dst, f.sa, f.b⟩⟩
  | .vi =>
    let f := VIF.of b
    ⟨f.top == 0 && tyOk f.ty, true, ⟨tyF f.ty, f.dst, f.sa, .imm f.imm⟩⟩
  | _ =>
    let f := VIF.of b
    ⟨f.imm == 0 && f.top == 0 && tyOk f.ty, true, ⟨tyF f.ty, f.dst, f.sa, .long imm⟩⟩
def VBin.enc (o : VBin) : Enc :=
  match o.b with
  | .imm i => encVI i (o.ty.code.setWidth 6) o.sa o.dst
  | .long i => (encVI 0 (o.ty.code.setWidth 6) o.sa o.dst).long i
  | b => encV3 (bFn o.ty 0 b) (bSb b) o.sa o.dst
/-- A vector form with the long base V3 (R104). -/
def VBin.decLg (c : Cls) (b : Body) (imm : Word) : Parsed VBin :=
  let f := V3F.of b
  bif c == .v3 then ⟨f.zeroFrom 5 && tyOk f.ty, f.bOk, ⟨tyF f.ty, f.dst, f.sa, f.b⟩⟩
  else ⟨f.hi == 0 && tyOk f.ty && f.sb == 0, true, ⟨tyF f.ty, f.dst, f.sa, .long imm⟩⟩
def VBin.encLg (o : VBin) : Enc :=
  match o.b with
  | .imm i => encVI i (o.ty.code.setWidth 6) o.sa o.dst
  | .long i => (encV3 (fnTy o.ty.code) 0 o.sa o.dst).long i
  | b => encV3 (bFn o.ty 0 b) (bSb b) o.sa o.dst

/-- One vector source and a fixed type code. -/
def VUn.dec (ty : BitVec 4) (b : Body) : Parsed VUn :=
  let f := V3F.of b
  ⟨f.fn == fnTy ty && f.sb == 0, true, ⟨f.dst, f.sa⟩⟩
def VUn.enc (o : VUn) (ty : BitVec 4) : Enc := encV3 (fnTy ty) 0 o.sa o.dst
def VUnTy.dec (b : Body) : Parsed VUnTy :=
  let f := V3F.of b
  ⟨f.hi == 0 && tyOk f.ty && f.sb == 0, true, ⟨tyF f.ty, f.dst, f.sa⟩⟩
def VUnTy.enc (o : VUnTy) : Enc := encV3 (fnTy o.ty.code) 0 o.sa o.dst
def VTri.dec (b : Body) : Parsed VTri :=
  let f := V4F.of b
  ⟨tyOk f.fn, true, ⟨tyF f.fn, f.dst, f.sa, f.sb, f.sc⟩⟩
def VTri.enc (o : VTri) : Enc := encV4 o.ty.code o.sc o.sb o.sa o.dst
def Funnel.dec (b : Body) : Parsed Funnel :=
  let f := V3F.of b
  ⟨f.ty == 0 && f.zeroFrom 10, true, ⟨f.dst, f.sa, f.sb, f.fn.extractLsb' 5 5, f.bs⟩⟩
def Funnel.enc (o : Funnel) : Enc :=
  encV3 ((0 : BitVec 3) ++ o.n ++ (b2v o.va : BitVec 1) ++ (0 : BitVec 4)) o.sb o.sa o.dst
def Lut3Op.dec (b : Body) (imm : Word) : Parsed Lut3Op :=
  let f := V4F.of b
  ⟨f.fn == 0 && imm.extractLsb' 8 24 == 0, true, ⟨f.dst, f.sa, f.sb, f.sc, imm.extractLsb' 0 8⟩⟩
def Lut3Op.enc (o : Lut3Op) : Enc := (encV4 0 o.sc o.sb o.sa o.dst).long (o.table.setWidth 32)
def BField.dec (c : Cls) (b : Body) : Parsed BField :=
  bif c == .v3 then
    let f := V3F.of b
    ⟨f.zeroFrom 5 && f.bs && tyOk f.ty, uOk f.sb, ⟨tyF f.ty, f.dst, f.sa, .uni (uF f.sb)⟩⟩
  else
    let f := VIF.of b
    ⟨f.top == 0 && tyOk f.ty && f.imm.extractLsb' 11 5 == 0, true,
      ⟨tyF f.ty, f.dst, f.sa, .imm (f.imm.extractLsb' 0 5) (f.imm.extractLsb' 5 6)⟩⟩
def BField.enc (o : BField) : Enc :=
  match o.f with
  | .imm p l => encVI ((0 : BitVec 5) ++ l ++ p) (o.ty.code.setWidth 6) o.sa o.dst
  | .uni r => encV3 (bFn o.ty 0 (.uni r)) (u9 r) o.sa o.dst
def VCmp.dec (c : Cls) (b : Body) (imm : Word) : Parsed VCmp :=
  let p := VBin.dec c b imm
  ⟨p.seven, p.eight && pOk p.val.dst, ⟨p.val.ty, pF p.val.dst, p.val.sa, p.val.b⟩⟩
def VCmp.enc (o : VCmp) : Enc := (VBin.mk o.ty (p9 o.pd) o.sa o.b).enc
def SelOp.dec (b : Body) : Parsed SelOp :=
  let f := V3F.of b
  ⟨f.ty == 0 && f.fn.extractLsb' 5 3 == 0 && !f.fn.getLsbD 12, f.bOk, ⟨f.dst, f.fn.extractLsb' 8 4, f.sa, f.b⟩⟩
def SelOp.enc (o : SelOp) : Enc :=
  encV3 (bFn .b32 ((0 : BitVec 1) ++ o.selp ++ (0 : BitVec 3)) o.b) (bSb o.b) o.sa o.dst
def PackOp.dec (b : Body) : Parsed PackOp :=
  let f := V3F.of b
  ⟨f.zeroFrom 6 && tyOk f.ty, f.bOk, ⟨tyF f.ty, f.dst, f.sa, f.b, f.fn.getLsbD 5⟩⟩
def PackOp.enc (o : PackOp) : Enc :=
  encV3 (bFn o.ty ((0 : BitVec 7) ++ (b2v o.h : BitVec 1)) o.b) (bSb o.b) o.sa o.dst
/-- The lane argument of VI, or of V3 with BS = 1, and its conditions. -/
def laneArg (c : Cls) (b : Body) : Parsed LaneArg :=
  bif c == .v3 then
    let f := V3F.of b
    ⟨f.fn == 0x10, uOk f.sb, .uni (uF f.sb)⟩
  else
    let f := VIF.of b
    ⟨f.fn == 0, true, .imm f.imm⟩
def encLane (k : LaneArg) (sa dst : BitVec 9) : Enc :=
  match k with
  | .imm i => encVI i 0 sa dst
  | .uni r => encV3 0x10 (u9 r) sa dst
def LMove.dec (c : Cls) (b : Body) : Parsed LMove :=
  (laneArg c b).map fun k => ⟨(V3F.of b).dst, (V3F.of b).sa, k⟩
def LMove.enc (o : LMove) : Enc := encLane o.k o.sa o.dst
def V3R.dec (b : Body) : Parsed V3R :=
  let f := V3F.of b
  ⟨f.fn == 0, true, ⟨f.dst, f.sa, f.sb⟩⟩
def V3R.enc (o : V3R) : Enc := encV3 0 o.sb o.sa o.dst
def LextOp.dec (c : Cls) (b : Body) : Parsed LextOp :=
  let f := V3F.of b
  let k := laneArg c b
  ⟨k.seven, k.eight && uOk f.dst, ⟨uF f.dst, f.sa, k.val⟩⟩
def LextOp.enc (o : LextOp) : Enc := encLane o.k o.sa (u9 o.dst)
def LinsOp.dec (c : Cls) (b : Body) : Parsed LinsOp :=
  let f := V3F.of b
  let k := laneArg c b
  ⟨k.seven, k.eight && uOk f.sa, ⟨f.dst, uF f.sa, k.val⟩⟩
def LinsOp.enc (o : LinsOp) : Enc := encLane o.k (u9 o.sa) o.dst
def UFromV.dec (b : Body) : Parsed UFromV :=
  let f := V3F.of b
  ⟨f.fn == 0 && f.sb == 0, uOk f.dst, ⟨uF f.dst, f.sa⟩⟩
def UFromV.enc (o : UFromV) : Enc := encV3 0 0 o.sa (u9 o.dst)
def decElect (b : Body) : Parsed PReg :=
  let f := V3F.of b
  ⟨f.fn == 0 && f.sb == 0 && f.sa == 0, pOk f.dst, pF f.dst⟩
def encElect (pd : PReg) : Enc := encV3 0 0 0 (p9 pd)
def RedArg.dec (b : Body) : Parsed RedArg :=
  let f := V3F.of b
  let op := f.fn.extractLsb' 4 4
  let ud := f.fn.getLsbD 8
  ⟨f.zeroFrom 9 && tyOk f.ty && (RedOp.ofCode op).isSome && f.sb == 0, !ud || uOk f.dst,
    ⟨(RedOp.ofCode op).getD .add, tyF f.ty, bif ud then .uni (uF f.dst) else .vec f.dst, f.sa⟩⟩
def RedArg.enc (o : RedArg) : Enc :=
  match o.dst with
  | .vec r => encV3 ((0 : BitVec 5) ++ o.op.code ++ o.ty.code) 0 o.sa r
  | .uni r => encV3 ((1 : BitVec 5) ++ o.op.code ++ o.ty.code) 0 o.sa (u9 r)
def ScanArg.dec (b : Body) : Parsed ScanArg :=
  let f := V3F.of b
  let op := f.fn.extractLsb' 4 4
  ⟨f.zeroFrom 8 && tyOk f.ty && (RedOp.ofCode op).isSome && f.sb == 0, true,
    ⟨(RedOp.ofCode op).getD .add, tyF f.ty, f.dst, f.sa⟩⟩
def ScanArg.enc (o : ScanArg) : Enc := encV3 ((0 : BitVec 5) ++ o.op.code ++ o.ty.code) 0 o.sa o.dst
def VImm.dec (c : Cls) (b : Body) (imm : Word) : Parsed VImm :=
  let f := VIF.of b
  ⟨f.fn == 0 && f.sa == 0 && (c == .vi || f.imm == 0), true, ⟨f.dst, bif c == .vi then .short f.imm else .long imm⟩⟩
def VImm.enc (o : VImm) : Enc :=
  match o.imm with
  | .short i => encVI i 0 0 o.dst
  | .long i => (encVI 0 0 0 o.dst).long i
/-- A uniform in sa (R114). -/
def VFromU.decSa (b : Body) : Parsed VFromU :=
  let f := V3F.of b
  ⟨f.fn == 0 && f.sb == 0, uOk f.sa, ⟨f.dst, uF f.sa⟩⟩
def VFromU.encSa (o : VFromU) : Enc := encV3 0 0 (u9 o.sa) o.dst
/-- A uniform in sb, with BS = 1 (R133). -/
def VFromU.decSb (b : Body) : Parsed VFromU :=
  let f := V3F.of b
  ⟨f.fn == 0x10 && f.sa == 0, uOk f.sb, ⟨f.dst, uF f.sb⟩⟩
def VFromU.encSb (o : VFromU) : Enc := encV3 0x10 (u9 o.sa) 0 o.dst
def IxRead.dec (b : Body) : Parsed IxRead :=
  let f := V3F.of b
  ⟨f.zeroFrom 9 && f.sb == 0, uOk f.sa, ⟨f.dst, uF f.sa, f.fn.extractLsb' 0 9⟩⟩
def IxRead.enc (o : IxRead) : Enc := encV3 (o.imm.setWidth 13) 0 (u9 o.a) o.dst
def IxWrite.dec (b : Body) : Parsed IxWrite :=
  let f := V3F.of b
  ⟨f.zeroFrom 9 && f.dst == 0, uOk f.sa, ⟨uF f.sa, f.sb, f.fn.extractLsb' 0 9⟩⟩
def IxWrite.enc (o : IxWrite) : Enc := encV3 (o.imm.setWidth 13) o.sb (u9 o.a) 0

def FCmpOp.dec (b : Body) : Parsed FCmpOp :=
  let f := V3F.of b
  ⟨f.ty == 5 && f.zeroFrom 8, f.bOk && pOk f.dst, ⟨FRel.ofCode (f.fn.extractLsb' 5 3), pF f.dst, f.sa, f.b⟩⟩
def FCmpOp.enc (o : FCmpOp) : Enc := encV3 (bFn .f32 ((0 : BitVec 5) ++ o.rel.code) o.b) (bSb o.b) o.sa (p9 o.pd)
def CvtOp.dec (b : Body) : Parsed CvtOp :=
  let f := V3F.of b
  let s := f.fn.extractLsb' 4 4
  ⟨f.zeroFrom 11 && tyOk f.ty && tyOk s && f.sb == 0, true,
    ⟨f.fn.getLsbD 10, f.fn.extractLsb' 8 2, tyF s, tyF f.ty, f.dst, f.sa⟩⟩
def CvtOp.enc (o : CvtOp) : Enc :=
  encV3 ((0 : BitVec 2) ++ (b2v o.sat : BitVec 1) ++ o.pos ++ o.src.code ++ o.dty.code) 0 o.sa o.dst
def BScale.dec (b : Body) : Parsed BScale :=
  let f := V3F.of b
  ⟨f.ty == 0xA && !f.bs && f.zeroFrom 7 && f.sb == 0, true, ⟨f.fn.extractLsb' 5 2, f.dst, f.sa⟩⟩
def BScale.enc (o : BScale) : Enc :=
  encV3 ((0 : BitVec 6) ++ o.bt ++ (0 : BitVec 1) ++ (0xA : BitVec 4)) 0 o.sa o.dst
def BQuant.dec (b : Body) : Parsed BQuant :=
  let f := V3F.of b
  ⟨f.ty == 0xA && f.zeroFrom 8, f.bOk, ⟨f.fn.extractLsb' 5 3, f.dst, f.sa, f.b⟩⟩
def BQuant.enc (o : BQuant) : Enc := encV3 (bFn .b4 ((0 : BitVec 5) ++ o.pos) o.b) (bSb o.b) o.sa o.dst
def decXaccAdd (b : Body) : Parsed VReg :=
  let f := V3F.of b
  ⟨f.fn == 5 && f.sb == 0 && f.dst == 0, true, f.sa⟩
def decXaccRd (b : Body) : Parsed UReg :=
  let f := V3F.of b
  ⟨f.fn == 5 && f.sb == 0 && f.sa == 0, uOk f.dst, uF f.dst⟩
def XMac.dec (b : Body) : Parsed XMac :=
  let f := V3F.of b
  ⟨f.hi == 0 && tyOk f.ty && f.dst == 0, true, ⟨tyF f.ty, f.sa, f.sb⟩⟩
def XMac.enc (o : XMac) : Enc := encV3 (fnTy o.ty.code) o.sb o.sa 0
def ActLd.dec (b : Body) : Parsed ActLd :=
  let f := SysF.of b
  ⟨f.fn.extractLsb' 2 15 == 0 && f.sc == 0, uOk f.rd, ⟨uF f.rd, f.sb, f.fn.extractLsb' 0 2⟩⟩
def FactOp.dec (b : Body) : Parsed FactOp :=
  let f := V3F.of b
  ⟨f.ty == 5 && !f.bs && f.zeroFrom 7 && f.sb == 0, true, ⟨f.fn.extractLsb' 5 2, f.dst, f.sa⟩⟩
def FactOp.enc (o : FactOp) : Enc :=
  encV3 ((0 : BitVec 6) ++ o.tb ++ (0 : BitVec 1) ++ (5 : BitVec 4)) 0 o.sa o.dst

/-- The index register and scale (R66): both zero when IXE = 0. -/
def MemF.index (f : MemF) : Option (VReg × BitVec 2) := bif f.ixe == 1 then some (f.ix, f.sc) else none
def MemF.indexOk (f : MemF) : Bool := f.ixe == 1 || (f.ix == 0 && f.sc == 0)
def MemOp.dec (c : Cls) (b : Body) (imm : Word) : Parsed MemOp :=
  let f := MemF.of b
  ⟨f.indexOk && (Space.ofCode f.sp).isSome && (c == .mem || f.disp == 0), true,
    ⟨(Space.ofCode f.sp).getD .global, f.index, f.sb, bif c == .mem then .short f.disp else .long imm⟩⟩
def ixBits (ix : Option (VReg × BitVec 2)) : BitVec 1 × BitVec 2 × BitVec 9 :=
  match ix with
  | none => (0, 0, 0)
  | some x => (1, x.2, x.1)
def MemOp.enc (m : MemOp) (rd : BitVec 9) : Enc :=
  let x := ixBits m.ix
  match m.disp with
  | .short d => ⟨.mem, (MemF.mk d x.1 m.sp.code x.2.1 x.2.2 m.sb rd).body, none⟩
  | .long i => ⟨.long, (MemF.mk 0 x.1 m.sp.code x.2.1 x.2.2 m.sb rd).body, some i⟩
def VMem.dec (c : Cls) (b : Body) (imm : Word) : Parsed VMem :=
  (MemOp.dec c b imm).map fun m => ⟨(MemF.of b).rd, m⟩
def UMem.dec (c : Cls) (b : Body) (imm : Word) : Parsed UMem :=
  let p := MemOp.dec c b imm
  ⟨p.seven, uOk (MemF.of b).rd, ⟨uF (MemF.of b).rd, p.val⟩⟩
def PfOp.dec (c : Cls) (b : Body) (imm : Word) : Parsed PfOp :=
  let p := MemOp.dec c b imm
  let rd := (MemF.of b).rd
  ⟨p.seven && rd.extractLsb' 2 7 == 0, true, ⟨rd.extractLsb' 0 2, p.val⟩⟩
/-- `fe.clr` has RD = 0, or it is illegal with reason 8 (R144). -/
def decFeClr (c : Cls) (b : Body) (imm : Word) : Parsed MemOp :=
  let p := MemOp.dec c b imm
  ⟨p.seven, (MemF.of b).rd == 0, p.val⟩
/-- The ordered MEM layout: bits [63:54] are zero, RMT, SCO and ORD (R66). -/
def AtomOp.dec (c : Cls) (b : Body) (imm : Word) : Parsed AtomOp :=
  let f := MemF.of b
  let sco := f.disp.extractLsb' 2 3
  ⟨f.indexOk && (Space.ofCode f.sp).isSome && f.disp.extractLsb' 6 4 == 0 && scoOk sco, true,
    ⟨f.rd, (Space.ofCode f.sp).getD .global, f.index, f.sb, bif c == .mem then none else some imm,
      Ord.ofCode (f.disp.extractLsb' 0 2), scoF sco, f.disp.getLsbD 5⟩⟩
def AtomOp.enc (o : AtomOp) : Enc :=
  let x := ixBits o.ix
  let d : BitVec 10 := (0 : BitVec 4) ++ (b2v o.rmt : BitVec 1) ++ o.sco.code ++ o.ord.code
  ⟨o.cls, (MemF.mk d x.1 o.sp.code x.2.1 x.2.2 o.sb o.rd).body, o.disp⟩
def FenceOp.dec (b : Body) : Parsed FenceOp :=
  let f := SysF.of b
  let sco := f.fn.extractLsb' 2 3
  ⟨f.fn.extractLsb' 6 11 == 0 && scoOk sco && f.sc == 0 && f.sb == 0 && f.rd == 0, true,
    ⟨Ord.ofCode (f.fn.extractLsb' 0 2), scoF sco, f.fn.getLsbD 5⟩⟩
def FenceOp.enc (o : FenceOp) : Enc :=
  encSys ((0 : BitVec 11) ++ (b2v o.rmt : BitVec 1) ++ o.sco.code ++ o.ord.code) 0 0 0

def AsyOp.dec (b : Body) : Parsed AsyOp :=
  let f := AsyF.of b
  ⟨f.fn == 0 && scoOk f.sco && f.sc == 0 && f.va == 0, true, ⟨scoF f.sco, f.sb⟩⟩
def AsyOp.enc (o : AsyOp) : Enc := encAsy 0 o.sco 0 o.sb 0
def AqPop.dec (b : Body) : Parsed AqPop :=
  let f := AsyF.of b
  ⟨f.fn.extractLsb' 2 12 == 0 && f.sco == 0 && f.sc == 0 && f.sb == 0, true, ⟨f.va, f.fn.extractLsb' 0 2⟩⟩
def MxMma.dec (b : Body) : Parsed MxMma :=
  let f := AsyF.of b
  ⟨f.fn == 0 && scoOk f.sco && f.sc == 0, true, ⟨f.va, f.sb, scoF f.sco⟩⟩
def MxSt.dec (b : Body) : Parsed MxSt :=
  let f := AsyF.of b
  let ty := f.fn.extractLsb' 0 4
  ⟨f.fn.extractLsb' 4 10 == 0 && tyOk ty && scoOk f.sco && f.sc == 0 && f.va == 0, true,
    ⟨tyF ty, f.sb, scoF f.sco⟩⟩
def MxLd.dec (b : Body) : Parsed MxLd :=
  let f := AsyF.of b
  let ty := f.fn.extractLsb' 0 4
  ⟨f.fn.extractLsb' 5 9 == 0 && tyOk ty && scoOk f.sco && f.sc == 0 && f.va == 0, true,
    ⟨f.fn.getLsbD 4, tyF ty, f.sb, scoF f.sco⟩⟩
def MxLd.enc (o : MxLd) : Enc :=
  encAsy ((0 : BitVec 9) ++ (b2v o.sto : BitVec 1) ++ o.ty.code) o.sco 0 o.sb 0
def MxClr.dec (b : Body) : Parsed MxClr :=
  let f := AsyF.of b
  ⟨f.fn.extractLsb' 1 13 == 0 && scoOk f.sco && f.va == 0, true, ⟨f.fn.getLsbD 0, f.sb, f.sc, scoF f.sco⟩⟩
def TdOp.dec (b : Body) : Parsed TdOp :=
  let f := AsyF.of b
  ⟨f.fn == 0 && f.sco == 0 && f.sc == 0, pOk f.va, ⟨pF f.va, f.sb⟩⟩

def BagPut.dec (b : Body) : Parsed BagPut :=
  let f := AsyF.of b
  ⟨f.fn.extractLsb' 5 9 == 0 && scoOk f.sco && f.sc == 0, true,
    ⟨f.fn.extractLsb' 1 4, f.fn.getLsbD 0, scoF f.sco, f.sb, f.va⟩⟩
def BagPut.enc (o : BagPut) : Enc :=
  encAsy ((0 : BitVec 9) ++ o.fp ++ (b2v o.nf : BitVec 1)) o.sco 0 o.sb o.va
def RootCmd.dec (b : Body) (imm : Word) : Parsed RootCmd :=
  let f := AsyF.of b
  ⟨f.fn == 0 && scoOk f.sco && f.va == 0, true, ⟨scoF f.sco, f.sb, f.sc, imm⟩⟩
def RootCmd.enc (o : RootCmd) : Enc := (encAsy 0 o.sco o.sc o.sb 0).long o.tgt
def BagDrain.dec (b : Body) : Parsed BagDrain :=
  let f := AsyF.of b
  ⟨f.fn == 0 && scoOk f.sco && f.va == 0, true, ⟨scoF f.sco, f.sb, f.sc⟩⟩
def BagCnt.dec (b : Body) : Parsed BagCnt :=
  let f := V3F.of b
  ⟨f.zeroFrom 2, uOk f.dst && uOk f.sa && uOk f.sb, ⟨f.fn.extractLsb' 0 2, uF f.dst, uF f.sa, uF f.sb⟩⟩
def BagCnt.enc (o : BagCnt) : Enc := encV3 (o.sel.setWidth 13) (u9 o.sb) (u9 o.sa) (u9 o.dst)
def U3.decV3 (b : Body) : Parsed U3 :=
  let f := V3F.of b
  ⟨f.fn == 0, uOk f.dst && uOk f.sa && uOk f.sb, ⟨uF f.dst, uF f.sa, uF f.sb⟩⟩
def U3.encV3 (o : U3) : Enc := Sys2Proof.encV3 0 (u9 o.sb) (u9 o.sa) (u9 o.dst)
def CrownSum.dec (b : Body) : Parsed CrownSum :=
  let f := AsyF.of b
  ⟨f.fn.extractLsb' 2 12 == 0 && scoOk f.sco && f.sc == 0 && f.va == 0, true,
    ⟨f.fn.getLsbD 1, f.fn.getLsbD 0, scoF f.sco, f.sb⟩⟩
def CrownSum.enc (o : CrownSum) : Enc :=
  encAsy ((0 : BitVec 12) ++ (b2v o.gw : BitVec 1) ++ (b2v o.clr : BitVec 1)) o.sco 0 o.sb 0
def decCrownClr (b : Body) : Parsed Scope :=
  let f := AsyF.of b
  ⟨f.fn == 0 && scoOk f.sco && f.sc == 0 && f.sb == 0 && f.va == 0, true, scoF f.sco⟩
def RecLd.dec (b : Body) : Parsed RecLd :=
  let f := V3F.of b
  ⟨f.fn.extractLsb' 0 6 == 0 && f.sb == 0 && f.sa == 0, true, ⟨f.dst, f.fn.extractLsb' 6 7⟩⟩
def RecLd.enc (o : RecLd) : Enc := encV3 (o.off ++ (0 : BitVec 6)) 0 0 o.dst
def RecSt.dec (b : Body) : Parsed RecSt :=
  let f := V3F.of b
  ⟨f.fn.extractLsb' 0 6 == 0 && f.sb == 0 && f.dst == 0, true, ⟨f.fn.extractLsb' 6 7, f.sa⟩⟩
def RecSt.enc (o : RecSt) : Enc := encV3 (o.off ++ (0 : BitVec 6)) 0 o.sa 0
def decRecIdx (b : Body) : Parsed VReg :=
  let f := V3F.of b
  ⟨f.fn == 0 && f.sb == 0 && f.sa == 0, true, f.dst⟩
def CrownPut.dec (b : Body) : Parsed CrownPut :=
  let f := V3F.of b
  ⟨f.hi == 0 && tyOk f.ty && f.dst == 0, uOk f.sb, ⟨tyF f.ty, f.sa, uF f.sb⟩⟩
def CrownPut.enc (o : CrownPut) : Enc := encV3 (fnTy o.ty.code) (u9 o.sb) o.sa 0
/-- V3 with every operand bit zero. -/
def decZero (b : Body) : Parsed Unit := ⟨b == 0, true, ()⟩

/-- SEL and the pair of `emeter` and `equota` (R256). -/
noncomputable def decMeter (h : Head) (b : Body) : Parsed Instr :=
  let f := SysF.of b
  ⟨f.fn.extractLsb' 1 16 == 0 && f.sc == 0 && f.sb == 0, uOk f.rd,
    bif f.fn.getLsbD 0 then .emeterShr h (uF f.rd) else .emeter h (uF f.rd)⟩
noncomputable def decQuota (h : Head) (b : Body) : Parsed Instr :=
  let f := SysF.of b
  let sel := f.fn.extractLsb' 0 2
  ⟨f.fn.extractLsb' 2 15 == 0 && sel != 3 && f.sc == 0 && f.sb == 0, uOk f.rd,
    bif sel == 0 then .equota h (uF f.rd) else bif sel == 1 then .equotaFill h (uF f.rd) else .equotaCap h (uF f.rd)⟩
/-- A system form with rd, sb and sc, and function bits from `k` up zero. -/
def Sys3.dec (k : Nat) (b : Body) : Parsed Sys3 :=
  let f := SysF.of b
  ⟨(f.fn >>> k) == 0, uOk f.rd, ⟨uF f.rd, f.sb, f.sc⟩⟩
def Sys3.enc (o : Sys3) (fn : BitVec 17) : Enc := encSys fn o.sc o.sb (u9 o.rd)
noncomputable def decSnap (h : Head) (b : Body) : Parsed Instr :=
  (Sys3.dec 1 b).map fun o => bif (SysF.of b).fn.getLsbD 0 then .dirtySnapFin h o else .dirtySnap h o
def VfStop.dec (b : Body) : Parsed VfStop :=
  let f := SysF.of b
  ⟨f.fn.extractLsb' 8 9 == 0, uOk f.rd, ⟨uF f.rd, f.sb, f.sc, f.fn.extractLsb' 0 8⟩⟩
/-- The four forms of `tret`, by MODE (R314). -/
noncomputable def decTret (h : Head) (b : Body) : Parsed Instr :=
  let f := SysF.of b
  let m := f.fn.extractLsb' 0 2
  ⟨f.fn.extractLsb' 2 15 == 0 && f.sc == 0 && f.sb == 0 && (m == 3 || f.rd == 0), true,
    bif m == 0 then .tret h else bif m == 1 then .tretNext h else bif m == 2 then .tretAnc h else .tretVector h f.rd⟩
/-- SYS with rd alone, a vector. -/
def decRdV (b : Body) : Parsed VReg :=
  let f := SysF.of b
  ⟨f.fn == 0 && f.sc == 0 && f.sb == 0, true, f.rd⟩
/-- SYS with rd alone, a uniform. -/
def decRdU (b : Body) : Parsed UReg :=
  let f := SysF.of b
  ⟨f.fn == 0 && f.sc == 0 && f.sb == 0, uOk f.rd, uF f.rd⟩
noncomputable def decSvEnd (h : Head) (b : Body) : Parsed Instr :=
  let f := SysF.of b
  ⟨f.fn.extractLsb' 1 16 == 0 && f.sc == 0 && f.sb == 0 && f.rd == 0, true,
    bif f.fn.getLsbD 0 then .svEndRes h else .svEnd h⟩
def TlbInv.dec (b : Body) : Parsed TlbInv :=
  let f := SysF.of b
  ⟨f.fn.extractLsb' 12 5 == 0 && f.rd == 0, true, ⟨f.sb, f.sc, f.fn.extractLsb' 0 12⟩⟩
def VfPre.dec (b : Body) : Parsed VfPre :=
  let f := SysF.of b
  ⟨!f.fn.getLsbD 16 && f.sb == 0, uOk f.rd, ⟨uF f.rd, f.sc, f.fn.extractLsb' 0 16⟩⟩
def decVfRst (b : Body) : Parsed UReg :=
  let f := SysF.of b
  ⟨f.fn == 0 && f.sb == 0 && f.rd == 0, true, f.sc⟩
noncomputable def decPoolAdd (h : Head) (b : Body) : Parsed Instr :=
  let f := SysF.of b
  let o : PoolAdd := ⟨uF f.rd, f.sb, f.sc, f.fn.extractLsb' 0 12⟩
  ⟨f.fn.extractLsb' 13 4 == 0, uOk f.rd, bif f.fn.getLsbD 12 then .poolAddCap h o else .poolAdd h o⟩
def PoolAdd.enc (o : PoolAdd) (t : BitVec 1) : Enc :=
  encSys ((0 : BitVec 4) ++ t ++ o.n) o.sc o.sb (u9 o.rd)
def MigOp.dec (b : Body) : Parsed MigOp :=
  let f := SysF.of b
  ⟨f.fn == 0 && f.rd == 0, true, ⟨f.sb, f.sc⟩⟩

/-! ### Operations by number -/

/-- How the operand area of one operation is read. -/
structure Layout where
  op  : Nat
  dec : Head → Cls → Body → Word → Parsed Instr


/-- Layouts of uniform and control (chapter 05). -/
def layUniform : List Layout := [
  ⟨0x000, fun h c b imm => (UBin.dec c b imm).map (.addUniform h)⟩,
  ⟨0x001, fun h c b imm => (UBin.dec c b imm).map (.subUniform h)⟩,
  ⟨0x002, fun h c b imm => (UBin.dec c b imm).map (.mulUniform h)⟩,
  ⟨0x003, fun h c b imm => (UBin.dec c b imm).map (.mulhUniform h)⟩,
  ⟨0x004, fun h c b imm => (UBin.dec c b imm).map (.minUniform h)⟩,
  ⟨0x005, fun h c b imm => (UBin.dec c b imm).map (.maxUniform h)⟩,
  ⟨0x006, fun h c b imm => (UBin.dec c b imm).map (.andUniform h)⟩,
  ⟨0x007, fun h c b imm => (UBin.dec c b imm).map (.orUniform h)⟩,
  ⟨0x008, fun h c b imm => (UBin.dec c b imm).map (.xorUniform h)⟩,
  ⟨0x009, fun h c b imm => (UBin.dec c b imm).map (.andnUniform h)⟩,
  ⟨0x00A, fun h c b imm => (UBin.dec c b imm).map (.divUniform h)⟩,
  ⟨0x00B, fun h c b imm => (UBin.dec c b imm).map (.remUniform h)⟩,
  ⟨0x00C, fun h c b imm => (UBin.dec c b imm).map (.addsUniform h)⟩,
  ⟨0x00D, fun h c b imm => (UBin.dec c b imm).map (.subsUniform h)⟩,
  ⟨0x020, fun h c b imm => (UBin.dec c b imm).map (.shlUniform h)⟩,
  ⟨0x021, fun h c b imm => (UBin.dec c b imm).map (.shrUniform h)⟩,
  ⟨0x022, fun h c b imm => (SetCc.dec c b imm).map (.setCc h)⟩,
  ⟨0x023, fun h c b imm => (UBin.dec c b imm).map (.add64 h)⟩,
  ⟨0x024, fun h c b imm => (UBin.dec c b imm).map (.sub64 h)⟩,
  ⟨0x025, fun h c b imm => (UBin.dec c b imm).map (.mulw h)⟩,
  ⟨0x026, fun h c b imm => (UBin.dec c b imm).map (.shl64 h)⟩,
  ⟨0x027, fun h c b imm => (UBin.dec c b imm).map (.shr64 h)⟩,
  ⟨0x028, fun h c b imm => (UBin.dec c b imm).map (.sar64 h)⟩,
  ⟨0x029, fun h _ b _ => (LeaOp.dec b).map (.lea h)⟩,
  ⟨0x030, fun h c b imm => (UImm.dec c b imm).map (.movUniformImm h)⟩,
  ⟨0x031, fun h _ b _ => (U2.decVI b).map (.movUniformReg h)⟩,
  ⟨0x032, fun h _ b _ => (FromSpecial.dec b).map (.movUniformFromSpecial h)⟩,
  ⟨0x033, fun h _ b _ => (VSpecial.dec b).map (.movVectorFromSpecial h)⟩,
  ⟨0x034, fun h _ b _ => (ToSpecial.dec b).map (.movToSpecial h)⟩,
  ⟨0x035, fun h _ b _ => (U2.decVI b).map (.mov64 h)⟩,
  ⟨0x040, fun h _ b _ => (PBin.dec b).map (.pand h)⟩,
  ⟨0x041, fun h _ b _ => (PBin.dec b).map (.por h)⟩,
  ⟨0x042, fun h _ b _ => (PBin.dec b).map (.pxor h)⟩,
  ⟨0x043, fun h _ b _ => (PBin.dec b).map (.pandn h)⟩,
  ⟨0x044, fun h _ b _ => (PUn.dec b).map (.pnot h)⟩,
  ⟨0x045, fun h _ b _ => (PFromU.dec b).map (.pset h)⟩,
  ⟨0x046, fun h _ b _ => (UFromP.dec b).map (.pget h)⟩,
  ⟨0x047, fun h _ b _ => (UFromP.dec b).map (.pcnt h)⟩,
  ⟨0x080, fun h c b imm => (BrCc.dec c b imm).map (.brCc h)⟩,
  ⟨0x081, fun h c b imm => (BrVoteOp.dec c b imm).map (.brVote h)⟩,
  ⟨0x082, fun h _ b _ => decJmp h b⟩,
  ⟨0x083, fun h c b imm => decCall h c b imm⟩,
  ⟨0x0A0, fun h _ b _ => (decSys0 b).map (fun _ => .exit h)⟩,
  ⟨0x0A1, fun h _ b _ => (decN12 b).map (.nap h)⟩,
  ⟨0x0A2, fun h _ b _ => (decSys0 b).map (fun _ => .done h)⟩,
  ⟨0x0A3, fun h _ b _ => (SetVl.dec b).map (.setvl h)⟩,
  ⟨0x0A4, fun h _ b _ => (SetVtype.dec b).map (.setvtype h)⟩,
  ⟨0x0B0, fun h c b imm => (WaitArg.dec c b imm).map (.wait h)⟩,
  ⟨0x0B1, fun h _ b _ => (decSys0 b).map (fun _ => .barTeam h)⟩,
  ⟨0x0B2, fun h _ b _ => (decSys0 b).map (fun _ => .barGang h)⟩,
  ⟨0x0C0, fun h _ b _ => (U2.decSb b).map (.taskPost h)⟩,
  ⟨0x0C1, fun h _ b _ => (decN12 b).map (.trap h)⟩]

/-- Layouts of vector integer (chapters 03 and 06). -/
def layVector : List Layout := [
  ⟨0x100, fun h c b imm => (VBin.dec c b imm).map (.addVector h)⟩,
  ⟨0x101, fun h c b imm => (VBin.dec c b imm).map (.subVector h)⟩,
  ⟨0x102, fun h c b imm => (VBin.dec c b imm).map (.addsVector h)⟩,
  ⟨0x103, fun h c b imm => (VBin.dec c b imm).map (.subsVector h)⟩,
  ⟨0x104, fun h c b imm => (VBin.dec c b imm).map (.minVector h)⟩,
  ⟨0x105, fun h c b imm => (VBin.dec c b imm).map (.maxVector h)⟩,
  ⟨0x106, fun h _ b _ => (VUnTy.dec b).map (.abs h)⟩,
  ⟨0x107, fun h c b imm => (VBin.dec c b imm).map (.absd h)⟩,
  ⟨0x108, fun h c b imm => (VBin.dec c b imm).map (.mulVector h)⟩,
  ⟨0x109, fun h c b imm => (VBin.dec c b imm).map (.mulhVector h)⟩,
  ⟨0x10A, fun h _ b _ => (VTri.dec b).map (.mad h)⟩,
  ⟨0x120, fun h c b imm => (VBin.dec c b imm).map (.shlVector h)⟩,
  ⟨0x121, fun h c b imm => (VBin.dec c b imm).map (.shrVector h)⟩,
  ⟨0x124, fun h _ b _ => (Funnel.dec b).map (.fshl h)⟩,
  ⟨0x125, fun h _ b _ => (Funnel.dec b).map (.fshr h)⟩,
  ⟨0x130, fun h _ b imm => (Lut3Op.dec b imm).map (.lut3 h)⟩,
  ⟨0x131, fun h c b imm => (VBin.decLg c b imm).map (.andVector h)⟩,
  ⟨0x132, fun h c b imm => (VBin.decLg c b imm).map (.orVector h)⟩,
  ⟨0x133, fun h c b imm => (VBin.decLg c b imm).map (.xorVector h)⟩,
  ⟨0x134, fun h c b imm => (VBin.decLg c b imm).map (.andnVector h)⟩,
  ⟨0x135, fun h _ b _ => (VUn.dec 0 b).map (.not h)⟩,
  ⟨0x140, fun h _ b _ => (VUn.dec 0 b).map (.popc h)⟩,
  ⟨0x141, fun h _ b _ => (VUn.dec 0 b).map (.clz h)⟩,
  ⟨0x142, fun h _ b _ => (VUn.dec 0 b).map (.ctz h)⟩,
  ⟨0x143, fun h _ b _ => (VUn.dec 0 b).map (.brev h)⟩,
  ⟨0x144, fun h c b _ => (BField.dec c b).map (.bfx h)⟩,
  ⟨0x145, fun h c b _ => (BField.dec c b).map (.bfi h)⟩,
  ⟨0x150, fun h c b imm => (VCmp.dec c b imm).map (.cmpEq h)⟩,
  ⟨0x151, fun h c b imm => (VCmp.dec c b imm).map (.cmpNe h)⟩,
  ⟨0x152, fun h c b imm => (VCmp.dec c b imm).map (.cmpLt h)⟩,
  ⟨0x153, fun h c b imm => (VCmp.dec c b imm).map (.cmpGe h)⟩,
  ⟨0x154, fun h c b imm => (VCmp.dec c b imm).map (.cmpLe h)⟩,
  ⟨0x155, fun h c b imm => (VCmp.dec c b imm).map (.cmpGt h)⟩,
  ⟨0x156, fun h _ b _ => (SelOp.dec b).map (.sel h)⟩,
  ⟨0x160, fun h c b imm => (VBin.dec c b imm).map (.padd h)⟩,
  ⟨0x161, fun h c b imm => (VBin.dec c b imm).map (.psub h)⟩,
  ⟨0x162, fun h c b imm => (VBin.dec c b imm).map (.padds h)⟩,
  ⟨0x163, fun h c b imm => (VBin.dec c b imm).map (.psubs h)⟩,
  ⟨0x164, fun h c b imm => (VBin.dec c b imm).map (.pmin h)⟩,
  ⟨0x165, fun h c b imm => (VBin.dec c b imm).map (.pmax h)⟩,
  ⟨0x166, fun h c b imm => (VBin.dec c b imm).map (.pabsd h)⟩,
  ⟨0x167, fun h _ b _ => (VTri.dec b).map (.pdot h)⟩,
  ⟨0x168, fun h _ b _ => (PackOp.dec b).map (.pack h)⟩,
  ⟨0x180, fun h c b _ => (LMove.dec c b).map (.lrot h)⟩,
  ⟨0x181, fun h c b _ => (LMove.dec c b).map (.lsh h)⟩,
  ⟨0x182, fun h c b _ => (LMove.dec c b).map (.bcast h)⟩,
  ⟨0x183, fun h _ b _ => (V3R.dec b).map (.perm h)⟩,
  ⟨0x184, fun h c b _ => (LextOp.dec c b).map (.lext h)⟩,
  ⟨0x185, fun h c b _ => (LinsOp.dec c b).map (.lins h)⟩,
  ⟨0x1B0, fun h _ b _ => (UFromP.dec b).map (.voteAny h)⟩,
  ⟨0x1B1, fun h _ b _ => (UFromP.dec b).map (.voteAll h)⟩,
  ⟨0x1B2, fun h _ b _ => (UFromP.dec b).map (.voteCnt h)⟩,
  ⟨0x1B3, fun h _ b _ => (UFromP.dec b).map (.voteMsk h)⟩,
  ⟨0x1B4, fun h _ b _ => (UFromV.dec b).map (.voteEq h)⟩,
  ⟨0x1B5, fun h _ b _ => (decElect b).map (.elect h)⟩,
  ⟨0x1C0, fun h _ b _ => (RedArg.dec b).map (.red h)⟩,
  ⟨0x1C1, fun h _ b _ => (ScanArg.dec b).map (.scan h)⟩,
  ⟨0x1C2, fun h _ b _ => (ScanArg.dec b).map (.scanx h)⟩,
  ⟨0x1F0, fun h _ b _ => (IxRead.dec b).map (.movIxRead h)⟩,
  ⟨0x1F1, fun h _ b _ => (IxWrite.dec b).map (.movIxWrite h)⟩,
  ⟨0x1F2, fun h _ b _ => (VUn.dec 0 b).map (.movVectorReg h)⟩,
  ⟨0x1F3, fun h c b imm => (VImm.dec c b imm).map (.movVectorImm h)⟩,
  ⟨0x1F4, fun h _ b _ => (VFromU.decSa b).map (.movVectorUniform h)⟩]

/-- Layouts of floating point (chapter 07). -/
def layFloat : List Layout := [
  ⟨0x200, fun h c b imm => (VBin.dec c b imm).map (.fadd h)⟩,
  ⟨0x201, fun h c b imm => (VBin.dec c b imm).map (.fsub h)⟩,
  ⟨0x202, fun h c b imm => (VBin.dec c b imm).map (.fmul h)⟩,
  ⟨0x203, fun h _ b _ => (VTri.dec b).map (.fma h)⟩,
  ⟨0x204, fun h _ b _ => (VTri.dec b).map (.fms h)⟩,
  ⟨0x205, fun h _ b _ => (VTri.dec b).map (.fnma h)⟩,
  ⟨0x206, fun h _ b _ => (VTri.dec b).map (.fnms h)⟩,
  ⟨0x207, fun h _ b _ => (VUnTy.dec b).map (.fneg h)⟩,
  ⟨0x208, fun h _ b _ => (VUnTy.dec b).map (.fabs h)⟩,
  ⟨0x209, fun h c b imm => (VBin.dec c b imm).map (.fsgn h)⟩,
  ⟨0x220, fun h c b imm => (VBin.dec c b imm).map (.fmin h)⟩,
  ⟨0x221, fun h c b imm => (VBin.dec c b imm).map (.fmax h)⟩,
  ⟨0x222, fun h _ b _ => (FCmpOp.dec b).map (.fcmp h)⟩,
  ⟨0x223, fun h _ b _ => (VUn.dec 5 b).map (.fclass h)⟩,
  ⟨0x230, fun h c b imm => (VBin.dec c b imm).map (.fdiv h)⟩,
  ⟨0x231, fun h _ b _ => (VUnTy.dec b).map (.fsqrt h)⟩,
  ⟨0x232, fun h _ b _ => (VUn.dec 5 b).map (.frcp h)⟩,
  ⟨0x233, fun h _ b _ => (VUn.dec 5 b).map (.frsq h)⟩,
  ⟨0x240, fun h _ b _ => (CvtOp.dec b).map (.cvtFloat h)⟩,
  ⟨0x241, fun h _ b _ => (CvtOp.dec b).map (.cvtIntFloat h)⟩,
  ⟨0x242, fun h _ b _ => (VUn.dec 5 b).map (.frint h)⟩,
  ⟨0x243, fun h _ b _ => (BScale.dec b).map (.bscale h)⟩,
  ⟨0x244, fun h _ b _ => (BQuant.dec b).map (.bq h)⟩,
  ⟨0x245, fun h _ b _ => (BQuant.dec b).map (.bdq h)⟩,
  ⟨0x260, fun h _ b _ => (decSys0 b).map (fun _ => .xaccClr h)⟩,
  ⟨0x261, fun h _ b _ => (decXaccAdd b).map (.xaccAdd h)⟩,
  ⟨0x262, fun h _ b _ => (XMac.dec b).map (.xaccMac h)⟩,
  ⟨0x263, fun h _ b _ => (decXaccRd b).map (.xaccRd h)⟩,
  ⟨0x280, fun h _ b _ => (VUn.dec 5 b).map (.fsin h)⟩,
  ⟨0x281, fun h _ b _ => (VUn.dec 5 b).map (.fcos h)⟩,
  ⟨0x282, fun h _ b _ => (VUn.dec 5 b).map (.fexp2 h)⟩,
  ⟨0x283, fun h _ b _ => (VUn.dec 5 b).map (.flog2 h)⟩,
  ⟨0x290, fun h _ b _ => (ActLd.dec b).map (.actLd h)⟩,
  ⟨0x291, fun h _ b _ => (FactOp.dec b).map (.fact h)⟩,
  ⟨0x2A0, fun h _ b _ => (VFromU.decSb b).map (.rngInit h)⟩,
  ⟨0x2A1, fun h _ b _ => (VUn.dec 0 b).map (.rngNext h)⟩,
  ⟨0x2A2, fun h _ b _ => (VFromU.decSb b).map (.rngJump h)⟩]

/-- Layouts of loads and stores (chapter 08). -/
def layMemory : List Layout := [
  ⟨0x2C0, fun h c b imm => (VMem.dec c b imm).map (.ldB32 h)⟩,
  ⟨0x2C1, fun h c b imm => (VMem.dec c b imm).map (.ldI8 h)⟩,
  ⟨0x2C2, fun h c b imm => (VMem.dec c b imm).map (.ldN8 h)⟩,
  ⟨0x2C3, fun h c b imm => (VMem.dec c b imm).map (.ldF16 h)⟩,
  ⟨0x2C4, fun h c b imm => (VMem.dec c b imm).map (.ldB4 h)⟩,
  ⟨0x2C5, fun h c b imm => (VMem.dec c b imm).map (.ldW2 h)⟩,
  ⟨0x2C6, fun h c b imm => (VMem.dec c b imm).map (.ldW4 h)⟩,
  ⟨0x2C8, fun h c b imm => (VMem.dec c b imm).map (.ldFfB32 h)⟩,
  ⟨0x2C9, fun h c b imm => (VMem.dec c b imm).map (.ldFfN8 h)⟩,
  ⟨0x2CC, fun h c b imm => (UMem.dec c b imm).map (.ldsB32 h)⟩,
  ⟨0x2CD, fun h c b imm => (UMem.dec c b imm).map (.ldsW2 h)⟩,
  ⟨0x2D0, fun h c b imm => (VMem.dec c b imm).map (.ldSync h)⟩,
  ⟨0x2E0, fun h c b imm => (VMem.dec c b imm).map (.stB32 h)⟩,
  ⟨0x2E1, fun h c b imm => (VMem.dec c b imm).map (.stN8 h)⟩,
  ⟨0x2E2, fun h c b imm => (VMem.dec c b imm).map (.stF16 h)⟩,
  ⟨0x2E3, fun h c b imm => (VMem.dec c b imm).map (.stB4 h)⟩,
  ⟨0x2E4, fun h c b imm => (VMem.dec c b imm).map (.stW2 h)⟩,
  ⟨0x2E5, fun h c b imm => (VMem.dec c b imm).map (.stW4 h)⟩,
  ⟨0x2E8, fun h c b imm => (UMem.dec c b imm).map (.stsB32 h)⟩,
  ⟨0x2E9, fun h c b imm => (UMem.dec c b imm).map (.stsW2 h)⟩,
  ⟨0x2F0, fun h c b imm => (VMem.dec c b imm).map (.stSync h)⟩,
  ⟨0x2F8, fun h c b imm => (PfOp.dec c b imm).map (.pf h)⟩,
  ⟨0x2F9, fun h c b imm => (VMem.dec c b imm).map (.stFill h)⟩,
  ⟨0x2FA, fun h c b imm => (decFeClr c b imm).map (.feClr h)⟩]

/-- Layouts of atomics, fences, the access processor, hints (chapters 17 and 18). -/
def layOrder : List Layout := [
  ⟨0x300, fun h c b imm => (AtomOp.dec c b imm).map (.atomAdd h)⟩,
  ⟨0x301, fun h c b imm => (AtomOp.dec c b imm).map (.atomMinI32 h)⟩,
  ⟨0x302, fun h c b imm => (AtomOp.dec c b imm).map (.atomMinN32 h)⟩,
  ⟨0x303, fun h c b imm => (AtomOp.dec c b imm).map (.atomMaxI32 h)⟩,
  ⟨0x304, fun h c b imm => (AtomOp.dec c b imm).map (.atomMaxN32 h)⟩,
  ⟨0x305, fun h c b imm => (AtomOp.dec c b imm).map (.atomAnd h)⟩,
  ⟨0x306, fun h c b imm => (AtomOp.dec c b imm).map (.atomOr h)⟩,
  ⟨0x307, fun h c b imm => (AtomOp.dec c b imm).map (.atomXor h)⟩,
  ⟨0x308, fun h c b imm => (AtomOp.dec c b imm).map (.atomXchg h)⟩,
  ⟨0x309, fun h c b imm => (AtomOp.dec c b imm).map (.atomCas h)⟩,
  ⟨0x30A, fun h c b imm => (AtomOp.dec c b imm).map (.atomFadd h)⟩,
  ⟨0x310, fun h c b imm => (AtomOp.dec c b imm).map (.updAdd h)⟩,
  ⟨0x311, fun h c b imm => (AtomOp.dec c b imm).map (.updMinI32 h)⟩,
  ⟨0x312, fun h c b imm => (AtomOp.dec c b imm).map (.updMinN32 h)⟩,
  ⟨0x313, fun h c b imm => (AtomOp.dec c b imm).map (.updMaxI32 h)⟩,
  ⟨0x314, fun h c b imm => (AtomOp.dec c b imm).map (.updMaxN32 h)⟩,
  ⟨0x315, fun h c b imm => (AtomOp.dec c b imm).map (.updAnd h)⟩,
  ⟨0x316, fun h c b imm => (AtomOp.dec c b imm).map (.updOr h)⟩,
  ⟨0x317, fun h c b imm => (AtomOp.dec c b imm).map (.updXor h)⟩,
  ⟨0x31A, fun h c b imm => (AtomOp.dec c b imm).map (.updFadd h)⟩,
  ⟨0x320, fun h _ b _ => (FenceOp.dec b).map (.fence h)⟩,
  ⟨0x330, fun h _ b _ => (AsyOp.dec b).map (.apCpy h)⟩,
  ⟨0x331, fun h _ b _ => (AsyOp.dec b).map (.apCp2 h)⟩,
  ⟨0x332, fun h _ b _ => (AsyOp.dec b).map (.apGth h)⟩,
  ⟨0x333, fun h _ b _ => (AsyOp.dec b).map (.apSct h)⟩,
  ⟨0x334, fun h _ b _ => (AqPop.dec b).map (.aqPop h)⟩,
  ⟨0x350, fun h _ b _ => (AsyOp.dec b).map (.tst h)⟩,
  ⟨0x351, fun h _ b _ => (AsyOp.dec b).map (.tldV h)⟩,
  ⟨0x360, fun h _ b _ => (MigOp.dec b).map (.migUp h)⟩,
  ⟨0x361, fun h _ b _ => (MigOp.dec b).map (.migDown h)⟩]

/-- Layouts of the matrix engine, bags, root units (chapters 10, 11, 15). -/
noncomputable def layEngines : List Layout := [
  ⟨0x380, fun h _ b _ => (MxMma.dec b).map (.mxMma h)⟩,
  ⟨0x381, fun h _ b _ => (MxSt.dec b).map (.mxSt h)⟩,
  ⟨0x382, fun h _ b _ => (MxLd.dec b).map (.mxLd h)⟩,
  ⟨0x383, fun h _ b _ => (MxClr.dec b).map (.mxClr h)⟩,
  ⟨0x384, fun h _ b _ => (AsyOp.dec b).map (.mxRq h)⟩,
  ⟨0x385, fun h _ b _ => (TdOp.dec b).map (.tdLd h)⟩,
  ⟨0x386, fun h _ b _ => (TdOp.dec b).map (.tdSt h)⟩,
  ⟨0x387, fun h _ b _ => (TdOp.dec b).map (.tdBase h)⟩,
  ⟨0x390, fun h _ b _ => (U2.decV3 b).map (.bagNew h)⟩,
  ⟨0x391, fun h _ b _ => (BagPut.dec b).map (.bagPut h)⟩,
  ⟨0x392, fun h _ b _ => (AsyOp.dec b).map (.bagSnap h)⟩,
  ⟨0x393, fun h _ b imm => (RootCmd.dec b imm).map (.bagEach h)⟩,
  ⟨0x394, fun h _ b _ => (BagDrain.dec b).map (.bagDrain h)⟩,
  ⟨0x395, fun h _ b _ => (BagCnt.dec b).map (.bagCnt h)⟩,
  ⟨0x396, fun h _ b _ => (U3.decV3 b).map (.bagGrow h)⟩,
  ⟨0x397, fun h _ b _ => (AsyOp.dec b).map (.bagSeal h)⟩,
  ⟨0x398, fun h _ b _ => (AsyOp.dec b).map (.bagFree h)⟩,
  ⟨0x3A0, fun h _ b imm => (RootCmd.dec b imm).map (.rootRun h)⟩,
  ⟨0x3A1, fun h _ b _ => (AsyOp.dec b).map (.bmac h)⟩,
  ⟨0x3A2, fun h _ b _ => (CrownSum.dec b).map (.crownSum h)⟩,
  ⟨0x3A3, fun h _ b _ => (decCrownClr b).map (.crownClr h)⟩,
  ⟨0x3A4, fun h _ b _ => (RecLd.dec b).map (.recLd h)⟩,
  ⟨0x3A5, fun h _ b _ => (RecSt.dec b).map (.recSt h)⟩,
  ⟨0x3A6, fun h _ b _ => (decRecIdx b).map (.recIdx h)⟩,
  ⟨0x3A7, fun h c b imm => (VMem.dec c b imm).map (.rld h)⟩,
  ⟨0x3A8, fun h c b imm => (VMem.dec c b imm).map (.rst h)⟩,
  ⟨0x3A9, fun h _ b _ => (U3.decV3 b).map (.zskip h)⟩,
  ⟨0x3AA, fun h _ b _ => (CrownPut.dec b).map (.crownPut h)⟩,
  ⟨0x3AB, fun h _ b _ => (decZero b).map (fun _ => .rkNext h)⟩]

/-- Layouts of the meter and the system (chapters 16, 20, 21). -/
noncomputable def laySystem : List Layout := [
  ⟨0x3B0, fun h _ b _ => decMeter h b⟩,
  ⟨0x3B1, fun h _ b _ => decQuota h b⟩,
  ⟨0x3C0, fun h _ b _ => decTret h b⟩,
  ⟨0x3C1, fun h _ b _ => (decRdV b).map (.tinfo h)⟩,
  ⟨0x3C2, fun h _ b _ => (decRdU b).map (.wentSt h)⟩,
  ⟨0x3C3, fun h _ b _ => (decRdU b).map (.wentLd h)⟩,
  ⟨0x3C4, fun h _ b _ => decSvEnd h b⟩,
  ⟨0x3C5, fun h _ b _ => (Sys3.dec 0 b).map (.dtabLd h)⟩,
  ⟨0x3C6, fun h _ b _ => (TlbInv.dec b).map (.tlbInv h)⟩,
  ⟨0x3C7, fun h _ b _ => (U2.decSc b).map (.vfStart h)⟩,
  ⟨0x3C8, fun h _ b _ => (VfPre.dec b).map (.vfPre h)⟩,
  ⟨0x3C9, fun h _ b _ => (decVfRst b).map (.vfRst h)⟩,
  ⟨0x3CA, fun h _ b _ => (U2.decSb b).map (.sliceSet h)⟩,
  ⟨0x3CB, fun h _ b _ => decPoolAdd h b⟩,
  ⟨0x3D0, fun h _ b _ => decSnap h b⟩,
  ⟨0x3D1, fun h _ b _ => (VfStop.dec b).map (.vfStop h)⟩]

/-- The layouts of map 1's operations. -/
noncomputable def layouts : List Layout :=
  layUniform ++ layVector ++ layFloat ++ layMemory ++ layOrder ++ layEngines ++ laySystem

/-! ### Decoding -/

/-- Why the parcels at a position are no instruction: an illegal-instruction reason of R75, or a block overrun. -/
inductive DecErr where
  | illegal (reason : Nat)
  | overrun
  deriving DecidableEq, Repr

/-- What stands at a position: an instruction or a pad, with its length in parcels. -/
inductive Item where
  | instr (i : Instr) (len : Nat)
  | pad
  deriving DecidableEq, Repr

/-- What decoding depends on beside the parcels: the context's decode table (none: map 1), whether it is
the supervisor (R74), and whether a root unit issues (R172). -/
structure DecCtx where
  table : Option (List DWord)
  sup   : Bool
  root  : Bool
  deriving DecidableEq, Repr

/-- An entry as R72 lays it out; none when V = 0. -/
def Entry.ofWord (w : DWord) : Option Entry :=
  if w.getLsbD 63 then
    some { fmts := w.extractLsb' 48 8
           lb := [Cls.v3, .v4, .vi, .mem, .br, .asy, .sys][(w.extractLsb' 45 3).toNat]?
           accs := w.extractLsb' 42 3
           mul := w.getLsbD 41
           pfx := w.getLsbD 40
           sup := w.getLsbD 39
           op := (w.extractLsb' 0 16).toNat }
  else none

/-- The decode entry for OPC (R72). -/
def DecCtx.entry (c : DecCtx) (opc : Nat) : Option Entry :=
  match c.table with
  | none => map1Entry opc
  | some t => (t[opc]?).bind Entry.ofWord

/-- CLS of a parcel. -/
def parcelCls (p : Word) : BitVec 4 := p.extractLsb' 0 4

/-- The prefix fields of a parcel (R70). -/
def prefixOf (p : Word) : Prefix :=
  { go := p.extractLsb' 23 2, tz := p.getLsbD 22, mz := p.getLsbD 21, v4th := p.extractLsb' 12 9
    rm := p.extractLsb' 9 3, mn := p.getLsbD 8, mask := p.extractLsb' 4 4 }

/-- The head fields of an instruction's first parcel (R60). -/
def headOf (p : Word) (pfx : Option Prefix) : Head :=
  { hold := p.extractLsb' 21 3, acc := p.extractLsb' 19 2, pn := p.getLsbD 18, pred := p.extractLsb' 14 4
    pfx := pfx }

/-- OPC of an instruction's first parcel. -/
def opcOf (p : Word) : Nat := (p.extractLsb' 4 10).toNat

/-- The operations that root code may issue (R172), with PRED = 0 and PN = 0 where it asks for them, and
only `%vl`, `%wwidth` and `%lane` among the special registers; stochastic rounding is not allowed. -/
def rootAllowed (op : Nat) (h : Head) (b : Body) : Bool :=
  let plain := h.pred == 0 && !h.pn
  let stoch := match h.pfx with
    | some p => p.rm == 5
    | none => false
  (op ≤ 0x029 || op == 0x030 || op == 0x031 || op == 0x035
    || ((op == 0x032 || op == 0x033) && [0x00, 0x03, 0x04].contains (sF (VIF.of b).sa).toNat)
    || (0x040 ≤ op && op ≤ 0x047)
    || ((op == 0x080 || op == 0x081 || op == 0x0A0) && plain)
    || op == 0x0A3
    || (0x100 ≤ op && op ≤ 0x1C2) || (0x1F0 ≤ op && op ≤ 0x1F4)
    || (((0x200 ≤ op && op ≤ 0x223) || (0x240 ≤ op && op ≤ 0x242)) && !stoch)
    || (0x3A4 ≤ op && op ≤ 0x3AA) || (op == 0x3AB && plain))

/-- Step 8 of R75: the supervisor check, then the unit check. -/
def unitErr (c : DecCtx) (e : Entry) (h : Head) (b : Body) : Option Nat :=
  if e.sup && !c.sup then some 9
  else if c.root then bif rootAllowed e.op h b then none else some 13
  else if 0x3A4 ≤ e.op && e.op ≤ 0x3AB then some 13
  else none

/-- Steps 6 to 12 of R75 on one instruction: its class, its prefix parcel if there is one, its two parcels
and its immediate parcel. -/
noncomputable def decodeBody (c : DecCtx) (cls : Cls) (pfx : Option Word) (p0 p1 imm : Word) : Except Nat Instr :=
  match c.entry (opcOf p0) with
  | none => .error 3
  | some e =>
    let h := headOf p0 (pfx.map prefixOf)
    let b : Body := p1 ++ (p0.extractLsb' 24 8)
    if !e.allows cls then .error 4 else
    match unitErr c e h b with
    | some r => .error r
    | none =>
      if !e.accOk h.acc then .error 5 else
      match layouts.find? (fun l => l.op == e.op) with
      | none => .error 3
      | some l =>
        let p := l.dec h cls b imm
        match p.val.shape with
        | none => .error 3
        | some s =>
          if !(e.pfxOk h.pfx && s.six && (pfx.all fun q => q.extractLsb' 25 7 == 0)) then .error 6
          else if !(p.seven && s.seven) then .error 7
          else if !(p.eight && s.regsOk) then .error 8
          else .ok p.val

/-- The length in parcels of what begins with parcel `p0` (R59), `p1` being the next parcel: what a slot
fetches, and what `tret.next` passes over (R314). -/
def itemLen (p0 p1 : Word) (room : Nat) : Nat :=
  if parcelCls p0 == 0xC then
    if room < 2 then 1 else
    match Cls.ofCode (parcelCls p1) with
    | none => 1
    | some .long => 4
    | some _ => 3
  else
    match Cls.ofCode (parcelCls p0) with
    | none => 1
    | some .long => 3
    | some _ => 2

/-- Decoding (R75 steps 1 to 12): the parcels from the position on, and how many of them lie before the
block end. A parcel that is not given reads zero. -/
noncomputable def decodeAt (c : DecCtx) (room : Nat) (ps : List Word) : Except DecErr Item :=
  let p0 := ps.getD 0 0
  let k := parcelCls p0
  if k == 0xE then
    if p0 == 0xE then .ok .pad else .error (.illegal 7)
  else if k == 0xF then .error (.illegal 2)
  else if k == 0xC then
    if room < 2 then .error .overrun else
    match Cls.ofCode (parcelCls (ps.getD 1 0)) with
    | none => .error (.illegal 6)
    | some cls =>
      let n := itemLen p0 (ps.getD 1 0) room
      if room < n then .error .overrun else
      match decodeBody c cls (some p0) (ps.getD 1 0) (ps.getD 2 0) (ps.getD 3 0) with
      | .error r => .error (.illegal r)
      | .ok i => .ok (.instr i n)
  else
    match Cls.ofCode k with
    | none => .error (.illegal 1)
    | some cls =>
      let n := itemLen p0 0 room
      if room < n then .error .overrun else
      match decodeBody c cls none p0 (ps.getD 1 0) (ps.getD 2 0) with
      | .error r => .error (.illegal r)
      | .ok i => .ok (.instr i n)

/-! ### Headers -/

/-- A block header's fields (R55), and whether it is legal (R56). -/
structure BlockHdr where
  len    : Nat
  liveV  : Nat
  liveS  : Nat
  liveP  : Nat
  ent    : Bool
  rcv    : Bool
  rcvOff : Int
  deriving DecidableEq, Repr, Inhabited

def hdrOf (w : DWord) : BlockHdr :=
  { len := (w.extractLsb' 4 10).toNat
    liveV := (w.extractLsb' 14 9).toNat
    liveS := (w.extractLsb' 23 7).toNat
    liveP := (w.extractLsb' 30 5).toNat
    ent := w.getLsbD 35
    rcv := w.getLsbD 38
    rcvOff := (w.extractLsb' 39 16).toInt }

def hdrLegal (w : DWord) : Bool :=
  let h := hdrOf w
  w.extractLsb' 0 4 == 0xF && w.extractLsb' 55 9 == 0 && h.len % 2 == 0 && 2 ≤ h.len && h.liveP ≤ 16
    && (bif h.rcv then h.rcvOff % 2 == 0 else h.rcvOff == 0)

/-! ### Encoding -/


/-- The class, operand area and immediate parcel of an instruction; the machine's own steps have none. -/
def Instr.enc : Instr → Option Enc
  | .addUniform _ o => some (o.enc)
  | .subUniform _ o => some (o.enc)
  | .mulUniform _ o => some (o.enc)
  | .mulhUniform _ o => some (o.enc)
  | .minUniform _ o => some (o.enc)
  | .maxUniform _ o => some (o.enc)
  | .andUniform _ o => some (o.enc)
  | .orUniform _ o => some (o.enc)
  | .xorUniform _ o => some (o.enc)
  | .andnUniform _ o => some (o.enc)
  | .divUniform _ o => some (o.enc)
  | .remUniform _ o => some (o.enc)
  | .addsUniform _ o => some (o.enc)
  | .subsUniform _ o => some (o.enc)
  | .shlUniform _ o => some (o.enc)
  | .shrUniform _ o => some (o.enc)
  | .setCc _ o => some (o.enc)
  | .add64 _ o => some (o.enc)
  | .sub64 _ o => some (o.enc)
  | .mulw _ o => some (o.enc)
  | .shl64 _ o => some (o.enc)
  | .shr64 _ o => some (o.enc)
  | .sar64 _ o => some (o.enc)
  | .lea _ o => some (o.enc)
  | .movUniformImm _ o => some (o.enc)
  | .movUniformReg _ o => some (o.encVI)
  | .mov64 _ o => some (o.encVI)
  | .movUniformFromSpecial _ o => some (o.enc)
  | .movVectorFromSpecial _ o => some (o.enc)
  | .movToSpecial _ o => some (o.enc)
  | .pand _ o => some (o.enc)
  | .por _ o => some (o.enc)
  | .pxor _ o => some (o.enc)
  | .pandn _ o => some (o.enc)
  | .pnot _ o => some (o.enc)
  | .pset _ o => some (o.enc)
  | .pget _ o => some (o.enc)
  | .pcnt _ o => some (o.enc)
  | .brCc _ o => some (o.enc)
  | .brVote _ o => some (o.enc)
  | .jmpUniform _ sa => some (encJmp 0 sa)
  | .jmpVector _ => some (encJmp 1 0)
  | .callUniform _ o => some (encCall 0 o.sa o.off)
  | .callVector _ off => some (encCall 1 0 off)
  | .exit _ => some (encSys 0 0 0 0)
  | .nap _ n => some (encSys (n.setWidth 17) 0 0 0)
  | .done _ => some (encSys 0 0 0 0)
  | .setvl _ o => some (o.enc)
  | .setvtype _ o => some (o.enc)
  | .wait _ a => some (a.enc)
  | .barTeam _ => some (encSys 0 0 0 0)
  | .barGang _ => some (encSys 0 0 0 0)
  | .taskPost _ o => some (encSys 0 0 o.sa (o.dst.setWidth 9))
  | .trap _ n => some (encSys (n.setWidth 17) 0 0 0)
  | .addVector _ o => some (o.enc)
  | .subVector _ o => some (o.enc)
  | .addsVector _ o => some (o.enc)
  | .subsVector _ o => some (o.enc)
  | .minVector _ o => some (o.enc)
  | .maxVector _ o => some (o.enc)
  | .abs _ o => some (o.enc)
  | .absd _ o => some (o.enc)
  | .mulVector _ o => some (o.enc)
  | .mulhVector _ o => some (o.enc)
  | .mad _ o => some (o.enc)
  | .shlVector _ o => some (o.enc)
  | .shrVector _ o => some (o.enc)
  | .fshl _ o => some (o.enc)
  | .fshr _ o => some (o.enc)
  | .lut3 _ o => some (o.enc)
  | .andVector _ o => some (o.encLg)
  | .orVector _ o => some (o.encLg)
  | .xorVector _ o => some (o.encLg)
  | .andnVector _ o => some (o.encLg)
  | .not _ o => some (o.enc 0)
  | .popc _ o => some (o.enc 0)
  | .clz _ o => some (o.enc 0)
  | .ctz _ o => some (o.enc 0)
  | .brev _ o => some (o.enc 0)
  | .bfx _ o => some (o.enc)
  | .bfi _ o => some (o.enc)
  | .cmpEq _ o => some (o.enc)
  | .cmpNe _ o => some (o.enc)
  | .cmpLt _ o => some (o.enc)
  | .cmpGe _ o => some (o.enc)
  | .cmpLe _ o => some (o.enc)
  | .cmpGt _ o => some (o.enc)
  | .sel _ o => some (o.enc)
  | .padd _ o => some (o.enc)
  | .psub _ o => some (o.enc)
  | .padds _ o => some (o.enc)
  | .psubs _ o => some (o.enc)
  | .pmin _ o => some (o.enc)
  | .pmax _ o => some (o.enc)
  | .pabsd _ o => some (o.enc)
  | .pdot _ o => some (o.enc)
  | .pack _ o => some (o.enc)
  | .lrot _ o => some (o.enc)
  | .lsh _ o => some (o.enc)
  | .bcast _ o => some (o.enc)
  | .perm _ o => some (o.enc)
  | .lext _ o => some (o.enc)
  | .lins _ o => some (o.enc)
  | .voteAny _ o => some (o.enc)
  | .voteAll _ o => some (o.enc)
  | .voteCnt _ o => some (o.enc)
  | .voteMsk _ o => some (o.enc)
  | .voteEq _ o => some (o.enc)
  | .elect _ pd => some (encElect pd)
  | .red _ o => some (o.enc)
  | .scan _ o => some (o.enc)
  | .scanx _ o => some (o.enc)
  | .movVectorReg _ o => some (o.enc 0)
  | .movVectorImm _ o => some (o.enc)
  | .movVectorUniform _ o => some (o.encSa)
  | .movIxRead _ o => some (o.enc)
  | .movIxWrite _ o => some (o.enc)
  | .fadd _ o => some (o.enc)
  | .fsub _ o => some (o.enc)
  | .fmul _ o => some (o.enc)
  | .fma _ o => some (o.enc)
  | .fms _ o => some (o.enc)
  | .fnma _ o => some (o.enc)
  | .fnms _ o => some (o.enc)
  | .fneg _ o => some (o.enc)
  | .fabs _ o => some (o.enc)
  | .fsgn _ o => some (o.enc)
  | .fmin _ o => some (o.enc)
  | .fmax _ o => some (o.enc)
  | .fcmp _ o => some (o.enc)
  | .fclass _ o => some (o.enc 5)
  | .fdiv _ o => some (o.enc)
  | .fsqrt _ o => some (o.enc)
  | .frcp _ o => some (o.enc 5)
  | .frsq _ o => some (o.enc 5)
  | .fsin _ o => some (o.enc 5)
  | .fcos _ o => some (o.enc 5)
  | .fexp2 _ o => some (o.enc 5)
  | .flog2 _ o => some (o.enc 5)
  | .cvtFloat _ o => some (o.enc)
  | .cvtIntFloat _ o => some (o.enc)
  | .frint _ o => some (o.enc 5)
  | .bscale _ o => some (o.enc)
  | .bq _ o => some (o.enc)
  | .bdq _ o => some (o.enc)
  | .xaccClr _ => some (encSys 0 0 0 0)
  | .xaccAdd _ va => some (encV3 (fnTy 5) 0 va 0)
  | .xaccMac _ o => some (o.enc)
  | .xaccRd _ sd => some (encV3 (fnTy 5) 0 0 (sd.setWidth 9))
  | .actLd _ o => some (encSys (o.tb.setWidth 17) 0 o.sb (o.rd.setWidth 9))
  | .fact _ o => some (o.enc)
  | .rngInit _ o => some (o.encSb)
  | .rngNext _ o => some (o.enc 0)
  | .rngJump _ o => some (o.encSb)
  | .ldB32 _ o => some (o.m.enc o.rd)
  | .ldI8 _ o => some (o.m.enc o.rd)
  | .ldN8 _ o => some (o.m.enc o.rd)
  | .ldF16 _ o => some (o.m.enc o.rd)
  | .ldB4 _ o => some (o.m.enc o.rd)
  | .ldW2 _ o => some (o.m.enc o.rd)
  | .ldW4 _ o => some (o.m.enc o.rd)
  | .ldFfB32 _ o => some (o.m.enc o.rd)
  | .ldFfN8 _ o => some (o.m.enc o.rd)
  | .ldsB32 _ o => some (o.m.enc (o.rd.setWidth 9))
  | .ldsW2 _ o => some (o.m.enc (o.rd.setWidth 9))
  | .ldSync _ o => some (o.m.enc o.rd)
  | .stB32 _ o => some (o.m.enc o.rd)
  | .stN8 _ o => some (o.m.enc o.rd)
  | .stF16 _ o => some (o.m.enc o.rd)
  | .stB4 _ o => some (o.m.enc o.rd)
  | .stW2 _ o => some (o.m.enc o.rd)
  | .stW4 _ o => some (o.m.enc o.rd)
  | .stsB32 _ o => some (o.m.enc (o.rd.setWidth 9))
  | .stsW2 _ o => some (o.m.enc (o.rd.setWidth 9))
  | .stSync _ o => some (o.m.enc o.rd)
  | .pf _ o => some (o.m.enc (o.lvl.setWidth 9))
  | .stFill _ o => some (o.m.enc o.rd)
  | .feClr _ m => some (m.enc 0)
  | .atomAdd _ o => some (o.enc)
  | .atomMinI32 _ o => some (o.enc)
  | .atomMinN32 _ o => some (o.enc)
  | .atomMaxI32 _ o => some (o.enc)
  | .atomMaxN32 _ o => some (o.enc)
  | .atomAnd _ o => some (o.enc)
  | .atomOr _ o => some (o.enc)
  | .atomXor _ o => some (o.enc)
  | .atomXchg _ o => some (o.enc)
  | .atomCas _ o => some (o.enc)
  | .atomFadd _ o => some (o.enc)
  | .updAdd _ o => some (o.enc)
  | .updMinI32 _ o => some (o.enc)
  | .updMinN32 _ o => some (o.enc)
  | .updMaxI32 _ o => some (o.enc)
  | .updMaxN32 _ o => some (o.enc)
  | .updAnd _ o => some (o.enc)
  | .updOr _ o => some (o.enc)
  | .updXor _ o => some (o.enc)
  | .updFadd _ o => some (o.enc)
  | .fence _ o => some (o.enc)
  | .apCpy _ o => some (o.enc)
  | .apCp2 _ o => some (o.enc)
  | .apGth _ o => some (o.enc)
  | .apSct _ o => some (o.enc)
  | .aqPop _ o => some (encAsy (o.q.setWidth 14) .wave 0 0 o.vd)
  | .tst _ o => some (o.enc)
  | .tldV _ o => some (o.enc)
  | .migUp _ o => some (encSys 0 o.sc o.sb 0)
  | .migDown _ o => some (encSys 0 o.sc o.sb 0)
  | .mxMma _ o => some (encAsy 0 o.sco 0 o.sb o.va)
  | .mxSt _ o => some (encAsy (o.ty.code.setWidth 14) o.sco 0 o.sb 0)
  | .mxLd _ o => some (o.enc)
  | .mxClr _ o => some (encAsy (b2v o.sto) o.sco o.sc o.sb 0)
  | .mxRq _ o => some (o.enc)
  | .tdLd _ o => some (encAsy 0 .wave 0 o.sb (o.t.setWidth 9))
  | .tdSt _ o => some (encAsy 0 .wave 0 o.sb (o.t.setWidth 9))
  | .tdBase _ o => some (encAsy 0 .wave 0 o.sb (o.t.setWidth 9))
  | .bagNew _ o => some (encV3 0 0 (o.sa.setWidth 9) (o.dst.setWidth 9))
  | .bagPut _ o => some (o.enc)
  | .bagSnap _ o => some (o.enc)
  | .bagSeal _ o => some (o.enc)
  | .bagFree _ o => some (o.enc)
  | .bagEach _ o => some (o.enc)
  | .bagDrain _ o => some (encAsy 0 o.sco o.sc o.sb 0)
  | .bagCnt _ o => some (o.enc)
  | .bagGrow _ o => some (o.encV3)
  | .rootRun _ o => some (o.enc)
  | .bmac _ o => some (o.enc)
  | .crownSum _ o => some (o.enc)
  | .crownClr _ sco => some (encAsy 0 sco 0 0 0)
  | .recLd _ o => some (o.enc)
  | .recSt _ o => some (o.enc)
  | .recIdx _ vd => some (encV3 0 0 0 vd)
  | .rld _ o => some (o.m.enc o.rd)
  | .rst _ o => some (o.m.enc o.rd)
  | .zskip _ o => some (o.encV3)
  | .crownPut _ o => some (o.enc)
  | .rkNext _ => some (encV3 0 0 0 0)
  | .emeter _ sd => some (encSys 0 0 0 (sd.setWidth 9))
  | .emeterShr _ sd => some (encSys 1 0 0 (sd.setWidth 9))
  | .equota _ sd => some (encSys 0 0 0 (sd.setWidth 9))
  | .equotaFill _ sd => some (encSys 1 0 0 (sd.setWidth 9))
  | .equotaCap _ sd => some (encSys 2 0 0 (sd.setWidth 9))
  | .dirtySnap _ o => some (o.enc 0)
  | .dirtySnapFin _ o => some (o.enc 1)
  | .vfStop _ o => some (encSys (o.nb.setWidth 17) o.sc o.sb (o.rd.setWidth 9))
  | .tret _ => some (encSys 0 0 0 0)
  | .tretNext _ => some (encSys 1 0 0 0)
  | .tretAnc _ => some (encSys 2 0 0 0)
  | .tretVector _ va => some (encSys 3 0 0 va)
  | .tinfo _ vd => some (encSys 0 0 0 vd)
  | .wentSt _ sd => some (encSys 0 0 0 (sd.setWidth 9))
  | .wentLd _ sd => some (encSys 0 0 0 (sd.setWidth 9))
  | .svEnd _ => some (encSys 0 0 0 0)
  | .svEndRes _ => some (encSys 1 0 0 0)
  | .dtabLd _ o => some (o.enc 0)
  | .tlbInv _ o => some (encSys (o.n.setWidth 17) o.sc o.sb 0)
  | .vfStart _ o => some (encSys 0 o.sa 0 (o.dst.setWidth 9))
  | .vfPre _ o => some (encSys (o.m.setWidth 17) o.sc 0 (o.rd.setWidth 9))
  | .vfRst _ sc => some (encSys 0 sc 0 0)
  | .sliceSet _ o => some (encSys 0 0 o.sa (o.dst.setWidth 9))
  | .poolAdd _ o => some (o.enc 0)
  | .poolAddCap _ o => some (o.enc 1)
  | _ => none

/-- The prefix parcel (R70). -/
def Prefix.parcel (p : Prefix) : Word :=
  (0 : BitVec 7) ++ p.go ++ (b2v p.tz : BitVec 1) ++ (b2v p.mz : BitVec 1) ++ p.v4th ++ p.rm
    ++ (b2v p.mn : BitVec 1) ++ p.mask ++ (0xC : BitVec 4)

/-- The head (R60). -/
def headBits (h : Head) (opc : BitVec 10) (c : Cls) : BitVec 24 :=
  h.hold ++ h.acc ++ (b2v h.pn : BitVec 1) ++ h.pred ++ opc ++ c.code

/-- The parcels of an instruction under map 1: the prefix, the two parcels of the base, the immediate
parcel. The machine's own steps have none. -/
def encode (i : Instr) : List Word :=
  match i.shape, i.enc with
  | some s, some e =>
    let w : DWord := e.body ++ headBits s.head (BitVec.ofNat 10 s.opc) e.cls
    (match s.head.pfx with
      | none => []
      | some p => [p.parcel]) ++ [w.extractLsb' 0 32, w.extractLsb' 32 32] ++ (match e.imm with
      | none => []
      | some x => [x])
  | _, _ => []

/-- Decoding one whole instruction of the supervisor under map 1, on a core, or on a root unit for the
operations that run there alone. -/
noncomputable def decodeInstr (ps : List Word) : Option Instr :=
  match decodeAt ⟨none, true, false⟩ ps.length ps with
  | .ok (.instr i _) => some i
  | .error (.illegal 13) =>
    match decodeAt ⟨none, true, true⟩ ps.length ps with
    | .ok (.instr i _) => some i
    | _ => none
  | _ => none

/-- The 32-bit parcels of a number, the least significant first. -/
def parcelsOf (n w : Nat) : List Word := (List.range n).map fun i => BitVec.ofNat 32 (w >>> (32 * i))

/-- The instruction the decoder reads from an instruction whose bits are `w`, bit 0 the least significant
bit of its first parcel; every bit from `nbits` up is 0. The longest instruction has four parcels. -/
noncomputable def decodeTableWord (nbits w : Nat) : Option Instr := decodeInstr (parcelsOf 4 (w % 2 ^ nbits))

end Sys2Proof
end

