-- ==== Sys2Proof/Config.lean ====
section
/-! DEFINITION. What the manual fixes for every Narbor, and the free values: constants without a body, which
stand for what the manual leaves open (log 3, 5, 9, 10). Nothing can be proved about a particular value of one. -/
namespace Sys2Proof.Config

/-- Cycles of a meter period (R250). -/
def periodCycles : Nat := 110000
/-- Cycles from a pre-emption request to the forced save (R319, R320). -/
def forceCycles : Nat := 22000
/-- Cycles a command may be held without progress by a full queue (R274). -/
def stallCycles : Nat := 110000
/-- Cycles of R50's two conditions. -/
def swapCycles : Nat := 4096
/-- Instructions of a root block (R176). -/
def rootBlockLimit : Nat := 2 ^ 20
/-- Tasks of a launch (R36). -/
def maxTasks : Nat := 2 ^ 24
/-- Bytes of a pool granule (R43). -/
def granule : Nat := 262144
/-- Entries of the retired-frame list (R342). -/
def retiredMax : Nat := 8192
/-- A day in cycles (R342). -/
def dayCycles : Nat := 24 * 3600 * 1100000000

/-- Arithmetic-clock cycles that step `n` of the machine takes (log 3). -/
opaque cyclesOf : Nat → Nat
/-- Energy of a domain in a period, in fJ, before it is split: `energyOf turn domain` (R252, log 3). -/
opaque energyOf : Nat → Nat → Nat
/-- Junction temperature of a domain averaged over a period, in °C (R250, log 3). -/
opaque temperatureOf : Nat → Nat → Int
/-- Rail voltage of a domain averaged over a period, in mV (R250, log 3). -/
opaque voltageOf : Nat → Nat → Int
/-- Highest junction temperature and average power that PSTAT reports (R333, log 3). -/
opaque pstatOf : Nat → BitVec 16 × BitVec 16
/-- Fused calibration: by how much the base weight of a domain and class of this part differs from the nominal one, in fJ;
at most a tenth of it counts (R250, log 5). -/
opaque calDev : Nat → Nat → Int
/-- Fused calibration: static (class 18) and periodic (class 19) power of a domain at reference, in µW (R333, log 5). -/
opaque calPower : Nat → Nat → BitVec 24
/-- Fused calibration: kT of a domain and class, ppm per °C (log 5). -/
opaque calKt : Nat → Nat → BitVec 16
/-- Fused calibration: kV of a domain and class, ppm per mV (log 5). -/
opaque calKv : Nat → Nat → BitVec 16
/-- Fused nominal rail voltage of a domain, in mV (log 5). -/
opaque calVnom : Nat → BitVec 24
/-- Weight of a period's events that no context owns, in a domain, in fJ (R252, log 3). -/
opaque unownedOf : Nat → Nat → Nat
/-- Whether an access of step `turn` to a 64-byte line finds it in the grove cache (R249, log 91): no rule gives the
cache's contents. -/
opaque groveHit : Nat → Nat → Bool
/-- Whether a write that an engine or a ring unit performs at step `turn` at an address of the capacity tier or of host memory
meets a write error (R137, R238, log 113). -/
opaque writeFails : Nat → Nat → Bool
/-- The work of a promotion at step `turn`, in fJ (R295, log 111): no rule gives its weight. -/
opaque promotionFj : Nat → Nat
/-- Whether a translation that a fetch, a unit or a scheduler makes at step `turn` for a function's page asks for a walk of
the tables (R248, log 24): no rule says what they hold. -/
opaque unitWalks : Nat → Nat → Nat → Bool
/-- A stand's or stack's predicted end-of-life date, and the life it has used in the period of step `turn`, in
thousandths (R343, log 92). -/
opaque wearOf : Nat → Nat → BitVec 32 × Nat
/-- CTIME of the module at the other end of a link at step `turn`, and whether this one adopts it (R338, log 93). -/
opaque peerTime : Nat → Nat → DWord × Bool
/-- Signature of an attestation report, from the fused identity key (R340, log 5). -/
opaque reportSignature : List Byte → List Byte
/-- Digest of the running firmware, and of the calibration table and fuses (R340, log 5). -/
opaque firmwareDigest : List Byte
opaque fuseDigest : List Byte
/-- Version of the running firmware (R339, R340, log 5). -/
opaque firmwareVersion : DWord
/-- The identity certificate chain (R340, log 5). -/
opaque certificateChain : List Byte
/-- Whether the signature of a firmware image verifies against the fused key (R339, log 5). -/
opaque imageVerifies : Nat → Bool
/-- Rollback number of the firmware image at a module reset (R339, log 5). -/
opaque imageRollback : Nat → BitVec 32
/-- What a lane's load returns from a line with an uncorrectable error, by turn and address: R137 and R342 state
no value (log 13). -/
opaque errorWord : Nat → Nat → BitVec 32
/-- Whether the rows that a bag asks for are available at step `turn` (R163, R169): the manual does not say how
rows are set aside from frames (log 14). -/
opaque rowsAvailable : Nat → Bool
/-- The frame in which a 64 KiB unit of a bag's rows lies, by pseudo-channel and number of the unit: the manual does not
say how rows are set aside from frames (log 14). -/
opaque rowFrame : Nat → Nat → Nat
/-- The pseudo-channel of its stack and the bank that hold a line of an ordinary fast-tier frame, by line number
(R187; log 15): the manual does not say how ordinary frames are spread. -/
opaque lineBank : Nat → Nat × Nat
/-- The physical function's threshold of a row's activations (R323; log 17). -/
opaque rowThreshold : Nat
/-- Which of `n` candidates an unspecified choice takes at step `turn` (frames of R271, log 9). -/
opaque choose : Nat → Nat → Nat
/-- A lane value that an interpolation between table entries that are not finite leaves open
(R125, log 10), from the table's bits at the two entries and the operand. -/
opaque factOpen : Word → Word → Word → Word

end Sys2Proof.Config
end

