-- ==== Sys2Proof/Machine/State.lean ====
section
/-! DEFINITION. The state of the module as plain data: everything the manual gives the machine, and the model's
own bookkeeping of what is in progress (INVENTORY.md lists each piece with its rule). Addresses, counts and
identifiers are natural numbers; what programs see as words are bit vectors. -/
namespace Sys2Proof.Machine

/-! ### Where a byte lies -/

/-- Where an access goes: device memory by physical address, host memory by PCI Express address, or the
scratchpad window of an admitted team (R265, R266). -/
inductive Loc where
  | dev (pa : Nat) | host (a : Nat) | win (team : Nat) (off : Nat)
  deriving DecidableEq, Repr, Inhabited

/-- A page's translation as a TLB holds it: function, number of the 64 KiB page, and the leaf (R269, R270). -/
structure Tlb where
  fn   : Nat
  page : Nat
  leaf : DWord
  deriving DecidableEq, Repr, Inhabited

/-! ### Lanes -/

/-- The four counters of a wave (R31). -/
inductive Ctr where
  | ld | st | cp | tl
  deriving DecidableEq, Repr, Inhabited

/-- Why a lane is parked (R16). `next` is the PC at which the lane goes on when the cause ends. -/
inductive Park where
  /-- On the full/empty word at window offset `off` of `team`; `full` is the state it awaits (R25). -/
  | word (team off : Nat) (full : Bool)
  | teamBar (next : Nat)
  | gangBar (next : Nat)
  /-- At a `wait` with bounds for LD, ST, CP and TL (R93). -/
  | wait (ld st cp tl : Nat) (next : Nat)
  /-- On a translation miss (R136). -/
  | miss
  /-- On a counter at 63 (R31). -/
  | full (c : Ctr)
  /-- On the migration of a page (R271). -/
  | migration (fn page : Nat)
  deriving DecidableEq, Repr, Inhabited

inductive LaneRun where
  | runnable | parked (c : Park) | ended
  deriving DecidableEq, Repr, Inhabited

inductive LaneMode where
  | ordinary | trap | save
  deriving DecidableEq, Repr, Inhabited

/-- The block a lane stands in: its end (R55) and the header's live counts (R57). -/
structure Blk where
  stop  : Nat := 0
  liveV : Nat := 0
  liveS : Nat := 0
  liveP : Nat := 0
  deriving DecidableEq, Repr, Inhabited

/-- Where in its block a lane stands: at a header it has not consumed, just past one it has consumed with
nothing issued since (with that header, and the anchor and block it had before: R23, R148, R320), or inside. -/
inductive LanePos where
  | atHeader | fresh (hdr anchor : Nat) (blk : Blk) | inside
  deriving DecidableEq, Repr, Inhabited

/-- The trap record of a lane in trap mode (R313); `pos` and `blk` place TPC in its block (R314). -/
structure TrapRec where
  tpc  : Nat := 0
  tanc : Nat := 0
  tdet : DWord := 0
  pos  : LanePos := .inside
  blk  : Blk := {}
  deriving DecidableEq, Repr, Inhabited

/-- One lane (R12, R16, R19, R22). Addresses are virtual; `%vpc` and `%anchor` are offsets of them. -/
structure Lane where
  pc      : Nat := 0
  anchor  : Nat := 0
  pos     : LanePos := .atHeader
  blk     : Blk := {}
  run     : LaneRun := .runnable
  mode    : LaneMode := .ordinary
  tcause  : Word := 0
  trap    : TrapRec := {}
  teamArr : Bool := false
  gangArr : Bool := false
  deriving DecidableEq, Repr, Inhabited

/-! ### Registers of a wave or of a root unit -/

/-- The exact accumulator (R216). -/
structure Xacc where
  j    : BitVec 576 := 0
  pinf : Bool := false
  ninf : Bool := false
  nan  : Bool := false
  ovf  : Bool := false
  deriving DecidableEq, Repr, Inhabited

/-- The registers that an instruction reads and writes (R39, R41, R42, R50). `v` holds the declared vector
registers, one word a lane; `s` the declared uniforms. -/
structure Regs where
  width  : Nat := 0
  v      : List (List Word) := []
  s      : List Word := []
  p      : List Mask := []
  t      : List (BitVec 128) := []
  x      : Xacc := {}
  vl     : Nat := 0
  vtype  : BitVec 4 := 0
  frm    : BitVec 3 := 0
  fflags : Word := 0
  /-- Vector registers written since the latest issue began (R48). -/
  wrote  : BitVec 512 := 0
  wmV    : BitVec 512 := 0
  wmS    : BitVec 128 := 0
  wmP    : BitVec 16 := 0
  deriving DecidableEq, Repr, Inhabited

/-! ### Accesses in flight -/

/-- How the bytes of a load become a word (R140). -/
inductive Conv where
  | word | sext8 | zext8 | zext16 | nibble (hi : Bool)
  deriving DecidableEq, Repr, Inhabited

/-- The operations of the atomics (R280, R281). -/
inductive AtomKind where
  | add | minI | minN | maxI | maxN | and | or | xor | xchg | cas | fadd
  deriving DecidableEq, Repr, Inhabited

/-- Destination of one loaded word. -/
inductive LdDst where
  | v (reg lane : Nat) | s (reg : Nat)
  deriving DecidableEq, Repr, Inhabited

/-- What a destination element of a load receives: a value known at issue (a policy's zero, R29), or data
that is read when the load is performed, and then held. -/
inductive LdSrc where
  | known (x : Word) | mem (l : Loc) (c : Conv) | atom (l : Loc) (k : AtomKind) (v c : Word)
  deriving DecidableEq, Repr, Inhabited

structure LdElem where
  dst : LdDst
  src : LdSrc
  deriving DecidableEq, Repr, Inhabited

/-- A load, or an atomic that returns a value, whose data has not arrived (R138). -/
structure PendLoad where
  id    : Nat
  elems : List LdElem
  rmt   : Bool := false
  rel   : Bool := false
  team  : Bool := false
  /-- Of an atomic: the anchor and the lowest lane at issue. -/
  anchor : Word := 0
  lane   : Nat := 0
  deriving DecidableEq, Repr, Inhabited

/-- One stored piece: bytes, a nibble, or an update (R140, R281). -/
inductive StVal where
  | bytes (b : List Byte) | nibble (hi : Bool) (x : BitVec 4) | upd (k : AtomKind) (v : Word)
  deriving DecidableEq, Repr, Inhabited

structure StElem where
  loc : Loc
  val : StVal
  deriving DecidableEq, Repr, Inhabited

/-- A store that has not retired (R32, R37), with the pieces not yet performed. `anchor` is the region anchor
it reports (R137), `fail` the address at which performing it failed, `teamRel` a team-scope release (R294). -/
structure PendStore where
  id      : Nat
  elems   : List StElem
  anchor  : Word := 0
  lane    : Nat := 0
  fail    : Option Nat := none
  teamRel : Bool := false
  /-- Issued in save mode: written to memory in a deterministic launch too. -/
  direct  : Bool := false
  deriving DecidableEq, Repr, Inhabited

/-- A `fact` in flight: the values it will write and the flags it will raise (R125, R208). -/
structure PendFact where
  table : Nat
  elems : List (Nat × Nat × Word)
  flags : BitVec 6
  deriving DecidableEq, Repr, Inhabited

/-- What a wave awaits before its next instruction, or before one that uses a register (R95, R126, R157). -/
inductive ReplyKind where
  /-- A uniform register receives the reply; `block` holds back the whole wave. -/
  | reg (r : Nat) (pair : Bool) (block : Bool)
  /-- An answer (R157): the lanes of E as they stood when the command issued. -/
  | answer (lanes : List (Nat × Lane)) (fp : Option (Nat × List Nat × List Nat × Mask))
  deriving DecidableEq, Repr, Inhabited

structure Reply where
  id   : Nat
  kind : ReplyKind
  deriving DecidableEq, Repr, Inhabited

/-- Lanes and registers of a wave as save mode latched or restored them (R320, R328). -/
structure Latch where
  regs  : Regs := {}
  lanes : List Lane := []
  /-- Vector, uniform and predicate registers that the save keeps. -/
  lv    : Nat := 0
  ls    : Nat := 0
  lp    : Nat := 0
  deriving DecidableEq, Repr, Inhabited

/-- The phase of a wave that is being saved or restored (R320). -/
inductive SavePhase where
  | no | saving (forced : Bool) | saved | restoring | restored
  deriving DecidableEq, Repr, Inhabited

/-- A wave of an admitted team. The four counters of R31 are the lengths of the queues `ld`, `st`, `cp` and
`tl`: the operations issued and not retired, oldest first, each with whether it is complete (R32). -/
structure Wave where
  regs     : Regs := {}
  lanes    : List Lane := []
  slot     : Nat := 0
  group    : Nat := 0
  base     : Nat := 0
  entry    : Option Nat := none
  ld       : List (Nat × Bool) := []
  st       : List (Nat × Bool) := []
  cp       : List (Nat × Bool) := []
  tl       : List (Nat × Bool) := []
  /-- Complete operations that retire on TL and ST together (R238). -/
  joint    : List Nat := []
  loads    : List PendLoad := []
  stores   : List PendStore := []
  facts    : List PendFact := []
  replies  : List Reply := []
  /-- Naps in progress: the lanes of E, and the cycle at which each ends (R91). -/
  naps     : List (Mask × Nat) := []
  /-- Results of walks that a parked access awaits: a leaf, or none for no valid entry (R136). -/
  walked   : List (Tlb × Bool) := []
  /-- Pages whose walks the lanes parked on a miss await (R136). -/
  misses   : List Nat := []
  /-- A fence or an acquire holds back later accesses until these operations are complete (R282, R283). -/
  holdLd   : List Nat := []
  held     : Nat := 0
  issued   : Nat := 0
  ready    : Nat := 0
  save     : SavePhase := .no
  latch    : Latch := {}
  /-- Team-scope releases not yet performed at `.dev` (R294). -/
  pending  : Bool := false
  /-- Every lane that had not exited issued in the wave's last issue (R50). -/
  allIssued : Bool := false
  /-- The write mask that passing a header has cleared, until the wave issues again (R50, R148, R320). -/
  cleared  : Option (BitVec 512 × BitVec 128 × BitVec 16) := none
  /-- Operations that are not complete and whose counts a stop has released (R192, R245, R304). -/
  stopped  : List (Ctr × Nat) := []
  deriving DecidableEq, Repr, Inhabited

/-! ### Teams -/

/-- Formats of an accumulator tile (R213). -/
inductive AccFmt where
  | f32 | sto
  deriving DecidableEq, Repr, Inhabited

/-- One accumulator tile: 256 elements in row order and 16 column generators (R213 to R215). -/
structure Acc where
  fmt : AccFmt := .f32
  e   : List Word := []
  g   : List Word := []
  deriving DecidableEq, Repr, Inhabited

/-- An activation table: its bounds and its 256 entries, as they are at team admission (R124). -/
structure ActTable where
  lo : Word := 0
  hi : Word := 0x3F800000
  y  : List Word := List.replicate 256 0
  deriving DecidableEq, Repr, Inhabited

/-- The live table, its version, and the shadow of a pending `act.ld` with its wave and the reply it owes (R126). -/
structure ActSlot where
  live    : ActTable := {}
  version : Word := 0
  shadow  : Option (ActTable × Nat × Nat) := none
  deriving DecidableEq, Repr, Inhabited

/-- A full/empty word that is full or on which lanes wait: the order in which they parked, as wave and lane,
and the lane for which a change of state reserves it (R25, R144). A word with no entry is empty. -/
structure FeWord where
  off      : Nat
  full     : Bool := false
  queue    : List (Nat × Nat × Nat) := []
  reserved : Option (Nat × Nat × Nat) := none
  deriving DecidableEq, Repr, Inhabited

/-- A staged item of a deterministic launch (R299, R325). -/
inductive Staged where
  | store (wave : Nat) (anchor : Word) (lane op : Nat) (e : StElem)
  | put (wave : Nat) (anchor : Word) (handle : Word) (recs : List (Word × List Byte))
  deriving DecidableEq, Repr, Inhabited

/-- Fields of the context record as they stood when a team was admitted (R317). -/
structure TeamCtx where
  save  : Nat := 0
  svs   : Nat := 0
  svr   : Nat := 0
  hdef  : Nat := 0
  dmask : Word := 0
  aith  : BitVec 16 := 8
  deriving DecidableEq, Repr, Inhabited

/-- A team that has been admitted and not ended or saved (R12 to R14). -/
structure Team where
  id      : Nat := 0
  fn      : Nat := 0
  launch  : Nat := 0
  task    : Nat := 0
  team    : Nat := 0
  gang    : Nat := 0
  core    : Nat := 0
  winSize : Nat := 0
  win     : List Host.Cell := []
  fe      : List FeWord := []
  accs    : List Acc := []
  act     : List ActSlot := []
  queues  : List (List (List Byte)) := []
  staged  : List Staged := []
  stagedBytes : Nat := 0
  ctx     : TeamCtx := {}
  saveSlot : Option Nat := none
  /-- A stop has been sent to the team's waves and to the engines that hold its work (R320). -/
  stop    : Bool := false
  done    : Bool := false
  /-- Ended by a staging overflow: it is not released (R325). -/
  failed  : Bool := false
  waves   : List Wave := []
  deriving DecidableEq, Repr, Inhabited

/-! ### Engines -/

/-- Who issued an engine command: the wave, its function and launch, and the anchor at issue (R231). -/
structure Issuer where
  fn     : Nat := 0
  launch : Nat := 0
  team   : Nat := 0
  wave   : Nat := 0
  task   : Nat := 0
  teamNo : Nat := 0
  anchor : Word := 0
  deriving DecidableEq, Repr, Inhabited

/-- Row-progress state (R236). -/
inductive MxState where
  | idle | running | parked | stopped
  deriving DecidableEq, Repr, Inhabited

/-- A matrix command, a tile store or a versioned load held by the matrix engine (R230, R231, R245, R284). -/
structure MxCmd where
  id    : Nat := 0
  by_   : Issuer := {}
  opc   : Nat := 0
  acc   : BitVec 2 := 0
  sco   : Scope := .team
  func  : BitVec 14 := 0
  blk   : List Byte := []
  fw    : Word := 0
  rm    : BitVec 3 := 0
  taken : Bool := false
  state : MxState := .idle
  row   : Nat := 0
  step  : Nat := 0
  /-- The version word as read (R241, R242), and the page whose migration the command awaits. -/
  ver   : Option Word := none
  wait  : Option Nat := none
  /-- The migration awaited has failed (R272). -/
  lost  : Bool := false
  buf   : List Word := []
  stCnt : Bool := false
  /-- Pages whose walks delay the current unit, and what the walks of its pages have found (R236). -/
  misses : List Nat := []
  walked : List (Tlb × Bool) := []
  deriving DecidableEq, Repr, Inhabited

/-- A command held by the access processor (R260, R262, R274, R304). -/
structure ApCmd where
  id    : Nat := 0
  by_   : Issuer := {}
  opc   : Nat := 0
  sco   : Scope := .team
  blk   : List Byte := []
  rowI  : Nat := 0
  piece : Nat := 0
  chunk : Nat := 0
  sts   : Word := 0
  wait  : Option Nat := none
  lost  : Bool := false
  since : Nat := 0
  /-- The processor performs it: it has been chosen among the functions' commands. -/
  taken : Bool := false
  /-- Row bytes read and not yet pushed (R277). -/
  buf   : List Byte := []
  /-- A row has ended the copy, which has earlier rows to push (R276). -/
  cut   : Bool := false
  /-- Pages whose walks delay the current position or row, and what the walks of its pages have found (R261). -/
  misses : List Nat := []
  walked : List (Tlb × Bool) := []
  /-- Where the pages of a copy's current row lie, translated before its first piece (R276). -/
  trans : List (Nat × Loc) := []
  deriving DecidableEq, Repr, Inhabited

/-- An operand-latch entry (R48): the wave, the register, the value and how many issues are left. -/
structure Latched where
  wave : WaveRef
  reg  : Nat
  val  : List Word
  left : Nat
  deriving DecidableEq, Repr, Inhabited

/-- An issue group's history (R18, R21): the turns of its last issues, the lanes that issued in its last
ordinary issues (newest first, at most 64), and the wave for which the next issue is made alone. -/
structure Group where
  id       : Nat := 0
  lastSave : Nat := 0
  lastTrap : Nat := 0
  lastOrd  : Nat := 0
  hist     : List (List (WaveRef × Mask)) := []
  lag      : Option WaveRef := none
  /-- The turn at which the group was formed: it has gone without an issue since then. -/
  born     : Nat := 0
  deriving DecidableEq, Repr, Inhabited

/-- One of the four slots of a core (R15). -/
structure Slot where
  groups : List Group := []
  latch  : List (Option Latched) := [none, none, none]
  deriving DecidableEq, Repr, Inhabited

/-- A core that holds a team or has held one. -/
structure Core where
  id     : Nat := 0
  part   : Word := 0x00001010
  tlb    : List Tlb := []
  /-- The TLBs of the matrix engine and of the access processor (R236, R261). -/
  mxTlb  : List Tlb := []
  apTlb  : List Tlb := []
  slots  : List Slot := []
  matrix : List MxCmd := []
  access : List ApCmd := []
  deriving DecidableEq, Repr, Inhabited

/-! ### Bags and root units -/

/-- One share of a bag: count, snapshot, busy mark and the bytes of its rows (R151, R153). -/
structure Share where
  c    : Nat := 0
  snap : Nat := 0
  busy : Bool := false
  rows : List Host.Cell := []
  deriving DecidableEq, Repr, Inhabited

/-- A drain that is copying (R167, R170). -/
structure Drain where
  dst   : Nat := 0
  /-- The pages of the destination with their frames, as they were found at the take. -/
  pages : List (Nat × Loc) := []
  data  : List Byte := []
  /-- The next 4 KiB chunk, and whether a pre-emption has stopped the copy there. -/
  next  : Nat := 0
  stop  : Bool := false
  id    : Nat := 0
  by_   : Issuer := {}
  sco   : Scope := .dev
  deriving DecidableEq, Repr, Inhabited

structure Bag where
  desc   : List Byte := []
  q0     : Nat := 0
  lb     : Nat := 0
  z      : Nat := 0
  kw     : Nat := 0
  slack  : Nat := 0
  cap    : Nat := 0
  sealed : Bool := false
  shares : List Share := []
  drain  : Option Drain := none
  deriving DecidableEq, Repr, Inhabited

/-- An entry of a context's bag table (R152). -/
structure BagEntry where
  slot    : Nat := 0
  gen     : Nat := 0
  retired : Bool := false
  bag     : Option Bag := none
  deriving DecidableEq, Repr, Inhabited

/-- An error that a line of a bag's rows has returned: the bag's function and slot, the share, the line of 64 bytes, and
when (R177, R342). -/
structure RowErr where
  fn    : Nat
  slot  : Nat
  share : Nat
  line  : Nat
  corrected : Bool
  cycle : Nat
  deriving DecidableEq, Repr, Inhabited

inductive BagOp where
  | new (desc : Nat)
  | put (nf : Bool) (recs : List (Nat × Word × List Byte))
  | snap | seal | free
  | each (param : Word) (tgt : Word)
  | drain (dst : Nat)
  | cnt (sel : BitVec 2) (i : Word)
  | grow (cap : Word)
  deriving DecidableEq, Repr, Inhabited

/-- A bag command sent and not yet taken (R157, R158). `count` is the counter id it holds. -/
structure BagCmd where
  id     : Nat := 0
  by_    : Issuer := {}
  handle : Word := 0
  op     : BagOp := .snap
  sco    : Scope := .dev
  wait   : Option Nat := none
  lost   : Bool := false
  deriving DecidableEq, Repr, Inhabited

/-- A precise trap to be taken: cause, reason, code and detail (R312). -/
structure TrapInfo where
  cause : Nat
  rsn   : Nat := 0
  code  : Nat := 0
  det   : Nat := 0
  deriving DecidableEq, Repr, Inhabited

/-- What a placement unit has answered or replied and the wave has not yet received (R157). -/
inductive Answer where
  | accepted (failed : List Nat) | refused (t : TrapInfo) | reply (x : Word)
  deriving DecidableEq, Repr, Inhabited

structure Arrival where
  id   : Nat
  team : Nat
  wave : Nat
  ans  : Answer
  deriving DecidableEq, Repr, Inhabited

/-- Kinds of invocation (R175, R192). -/
inductive InvKind where
  | each | run | task
  deriving DecidableEq, Repr, Inhabited

/-- An invocation waiting for its unit or started (R175, R192). `pages` are the frames of the window's pages. -/
structure Inv where
  cmd    : Nat := 0
  kind   : InvKind := .each
  fn     : Nat := 0
  idx    : Nat := 0
  nrec   : Nat := 0
  z      : Nat := 0
  param  : Word := 0
  handle : Word := 0
  wbase  : Nat := 0
  pages  : List (Nat × Bool) := []
  entry  : Nat := 0
  code   : Nat := 0
  blkoff : Nat := 0
  by_    : Issuer := {}
  started : Bool := false
  regs   : Regs := {}
  pc     : Nat := 0
  head   : Bool := true
  stop   : Nat := 0
  block  : Nat := 0
  /-- The block is bound; one that a stop has kept from being bound is not (R192). -/
  bound  : Bool := false
  count  : Nat := 0
  wait   : Option Nat := none
  lost   : Bool := false
  deriving DecidableEq, Repr, Inhabited

/-- An entry of a `bmac` that a unit runs (R186, R187). -/
structure BmacEnt where
  cmd    : Nat := 0
  idx    : Nat := 0
  /-- The scratchpad offset of the command's block. -/
  off    : Nat := 0
  wpages : List Nat := []
  w      : Nat := 0
  rows   : Nat := 0
  stride : Nat := 0
  y      : Nat := 0
  next   : Nat := 0
  /-- The unit has chosen it (R311). -/
  chosen : Bool := false
  /-- The page of Y whose migration it awaits, and those whose migration has failed (R271, R272; log 45). -/
  wait   : Option Nat := none
  lost   : List Nat := []
  deriving DecidableEq, Repr, Inhabited

/-- One root unit: what it runs, and what waits for it in order (R178, R192). -/
structure RootUnit where
  id    : Nat := 0
  invs  : List Inv := []
  bmacs : List BmacEnt := []
  deriving DecidableEq, Repr, Inhabited

inductive RootOp where
  | run (off : Nat) (param tgt : Word)
  | bmac (off : Nat)
  | sum (clr gw : Bool) (off : Nat)
  | clr
  | each (handle : Word)
  | task (launch task : Nat)
  deriving DecidableEq, Repr, Inhabited

/-- A root or crown command, or a bag iteration, from its sending to its retirement (R179 to R191). -/
structure RootCmd where
  id     : Nat := 0
  by_    : Issuer := {}
  op     : RootOp := .clr
  acc    : BitVec 2 := 0
  sco    : Scope := .dev
  taken  : Bool := false
  /-- Its CP count is released while a pre-emption holds it. -/
  released : Bool := false
  /-- Entries not yet ended. -/
  left   : Nat := 0
  /-- `bmac`: the x values, K, formats and mode as read at take; failing banks so far. -/
  x      : List Word := []
  xf     : Nat := 0
  wf     : Nat := 0
  k      : Nat := 0
  mode   : Nat := 0
  fails  : List (Nat × Nat) := []
  partialRun : Bool := false
  deriving DecidableEq, Repr, Inhabited

/-! ### Launches -/

inductive TaskPhase where
  | waiting | ready | running | done
  deriving DecidableEq, Repr, Inhabited

/-- A task that has been considered or posted (R34 to R36). -/
structure Task where
  index   : Nat := 0
  params  : List Word := []
  preds   : List Nat := []
  tiles   : List (List Byte) := []
  phase   : TaskPhase := .waiting
  /-- The pages pinned for it. -/
  pinned  : List Nat := []
  posted  : Bool := false
  /-- Of a posted task of a deterministic launch: the teams that must be released first (R96). -/
  after   : Nat := 0
  wait    : Option Nat := none
  lost    : Bool := false
  deriving DecidableEq, Repr, Inhabited

/-- A launch that has been taken and is not complete (R306 to R308). -/
structure Launch where
  id      : Nat := 0
  fn      : Nat := 0
  number  : Word := 0
  level   : Nat := 0
  ordered : Bool := false
  det     : Bool := false
  nm      : Bool := false
  spg     : Nat := 0
  aqn     : Nat := 0
  rrs     : Nat := 0
  seed    : DWord := 0
  root    : Nat := 0
  int     : Nat := 0
  params  : List Word := []
  nt      : Nat := 0
  entry   : Nat := 0
  pool    : Word := 0
  v       : Nat := 0
  s       : Nat := 0
  wl      : Nat := 0
  a       : Nat := 0
  tw      : Nat := 0
  gt      : Nat := 0
  hb      : Nat := 0
  decl    : Nat := 0
  dstr    : Nat := 0
  /-- Tasks considered or posted; an initial task that is not listed has not been considered. -/
  tasks   : List Task := []
  posted  : Nat := 0
  records : Nat := 0
  released : Nat := 0
  deriving DecidableEq, Repr, Inhabited

/-- A post sent and not yet accepted (R95, R96). -/
structure Post where
  id     : Nat := 0
  by_    : Issuer := {}
  rec_   : List Byte := []
  deriving DecidableEq, Repr, Inhabited

/-! ### Function contexts -/

/-- A ring of host memory (R306, R329). -/
structure Ring where
  base : DWord := 0
  size : DWord := 0
  prod : Word := 0
  cons : Word := 0
  deriving DecidableEq, Repr, Inhabited

/-- States of a function (R321). -/
inductive FnState where
  | run | halt | stopping | stopped | reset
  deriving DecidableEq, Repr, Inhabited

/-- A completion entry (R329). -/
structure Compl where
  launch : Word
  status : Nat
  count  : Nat
  deriving DecidableEq, Repr, Inhabited

/-- One function: its BAR registers, context, tenancy and quota records, meters, bag table and decode table. -/
structure Fn where
  id      : Nat := 0
  queues  : List Ring := List.replicate 8 {}
  compl   : Ring := {}
  err     : Ring := {}
  lost    : Word := 0
  seq     : Word := 0
  hwBase  : DWord := 0
  hwSize  : DWord := 0
  /-- MSI-X vectors signalled: completion, error, quota (R329). -/
  msix0   : Bool := false
  msix1   : Bool := false
  msix2   : Bool := false
  troot   : DWord := 0
  save    : DWord := 0
  saveLen : DWord := 0
  svs     : DWord := 0
  svr     : DWord := 0
  hdef    : DWord := 0
  dmask   : Word := 0
  aith    : BitVec 16 := 8
  state   : FnState := .run
  fast    : List Nat := []
  slow    : List Nat := []
  sten0   : DWord := 0
  sten1   : DWord := 0
  q       : BitVec 64 := 0
  qWrite  : Option DWord := none
  refill  : Word := 0
  cap     : BitVec 63 := 0
  en      : Bool := false
  exh     : Bool := false
  irq     : Bool := false
  rls     : Bool := false
  carry   : Nat := 0
  /-- Accumulators, in fJ: whole nanojoules and the fraction of R251 as one count. -/
  events  : Nat := 0
  shares  : Nat := 0
  period  : Nat := 0
  bags    : List BagEntry := []
  dtab    : Option (List DWord) := none
  launchNo : Word := 0
  taken   : List Word := List.replicate 8 0
  posted  : List Word := List.replicate 8 0
  heldCompl : List Compl := []
  armed   : Option Nat := none
  /-- Pages that the latest snapshot of the armed range tracks (R301). -/
  tracked : List Nat := []
  /-- Reserved team slots of the save area: offset, size and entry of the slot table; BAGOFF (R318). -/
  slots   : List (Nat × Nat × Nat) := []
  /-- A slot has been reserved or freed, and the header of the save area does not show it yet. -/
  headerDue : Bool := false
  bagOff  : Nat := 0
  /-- All of the function's work is being stopped, or is stopped (R319, R320). -/
  frozen  : Bool := false
  /-- In RESET, which was entered from STOPPING (R321). -/
  stopAfter : Bool := false
  deriving DecidableEq, Repr, Inhabited

/-! ### Translation and migration -/

/-- Whose miss a walk serves: a core's lanes, its matrix engine or its access processor (R236, R261, R270). -/
inductive Walker where
  | lanes | matrix | access
  deriving DecidableEq, Repr, Inhabited

/-- A page walk in progress for a core (R270). -/
structure Walk where
  core : Nat := 0
  fn   : Nat := 0
  page : Nat := 0
  for_ : Walker := .lanes
  deriving DecidableEq, Repr, Inhabited

/-- A migration in progress (R271): the page, where its leaf lies, the leaf with MIG set, direction. -/
structure Migration where
  fn    : Nat := 0
  page  : Nat := 0
  leafAt : Nat := 0
  leaf  : DWord := 0
  up    : Bool := true
  /-- The stand whose walker set MIG. -/
  stand : Nat := 0
  deriving DecidableEq, Repr, Inhabited

/-! ### Pre-emption -/

/-- What asked for a pre-emption, and who awaits its end (R302, R320, R324, R326, R328). -/
inductive StopWhy where
  | vfStop (by_ : Issuer) (reply : Nat) (a nb : Nat)
  | vfPre (by_ : Issuer) (reply : Nat)
  | quota | slice
  deriving DecidableEq, Repr, Inhabited

/-- A command that an engine of a core has recorded (R245, R304). -/
inductive Progress where
  | matrix (core : Nat) (c : MxCmd) | access (core : Nat) (c : ApCmd)
  deriving DecidableEq, Repr, Inhabited

/-- A pre-emption in progress (R320). -/
structure Collect where
  fn     : Nat := 0
  why    : StopWhy := .quota
  /-- Stands whose teams are pre-empted. -/
  mask   : BitVec 16 := 0xFFFF
  since  : Nat := 0
  /-- The stop has been sent: to these teams, and to the engines that have not acknowledged. -/
  begun  : Bool := false
  teams  : List Nat := []
  acks   : List EngineRef := []
  forced : Bool := false
  /-- Progress captured so far, in the order of the acknowledgements. -/
  work   : List Progress := []
  /-- The function's matrix and access-processor commands, each engine's in its order of arrival (R302). -/
  order  : List Nat := []
  pins   : List Nat := []
  wait   : Option Nat := none
  lost   : Bool := false
  deriving DecidableEq, Repr, Inhabited

/-- A pre-empted team: the team as the device keeps it, and its engines' commands (R318, R320). -/
structure Saved where
  team : Team := {}
  work : List Progress := []
  cmds : List RootCmd := []
  /-- The team has been admitted again and its waves load what was saved. -/
  restoring : Bool := false
  pins : List Nat := []
  wait : Option Nat := none
  lost : Bool := false
  deriving DecidableEq, Repr, Inhabited

/-- A system instruction whose reply waits for the accesses that these drains and root commands had translated
(R301, R328). -/
structure SysOp where
  by_   : Issuer := {}
  reply : Nat := 0
  waits : List Nat := []
  /-- Teams whose staged writes of those pages must be released first. -/
  staged : List Nat := []
  /-- Of `vf.rst`: the function whose reset must have ended. -/
  resets : Option Nat := none
  value : DWord := 0
  deriving DecidableEq, Repr, Inhabited

/-- A stopped root invocation or `bmac` entry (R192). -/
structure SavedRoot where
  unit : Nat := 0
  by_  : Issuer := {}
  inv  : Option Inv := none
  bmac : Option BmacEnt := none
  deriving DecidableEq, Repr, Inhabited

/-- An accepted slice (R326). -/
structure Slice where
  start  : DWord := 0
  len    : Word := 0
  fn     : Nat := 0
  at_    : Nat := 0
  /-- START has come; and the function's own start has been made, with LATE written. -/
  active : Bool := false
  started : Bool := false
  deriving DecidableEq, Repr, Inhabited

/-! ### Links, service -/

/-- One Brusko link (R333, R335 to R337). -/
structure Link where
  st     : Nat := 0
  rtr    : Nat := 0
  ver    : Nat := 0
  nak    : Nat := 0
  peer   : DWord := 0
  /-- The last SEQ sent, and the SEQ that the receiver expects next. -/
  seq    : Nat := 4095
  expect : Nat := 0
  /-- Flits of commands that wait for room in the replay buffer, each with its function. -/
  pend   : List (Flit × Nat) := []
  /-- Flits sent and not acknowledged, each with the function whose command it carries. -/
  replay : List (Flit × Nat) := []
  /-- The SEQ of the latest NAK, and how many named it in a row; failed retrainings in a row. -/
  nakRun : Nat × Nat := (0, 0)
  fails  : Nat := 0
  /-- Flits of a command whose last flit has not been accepted, and how many commands have been executed. -/
  part_  : List Flit := []
  executed : Nat := 0
  /-- Flits that this end has given to the wire, oldest first. -/
  out    : List Flit := []
  deriving DecidableEq, Repr, Inhabited

/-- SRATE of a stack and a requested rate that waits (R333, R341). -/
structure Rate where
  mbps : BitVec 16 := 12800
  st   : BitVec 2 := 0
  want : Option (BitVec 16) := none
  /-- A change asked for while the stack retrains, which gets a retraining of its own. -/
  next : Option (BitVec 16) := none
  /-- The retraining that waits does so until this cycle: the latest deadline of the saves that hold it back. -/
  hold : Nat := 0
  deriving DecidableEq, Repr, Inhabited

/-- The attestation mailbox (R333, R340). -/
structure Mailbox where
  nonce : List DWord := List.replicate 4 0
  cmd   : DWord := 0
  sts   : BitVec 2 := 0
  len   : DWord := 0
  data  : List Byte := []
  /-- What the operation under way will show. -/
  next  : List Byte := []
  deriving DecidableEq, Repr, Inhabited

/-- Energy events not yet posted (R251): the function, the domain, and their weight in fJ. -/
structure Charge where
  fn  : Nat := 0
  dom : Nat := 0
  fj  : Nat := 0
  deriving DecidableEq, Repr, Inhabited

/-! ### The issue in progress and the order of turns -/

/-- Who issues (R15, R17, R171): the waves of a group with their issuing lanes, or a root unit. -/
inductive Agent where
  | core (core slot group : Nat) (parts : List (WaveRef × Mask))
  | root (unit : Nat)
  deriving DecidableEq, Repr, Inhabited

/-- The instruction in issue: who issues it, its address, its length in bytes and its block's end. -/
structure Issue where
  agent : Agent
  pc    : Nat
  len   : Nat
  stop  : Nat
  /-- Lines charged so far for the issue: domain, class, window and line (R146). -/
  lines : List ((Nat × Nat) × Nat × Nat) := []
  deriving DecidableEq, Repr, Inhabited

/-- Whose turn it is (log 4): an event of the table, an issue of a slot's group, an issue of a root unit, a
host's write to its memory or its access to a BAR0, a command that a function sends over a Brusko link, an error that a 64-byte line of memory returns, or a row's activation for a function. -/
inductive Turn where
  | event (i : Instr)
  | issue (core slot group : Nat) (kind : SetKind)
  | root (unit : Nat)
  | hostWrite (a : Nat) (b : List Byte)
  | bar0 (fn off : Nat) (wide : Bool) (wr : Option DWord)
  | sendCommand (link fn : Nat) (ctx : BitVec 6) (payloads : List (List Byte))
  | lineError (line : Nat) (corrected : Bool)
  | rowError (fn slot share line : Nat) (corrected : Bool)
  | activation (ch bank row fn : Nat)
  deriving DecidableEq, Repr, Inhabited

/-! ### The module -/

structure State where
  cycle    : Nat := 0
  turns    : Nat := 0
  nextId   : Nat := 1
  agenda   : List Turn := []
  issue    : Option Issue := none
  mem      : List Host.Cell := []
  hostMem  : List Host.Cell := []
  standMask : BitVec 16 := 0xFFFF
  stackMask : BitVec 16 := 0xFFFF
  coreMasks : List (BitVec 16) := List.replicate 256 0xFFFF
  fns      : List Fn := [{}]
  launches : List Launch := []
  teams    : List Team := []
  saved    : List Saved := []
  savedRoots : List SavedRoot := []
  cores    : List Core := []
  groveTlb : List (Nat × List Tlb) := []
  walks    : List Walk := []
  migrations : List Migration := []
  pinned   : List (Nat × Nat) := []
  posts    : List Post := []
  bagCmds  : List BagCmd := []
  arrivals : List Arrival := []
  rootCmds : List RootCmd := []
  units    : List RootUnit := []
  crown    : List ((Nat × Nat) × List Word) := []
  lrel     : List (Nat × Nat) := []
  promotions : List Nat := []
  charges  : List Charge := []
  periods  : Nat := 0
  /-- The turn at which the current meter period began (log 3). -/
  perTurn  : Nat := 0
  collects : List Collect := []
  sysOps   : List SysOp := []
  slice    : Option Slice := none
  /-- By chooser, unit and function: how far its share of the choices has fallen behind, in 1/256 of a choice. -/
  lags     : List ((Nat × Nat × Nat) × Int) := []
  /-- The function that the launch scheduler has served last (R306). -/
  served   : Option Nat := none
  /-- Activations by channel (64·stack + pseudo-channel), bank, row and function; the functions and stacks with a
  record of R323 in this period. -/
  rowCounts : List ((Nat × Nat × Nat × Nat) × Nat) := []
  rowRecords : List (Nat × Nat) := []
  calIdx   : DWord := 0
  pcap     : BitVec 13 := 4800
  pstat    : DWord := 0
  rates    : List Rate := List.replicate 16 {}
  links    : List Link := List.replicate 12 {}
  /-- The capacity of the expander attached at each CXL port, and which ports are down. -/
  cxl      : List (Option Nat) := List.replicate 4 (some (2 ^ 42))
  cxlDown  : List Bool := List.replicate 4 false
  wear     : List DWord := List.replicate 32 0
  ctime    : DWord := 0
  mwsel    : BitVec 16 := 0
  mailbox  : Mailbox := {}
  retired  : List Nat := []
  volatileRetired : List Nat := []
  rlFull   : Bool := false
  corrected : List (Nat × Nat) := []
  badLines : List Nat := []
  /-- Lines whose uncorrectable error a read has returned, until the fault unit has counted it (R342). -/
  errLines : List Nat := []
  rowErrs  : List RowErr := []
  /-- Frames that have met the condition of R342 and are not yet retired. -/
  toRetire : List Nat := []
  rollback : BitVec 32 := 0
  recovery : Bool := false
  /-- A fatal error has been reported over AER, and how many completer aborts have. -/
  aerFatal : Bool := false
  aerAborts : Nat := 0
  lastBar2 : List Byte := []
  /-- What the host's latest read of BAR0 has returned. -/
  lastBar0 : DWord := 0
  deriving DecidableEq, Repr, Inhabited

/-- The module right after reset (R250, R329, R332; log 2, 4, 6): a full part whose physical function is the
only one created. -/
def State.reset : State := {}

/-- Why the machine stops: only a use of `exec` outside a step can. -/
inductive Fault where
  /-- Raised by the meaning of an encoded instruction when no issue is in progress, which `step` never does.
  Safe: the machine stops where it could not have been. -/
  | noIssue
  deriving DecidableEq, Repr

/-- Why an instruction has no meaning. -/
inductive Refusal where
  /-- Raised by an arm of `exec` whose instruction has no meaning yet. Safe. -/
  | notModelled (mnemonic : String)
  deriving DecidableEq, Repr

end Sys2Proof.Machine
end

