-- ==== Sys2Proof/Machine/Mem.lean ====
section
/-! DEFINITION. Memory and translation: the canonical lists of cells, device and host memory, scratchpad
windows, page tables, TLBs, migration (18_memory_movement_and_tiers R265 to R272). -/
namespace Sys2Proof.Machine

/-! ### Cells -/

/-- What an address with no cell reads as (log 1). -/
def emptyByte : Byte := 0

/-- The byte at an address. -/
def readCell : List Host.Cell → Nat → Byte
  | [], _ => emptyByte
  | c :: cs, a => bif c.1 == a then c.2 else readCell cs a

/-- Write a byte, keeping the canonical form: writing the empty byte removes the cell. -/
def writeCell (a : Nat) (b : Byte) : List Host.Cell → List Host.Cell
  | [] => bif b == emptyByte then [] else [(a, b)]
  | c :: cs =>
    bif c.1 == a then (bif b == emptyByte then cs else (a, b) :: cs)
    else bif a < c.1 then (bif b == emptyByte then c :: cs else (a, b) :: c :: cs)
    else c :: writeCell a b cs

/-- Every cell of the list lies above `a`, and addresses rise from one to the next. -/
def cellsAbove : Nat → List Host.Cell → Bool
  | _, [] => true
  | a, c :: cs => a ≤ c.1 && c.2 != emptyByte && cellsAbove (c.1 + 1) cs

/-- The canonical form: addresses strictly rising, and no cell equal to what an unlisted address reads as. -/
def Memory.wf (m : List Host.Cell) : Bool := cellsAbove 0 m

def readCells (m : List Host.Cell) (a : Nat) : Nat → List Byte
  | 0 => []
  | n + 1 => readCell m a :: readCells m (a + 1) n

def writeCells (a : Nat) : List Byte → List Host.Cell → List Host.Cell
  | [], m => m
  | b :: bs, m => writeCells (a + 1) bs (writeCell a b m)

/-! ### Finding and changing parts of the state -/

def State.fn (s : State) (f : Nat) : Fn := (s.fns.find? fun x => x.id == f).getD { id := f }
def State.hasFn (s : State) (f : Nat) : Bool := s.fns.any fun x => x.id == f
def State.modFn (s : State) (f : Nat) (g : Fn → Fn) : State :=
  { s with fns := s.fns.map fun x => bif x.id == f then g x else x }

def State.team? (s : State) (t : Nat) : Option Team := s.teams.find? fun x => x.id == t
def State.modTeam (s : State) (t : Nat) (g : Team → Team) : State :=
  { s with teams := s.teams.map fun x => bif x.id == t then g x else x }

def State.wave? (s : State) (r : WaveRef) : Option Wave := (s.team? r.team).bind fun t => t.waves[r.wave]?
def State.modWave (s : State) (r : WaveRef) (g : Wave → Wave) : State :=
  s.modTeam r.team fun t => { t with waves := t.waves.modify r.wave g }

def State.launch? (s : State) (l : Nat) : Option Launch := s.launches.find? fun x => x.id == l
def State.modLaunch (s : State) (l : Nat) (g : Launch → Launch) : State :=
  { s with launches := s.launches.map fun x => bif x.id == l then g x else x }

/-- A core; one that has held nothing yet is as it is after reset. -/
def State.core (s : State) (c : Nat) : Core :=
  (s.cores.find? fun x => x.id == c).getD { id := c, slots := List.replicate 4 {} }
def State.modCore (s : State) (c : Nat) (g : Core → Core) : State :=
  if s.cores.any (fun x => x.id == c) then
    { s with cores := s.cores.map fun x => bif x.id == c then g x else x }
  else { s with cores := s.cores ++ [g { id := c, slots := List.replicate 4 {} }] }

def State.unit (s : State) (q : Nat) : RootUnit := (s.units.find? fun x => x.id == q).getD { id := q }
def State.modUnit (s : State) (q : Nat) (g : RootUnit → RootUnit) : State :=
  if s.units.any (fun x => x.id == q) then
    { s with units := s.units.map fun x => bif x.id == q then g x else x }
  else { s with units := s.units ++ [g { id := q }] }

/-- A fresh identifier. -/
def State.fresh (s : State) : State := { s with nextId := s.nextId + 1 }

/-- What comes from outside does nothing while the module is in recovery (R339). -/
def outside (s t : State) : Host.Outcome State Fault Refusal := .next (bif s.recovery then s else t)

/-! ### Charges (R226, R247, R249 to R251) -/

/-- Nominal weights of the classes of R333, in fJ (R226, R249). -/
def nominalFj : List Nat :=
  [4000, 300, 1000, 12000, 6000, 15000, 5000, 9000, 30000, 1600000, 1200, 800000, 500, 20000, 40000, 2000000, 900000,
   800000, 0, 0, 420000, 290000, 130000, 400000, 380000]
    ++ [3100, 2000, 900, 1100, 800, 350, 2600, 1700, 800, 250, 180, 90, 2400, 1600, 700, 900, 600, 300]

/-- The class is weighed in the domain, which covers where its events occur (R247, R333; log 94). -/
def weighed (dom cls : Nat) : Bool :=
  if cls == 18 || cls == 19 then dom < 306
  else if dom < 256 then cls ≤ 8 || cls == 13 || (20 ≤ cls && cls ≤ 36)
  else if dom < 272 then (9 ≤ cls && cls ≤ 12) || (25 ≤ cls && cls ≤ 42)
  else if dom < 288 then cls == 14
  else if dom < 300 then cls == 15
  else if dom < 304 then cls == 16
  else dom == 304 && cls == 17

/-- The base weight w0 of this part: within a tenth of the nominal one (R250). -/
def baseWeight (dom cls : Nat) : Nat :=
  let n := nominalFj.getD cls 0
  let d : Int := (n / 10 : Nat)
  ((n : Int) + max (-d) (min d (Config.calDev dom cls))).toNat

/-- The effective weight of a class in a domain for the current period, in fJ (R250). -/
def weightOf (s : State) (dom cls : Nat) : Nat :=
  let f : Int := if s.periods = 0 then 1000000 else
    max 0 (1000000 + (Config.calKt dom cls).toInt * (Config.temperatureOf s.perTurn dom - 60)
      + (Config.calKv dom cls).toInt * (Config.voltageOf s.perTurn dom - (Config.calVnom dom).toNat))
  bif weighed dom cls then baseWeight dom cls * f.toNat / 1000000 else 0

/-- What `n` events of a class in a domain add to the charges of a function. -/
def chargeOf (s : State) (f dom cls n : Nat) : List Charge :=
  if n = 0 then [] else [{ fn := f, dom := dom, fj := n * weightOf s dom cls }]

/-- `n` events of a class happen in a domain for a function: their weight waits to be posted. -/
def State.charge (s : State) (f dom cls n : Nat) : State := { s with charges := s.charges ++ chargeOf s f dom cls n }

/-- A charge is posted to its function's event accumulator, which wraps at 2^64 nJ (R251). -/
def Charge.post (fs : List Fn) (c : Charge) : List Fn :=
  fs.map fun f => bif f.id == c.fn then { f with events := (f.events + c.fj) % (2 ^ 64 * 1000000), period := f.period + c.fj } else f

/-- Every charge that waits is posted, as it must be when an operation retires. -/
def postAll (s : State) : State := { s with fns := s.charges.foldl Charge.post s.fns, charges := [] }

/-- The stand of a core (R7). -/
def coreStand (c : Nat) : Nat := c / 256

/-- The meter domain of a core's grove, of a stack's base die (R247, R333). -/
def coreDom (c : Nat) : Nat := c / 16
def stackDom (k : Nat) : Nat := 256 + k
/-- The meter domain of a stand's fabric. -/
def standDom (k : Nat) : Nat := 272 + k

/-- The domain that weighs a line of an address: its stack, its CXL port, or the PCI Express port. -/
def locDom : Loc → Nat
  | .dev pa => if pa / 2 ^ 48 = 0 then stackDom (pa / 2 ^ 36 % 16) else 300 + pa / 2 ^ 42 % 4
  | .host _ => 304
  | .win _ _ => 305

/-- The class at which a line there is charged: DRAM, CXL flit, PCI Express (R249). -/
def locCls : Loc → Nat
  | .dev pa => if pa / 2 ^ 48 = 0 then 9 else 16
  | .host _ => 17
  | .win _ _ => 7

/-! ### Bytes of a location -/

def Loc.add : Loc → Nat → Loc
  | .dev a, n => .dev (a + n)
  | .host a, n => .host (a + n)
  | .win t o, n => .win t (o + n)

def readLoc (s : State) : Loc → Byte
  | .dev a => readCell s.mem a
  | .host a => readCell s.hostMem a
  | .win t o => readCell (((s.team? t).map (·.win)).getD []) o

def writeLoc (s : State) (b : Byte) : Loc → State
  | .dev a => { s with mem := writeCell a b s.mem }
  | .host a => { s with hostMem := writeCell a b s.hostMem }
  | .win t o => s.modTeam t fun x => { x with win := writeCell o b x.win }

def readBytes (s : State) (l : Loc) : Nat → List Byte
  | 0 => []
  | n + 1 => readLoc s l :: readBytes s (l.add 1) n

def writeBytes (s : State) (l : Loc) : List Byte → State
  | [] => s
  | b :: bs => writeBytes (writeLoc s b l) (l.add 1) bs

def readWord (s : State) (l : Loc) : Word := BitVec.ofNat 32 (leNat (readBytes s l 4))
def writeWord (s : State) (l : Loc) (x : Word) : State := writeBytes s l (leBytes 4 x.toNat)

/-! ### Frames -/

/-- An enabled frame of the fast or the capacity tier (R269, R333). -/
def frameEnabled (s : State) (pa : Nat) : Bool :=
  if pa / 2 ^ 48 = 0 then bits pa 47 40 == 0 && s.stackMask.getLsbD (bits pa 39 36)
  else if pa / 2 ^ 48 = 1 then
    bits pa 47 44 == 0 && (match s.cxl.getD (bits pa 43 42) none with
      | some cap => bits pa 41 0 < cap
      | none => false)
  else false

/-- The CXL port of an address is down (R334). -/
def portDown (s : State) (pa : Nat) : Bool := pa / 2 ^ 48 == 1 && s.cxlDown.getD (bits pa 43 42) false

/-- Where a physical address of a function's translation lies (R266, R331); none where it reaches nothing. -/
def locOfPa (s : State) (f pa : Nat) : Option Loc :=
  if pa / 2 ^ 48 ≤ 1 then bif frameEnabled s pa then some (.dev pa) else none
  else if pa / 2 ^ 48 = 2 then
    let o := pa % 2 ^ 48
    if o < (s.fn f).hwSize.toNat then some (.host (((s.fn f).hwBase.toNat + o) % 2 ^ 64)) else none
  else none

/-- Whether an address of the capacity tier can be reached: its port is up (R334). -/
def Loc.reachable (s : State) : Loc → Bool
  | .dev pa => frameEnabled s pa && !portDown s pa
  | _ => true

/-- A read there meets an uncorrectable error: an unreachable frame, or a line that has one (R334, R342). -/
def Loc.broken (s : State) (l : Loc) : Bool :=
  !l.reachable s || (match l with
    | .dev pa => s.badLines.contains (pa / 64)
    | _ => false)

/-- A read there has returned an uncorrectable error of its line: it is counted when the turn is over (R342). -/
def noteError (s : State) (l : Loc) : State :=
  match l with
  | .dev pa => bif s.badLines.contains (pa / 64) then { s with errLines := s.errLines ++ [pa / 64] } else s
  | _ => s

/-! ### Page tables -/

/-- Fields of a leaf (R269). -/
def leafV (x : DWord) : Bool := x.getLsbD 63
def leafNm (x : DWord) : Bool := x.getLsbD 62
def leafSz (x : DWord) : Bool := x.getLsbD 61
def leafX (x : DWord) : Bool := x.getLsbD 60
def leafW (x : DWord) : Bool := x.getLsbD 59
def leafR (x : DWord) : Bool := x.getLsbD 58
def leafD (x : DWord) : Bool := x.getLsbD 57
def leafMig (x : DWord) : Bool := x.getLsbD 56
/-- The frame of page `page` under a leaf; a 2 MiB page takes PA[51:21] (R269). -/
def leafFrame (x : DWord) (page : Nat) : Nat :=
  let pa := bits x.toNat 51 16 * 65536
  if leafSz x then pa / 2 ^ 21 * 2 ^ 21 + page % 32 * 65536 else pa
def setBit64 (x : DWord) (i : Nat) (b : Bool) : DWord :=
  bif b then x ||| (1#64 <<< i) else x &&& ~~~(1#64 <<< i)

/-- The page is resident: its frame lies in the fast tier or in host memory (R269). -/
def leafResident (x : DWord) : Bool := bits x.toNat 51 48 == 0 || bits x.toNat 51 48 == 2

/-- An entry of a table at levels 4 to 2 points on (R268). -/
def nodeOk (x : DWord) : Bool := leafV x && bits x.toNat 62 52 == 0 && bits x.toNat 12 0 == 0

/-- The conditions on a leaf (R269). -/
def leafOk (s : State) (f page : Nat) (x : DWord) : Bool :=
  leafV x && bits x.toNat 55 52 == 0 && bits x.toNat 15 0 == 0
    && (locOfPa s f (leafFrame x page)).isSome
    && (!leafNm x || bits x.toNat 51 48 == 0)
    && (!leafSz x || (bits x.toNat 20 16 == 0 && bits x.toNat 51 48 != 1))

/-- The value of a table entry; one that cannot be read is none (R334, log 86). -/
def readEntry (s : State) (f pa : Nat) : DWord :=
  match locOfPa s f pa with
  | some l => bif l.broken s then 0 else BitVec.ofNat 64 (leNat (readBytes s l 8))
  | none => 0

def writeEntry (s : State) (f pa : Nat) (x : DWord) : State :=
  match locOfPa s f pa with
  | some l => bif l.reachable s then writeBytes s l (leBytes 8 x.toNat) else s
  | none => s

/-- A walk (R267): where the leaf of a page lies, whatever it holds, and none where a level above is not valid. -/
def leafAddr (s : State) (f page : Nat) : Option Nat :=
  let e4 := readEntry s f ((s.fn f).troot.toNat + 8 * bits page 39 30)
  if !nodeOk e4 then none else
  let e3 := readEntry s f (bits e4.toNat 51 13 * 8192 + 8 * bits page 29 20)
  if !nodeOk e3 then none else
  let e2 := readEntry s f (bits e3.toNat 51 13 * 8192 + 8 * bits page 19 10)
  if !nodeOk e2 then none else
  some (bits e2.toNat 51 13 * 8192 + 8 * bits page 9 0)

/-- The valid leaf of a page and its place, or none (R269). -/
def walk (s : State) (f page : Nat) : Option (Nat × DWord) :=
  match leafAddr s f page with
  | none => none
  | some a =>
    let x := readEntry s f a
    bif leafOk s f page x then some (a, x) else none

/-- A TLB entry translates a page: its own, or any of its 2 MiB page (R270). -/
def Tlb.hits (t : Tlb) (f page : Nat) : Bool :=
  t.fn == f && (bif leafSz t.leaf then t.page / 32 == page / 32 else t.page == page)

/-- A TLB entry translates some page of `[p, p + n)`. -/
def Tlb.meets (t : Tlb) (f p n : Nat) : Bool :=
  t.fn == f && (bif leafSz t.leaf then p < (t.page / 32 + 1) * 32 && t.page / 32 * 32 < p + n
                else p ≤ t.page && t.page < p + n)

/-- Remove the translations of pages in `[p, p + n)` of a function from every TLB (R270, R271). -/
def invalidate (s : State) (f p n : Nat) : State :=
  let keep := fun (t : Tlb) => !t.meets f p n
  let found := fun (xs : List (Tlb × Bool)) => xs.filter fun x => keep x.1
  { s with
    cores := s.cores.map fun c => { c with
      tlb := c.tlb.filter keep, mxTlb := c.mxTlb.filter keep, apTlb := c.apTlb.filter keep
      matrix := c.matrix.map fun x => { x with walked := found x.walked }
      access := c.access.map fun x => { x with walked := found x.walked } }
    groveTlb := s.groveTlb.map fun g => (g.1, g.2.filter keep)
    teams := s.teams.map fun t =>
      if t.fn == f then
        { t with waves := t.waves.map fun w => { w with walked := found w.walked } }
      else t }

/-- A page may not move: pinned, near-memory, part of a 2 MiB page, or tracked in an armed range (R34, R174, R285,
R301). -/
def pageFixed (s : State) (f page : Nat) (x : DWord) : Bool :=
  leafNm x || leafSz x || s.pinned.contains (f, page) || (s.fn f).tracked.contains page

/-- Step 1 of a migration (R271), by the fault unit of a stand: MIG is set and every TLB copy goes. Nothing if one
is under way. -/
def startMigration (s : State) (stand f page : Nat) (up : Bool) : State :=
  match walk s f page with
  | none => s
  | some (a, x) =>
    if leafMig x then s else
    let x' := setBit64 x 56 true
    let s := invalidate (writeEntry s f a x') f page 1
    { s with migrations := s.migrations ++ [{ fn := f, page := page, leafAt := a, leaf := x', up := up, stand := stand }] }

/-- Set D in the leaf of a page that is about to be stored to (R270). -/
def setDirty (s : State) (f page : Nat) : State :=
  match walk s f page with
  | none => s
  | some (a, x) =>
    if leafD x then s else
    let s := writeEntry s f a (setBit64 x 57 true)
    let mark := fun (t : Tlb) => bif t.fn == f && t.page == page then { t with leaf := setBit64 t.leaf 57 true } else t
    { s with
      cores := s.cores.map fun c => { c with tlb := c.tlb.map mark, mxTlb := c.mxTlb.map mark, apTlb := c.apTlb.map mark }
      groveTlb := s.groveTlb.map fun g => (g.1, g.2.map mark) }

/-- What an engine, a unit or the fetch finds at a virtual address (R236, R261, R54): no page, a page that is
not resident or is moving, or the leaf. -/
inductive Found where
  | bad | away (page : Nat) | at_ (leaf : DWord) (l : Loc)
  deriving DecidableEq, Repr, Inhabited

def findVa (s : State) (f va : Nat) : Found :=
  if 2 ^ 56 ≤ va then .bad else
  match walk s f (va / 65536) with
  | none => .bad
  | some (_, x) =>
    if leafMig x || !leafResident x then .away (va / 65536) else
    match locOfPa s f (leafFrame x (va / 65536) + va % 65536) with
    | none => .bad
    | some l => .at_ x l

/-- The pages that `[va, va + n)` meets, by number. -/
def pagesOf (va n : Nat) : List Nat :=
  if n = 0 then [] else (List.range ((va + n - 1) / 65536 + 1 - va / 65536)).map (· + va / 65536)

/-- Where a page's reach ends: a host page ends where its function's host window does (R331). -/
def pageEnd (s : State) (f page : Nat) (x : DWord) : Nat :=
  let pa := leafFrame x page
  65536 * page + bif pa / 2 ^ 48 == 2 then min 65536 ((s.fn f).hwSize.toNat - pa % 2 ^ 48) else 65536

/-- The first address of `[a, b)`, which lies in the page of `a`, that the page's leaf does not permit or reach. -/
def pageBad (s : State) (f a b : Nat) (write : Bool) : Option Nat :=
  match (if a < 2 ^ 56 then walk s f (a / 65536) else none) with
  | none => some a
  | some (_, x) =>
    bif !(bif write then leafW x else leafR x) then some a
    else bif pageEnd s f (a / 65536) x < b then some (max a (pageEnd s f (a / 65536) x)) else none

/-- The parts of `[va, va + n)` in its pages, by their bounds. -/
def pageSpans (va n : Nat) : List (Nat × Nat) :=
  (pagesOf va n).map fun p => (max va (65536 * p), min (va + n) (65536 * (p + 1)))

/-- The first address of `[va, va + n)` whose leaf is not valid, or does not permit or reach it. -/
def firstUnmapped (s : State) (f va n : Nat) (write : Bool) : Option Nat :=
  (pageSpans va n).findSome? fun p => pageBad s f p.1 p.2 write

/-- The state of a range for an engine: the first address that is missing or not permitted, or page that is away. -/
inductive Range where
  | ok | bad (a : Nat) | away (page : Nat)
  deriving DecidableEq, Repr, Inhabited

/-- Check a range page by page in ascending order; permission is a matter of the leaf, whether or not the page is
resident. -/
def checkRange (s : State) (f va n : Nat) (write : Bool) : Range :=
  (pageSpans va n).foldl (fun r p =>
    match r with
    | .ok => match pageBad s f p.1 p.2 write with
      | some a => .bad a
      | none => match findVa s f p.1 with
        | .away q => .away q
        | _ => .ok
    | r => r) .ok

/-- Bytes of a virtual range; a byte that cannot be reached reads the empty byte. -/
def readVa (s : State) (f va : Nat) : Nat → List Byte
  | 0 => []
  | n + 1 =>
    (match findVa s f va with
      | .at_ _ l => readLoc s l
      | _ => emptyByte) :: readVa s f (va + 1) n

/-- Write bytes of a virtual range, setting D in each page written; what cannot be reached is not written (R334). -/
def writeVa (s : State) (f va : Nat) : List Byte → State
  | [] => s
  | b :: bs =>
    let s := match findVa s f va with
      | .at_ _ l => bif l.reachable s then writeLoc (setDirty s f (va / 65536)) b l else s
      | _ => s
    writeVa s f (va + 1) bs

/-- Where a byte lies whose leaf is valid, resident or not. -/
def anyLoc (s : State) (f va : Nat) : Option Loc :=
  if 2 ^ 56 ≤ va then none else
  match walk s f (va / 65536) with
  | some (_, x) => locOfPa s f (leafFrame x (va / 65536) + va % 65536)
  | none => none

/-- Bytes of a virtual range in the tier where they lie. -/
def peekVa (s : State) (f va : Nat) : Nat → List Byte
  | 0 => []
  | n + 1 => ((anyLoc s f va).elim emptyByte (readLoc s)) :: peekVa s f (va + 1) n

/-- Write bytes of a virtual range in the tier where they lie, setting D in each page written; one that cannot be reached
is not written (R334). -/
def placeVa (s : State) (f va : Nat) : List Byte → State
  | [] => s
  | b :: bs =>
    let s := match anyLoc s f va with
      | some l => bif l.reachable s then writeLoc (setDirty s f (va / 65536)) b l else s
      | none => s
    placeVa s f (va + 1) bs

/-- So too of a read at a virtual address. -/
def noteErrorAt (s : State) (f va : Nat) : State := (anyLoc s f va).elim s (noteError s)

/-- The lines of 64 bytes that a range meets. -/
def linesOf (a n : Nat) : Nat := if n = 0 then 0 else (a + n - 1) / 64 + 1 - a / 64

/-- The first address of a record, block or table at which a scheduler cannot read it: its page is not readable, or its
line cannot be reached or has an uncorrectable error (R334, log 86). -/
def unreadable (s : State) (f va n : Nat) : Option Nat :=
  match firstUnmapped s f va n false with
  | some a => some a
  | none => (List.range (linesOf va n)).findSome? fun i =>
      let a := max va (64 * (va / 64 + i))
      bif (anyLoc s f a).all (Loc.broken s) then some a else none

end Sys2Proof.Machine
end

