-- ==== Sys2Proof/Machine/Regs.lean ====
section
/-! DEFINITION. Reading and writing registers (03_registers_and_the_pool R39, R50; 04 R77), and the element
rules of vectors: which elements are active and what happens to the others (02_execution_model R28, R29). -/
namespace Sys2Proof.Machine

namespace Regs

/-- `S(n)`; `s0` reads zero (R39). -/
def getS (r : Regs) (n : Nat) : Word := if n = 0 then 0 else r.s.getD n 0

/-- Write a uniform register; `s0` ignores it. The write-mask bit is set (R50). -/
def setS (r : Regs) (n : Nat) (x : Word) : Regs :=
  if n = 0 then r else { r with s := r.s.set n x, wmS := r.wmS ||| (1#128 <<< n) }

/-- A pair's 64-bit value, the low half in the even register (R39). -/
def getPair (r : Regs) (n : Nat) : DWord := dword (r.getS n) (r.getS (n + 1))
def setPair (r : Regs) (n : Nat) (x : DWord) : Regs := (r.setS n (loW x)).setS (n + 1) (hiW x)

/-- `P(n)` as a lane set; `p0` is all true (R39). -/
def getP (r : Regs) (n : Nat) : Mask := if n = 0 then Mask.full r.width else r.p.getD n 0

/-- Write a predicate register; `p0` ignores it. -/
def setP (r : Regs) (n : Nat) (m : Mask) : Regs :=
  if n = 0 then r else { r with p := r.p.set n m, wmP := r.wmP ||| (1#16 <<< n) }

/-- `V(n)[l]`. -/
def getV (r : Regs) (n l : Nat) : Word := (r.v.getD n []).getD l 0

/-- Write lane `l` of vector register `n`. -/
def setV (r : Regs) (n l : Nat) (x : Word) : Regs :=
  { r with v := r.v.modify n (fun row => row.set l x), wmV := r.wmV ||| (1#512 <<< n), wrote := r.wrote ||| (1#512 <<< n) }

def getT (r : Regs) (n : Nat) : BitVec 128 := r.t.getD n 0
def setT (r : Regs) (n : Nat) (x : BitVec 128) : Regs := { r with t := r.t.set n x }

/-- `elem(n, e)` of R77: element `e` of the operand that starts at register `n` (R28). -/
def elem (r : Regs) (n e : Nat) : Word := r.getV (n + e / r.width) (e % r.width)

/-- The registers of a wave with `v` vectors and `s` uniforms, all zero (R11). -/
def init (width v s : Nat) : Regs :=
  { width := width, v := List.replicate v (List.replicate width 0), s := List.replicate s 0
    p := List.replicate 16 0, t := List.replicate 16 0, vl := width }

end Regs

/-- What an instruction sees of one wave, or of a root unit, in an issue (R77, R78): its registers, its issuing
lanes, the enabled set E, and the effective group, length, policies and mask. -/
structure Ctx where
  ref  : Option WaveRef := none
  unit : Nat := 0
  r    : Regs := {}
  iss  : Mask := 0
  e    : Mask := 0
  w    : Nat := 0
  g    : Nat := 1
  vl   : Nat := 0
  tz   : Bool := false
  mz   : Bool := false
  mask : Nat := 0
  mn   : Bool := false
  /-- The effective rounding mode's code: RNE without a prefix, `%frm` for RM 110 (R70, R77). -/
  rm   : BitVec 3 := 0
  deriving Repr

/-- The lanes whose instruction predicate is true (R60). -/
def predLanes (r : Regs) (h : Head) : Mask :=
  let m := r.getP h.pred.toNat
  bif h.pn then ~~~m &&& Mask.full r.width else m

/-- The context of one wave or unit. In root code RM 110 is RNE and g is 1 (R171). -/
def mkCtx (ref : Option WaveRef) (unit : Nat) (r : Regs) (iss : Mask) (h : Head) : Ctx :=
  let g0 := 2 ^ (r.vtype.extractLsb' 0 2).toNat
  let g := if ref.isNone then 1 else match h.pfx with
    | none => g0
    | some p => if p.go = 1 then 1 else if p.go = 2 then 2 else if p.go = 3 then 4 else g0
  let rm := match h.pfx with
    | none => 0
    | some p => if p.rm = 6 then r.frm else p.rm
  { ref := ref, unit := unit, r := r, iss := iss, e := iss &&& predLanes r h
    w := r.width, g := g, vl := min r.vl (r.width * g)
    tz := r.vtype.getLsbD 2 || (h.pfx.any (·.tz)), mz := r.vtype.getLsbD 3 || (h.pfx.any (·.mz))
    mask := (h.pfx.map (·.mask.toNat)).getD 0, mn := h.pfx.any (·.mn), rm := rm }

namespace Ctx

/-- The mask bit of element `e` (R28). -/
def maskBit (c : Ctx) (e : Nat) : Bool :=
  if c.mask = 0 then true else ((c.r.getP (c.mask + e / c.w)).has (e % c.w)) != c.mn

/-- What R29 says of an element. -/
inductive Kind where
  | active | untouched | zeroed
  deriving DecidableEq, Repr

/-- The table of R29. -/
def kind (c : Ctx) (e : Nat) : Kind :=
  if !c.e.has (e % c.w) then .untouched
  else if c.vl ≤ e then bif c.tz then .zeroed else .untouched
  else if c.maskBit e then .active
  else bif c.mz then .zeroed else .untouched

def active (c : Ctx) (e : Nat) : Bool := c.kind e == .active

/-- The elements of the instruction, in ascending order, and the active ones among them. -/
def elems (c : Ctx) : List Nat := List.range (c.w * c.g)
def actives (c : Ctx) : List Nat := c.elems.filter c.active

/-- One register's new row: lane `l` is element `base + l`. -/
def newRow (c : Ctx) (f : Nat → Word) (base : Nat) (row : List Word) : List Word :=
  row.mapIdx fun l x => match c.kind (base + l) with
    | .active => f (base + l)
    | .zeroed => 0
    | .untouched => x

/-- Some element of register `j` of the group is written. -/
def writes (c : Ctx) (j : Nat) : Bool := (List.range c.w).any fun l => c.kind (j * c.w + l) != .untouched

/-- `put(n, e, f e)` for every element (R29, R77). -/
def putV (c : Ctx) (r : Regs) (n : Nat) (f : Nat → Word) : Regs :=
  (List.range c.g).foldl (fun r j =>
    bif c.writes j then
      { r with v := r.v.modify (n + j) (c.newRow f (j * c.w)), wmV := r.wmV ||| (1#512 <<< (n + j)),
               wrote := r.wrote ||| (1#512 <<< (n + j)) }
    else r) r

/-- `put` of a predicate destination across its registers (R28, R29). -/
def putP (c : Ctx) (r : Regs) (n : Nat) (f : Nat → Bool) : Regs :=
  (List.range c.g).foldl (fun r j =>
    bif c.writes j then
      let old := r.getP (n + j)
      r.setP (n + j) (Mask.ofFn c.w fun l => match c.kind (j * c.w + l) with
        | .active => f (j * c.w + l)
        | .zeroed => false
        | .untouched => old.has l)
    else r) r

end Ctx

/-- The bits of `%fflags` that hold flags and trap enables (R207). -/
def fflagsMask : Word := 0x3F3F

end Sys2Proof.Machine
end

