-- ==== Sys2Proof/Machine/Ops.lean ====
section
/-! DEFINITION. Operations that many instructions and events share: lanes and their ends, barriers, full/empty
words, counters, performing loads and stores, launch error records, taking a trap and returning from one
(02_execution_model; 08 R136 to R139; 21 R312 to R316). -/
namespace Sys2Proof.Machine

/-! ### Lanes -/

def Lane.ended (l : Lane) : Bool := l.run == .ended
def Lane.runnable (l : Lane) : Bool := l.run == .runnable

/-- Change the lanes of a set. -/
def Wave.onLanes (w : Wave) (m : Mask) (f : Lane → Lane) : Wave :=
  { w with lanes := w.lanes.mapIdx fun i l => bif m.has i then f l else l }

def State.onLanes (s : State) (r : WaveRef) (m : Mask) (f : Lane → Lane) : State :=
  s.modWave r fun w => w.onLanes m f

/-- The lane goes on at an address within, or at the end of, the block it stands in (R58). -/
def Lane.goTo (l : Lane) (pc : Nat) : Lane :=
  { l with pc := pc, pos := bif pc == l.blk.stop then .atHeader else .inside }

/-- The lane goes to a header (R57, R86). -/
def Lane.toHeader (l : Lane) (pc : Nat) : Lane := { l with pc := pc, pos := .atHeader }

/-- The lane moves to the next instruction. -/
def Lane.advance (len : Nat) (l : Lane) : Lane := l.goTo (l.pc + len)

def Lane.park (c : Park) (l : Lane) : Lane := { l with run := .parked c }
def Lane.unpark (l : Lane) : Lane := { l with run := .runnable }

/-- The lanes of a wave that have not exited. -/
def Wave.live (w : Wave) : List Nat := (List.range w.lanes.length).filter fun i => !(w.lanes.getD i {}).ended
def Wave.allEnded (w : Wave) : Bool := w.lanes.all Lane.ended

/-- The kernel's entry header of a wave's launch, and the wave's function (R11, R41). -/
def State.entryOf (s : State) (r : WaveRef) : Nat :=
  (((s.team? r.team).bind fun t => s.launch? t.launch).map (·.entry)).getD 0
def State.coreOf (s : State) (r : WaveRef) : Nat := ((s.team? r.team).map (·.core)).getD 0
def State.standOf (s : State) (r : WaveRef) : Nat := coreStand (s.coreOf r)
def State.fnOf (s : State) (r : WaveRef) : Nat := ((s.team? r.team).map (·.fn)).getD 0

/-- A virtual address as an offset from the entry header (R41). -/
def offsetOf (entry a : Nat) : Word := BitVec.ofInt 32 ((a : Int) - entry)

/-! ### Charges of lines (R248, R249) -/

/-- Charge lines, each of them once. -/
def chargeKeys (s : State) (f : Nat) (keys : List ((Nat × Nat) × Nat × Nat)) : State :=
  let keys := keys.dedup
  { s with charges := s.charges ++
      ((keys.map (·.1)).dedup).flatMap fun g => chargeOf s f g.1 g.2 (keys.countP fun k => k.1 == g) }

/-- Meter domain, class and line of a place, for an access that no grove cache lies in the way of. -/
def directLine (l : Loc) : (Nat × Nat) × Nat × Nat :=
  match l with
  | .dev pa => ((locDom l, locCls l), 0, pa / 64)
  | .host a => ((locDom l, locCls l), 0, a / 64)
  | .win t o => ((305, 7), t, o / 64)

/-- The charges of an access that comes from no core. -/
def chargeDirect (s : State) (f : Nat) (ls : List Loc) : State := chargeKeys s f (ls.map directLine)

/-- The table entries that a walk reads (R267). -/
def walkReads (s : State) (f page : Nat) : List Nat :=
  let next := fun (e : DWord) (i : Nat) => bits e.toNat 51 13 * 8192 + 8 * i
  let a4 := (s.fn f).troot.toNat + 8 * bits page 39 30
  let e4 := readEntry s f a4
  if !nodeOk e4 then [a4] else
  let a3 := next e4 (bits page 29 20)
  let e3 := readEntry s f a3
  if !nodeOk e3 then [a4, a3] else
  let a2 := next e3 (bits page 19 10)
  let e2 := readEntry s f a2
  if !nodeOk e2 then [a4, a3, a2] else [a4, a3, a2, next e2 (bits page 9 0)]

/-- The places of a range's lines of 64 bytes, resident or not. -/
def lineLocs (s : State) (f va n : Nat) : List Loc :=
  (List.range (linesOf va n)).filterMap fun i => anyLoc s f (max va ((va / 64 + i) * 64))

/-- The walks that translations of a function's pages ask for, by a fetch, a unit or a scheduler: their reads are charged to
it (R248, R249, R271; log 24). -/
def chargeWalks (s : State) (f : Nat) (pages : List Nat) : State :=
  { s with charges := s.charges ++ (pages.filter (Config.unitWalks s.turns f)).flatMap fun p =>
      ((walkReads s f p).filterMap (locOfPa s f)).flatMap fun l => chargeOf s f (locDom l) (locCls l) 1 }

/-- A scheduler or a system instruction reads or writes a range of function `g`'s, and function `f` is charged for it; the
walks are charged to the pages' owner (R248). -/
def chargeRange (s : State) (f g va n : Nat) : State := chargeWalks (chargeDirect s f (lineLocs s g va n)) g (pagesOf va n)

/-! ### Launch error records (R315) -/

structure ErrRec where
  cause   : Word := 0
  flg     : Word := 0
  launch  : Word := 0
  task    : Word := 0
  wave    : Word := 0
  lane    : Word := 0xFFFFFFFF
  anchor  : Word := 0xFFFFFFFF
  pc      : Word := 0xFFFFFFFF
  unit    : Word := 0
  detail  : DWord := 0
  aux     : Word := 0
  codeoff : Word := 0
  deriving DecidableEq, Repr, Inhabited

def flgExited : Word := 1
def flgDouble : Word := 2
def flgDeleg : Word := 4
def flgImprecise : Word := 8

/-- `%tcause` of a trap (R312). -/
def TrapInfo.word (t : TrapInfo) : Word :=
  BitVec.ofNat 32 (t.cause % 256 + 256 * (t.rsn % 256) + 65536 * (t.code % 4096))

def ErrRec.bytes (e : ErrRec) (seq : Word) : List Byte :=
  [seq, e.cause, e.flg, e.launch, e.task, e.wave, e.lane, e.anchor, e.pc, e.unit].flatMap (fun x => leBytes 4 x.toNat)
    ++ leBytes 8 e.detail.toNat ++ leBytes 4 e.aux.toNat ++ leBytes 4 e.codeoff.toNat ++ List.replicate 8 0

/-- A ring is full when its indices differ by its size; indices count modulo 2^32 (R306, R315). -/
def Ring.full (r : Ring) : Bool := r.size.toNat ≤ (r.prod - r.cons).toNat
def Ring.slot (r : Ring) (i : Word) (n : Nat) : Nat := (r.base.toNat + n * (i.toNat % r.size.toNat)) % 2 ^ 64

/-- Write a record to a function's error ring, or drop it when the ring is full, and signal vector 1; the record is charged to
the function that owns the faulting operation (R248, R315, R329). -/
def pushErrOf (s : State) (owner f : Nat) (e : ErrRec) : State :=
  let r := (s.fn f).err
  if r.full then s.modFn f fun x => { x with lost := x.lost + 1 }
  else
    let s := writeBytes s (.host (r.slot r.prod 64)) (e.bytes (s.fn f).seq)
    (s.modFn f fun x => { x with err := { x.err with prod := x.err.prod + 1 }, seq := x.seq + 1, msix1 := true }).charge owner 304 17 1

/-- A record of a function's own operation. -/
def pushErr (s : State) (f : Nat) (e : ErrRec) : State := pushErrOf s f f e

/-- The record is also one of its launch's (R316). -/
def countErr (s : State) (launch : Nat) : State := s.modLaunch launch fun l => { l with records := l.records + 1 }

/-- The WAVE field: `%wave` and `%team` (R315). -/
def waveField (wave team : Nat) : Word := BitVec.ofNat 32 (wave % 16 + 16 * (team % 2 ^ 24))

/-- The record of a fault of work that a wave issued (R137, R237, R261, R316). -/
def issuerErr (s : State) (b : Issuer) (cause unit : Nat) (detail : Nat) (aux : Nat) : ErrRec :=
  let gone := match s.wave? ⟨b.team, b.wave⟩ with
    | some w => w.allEnded
    | none => b.team != 0
  { cause := BitVec.ofNat 32 cause, flg := flgImprecise ||| (bif gone then flgExited else 0)
    launch := ((s.launch? b.launch).map (·.number)).getD 0
    task := BitVec.ofNat 32 b.task, wave := waveField b.wave b.teamNo, anchor := b.anchor
    unit := BitVec.ofNat 32 unit, detail := BitVec.ofNat 64 detail, aux := BitVec.ofNat 32 aux }

/-- Report an imprecise fault of issued work to its function's ring (R316, R248). -/
def issuerFault (s : State) (b : Issuer) (cause unit detail aux : Nat) : State :=
  countErr (pushErr s b.fn (issuerErr s b cause unit detail aux)) b.launch

/-! ### Full/empty words (R25, R144) -/

def Team.feWord (t : Team) (off : Nat) : FeWord := (t.fe.find? fun x => x.off == off).getD { off := off }

/-- Store a word's entry; a word that is empty, awaited by no lane and reserved for none has no entry. -/
def Team.setFe (t : Team) (w : FeWord) : Team :=
  let rest := t.fe.filter fun x => x.off != w.off
  { t with fe := bif !w.full && w.queue.isEmpty && w.reserved.isNone then rest
                 else (rest.filter fun x => x.off < w.off) ++ [w] ++ (rest.filter fun x => w.off < x.off) }

/-- The lane (team, wave, lane) waits on the word for the state `full`. -/
def awaits (s : State) (team off : Nat) (full : Bool) (q : Nat × Nat × Nat) : Bool :=
  match (s.wave? ⟨q.1, q.2.1⟩).bind fun w => w.lanes[q.2.2]? with
  | some l => l.run == .parked (.word team off full)
  | none => false

/-- A word has changed to the state `full`: it is reserved for the lane that parked first among those that
await it, and that lane becomes runnable with its PC unchanged (R25). -/
def wakeFe (s : State) (team off : Nat) (full : Bool) : State :=
  match s.team? team with
  | none => s
  | some t =>
    let w := t.feWord off
    match w.reserved with
    | some _ => s
    | none =>
      match w.queue.find? (awaits s team off full) with
      | none => s
      | some q =>
        let s := s.modTeam team fun t => t.setFe { w with reserved := some q, queue := w.queue.filter (· != q) }
        s.onLanes ⟨q.1, q.2.1⟩ (Mask.put 0 q.2.2 true) Lane.unpark

/-- Set the full/empty bit of a word and wake a lane that awaited the change. -/
def setFull (s : State) (team off : Nat) (full : Bool) : State :=
  match s.team? team with
  | none => s
  | some t =>
    let w := t.feWord off
    if w.full = full then s
    else wakeFe (s.modTeam team fun t => t.setFe { w with full := full }) team off full

/-- A signal word written by the access processor: the word and the mark (R260, R276). -/
def fillWord (s : State) (team off : Nat) (x : Word) : State :=
  setFull (writeWord s (.win team off) x) team off true

/-- A word without the lanes of `gone` in its order, and without their reservation. -/
def FeWord.without (gone : Nat × Nat × Nat → Bool) (w : FeWord) : FeWord :=
  { w with queue := w.queue.filter fun x => !gone x
           reserved := w.reserved.filter fun x => !gone x }

/-- Lanes that end, or are saved, leave every word's order and lose their reservations; a word whose
reservation ends so is offered to the next lane that awaits its state (R25). -/
def dropFe (s : State) (gone : Nat × Nat × Nat → Bool) : State :=
  let s' := { s with teams := s.teams.map fun t => t.fe.foldl (fun t w => t.setFe (w.without gone)) t }
  s.teams.foldl (fun s' t =>
    t.fe.foldl (fun s' w => bif w.reserved.any gone then wakeFe s' t.id w.off w.full else s') s') s'

/-! ### Barriers (R27, R94) -/

/-- Every lane of every wave of the team has arrived or ended. -/
def Team.allAt (t : Team) (gang : Bool) : Bool :=
  t.waves.all fun w => w.lanes.all fun l => l.ended || bif gang then l.gangArr else l.teamArr

/-- A released lane goes on past the barrier; one that a restore left at its barrier too (R98). -/
def Lane.release (gang : Bool) (l : Lane) : Lane :=
  if (bif gang then l.gangArr else l.teamArr) then
    let l := bif gang then { l with gangArr := false } else { l with teamArr := false }
    match l.run with
    | .parked (.teamBar n) => { l with run := .runnable }.goTo n
    | .parked (.gangBar n) => { l with run := .runnable }.goTo n
    | .ended => l
    | _ => l.goTo (l.pc + 8)
  else l

def Team.release (gang : Bool) (t : Team) : Team :=
  { t with waves := t.waves.map fun w => { w with lanes := w.lanes.map (Lane.release gang) } }

def Team.someAt (t : Team) (gang : Bool) : Bool :=
  t.waves.any fun w => w.lanes.any fun l => !l.ended && bif gang then l.gangArr else l.teamArr

/-- No lane of the team runs a save or a restore handler in place of its own code (R320). -/
def Team.unsaved (t : Team) : Bool := t.waves.all fun w => w.allEnded || w.save == .no

/-- Release the team's barriers whose lanes have all arrived: the team barrier, and the gang barrier over the
teams of its gang. Barriers of a team that is being saved or restored wait until its lanes have their own state
back. -/
def checkBarriers (s : State) (team : Nat) : State :=
  match s.team? team with
  | none => s
  | some t =>
    let s := bif t.unsaved && t.allAt false && t.someAt false then s.modTeam team (Team.release false) else s
    let mates := s.teams.filter fun x => x.launch == t.launch && x.task == t.task
    let teams := ((s.launch? t.launch).map fun l => max 1 l.gt).getD 1
    if mates.length = teams && mates.all Team.unsaved && mates.all (Team.allAt · true) && mates.any (Team.someAt · true) then
      mates.foldl (fun s x => s.modTeam x.id (Team.release true)) s
    else s

/-! ### Counters (R31 to R33) -/

def Wave.queue (w : Wave) : Ctr → List (Nat × Bool)
  | .ld => w.ld | .st => w.st | .cp => w.cp | .tl => w.tl

def Wave.setQueue (w : Wave) (c : Ctr) (q : List (Nat × Bool)) : Wave :=
  match c with
  | .ld => { w with ld := q } | .st => { w with st := q } | .cp => { w with cp := q } | .tl => { w with tl := q }

/-- The counter's value (R31). -/
def Wave.ctr (w : Wave) (c : Ctr) : Nat := (w.queue c).length

/-- `count(c)` for operation `id` (R31, R77). -/
def countOp (s : State) (r : WaveRef) (c : Ctr) (id : Nat) : State :=
  s.modWave r fun w => w.setQueue c (w.queue c ++ [(id, false)])

/-- What a `wait` of a lane counts: the operations on the counter and, but in save mode, those that a stop has taken off
it, which are not complete (R33, R93; log 108). -/
def Wave.owes (w : Wave) (m : LaneMode) (c : Ctr) : Nat :=
  w.ctr c + bif m == .save then 0 else (w.stopped.filter fun x => x.1 == c).length

/-- A lane parked at a `wait` whose bounds now hold moves on; one parked on a full counter may try again (R31, R93). -/
def Wave.wakeLane (w : Wave) (l : Lane) : Lane :=
  match l.run with
  | .parked (.wait a b c d n) =>
    bif w.owes l.mode .ld ≤ a && w.owes l.mode .st ≤ b && w.owes l.mode .cp ≤ c && w.owes l.mode .tl ≤ d then { l with run := .runnable }.goTo n else l
  | .parked (.full c) => bif w.ctr c < 63 then l.unpark else l
  | _ => l

def Wave.wake (w : Wave) : Wave := { w with lanes := w.lanes.map w.wakeLane }

/-- Complete operations that count on TL and on ST retire on both together, once both counters let them (R32, R238). -/
def Wave.popJoint : Nat → Wave → Wave
  | 0, w => w
  | n + 1, w =>
    match w.tl, w.st with
    | (i, _) :: tl, (j, _) :: st =>
      bif i == j && w.joint.contains i then
        popJoint n { w with tl := tl.dropWhile (·.2), st := st.dropWhile (·.2), joint := w.joint.erase i }
      else w
    | _, _ => w

/-- The counter's queue is `q`, whose complete operations at the front retire. -/
def Wave.retired (w : Wave) (c : Ctr) (q : List (Nat × Bool)) : Wave :=
  ((w.setQueue c (q.dropWhile (·.2))).popJoint w.joint.length).wake

/-- Operation `id` is complete, its charges posted; operations retire in issue order (R32, R251). -/
def retireOp (s : State) (r : WaveRef) (c : Ctr) (id : Nat) : State :=
  (postAll s).modWave r fun w => w.retired c ((w.queue c).map fun x => bif x.1 == id then (id, true) else x)

/-- Operation `id` is complete, and its decrements of TL and ST are made together (R238). -/
def retireBoth (s : State) (r : WaveRef) (id : Nat) : State :=
  (postAll s).modWave r fun w =>
    let w := { w with joint := w.joint ++ [id] }
    w.retired .tl w.tl

/-- Take an operation out of a counter, as writing its progress record does (R245, R304). -/
def releaseOp (s : State) (r : WaveRef) (c : Ctr) (id : Nat) : State :=
  s.modWave r fun w => w.retired c ((w.queue c).filter fun x => x.1 != id)

/-- A stop takes an operation out of a counter; it is not complete (R192, R245, R304). -/
def stopOp (s : State) (r : WaveRef) (c : Ctr) (id : Nat) : State :=
  releaseOp (s.modWave r fun w => { w with stopped := w.stopped ++ [(c, id)] }) r c id

/-- An operation that a stop has taken out of a counter is counted again. -/
def resumeOp (s : State) (r : WaveRef) (c : Ctr) (id : Nat) : State :=
  countOp (s.modWave r fun w => { w with stopped := w.stopped.filter (· != (c, id)) }) r c id

/-! ### The operand latch (R48) -/

/-- Operand-latch entries of a wave lapse (R48). -/
def dropLatch (s : State) (r : WaveRef) : State :=
  match s.team? r.team with
  | none => s
  | some t => s.modCore t.core fun c => { c with slots := c.slots.map fun x =>
      { x with latch := x.latch.map fun e => e.filter fun y => y.wave != r } }

/-- Operand-latch entries lapse whose register the wave has written in the issue or reply under way (R48). -/
def lapseWritten (s : State) (r : WaveRef) : State :=
  match s.team? r.team, s.wave? r with
  | some t, some w => s.modCore t.core fun c => { c with slots := c.slots.map fun x =>
      { x with latch := x.latch.map fun e => e.filter fun y => !(y.wave == r && w.regs.wrote.getLsbD y.reg) } }
  | _, _ => s

/-! ### Performing loads and stores -/

/-- The new value of an atomic (R281). -/
def atomNew (k : AtomKind) (old v c : Word) : Word :=
  match k with
  | .add => old + v
  | .minI => bif old.slt v then old else v
  | .minN => bif old.ult v then old else v
  | .maxI => bif old.slt v then v else old
  | .maxN => bif old.ult v then v else old
  | .and => old &&& v
  | .or => old ||| v
  | .xor => old ^^^ v
  | .xchg => v
  | .cas => bif old == c then v else old
  | .fadd => fadd32 old v

/-- The word of a load from its bytes (R140). -/
def Conv.size : Conv → Nat
  | .word => 4 | .sext8 => 1 | .zext8 => 1 | .zext16 => 2 | .nibble _ => 1

def Conv.apply : Conv → List Byte → Word
  | .word, b => BitVec.ofNat 32 (leNat b)
  | .sext8, b => (b.getD 0 0).signExtend 32
  | .zext8, b => (b.getD 0 0).setWidth 32
  | .zext16, b => BitVec.ofNat 32 (leNat b)
  | .nibble hi, b => BitVec.ofNat 32 (bif hi then (b.getD 0 0).toNat / 16 else (b.getD 0 0).toNat % 16)

def Loc.addr : Loc → Nat
  | .dev pa => pa
  | .host a => a
  | .win _ o => o

/-- Bytes of a stored piece. -/
def StVal.size : StVal → Nat
  | .bytes b => b.length
  | .nibble .. => 1
  | .upd .. => 4

/-- Two ranges of places share a byte. -/
def spansMeet (a b : Loc × Nat) : Bool :=
  (match a.1, b.1 with
    | .dev _, .dev _ | .host _, .host _ => true
    | .win t _, .win u _ => t == u
    | _, _ => false)
  && a.1.addr < b.1.addr + b.2 && b.1.addr < a.1.addr + a.2

/-- The places that a stored piece and an unread element of a load touch. -/
def StElem.span (e : StElem) : Loc × Nat := (e.loc, e.val.size)
def LdElem.span? (e : LdElem) : Option (Loc × Nat) :=
  match e.src with
  | .known _ => none
  | .mem l c => some (l, c.size)
  | .atom l .. => some (l, 4)

/-- The word-aligned range that holds a range of places. -/
def wordSpan (x : Loc × Nat) : Loc × Nat :=
  let a := x.1.addr / 4 * 4
  (match x.1 with
    | .dev _ => .dev a
    | .host _ => .host a
    | .win t _ => .win t a, x.1.addr + x.2 - a)

/-- The pieces of a store write every byte of a line of 64. -/
def writesLine (es : List StElem) (n : Nat) : Bool :=
  (List.range 64).all fun i => es.any fun e => match e.loc, e.val with
    | .dev pa, .bytes b => pa ≤ 64 * n + i && 64 * n + i < pa + b.length
    | _, _ => false

/-- A piece of the store `es` fails where it is performed: its place cannot be reached, or its line has an
uncorrectable error and is not wholly written (R137, R334). -/
def StElem.fails (s : State) (es : List StElem) (e : StElem) : Bool :=
  !e.loc.reachable s || (match e.loc with
    | .dev pa => s.badLines.contains (pa / 64) && !writesLine es (pa / 64)
    | _ => false)

/-- A write error can happen there: in the capacity tier or in host memory (R137). -/
def Loc.mayFail : Loc → Bool
  | .dev pa => pa / 2 ^ 48 == 1
  | .host _ => true
  | .win .. => false

/-- Stage a write of a deterministic launch's team, or end the team when it does not fit (R299, R325).
The result says whether it fitted. -/
def stagedCost : StVal → Nat
  | .bytes b => 16 + 16 * ((b.length + 15) / 16)
  | .nibble _ _ => 32
  | .upd _ _ => 32

/-- Perform one piece of a store in memory. -/
def performPiece (s : State) (e : StElem) : State :=
  match e.val with
  | .bytes b => writeBytes s e.loc b
  | .nibble hi x =>
    let b := readLoc s e.loc
    writeLoc s (bif hi then x ++ b.extractLsb' 0 4 else b.extractLsb' 4 4 ++ x) e.loc
  | .upd k v => writeWord s e.loc (atomNew k (readWord s e.loc) v 0)

/-- Bytes `[0, n)` at a location as they stand once the pieces `st` are performed, in their order (R139, R299). Only
pieces that meet the words of the range can change it. -/
def overlay (s : State) (st : List StElem) (l : Loc) (n : Nat) : List Byte :=
  readBytes ((st.filter fun e => spansMeet e.span (wordSpan (l, n)) || spansMeet (wordSpan e.span) (l, n)).foldl performPiece s) l n

/-- The pieces of a wave's stores that are older than operation `id` and not yet performed. -/
def Wave.olderPieces (w : Wave) (id : Nat) : List StElem :=
  (w.stores.filter fun x => x.id < id).flatMap (·.elems)

/-- The stores of a team's staging area (R299). -/
def Team.stagedPieces (t : Team) : List StElem := t.staged.filterMap fun x => match x with
  | .store _ _ _ _ e => some e
  | .put .. => none

/-- Bytes as a wave's operation `id` reads them: memory, the team's staged writes, and the wave's own earlier
stores (R139, R299). -/
def viewBytes (s : State) (r : WaveRef) (id : Nat) (l : Loc) (n : Nat) : List Byte :=
  let st := ((s.team? r.team).map Team.stagedPieces).getD [] ++ ((s.wave? r).map (·.olderPieces id)).getD []
  overlay s st l n

/-- A team of a deterministic launch stages its global writes (R299). -/
def State.isDet (s : State) (t : Team) : Bool := ((s.launch? t.launch).map (·.det)).getD false

def Loc.isWin : Loc → Bool
  | .win _ _ => true
  | _ => false

/-- Bytes of a staging area: one granule (R325). -/
def stagingSize : Nat := Config.granule

/-- The 64-byte line of a device address, which the directory of R294 tracks. -/
def Loc.line : Loc → Option Nat
  | .dev pa => some (pa / 64)
  | _ => none

/-- Record a team-scope release write of a core (R294). -/
def noteRelease (s : State) (core : Nat) (l : Loc) : State :=
  match l.line with
  | none => s
  | some n => { s with lrel := (n, core) :: s.lrel.filter fun x => x.1 != n }

/-- Whom a team's work reports to: the wave, with the anchor at issue (R315, R316). -/
def waveIssuer (s : State) (r : WaveRef) (anchor : Word) : Issuer :=
  let t := (s.team? r.team).getD {}
  { fn := t.fn, launch := t.launch, team := r.team, wave := r.wave, task := t.task, teamNo := t.team, anchor := anchor }

/-- A staged write of an issuer does not fit: its team ends, with one record of cause 0x15 (R325). The lanes end when
the turn is over (`endFailed`). -/
def failStaging (s : State) (b : Issuer) (lane : Word) : State :=
  if (s.team? b.team).any (·.failed) then s else
  countErr ((pushErr s b.fn { issuerErr s b 0x15 5 0 0 with lane := lane }).modTeam b.team fun t => { t with failed := true }) b.launch

/-- Stage a global piece of operation `op` at a cost, or end the team when it does not fit (R299, R325). -/
def stagePiece (s : State) (b : Issuer) (lane op : Nat) (e : StElem) (cost : Nat) : State :=
  match s.team? b.team with
  | none => s
  | some t =>
    if t.failed then s
    else if stagingSize < t.stagedBytes + cost then failStaging s b (BitVec.ofNat 32 lane)
    else s.modTeam b.team fun t => { t with staged := t.staged ++ [.store b.wave b.anchor lane op e]
                                            stagedBytes := t.stagedBytes + cost }

/-- Read the data of an unread element of a load; an atomic reads, modifies and writes in one step (R281). -/
def performElem (s : State) (r : WaveRef) (p : PendLoad) (e : LdElem) : State × LdElem :=
  match e.src with
  | .known _ => (s, e)
  | .mem l c => (noteError s l, { e with src := .known (bif Loc.broken s l then Config.errorWord s.turns l.addr
                                              else c.apply (viewBytes s r p.id l c.size)) })
  | .atom l k v c =>
    let old := bif Loc.broken s l then Config.errorWord s.turns l.addr
      else BitVec.ofNat 32 (leNat (viewBytes s r p.id l 4))
    let new := atomNew k old v c
    let det := (s.team? r.team).any fun t => s.isDet t && !l.isWin
    let s := bif det then stagePiece s (waveIssuer s r p.anchor) p.lane p.id ⟨l, .bytes (leBytes 4 new.toNat)⟩ 32
      else bif l.reachable s then writeWord s l new else s
    (noteError s l, { e with src := .known old })

/-- Perform a load or an atomic: read every element that has not been read, in ascending order (R139). -/
def performLoad (s : State) (r : WaveRef) (id : Nat) : State :=
  match (s.wave? r).bind fun w => w.loads.find? fun x => x.id == id with
  | none => s
  | some p =>
    let new := p.elems.filterMap fun e => match e.src with
      | .atom l .. => some l
      | _ => none
    let (s, es) := p.elems.foldl (fun (a : State × List LdElem) e =>
      let (s, e) := performElem a.1 r p e
      (s, a.2 ++ [e])) (s, [])
    -- a team-scope release write (R294)
    let s := bif p.rel && p.team && !new.isEmpty then
        (new.foldl (fun s l => noteRelease s (s.coreOf r) l) s).modWave r fun w => { w with pending := true }
      else s
    s.modWave r fun w => { w with loads := w.loads.map fun x => bif x.id == id then { x with elems := es } else x }

/-- Of the loads of a wave that are older than operation `id`, those that must read before it does: each that shares a
byte with the places `sp`, or with a load between that does (R139, R290, R292). -/
def Wave.loadsBefore (w : Wave) (id : Nat) (sp : List (Loc × Nat)) : List Nat :=
  ((w.loads.filter fun p => p.id < id).foldr (fun p (a : List (Loc × Nat) × List Nat) =>
    let mine := p.elems.filterMap LdElem.span?
    bif mine.any (fun x => a.1.any (spansMeet x)) then (mine ++ a.1, p.id :: a.2) else a) (sp, [])).2

/-- Perform the loads of a wave that operation `id` at the places `sp` must not overtake. -/
def performLoadsBefore (s : State) (r : WaveRef) (id : Nat) (sp : List (Loc × Nat)) : State :=
  match s.wave? r with
  | none => s
  | some w => (w.loadsBefore id sp).foldl (fun s k => performLoad s r k) s

/-- Perform the store `id` of a wave: first the older loads of its bytes read their data, then its pieces are written in
order, or staged, or fail; those at places of `err` meet a write error (R137, R139, R299). A record names the place of the
first piece that fails (log 114). -/
def performStoreErr (err : Loc → Bool) (s : State) (r : WaveRef) (id : Nat) : State :=
  match (s.wave? r).bind fun w => w.stores.find? fun x => x.id == id, s.team? r.team with
  | some p, some t =>
    let s := performLoadsBefore s r id (p.elems.map StElem.span)
    let (s, bad) := p.elems.foldl (fun (a : State × Option Nat) e =>
      let s := a.1
      if s.isDet t && !e.loc.isWin && !p.direct then
        (stagePiece s (waveIssuer s r p.anchor) p.lane id e (stagedCost e.val), a.2)
      else if e.fails s p.elems || err e.loc then (s, a.2.or (some e.loc.addr))
      else
        let s := performPiece s e
        (bif p.teamRel then noteRelease s t.core e.loc else s, a.2)) (s, none)
    s.modWave r fun w => { w with
      stores := w.stores.map fun x => bif x.id == id then { x with elems := [], fail := x.fail.or bad } else x
      pending := w.pending || p.teamRel }
  | _, _ => s

def performStore (s : State) (r : WaveRef) (id : Nat) : State := performStoreErr (fun _ => false) s r id

/-- Every store of a wave is performed, in issue order. -/
def performStores (s : State) (r : WaveRef) : State :=
  match s.wave? r with
  | none => s
  | some w => w.stores.foldl (fun s x => performStore s r x.id) s

/-! ### Remote promotion (R294, R295) -/

/-- The core that last released a line at team scope, if it is another one (R295). -/
def remoteReleaser (s : State) (core : Nat) (l : Loc) : Option Nat :=
  (l.line.bind fun n => alGet s.lrel n).filter fun p => p != core

/-- The waves of a core, of one function or of any. -/
def wavesOn (s : State) (core fn : Option Nat) : List WaveRef :=
  (s.teams.filter fun t => core.all (· == t.core) && fn.all (· == t.fn)).flatMap fun t =>
    (List.range t.waves.length).map fun i => ⟨t.id, i⟩

/-- Waves perform the writes that their pending team-scope releases cover, at the wider scope (R295). -/
def promote (s : State) (rs : List WaveRef) : State :=
  rs.foldl (fun s r => match s.wave? r with
    | some w => bif w.pending then (performStores s r).modWave r fun w => { w with pending := false } else s
    | none => s) s

/-- Waves promote their pending releases for an acquiring wave, whose function is charged for the work in its grove's domain
(R295; log 111). -/
def promoteAs (s : State) (r : WaveRef) (rs : List WaveRef) : State :=
  bif rs.any fun x => (s.wave? x).any (·.pending) then
    promote { s with charges := s.charges ++ [{ fn := s.fnOf r, dom := coreDom (s.coreOf r), fj := Config.promotionFj s.turns }] } rs
  else s

/-- What an atomic with RMT has done before its elements read: for each, the core that last released its line promotes
its pending releases, if it is another core (R295). -/
def promoteFor (s : State) (r : WaveRef) (p : PendLoad) : State :=
  bif p.rmt then
    (p.elems.filterMap LdElem.span?).foldl (fun s x =>
      let s := match remoteReleaser s (s.coreOf r) x.1 with
        | some c => promoteAs s r (wavesOn s (some c) none)
        | none => s
      { s with promotions := s.promotions.filter fun n => x.1.line != some n }) s
  else s

/-- The places that a load's unread elements touch. -/
def PendLoad.spans (p : PendLoad) : List (Loc × Nat) := p.elems.filterMap LdElem.span?

/-- A load that an atomic has made, not yet performed. -/
def PendLoad.isAtom (p : PendLoad) : Bool := p.elems.any fun e => match e.src with
  | .atom .. => true
  | _ => false

/-- The stores of a wave up to operation `id` are performed, in issue order. -/
def performStoresTo (s : State) (r : WaveRef) (id : Nat) : State :=
  match s.wave? r with
  | none => s
  | some w => w.stores.foldl (fun s x => bif x.id ≤ id then performStore s r x.id else s) s

/-- What operation `id` of a wave reads at the places `sp` follows the wave's older updates of those words, and of those
that loads before it read: the updates are performed, with every store before them (R139, R290, R292). -/
def performUpdates (s : State) (r : WaveRef) (id : Nat) (sp : List (Loc × Nat)) : State :=
  match s.wave? r with
  | none => s
  | some w =>
    let ids := w.loadsBefore id sp
    let sp := (sp ++ (w.loads.filter fun p => ids.contains p.id).flatMap PendLoad.spans).map wordSpan
    let upds := w.stores.filter fun p => p.id < id && p.elems.any fun e => match e.val with
      | .upd .. => sp.any (spansMeet e.span)
      | _ => false
    upds.foldl (fun s p => performStoresTo s r p.id) s

/-- Perform load `p` of a wave, after what it must follow: the promotions that it asks for, the wave's older stores where
it is an atomic and its older updates of those words where not, and the older loads of its bytes (R139, R281, R295). -/
def performNow (s : State) (r : WaveRef) (p : PendLoad) : State :=
  let s := promoteFor s r p
  let s := bif p.isAtom then performStoresTo s r p.id else performUpdates s r p.id p.spans
  performLoad (performLoadsBefore s r p.id p.spans) r p.id

/-- The loads of a wave that `q` names are performed, in issue order. -/
def performLoadsOf (s : State) (r : WaveRef) (q : PendLoad → Bool) : State :=
  match s.wave? r with
  | none => s
  | some w => w.loads.foldl (fun s p => bif q p then performNow s r p else s) s

/-- The atomics of a wave up to operation `id` are performed. -/
def performAtoms (s : State) (r : WaveRef) (id : Nat) : State := performLoadsOf s r fun p => p.id ≤ id && p.isAtom

/-- Every load and atomic of a wave that is older than operation `id` is performed. -/
def performLoads (s : State) (r : WaveRef) (id : Nat) : State := performLoadsOf s r fun p => p.id < id

/-- What the wave's next operation must follow at the places `sp` is performed: the atomics and updates of those words. -/
def performMeeting (s : State) (r : WaveRef) (sp : List (Loc × Nat)) : State :=
  match s.wave? r with
  | none => s
  | some w =>
    let ids := w.loadsBefore s.nextId (sp.map wordSpan)
    performUpdates (performLoadsOf s r fun p => p.isAtom && ids.contains p.id) r s.nextId sp

/-- The bytes as a wave sees them at its next operation (R139). -/
def viewNow (s : State) (r : WaveRef) (l : Loc) (n : Nat) : List Byte :=
  viewBytes (performMeeting s r [(l, n)]) r s.nextId l n

/-- A release: every earlier load and store of the wave is performed, in issue order (R33, R282, R283, R288). -/
def performAll (s : State) (r : WaveRef) : State := performLoads (performStores s r) r s.nextId

/-- Write the data of a complete load to its destinations (R138). -/
def PendLoad.writeTo (p : PendLoad) (r : Regs) : Regs :=
  p.elems.foldl (fun r e =>
    let x := match e.src with
      | .known x => x
      | _ => 0
    match e.dst with
    | .v n l => r.setV n l x
    | .s n => r.setS n x) r

/-- Operation `id` of a wave is complete: its data is written, unless the wave has ended, and it retires
(R26, R32, R138). -/
def completeLoad (s : State) (r : WaveRef) (id : Nat) : State :=
  let s := performLoadsOf (performAtoms s r id) r fun p => p.id == id
  match (s.wave? r).bind fun w => w.loads.find? fun x => x.id == id with
  | none => s
  | some p =>
    let s := s.modWave r fun w => { w with
      loads := w.loads.filter fun x => x.id != id
      holdLd := w.holdLd.filter (· != id)
      regs := bif w.allEnded then w.regs else p.writeTo { w.regs with wrote := 0 } }
    retireOp (lapseWritten s r) r .ld id

/-- UNIT of a slot: its number among the module's slots (R315, log 76). -/
def slotUnit (s : State) (r : WaveRef) : Nat := 256 * (4 * s.coreOf r + ((s.wave? r).map (·.slot)).getD 0)

/-- The oldest store retires: it is performed, a failure is recorded, and ST falls (R32, R137). With `failed`, what it
has not yet performed meets a write error in the capacity tier or host memory. -/
def retireStore (s : State) (r : WaveRef) (failed : Bool) : State :=
  match (s.wave? r).bind fun w => w.stores.head?, s.team? r.team with
  | some p, some t =>
    let s := performStoreErr (fun l => failed && l.mayFail) s r p.id
    let s := match ((s.wave? r).bind fun w => w.stores.head?).bind (·.fail) with
      | some a => countErr (pushErr s t.fn
          { issuerErr s (waveIssuer s r p.anchor) 0x10 (slotUnit s r) a 0 with lane := BitVec.ofNat 32 p.lane }) t.launch
      | none => s
    let s := s.modWave r fun w => { w with stores := w.stores.drop 1 }
    retireOp s r .st p.id
  | _, _ => s

/-! ### The end of lanes, waves, teams and tasks (R26, R27, R35) -/

/-- Teams that a task has: one, or those of its gang (R13). -/
def Launch.teamsOf (l : Launch) : Nat := max 1 l.gt

/-- The task's record, as a list keeps it. -/
def Launch.task? (l : Launch) (i : Nat) : Option Task := l.tasks.find? fun t => t.index == i
def Launch.setTask (l : Launch) (t : Task) : Launch :=
  { l with tasks := bif l.tasks.any (fun x => x.index == t.index)
      then l.tasks.map fun x => bif x.index == t.index then t else x else l.tasks ++ [t] }

/-- Pages are unpinned, each once. -/
def unpin (s : State) (f : Nat) (ps : List Nat) : State :=
  { s with pinned := ps.foldl (fun l p => l.erase (f, p)) s.pinned }

/-- A task whose teams have all ended is done; its pages are no longer pinned (R34, R35). -/
def checkTask (s : State) (launch task : Nat) : State :=
  match s.launch? launch with
  | none => s
  | some l =>
    match l.task? task with
    | none => s
    | some t =>
      let mates := s.teams.filter fun x => x.launch == launch && x.task == task && x.done
      if t.phase == .running && mates.length == l.teamsOf then
        let s := unpin s l.fn t.pinned
        s.modLaunch launch fun l => l.setTask { t with phase := .done, pinned := [] }
      else s

/-! ### Slots of the context save area (R318) -/

/-- The function header: NSLOT, BAGOFF, ROOTOFF, and the table of the reserved slots. -/
def Fn.saveHeader (f : Fn) : List Byte :=
  leBytes 8 f.slots.length ++ leBytes 8 f.bagOff ++ leBytes 8 0x1000 ++ List.replicate 40 0
    ++ (List.range 504).flatMap fun k => leBytes 8 (((f.slots.find? fun x => x.2.2 == k).map (·.1)).getD 0)

/-- Write the lines of the function header that have changed to the save area, in the tier where they lie (log 50). -/
def writeHeader (s : State) (f : Nat) : State :=
  let a := (s.fn f).save.toNat
  (List.range 64).foldl (fun s i =>
    let b := ((s.fn f).saveHeader.drop (64 * i)).take 64
    bif peekVa s f (a + 64 * i) 64 == b then s
    else placeVa (chargeRange s f f (a + 64 * i) 64) f (a + 64 * i) b) (s.modFn f fun x => { x with headerDue := false })

/-- A header that is due is written once the page that holds it is not moving (R271). -/
def flushHeaders (s : State) : State :=
  s.fns.foldl (fun s f =>
    bif f.headerDue && !((walk s f.id (f.save.toNat / 65536)).any fun x => leafMig x.2) then writeHeader s f.id else s) s

/-- The team's slot is free again. -/
def releaseSlot (s : State) (t : Team) : State :=
  match t.saveSlot with
  | none => s
  | some o => s.modFn t.fn fun f => { f with slots := f.slots.filter fun x => x.1 != o, headerDue := true }

/-- A wave whose lanes have all ended gives up its entry; a team whose waves have all ended is done (R26, R35). -/
def checkEnd (s : State) (r : WaveRef) : State :=
  match s.wave? r with
  | none => s
  | some w =>
    if !w.allEnded then s else
    let s := s.modWave r fun w => { w with entry := none, replies := [], naps := [], facts := [] }
    match s.team? r.team with
    | none => s
    | some t =>
      if t.waves.all Wave.allEnded && !t.done then
        let s := s.modTeam t.id fun t => { t with done := true, saveSlot := none }
        checkTask (releaseSlot s t) t.launch t.task
      else s

/-- End the lanes of a set (R26): they leave every word's order, barriers and tasks are looked at again. -/
def endLanes (s : State) (r : WaveRef) (m : Mask) : State :=
  let s := s.onLanes r m fun l => { l with run := .ended }
  let s := dropFe s fun q => q.1 == r.team && q.2.1 == r.wave && m.has q.2.2
  checkBarriers (checkEnd s r) r.team

/-- A team that a staging overflow has ended (R325). -/
def endFailed (s : State) : State :=
  s.teams.foldl (fun s t =>
    bif t.failed && !t.done then
      (List.range t.waves.length).foldl (fun s i => endLanes s ⟨t.id, i⟩ (Mask.full 64)) s
    else s) s

/-! ### Taking a trap (R313) -/

/-- What becomes of a lane that takes a precise trap. -/
inductive TrapWay where
  | handler (pc : Nat) | unhandled | delegated | double
  deriving DecidableEq, Repr

/-- The way of R313 for a lane of a wave: a double trap in trap or save mode, delegation by DMASK, the kernel's
handler, the context's default handler, or none. -/
def trapWay (s : State) (r : WaveRef) (l : Lane) (t : TrapInfo) : TrapWay :=
  let c := ((s.team? r.team).map (·.ctx)).getD {}
  if l.mode ≠ .ordinary then .double
  else if c.dmask.getLsbD t.cause then .delegated
  else
    let hb := (((s.team? r.team).bind fun t => s.launch? t.launch).map (·.hb)).getD 0
    if hb ≠ 0 then .handler (s.entryOf r + hb)
    else if c.hdef ≠ 0 then .handler c.hdef
    else .unhandled

/-- The lane records the trap and enters trap mode at the handler's header. -/
def Lane.enterTrap (l : Lane) (t : TrapInfo) (pc : Nat) : Lane :=
  { l with
    trap := { tpc := l.pc, tanc := l.anchor, tdet := BitVec.ofNat 64 t.det, pos := l.pos, blk := l.blk }
    tcause := t.word, mode := .trap, run := .runnable, pc := pc, pos := .atHeader, blk := {} }

/-- The launch error record of a lane that ends (R315). -/
def trapErr (s : State) (r : WaveRef) (i : Nat) (l : Lane) (t : TrapInfo) (flg : Word) : ErrRec :=
  let tm := (s.team? r.team).getD {}
  { cause := t.word, flg := flg, launch := ((s.launch? tm.launch).map (·.number)).getD 0
    task := BitVec.ofNat 32 tm.task, wave := waveField r.wave tm.team, lane := BitVec.ofNat 32 i
    anchor := offsetOf (s.entryOf r) l.anchor, pc := offsetOf (s.entryOf r) l.pc
    unit := BitVec.ofNat 32 (slotUnit s r), detail := BitVec.ofNat 64 t.det }

/-- Precise traps of one issue, lane by lane in ascending order (R313): lanes enter trap mode or end; of the lanes
that end in one way through one cause the lowest gives the issue's record (R315). -/
def takeTraps (s : State) (ts : List (WaveRef × Nat × TrapInfo)) : State :=
  (ts.foldl (fun (a : State × List (Nat × TrapWay)) x =>
    let s := a.1
    let (r, i, t) := x
    match (s.wave? r).bind fun w => w.lanes[i]? with
    | none => a
    | some l =>
      let s := dropLatch s r
      let m := Mask.put 0 i true
      match trapWay s r l t with
      | .handler pc => (s.onLanes r m fun l => l.enterTrap t pc, a.2)
      | way =>
        let s' := endLanes (s.onLanes r m fun l => { l with tcause := t.word }) r m
        if a.2.contains (t.cause, way) then (s', a.2) else
        let launch := ((s.team? r.team).map (·.launch)).getD 0
        let (ring, flg) := match way with
          | .delegated => (0, flgDeleg)
          | .double => (s.fnOf r, flgDouble)
          | _ => (s.fnOf r, 0)
        (countErr (pushErrOf s' (s.fnOf r) ring (trapErr s r i l t flg)) launch, (t.cause, way) :: a.2)) (s, [])).1

/-! ### Returning from a trap (R314) -/

/-- The lane leaves trap mode at an address, in the block and position given; its trap record is cleared. -/
def Lane.leaveTrap (pc : Nat) (pos : LanePos) (blk : Blk) (l : Lane) : Lane :=
  { l with pc := pc, pos := pos, blk := blk, mode := .ordinary, trap := {} }

/-- `tret`: at TPC, where the trapping item is executed again. -/
def Lane.tretHere (l : Lane) : Lane :=
  let l' := l.leaveTrap l.trap.tpc l.trap.pos l.trap.blk
  -- a header that the lane had just consumed is behind TPC and stays consumed
  match l.trap.pos with
  | .fresh .. => { l' with pos := .inside }
  | _ => l'

/-- `tret.next`: past the item of `len` bytes at TPC, but never past the block end; past a header without
consuming it. -/
def Lane.tretNext (len : Nat) (l : Lane) : Lane :=
  match l.trap.pos with
  | .atHeader => l.leaveTrap (l.trap.tpc + 8) .atHeader { l.trap.blk with stop := l.trap.tpc + 8 }
  | _ =>
    let pc := min (l.trap.tpc + len) l.trap.blk.stop
    l.leaveTrap pc (bif pc == l.trap.blk.stop then .atHeader else .inside) l.trap.blk

/-- `tret.anc` and the per-lane form: at a header. -/
def Lane.tretTo (pc : Nat) (l : Lane) : Lane := l.leaveTrap pc .atHeader l.trap.blk

/-! ### Fetching (R54) -/

inductive Fetched where
  | word (x : Word) | bad | away (page : Nat)
  deriving DecidableEq, Repr, Inhabited

/-- One parcel of a function's code: the page must be executable and not writable, and resident. -/
def fetchParcel (s : State) (f va : Nat) : Fetched :=
  if 2 ^ 56 ≤ va then .bad else
  match walk s f (va / 65536) with
  | none => .bad
  | some (_, x) =>
    if !leafX x || leafW x then .bad
    else match findVa s f va with
      | .bad => .bad
      | .away p => .away p
      | .at_ _ l => .word (readWord s l)

/-- One parcel of a header, wherever the tier its page lies in: what a lane that has issued a command consumes in the same
step (R148, R263; log 81), and what the live counts of a lane that stands at a header are read from. -/
def headerParcel (s : State) (f va : Nat) : Fetched :=
  if 2 ^ 56 ≤ va then .bad else
  match walk s f (va / 65536) with
  | none => .bad
  | some (_, x) =>
    if !leafX x || leafW x then .bad
    else match locOfPa s f (leafFrame x (va / 65536) + va % 65536) with
      | some l => bif l.reachable s then .word (readWord s l) else .bad
      | none => .bad

/-- A page is fetchable (R86). -/
def fetchable (s : State) (f va : Nat) : Bool := fetchParcel s f va != .bad

/-- The accesses that the waves of a team left outstanding when they ended are performed. -/
def flushTeam (s : State) (t : Team) : State :=
  (List.range t.waves.length).foldl (fun s i => performAll s ⟨t.id, i⟩) s

/-- An invocation or an entry that has been under way has a record; one that only waits has none (R192). -/
def SavedRoot.begun (r : SavedRoot) : Bool :=
  match r.inv, r.bmac with
  | some i, _ => i.started
  | none, some e => e.next != 0
  | none, none => false

end Sys2Proof.Machine
end

