-- ==== Sys2Proof/Machine/RootOps.lean ====
section
/-! DEFINITION. Bags found by handle, and the life of a root invocation: its window, binding a block, its end
and its faults (10_bags R152, R160; 11_root_units_and_crown R171 to R178, R185). -/
namespace Sys2Proof.Machine

/-! ### Handles (R152) -/

def handleSlot (h : Word) : Nat := (h.extractLsb' 0 12).toNat
def handleGen (h : Word) : Nat := (h.extractLsb' 12 19).toNat

/-- An entry of a context's bag table; one that was never used has generation 0 and no bag. -/
def Fn.entry (f : Fn) (slot : Nat) : BagEntry := (f.bags.find? fun e => e.slot == slot).getD { slot := slot }
def Fn.setEntry (f : Fn) (e : BagEntry) : Fn :=
  { f with bags := (f.bags.filter fun x => x.slot < e.slot) ++ [e] ++ (f.bags.filter fun x => e.slot < x.slot) }

/-- The bag of a valid handle of a function. -/
def findBag (s : State) (f : Nat) (h : Word) : Option Bag :=
  let e := (s.fn f).entry (handleSlot h)
  if h.getLsbD 31 then none else if e.gen = handleGen h then e.bag else none

def modBag (s : State) (f : Nat) (h : Word) (g : Bag → Bag) : State :=
  s.modFn f fun x =>
    let e := x.entry (handleSlot h)
    x.setEntry { e with bag := e.bag.map g }

/-- A new handle: the generation and the slot. -/
def handleOf (slot gen : Nat) : Word := BitVec.ofNat 32 (slot % 4096 + 4096 * (gen % 2 ^ 19))

def Bag.total (b : Bag) : Nat := (b.shares.map (·.c)).sum
def Bag.anyBusy (b : Bag) : Bool := b.shares.any (·.busy)
def Bag.lowBusy (b : Bag) : Nat := (b.shares.findIdx? (·.busy)).getD 0

/-! ### Windows (R175, R178) -/

/-- The window's length in bytes. -/
def Inv.size (i : Inv) : Nat := i.nrec * i.z

/-- Where window byte `o` of near-memory pages lies. -/
def Inv.loc (i : Inv) (o : Nat) : Loc :=
  let a := i.wbase % 65536 + o
  .dev ((i.pages.getD (a / 65536) (0, false)).1 + a % 65536)

/-- The page of window byte `o` may be stored to; bag rows always may (R177). -/
def Inv.writable (i : Inv) (o : Nat) : Bool :=
  if i.kind = .each then true else (i.pages.getD ((i.wbase % 65536 + o) / 65536) (0, false)).2

def Inv.read (s : State) (i : Inv) (o : Nat) : Byte :=
  if i.kind = .each then
    match findBag s i.fn i.handle with
    | some b => readCell ((b.shares.getD i.idx {}).rows) o
    | none => emptyByte
  else readLoc s (i.loc o)

def Inv.readWord (s : State) (i : Inv) (o : Nat) : Word :=
  BitVec.ofNat 32 (leNat ((List.range 4).map fun k => i.read s (o + k)))

def Inv.write (s : State) (i : Inv) (o : Nat) (x : Word) : State :=
  if i.kind = .each then
    modBag s i.fn i.handle fun b => { b with shares := b.shares.modify i.idx fun h =>
      { h with rows := writeCells o (leBytes 4 x.toNat) h.rows } }
  else writeBytes s (i.loc o) (leBytes 4 x.toNat)

/-- An uncorrectable error on a read of the byte, of a page or of a bag's row (R177 cause 4). -/
def Inv.badLine (s : State) (i : Inv) (o : Nat) : Bool :=
  if i.kind = .each then
    s.rowErrs.any fun e => !e.corrected && e.fn == i.fn && e.slot == handleSlot i.handle && e.share == i.idx && e.line == o / 64
  else (i.loc o).broken s

/-! ### Retirement of frames (R342) -/

/-- The frame leaves its pool and is listed; a full list is marked, and the frame then returns at the next reset. -/
def listRetired (s : State) (frame : Nat) : State :=
  let pa := 65536 * frame
  let full := Config.retiredMax ≤ s.retired.length
  let s := { s with
    fns := s.fns.map fun f => { f with fast := f.fast.erase pa, slow := f.slow.erase pa }
    retired := bif full then s.retired else s.retired ++ [frame]
    volatileRetired := bif full then s.volatileRetired ++ [frame] else s.volatileRetired
    rlFull := s.rlFull || full
    toRetire := s.toRetire.filter (· != frame) }
  pushErr s 0 { cause := 0x10, detail := BitVec.ofNat 64 pa, aux := bif full then 0xFFFFFFFF else 0 }

/-- An uncorrectable error, or sixteen corrected ones within a day of `now`, given the times of the corrected ones. -/
def retires (bad : Bool) (now : Nat) (times : List Nat) : Bool :=
  bad || 16 ≤ (times.filter fun t => now < t + Config.dayCycles).length

/-- A bag's rows are given up: those that have met the condition of R342 are retired now. -/
def freeRows (s : State) (f slot : Nat) (b : Bag) : State :=
  let mine := s.rowErrs.filter fun e => e.fn == f && e.slot == slot
  let units := (mine.map fun e => (e.share, e.line / 1024)).dedup
  units.foldl (fun s u =>
    let es := mine.filter fun e => (e.share, e.line / 1024) == u
    -- sixteen within a day of any of them
    let due := es.any fun e => retires (!e.corrected) e.cycle ((es.filter fun x => x.corrected && x.cycle ≤ e.cycle).map (·.cycle))
    bif due then listRetired s (Config.rowFrame (b.q0 + u.1) u.2) else s)
    { s with rowErrs := s.rowErrs.filter fun e => !(e.fn == f && e.slot == slot) }

/-! ### Blocks (R175, R185) -/

/-- The registers of a started invocation (R171, R175). -/
def Inv.startRegs (i : Inv) : Regs :=
  (((Regs.init 32 64 32).setS 2 i.param).setS 3 (BitVec.ofNat 32 i.idx)).setS 4 (BitVec.ofNat 32 i.nrec)

/-- Bind block `b`. -/
def Inv.bind (i : Inv) (b : Nat) : Inv :=
  { i with block := b, bound := true, count := 0, head := true, pc := i.entry + i.code, stop := 0
           regs := { i.regs.setS 5 (BitVec.ofNat 32 b) with vl := min 32 (i.nrec - 32 * b) } }

def Inv.start (i : Inv) : Inv := { i with regs := i.startRegs, started := true }.bind 0

/-- The record bound to lane `l`, if there is one. -/
def Inv.record (i : Inv) (l : Nat) : Option Nat :=
  if 32 * i.block + l < i.nrec && l < 32 then some (32 * i.block + l) else none

/-! ### Ends (R176, R177, R180) -/

/-- The status of a `bmac` that has run (R187): complete, or partial with the lowest failing bank. -/
def bmacStatus (c : RootCmd) : Word :=
  let low := c.fails.foldl (fun (a : Option (Nat × Nat)) x => match a with
    | none => some x
    | some y => bif x.1 < y.1 || (x.1 == y.1 && x.2 < y.2) then some x else some y) none
  match low, c.partialRun with
  | none, false => 0
  | none, true => 1 + 4 * 6
  | some (qc, bank), _ => BitVec.ofNat 32 (1 + 1024 * qc + 2 ^ 20 * bank + 2 ^ 24 * min 255 c.fails.length)

/-- A root engine's access to a window of its command's team, charged at the scratchpad weight (R248, R249). -/
def chargeBlock (s : State) (b : Issuer) (off n : Nat) : State :=
  s.charge b.fn (coreDom (((s.team? b.team).map (·.core)).getD 0)) 7 (linesOf off n)

/-- Write a status word into a block of the command's window. -/
def writeStatus (s : State) (b : Issuer) (off : Nat) (x : Word) : State :=
  chargeBlock (writeWord s (.win b.team off) x) b off 4

/-- A command whose last entry has ended retires on CP; a near-memory task is done (R160, R180, R181). -/
def finishRoot (s : State) (id : Nat) : State :=
  match s.rootCmds.find? fun c => c.id == id with
  | none => s
  | some c =>
    let s := { s with rootCmds := s.rootCmds.filter fun x => x.id != id }
    match c.op with
    | .task l t =>
      match s.launch? l with
      | none => s
      | some la =>
        let pins := ((la.task? t).map (·.pinned)).getD []
        { s.modLaunch l fun x => match x.task? t with
            | some k => x.setTask { k with phase := .done, pinned := [] }
            | none => x with
          pinned := pins.foldl (fun l p => l.erase (la.fn, p)) s.pinned }
    | .bmac off =>
      retireOp (writeStatus s c.by_ (off + 0x0C) (bmacStatus c)) ⟨c.by_.team, c.by_.wave⟩ .cp id
    | _ => retireOp s ⟨c.by_.team, c.by_.wave⟩ .cp id

/-- One more entry of a command has ended. -/
def entryEnded (s : State) (id : Nat) : State :=
  let s := { s with rootCmds := s.rootCmds.map fun (c : RootCmd) => bif c.id == id then { c with left := c.left - 1 } else c }
  match s.rootCmds.find? fun c => c.id == id with
  | some c => bif c.left == 0 then finishRoot s id else s
  | none => s

/-- The status word of an entry of `root.run` (R180). -/
def runStatus (st why rec_ : Nat) : Word := BitVec.ofNat 32 (st + 4 * why + 256 * (rec_ % 2 ^ 24))

/-- The pages of an invocation's window are no longer pinned for it. -/
def unpinInv (s : State) (i : Inv) : State :=
  unpin s i.fn (pagesOf i.wbase i.size)

/-- An invocation ends: its unit is free for the next, its share's busy mark clears, its status is written, its
pages are unpinned, and its command may retire (R160, R177, R180). `fault` is a cause, the record index and
the code offset. -/
def endInv (s : State) (q : Nat) (fault : Option (Nat × Nat × Nat)) : State :=
  match (s.unit q).invs with
  | [] => s
  | i :: _ =>
    let s := s.modUnit q fun u => { u with invs := u.invs.drop 1 }
    let s := bif i.kind == .run then unpinInv s i else s
    let s := match i.kind, fault with
      | .run, none => writeStatus s i.by_ (i.blkoff + 0x10 + 16 * i.idx + 12) (runStatus 0 0 0)
      | .run, some (c, r, _) => writeStatus s i.by_ (i.blkoff + 0x10 + 16 * i.idx + 12) (runStatus 1 c r)
      | _, none => s
      | _, some (c, r, off) =>
        let e := match i.lost, i.wait with
          | true, some p => issuerErr s i.by_ 0x0D (3 + 256 * q) (65536 * p) i.idx
          | _, _ => issuerErr s i.by_ (0x11 + 65536 * c) (3 + 256 * q) r i.idx
        countErr (pushErr s i.fn { e with codeoff := BitVec.ofNat 32 off }) i.by_.launch
    let s := if i.kind = .each then
        modBag s i.fn i.handle fun b => { b with shares := b.shares.modify i.idx fun h => { h with busy := false } }
      else s
    entryEnded s i.cmd

/-- A root fault stops the invocation at its instruction (R177). -/
def rootFault (s : State) (q cause lane : Nat) : State :=
  match (s.unit q).invs with
  | [] => s
  | i :: _ => endInv s q (some (cause, 32 * i.block + lane, i.pc - i.entry))

/-- Work issued by a team is stopped: engines and units begin no further unit of it (R319, R320). Work of no
admitted team, such as a near-memory task, stops with its function. -/
def State.held (s : State) (f team : Nat) : Bool :=
  match s.team? team with
  | some t => t.stop
  | none => (s.fn f).frozen

def Issuer.held (s : State) (b : Issuer) : Bool := s.held b.fn b.team

/-- The issuer of a `bmac` entry. -/
def cmdIssuer (s : State) (cmd : Nat) : Issuer := ((s.rootCmds.find? fun c => c.id == cmd).map (·.by_)).getD {}

/-- Commands of the crown, which are never stopped (R192, R319). -/
def RootOp.isCrown : RootOp → Bool
  | .sum .. | .clr => true
  | _ => false

/-- The command is never stopped (R245): a clear that has been taken, or an all-or-nothing store that has made its
version word odd. -/
def MxCmd.goesOn (c : MxCmd) : Bool :=
  c.taken && (c.opc == 0x383 || ((c.opc == 0x381 || c.opc == 0x350) && c.ver.isSome))

/-- Walks delay the command's unit, or have just ended: it is within a unit (R236, R245). -/
def MxCmd.delayed (c : MxCmd) : Bool := !c.misses.isEmpty || !c.walked.isEmpty

/-- The command goes on although its team is being stopped. -/
def MxCmd.midUnit (c : MxCmd) : Bool := c.goesOn || c.delayed

/-- The command is within a position or piece, and not parked (R262). -/
def ApCmd.midUnit (c : ApCmd) : Bool :=
  c.taken && c.wait.isNone && (!c.misses.isEmpty || !c.walked.isEmpty || c.chunk != 0)

/-! ### Choices between functions (R311) -/

/-- One of some candidates, where no rule says which (log 9). -/
def pickOf (s : State) (xs : List α) : Option α :=
  match xs with
  | [] => none
  | [x] => some x
  | _ => xs[Config.choose s.turns xs.length % xs.length]?

/-- The first element of which `p` holds, before the others. -/
def toFront [BEq α] (p : α → Bool) (xs : List α) : List α :=
  match xs.find? p with
  | some x => x :: xs.erase x
  | none => xs

/-- Who chooses between functions: a core's admissions, its engines, a root unit. -/
inductive Chooser where
  | admission (core : Nat) | matrix (core : Nat) | access (core : Nat) | root (unit : Nat)
  deriving DecidableEq, Repr

def Chooser.key (c : Chooser) (f : Nat) : Nat × Nat × Nat :=
  match c with
  | .admission n => (0, n, f) | .matrix n => (1, n, f) | .access n => (2, n, f) | .root n => (3, n, f)

/-- A weight field of a function's tenancy record (R310); a sum of WSLOT over the virtual functions that passes 256
scales it. -/
def weightAt (s : State) (c : Chooser) (f : Nat) : Nat :=
  let field := fun (x : Fn) => match c with
    | .admission _ => bits x.sten0.toNat 63 55
    | .matrix _ => bits x.sten0.toNat 54 46
    | .access _ => bits x.sten0.toNat 45 37
    | .root _ => bits x.sten0.toNat 36 28
  let sum := ((s.fns.filter fun x => x.id != 0).map field).sum
  match c with
  | .admission _ => if f ≠ 0 ∧ 256 < sum then field (s.fn f) * 256 / sum else field (s.fn f)
  | _ => field (s.fn f)

/-- What a function that waits would be owed after a choice that is not for it: over a run of `k` choices in which it
waits, `⌊w·k/256⌋` of them are its own, so what is owed must stay below 256. -/
def owed (s : State) (c : Chooser) (f : Nat) : Int := max 0 ((alGet s.lags (c.key f)).getD 0) + weightAt s c f

/-- With `f` chosen, the shares of all that wait can be met from there on: for every number of further choices, the
functions must be given no more of them than there are. Where the weights come to at most 256, 256 choices show it. -/
def meetsShares (s : State) (c : Chooser) (ws : List Nat) (f : Nat) : Bool :=
  let xs := ws.map fun g => ((owed s c g - bif g == f then 256 else 0).toNat, weightAt s c g)
  (List.range 257).all fun t => (xs.map fun x => (x.1 + x.2 * t) / 256).sum ≤ t

/-- After how many choices without one of its own a waiting function is owed one. -/
def choicesLeft (s : State) (c : Chooser) (f : Nat) : Nat :=
  let w := weightAt s c f
  bif w == 0 then 256 else (256 + w - (owed s c f).toNat - 1) / w

/-- The functions that may be chosen now, of those that wait: one that lets every share be met, and where there is none,
one that is soonest owed a choice; a function of weight 0 is chosen when none with a weight waits (log 19). -/
def choosable (s : State) (c : Chooser) (ws : List Nat) : List Nat :=
  let on := ws.filter fun f => weightAt s c f != 0 || ws.all fun g => weightAt s c g == 0
  let ok := on.filter (meetsShares s c on)
  bif ok.isEmpty then on.filter fun f => on.all fun g => choicesLeft s c f ≤ choicesLeft s c g else ok

/-- A function has been chosen among those that wait. -/
def serve (s : State) (c : Chooser) (ws : List Nat) (f : Nat) : State :=
  { s with lags := ws.foldl (fun l g => alSet (c.key g) (owed s c g - bif g == f then 256 else 0) l) s.lags }

/-- Choose one of the functions that wait. -/
def chooseFn (s : State) (c : Chooser) (ws : List Nat) : Option (State × Nat) :=
  (pickOf s (choosable s c ws)).map fun f => (serve s c ws f, f)

/-- The unit's block has ended: the next one is bound, unless its function is being stopped, or the invocation ends
(R175, R176, R185, R192). -/
def nextBlock (s : State) (q : Nat) : State :=
  match (s.unit q).invs with
  | [] => s
  | v :: _ =>
    if 32 * (v.block + 1) < v.nrec then
      let stop := v.by_.held s
      s.modUnit q fun u => { u with invs := u.invs.modify 0 fun v =>
        bif stop then { v with block := v.block + 1, bound := false } else v.bind (v.block + 1) }
    else endInv s q none

/-- The root-fault cause of what would be a trap on a core (R172, R173, R177). -/
def TrapInfo.rootCause (t : TrapInfo) : Nat :=
  match t.cause with
  | 5 => 6 | 7 => 3 | 8 => 2 | 0x10 => 4 | _ => 1

end Sys2Proof.Machine
end

