-- ==== Sys2Proof/Machine/Issue.lean ====
section
/-! DEFINITION. Getting to an instruction: which lanes issue (R17 to R21), consuming headers and pads (R57, R71),
fetching (R54), the checks that depend on the wave (R28, R40, R75), readiness (R21, R138), and what the
meanings share: running an instruction's effect in every wave of the issue (R77, R78). -/
namespace Sys2Proof.Machine

/-! ### Headers and pads -/

/-- Two parcels at an address, if they are a legal header (R55, R56). -/
def legalHeader (va : Nat) : Fetched → Fetched → Option BlockHdr
  | .word lo, .word hi => bif va % 8 == 0 && hdrLegal (dword lo hi) then some (hdrOf (dword lo hi)) else none
  | _, _ => none

/-- The legal header at an address, in whatever tier it lies. -/
def headerAt (s : State) (f va : Nat) : Option BlockHdr := legalHeader va (headerParcel s f va) (headerParcel s f (va + 4))

/-- The legal header that a lane fetches at an address (R54). -/
def fetchedHeader (s : State) (f va : Nat) : Option BlockHdr := legalHeader va (fetchParcel s f va) (fetchParcel s f (va + 4))

/-- A live count of a header; the largest code stands for the whole class (R55). -/
def liveCount (cls n : Nat) : Nat := bif n + 1 == cls then cls else n

/-- The block that a header opens: its end and its live counts (R55, R57). -/
def hdrBlk (h : BlockHdr) (pc : Nat) : Blk :=
  { stop := pc + 4 * h.len, liveV := liveCount 512 h.liveV, liveS := liveCount 128 h.liveS, liveP := h.liveP }

/-- A legal header consumed at the lane's PC (R57). -/
def Lane.consume (h : BlockHdr) (l : Lane) : Lane :=
  { l with
    pc := l.pc + 8
    anchor := bif h.ent then l.pc else l.anchor
    pos := bif h.len == 2 then .atHeader else .fresh l.pc l.anchor l.blk
    blk := hdrBlk h l.pc }

/-- The block in whose live counts a lane stands: that of a legal header at its PC, consumed or not (R50, R57). -/
def Lane.standing (s : State) (f : Nat) (l : Lane) : Blk :=
  match l.pos, headerAt s f l.pc with
  | .atHeader, some h => hdrBlk h l.pc
  | _, _ => l.blk

/-- Why a lane cannot go past the header where it stands: a trap, or a page that is away. -/
abbrev Stuck := TrapInfo ⊕ Nat

/-- Consume headers and pass over pads until an instruction stands at the PC; a header that is not legal, or whose page is
not executable, traps, and one whose page is away parks the lane (R54, R56, R58). With `once`, the lane has just issued an
instruction that must not be issued again, and the header after it is consumed wherever it lies (R148, R263; log 81). -/
def settleLane (s : State) (f : Nat) : Bool → Nat → Lane → Lane × Option Stuck
  | _, 0, l => (l, none)
  | once, n + 1, l =>
    match l.pos with
    | .atHeader =>
      match (bif once then headerAt s f l.pc else none).or (fetchedHeader s f l.pc) with
      | some h => settleLane s f false n (l.consume h)
      | none => match fetchParcel s f l.pc, fetchParcel s f (l.pc + 4) with
        | .away p, _ | _, .away p => (l, some (.inr p))
        | .word _, .word _ => (l, some (.inl { cause := 2, det := l.pc }))
        | _, _ => (l, some (.inl { cause := 8, det := l.pc }))
    | _ =>
      match fetchParcel s f l.pc with
      | .word x =>
        if x = 0xE then
          settleLane s f once n { l with pc := l.pc + 4, pos := bif l.pc + 4 == l.blk.stop then .atHeader else l.pos }
        else (l, none)
      | _ => (l, none)

/-- Headers and pads that one turn passes over for a lane. -/
def settleFuel : Nat := 64

/-- The wave may not go on before an answer or a reply (R157, R300, R328). -/
def Wave.blocked (w : Wave) : Bool := w.replies.any fun x => match x.kind with
  | .reg _ _ b => b
  | .answer .. => true

/-- The lanes of a set that can issue; a wave without an entry issues none (R16). -/
def Wave.inSet (w : Wave) (k : SetKind) : List Nat :=
  if w.save = .saved || w.save = .restored || w.entry.isNone then [] else
  (List.range w.lanes.length).filter fun i =>
    let l := w.lanes.getD i {}
    l.runnable && (l.mode == match k with | .save => .save | .trap => .trap | .ordinary => .ordinary)

/-- The write mask clears when the wave passes a header in an issue of all its lanes (R50). -/
def Wave.clearMask (old new : Wave) : Wave :=
  let lo := old.live.map fun i => old.lanes.getD i {}
  let ln := new.live.map fun i => new.lanes.getD i {}
  if old.allIssued && !lo.isEmpty && lo.all (fun l => l.pos == .atHeader && some l.pc == lo.head?.map (·.pc))
      && ln.all (fun l => match l.pos with | .fresh .. => true | _ => false) then
    { new with regs := { new.regs with wmV := 0, wmS := 0, wmP := 0 }, allIssued := false
               cleared := some (new.regs.wmV, new.regs.wmS, new.regs.wmP) }
  else new

/-- The registers of a wave whose header is taken as not consumed, as a save at it and a refused command have it: with
the write mask that passing it cleared (R148, R320). -/
def Wave.unpassed (w : Wave) : Regs :=
  match w.cleared with
  | some (v, u, p) => { w.regs with wmV := w.regs.wmV ||| v, wmS := w.regs.wmS ||| u, wmP := w.regs.wmP ||| p }
  | none => w.regs

/-- Settle lanes of a wave: those whose header's page is away park on its migration. The traps that headers bring are
answered. -/
def settleLanes (s : State) (r : WaveRef) (f : Nat) (once : Bool) (ls : List Nat) : State × List (WaveRef × Nat × TrapInfo) :=
  match s.wave? r with
  | none => (s, [])
  | some w =>
    let xs := ls.map fun i => (i, settleLane s f once settleFuel (w.lanes.getD i {}))
    let s := xs.foldl (fun s x => s.onLanes r (Mask.put 0 x.1 true) fun _ => x.2.1) s
    let s := xs.foldl (fun s x => match x.2.2 with
      | some (.inr p) => startMigration (s.onLanes r (Mask.put 0 x.1 true) (Lane.park (.migration f p))) (s.standOf r) f p true
      | _ => s) (s.modWave r (Wave.clearMask w))
    (s, xs.filterMap fun x => match x.2.2 with
      | some (.inl t) => some (r, x.1, t)
      | _ => none)

/-- Settle the lanes of a wave's set before it issues. -/
def settleWave (s : State) (r : WaveRef) (k : SetKind) : State × List (WaveRef × Nat × TrapInfo) :=
  match s.wave? r with
  | none => (s, [])
  | some w => if w.blocked then (s, []) else settleLanes s r (s.fnOf r) false (w.inSet k)

/-- The waves of the issue in progress. -/
def State.issueRefs (s : State) : List WaveRef :=
  match s.issue with
  | some i => match i.agent with
    | .core _ _ _ parts => parts.map (·.1)
    | .root _ => []
  | none => []

/-- A change of the state that an instruction or event answers. -/
def onNext (f : State → State) : Host.Outcome State Fault Refusal → Host.Outcome State Fault Refusal
  | .next s => .next (f s)
  | .fault e => .fault e
  | .refused r => .refused r

/-- Instructions that a replay must not issue again: a lane that issues one consumes the header after it in the same step
(R148, R197, R263, R300, R328; log 81). -/
def issuedOnce (i : Instr) : Bool :=
  match i with
  | .bagNew .. | .bagPut .. | .bagSnap .. | .bagEach .. | .bagDrain .. | .bagGrow .. | .bagFree ..
  | .ldSync .. | .stSync .. | .apGth .. | .mxMma .. | .mxSt ..
  | .vfStop .. | .vfStart .. | .vfPre .. | .vfRst .. | .dirtySnap .. | .dirtySnapFin .. | .tlbInv .. | .dtabLd .. | .sliceSet .. | .poolAdd .. | .poolAddCap .. => true
  | _ => false

/-- What an instruction leaves: the lanes of its waves consume the headers that they have reached (R57), in the same step
after one that is issued once; a header that is not legal traps in a later turn. The operand latch loses the registers that
were written (R48), and the issue is over. -/
def endIssue (i : Instr) (s : State) : State :=
  let s := s.issueRefs.foldl (fun s r => match s.wave? r with
    | none => s
    | some w => lapseWritten (settleLanes s r (s.fnOf r) (issuedOnce i) ((List.range w.lanes.length).filter fun i =>
        (w.lanes.getD i {}).runnable)).1 r) s
  { s with issue := none }

/-! ### Groups -/

/-- A wave put into a list in order of wave entries. -/
def byEntry (x : Nat × WaveRef) : List (Nat × WaveRef) → List (Nat × WaveRef)
  | [] => [x]
  | y :: ys => bif x.1 < y.1 then x :: y :: ys else y :: byEntry x ys

/-- The resident waves of a group of a slot, in order of their wave entries (R25); those of a function in RESET stand
where they are (R322). -/
def members (s : State) (core slot group : Nat) : List WaveRef :=
  let ms := s.teams.flatMap fun t =>
    if t.core == core && (s.fn t.fn).state != .reset then
      t.waves.zipIdx.filterMap fun x => match x.1.entry with
        | some e => bif x.1.slot == slot && x.1.group == group then some (e, (⟨t.id, x.2⟩ : WaveRef)) else none
        | none => none
    else []
  (ms.foldl (fun a x => byEntry x a) []).map (·.2)

/-- `issue_pc` and the issuing lanes of R17. -/
def issueAt (s : State) (rs : List WaveRef) (k : SetKind) : Option (Nat × List (WaveRef × Mask)) :=
  let lanes := rs.flatMap fun r => match s.wave? r with
    | some w => (w.inSet k).map fun i => (r, i, (w.lanes.getD i {}).pc)
    | none => []
  match (lanes.map (·.2.2)).min? with
  | none => none
  | some pc =>
    some (pc, rs.filterMap fun r =>
      let m := lanes.foldl (fun m x => bif x.1 == r && x.2.2 == pc then Mask.put m x.2.1 true else m) 0
      bif m == 0 then none else some (r, m))

def State.group (s : State) (core slot group : Nat) : Group :=
  (((s.core core).slots.getD slot {}).groups.find? fun g => g.id == group).getD { id := group }

def State.modGroup (s : State) (core slot group : Nat) (f : Group → Group) : State :=
  let g := f (s.group core slot group)
  s.modCore core fun c => { c with slots := c.slots.modify slot fun x =>
    { x with groups := (x.groups.filter fun y => y.id < group) ++ [g] ++ (x.groups.filter fun y => group < y.id) } }

/-- The wave that the lagging-wave step serves (R18): the lowest `%wave`, then the lowest team, of those that have
runnable ordinary lanes none of which issued in the group's last 64 issues. -/
def lagging (s : State) (rs : List WaveRef) (g : Group) : Option WaveRef :=
  if g.hist.length < 64 then none else
  let late := rs.filter fun r => match s.wave? r with
    | some w =>
      let q := w.inSet .ordinary
      !q.isEmpty && q.all fun i => g.hist.all fun h => h.all fun x => !(x.1 == r && x.2.has i)
    | none => false
  let index := fun (r : WaveRef) => ((s.team? r.team).map (·.team)).getD 0
  late.foldl (fun (a : Option WaveRef) r => match a with
    | none => some r
    | some b => bif r.wave < b.wave || (r.wave == b.wave && index r < index b) then some r else some b) none

/-! ### Parts of an issue -/

def State.inv? (s : State) (q : Nat) : Option Inv := (s.unit q).invs.head?

/-- The contexts of an issue, one for each wave or for the unit (R78). -/
def contexts (s : State) (i : Issue) (h : Head) : List Ctx :=
  match i.agent with
  | .core _ _ _ parts => parts.filterMap fun x => (s.wave? x.1).map fun w => mkCtx (some x.1) 0 w.regs x.2 h
  | .root q => match s.inv? q with
    | some v => [mkCtx none q v.regs (Mask.full 32) h]
    | none => []

/-- A trap in each lane of a set. -/
def inLanes (m : Mask) (t : TrapInfo) : List (Nat × TrapInfo) := m.lanes.map fun l => (l, t)
def illegal (rsn : Nat) : TrapInfo := { cause := 1, rsn := rsn }
def misaligned (a : Nat) : TrapInfo := { cause := 7, det := a }
def violation (a : Nat) : TrapInfo := { cause := 8, det := a }

/-- Traps of an issue: on a core the lanes take them (R313); in root code the unit takes a root fault (R177). -/
def raiseAll (s : State) (bad : List (Ctx × List (Nat × TrapInfo))) : State :=
  match bad.find? fun x => x.1.ref.isNone && !x.2.isEmpty with
  | some (c, (l, t) :: _) => rootFault s c.unit t.rootCause l
  | _ => takeTraps s (bad.flatMap fun x => match x.1.ref with
      | some r => x.2.map fun y => (r, y.1, y.2)
      | none => [])

/-- Lanes of a part move to the next instruction. -/
def advance (s : State) (i : Issue) (c : Ctx) (m : Mask) : State :=
  match c.ref with
  | some r => s.onLanes r m (Lane.advance i.len)
  | none => s.modUnit c.unit fun u => { u with invs := u.invs.modify 0 fun v =>
      { v with pc := v.pc + i.len, head := v.pc + i.len == v.stop } }

/-- Store a part's registers. -/
def putRegs (s : State) (c : Ctx) (r : Regs) : State :=
  match c.ref with
  | some w => s.modWave w fun x => { x with regs := r }
  | none => s.modUnit c.unit fun u => { u with invs := u.invs.modify 0 fun v => { v with regs := r } }

/-- Run an instruction: the traps of every part are found first; if there is one, nothing is written, the lanes
that raise it take it, lanes whose predicate is false move on and the others stay (R77). Otherwise each part
acts, in order. -/
def runEach (h : Head) (chk : State → Ctx → List (Nat × TrapInfo)) (act : Issue → Ctx → State → State) (s : State) :
    Host.Outcome State Fault Refusal :=
  match s.issue with
  | none => .fault .noIssue
  | some i =>
    let cs := contexts s i h
    let bad := cs.map fun c => (c, chk s c)
    if bad.any fun x => !x.2.isEmpty then
      .next (raiseAll (cs.foldl (fun s c => bif c.ref.isSome then advance s i c (c.iss &&& ~~~c.e) else s) s) bad)
    else .next (cs.foldl (fun s c => act i c s) s)

/-- An instruction whose only effect is on registers: each part's new registers, and every issuing lane moves on. -/
def runRegs (h : Head) (chk : Ctx → List (Nat × TrapInfo)) (f : Ctx → Regs) (s : State) :
    Host.Outcome State Fault Refusal :=
  runEach h (fun _ c => chk c) (fun i c s => advance (putRegs s c (f c)) i c c.iss) s

/-- No trap beyond the decode checks. -/
def noTrap : Ctx → List (Nat × TrapInfo) := fun _ => []

/-- An effect on per-wave state: once per wave, and only when E is not empty (R78). -/
def onceE (f : Ctx → Regs → Regs) (c : Ctx) : Regs := bif c.e == 0 then c.r else f c c.r

/-! ### Checks that depend on the wave (R75 steps 10 to 13) -/

/-- Forms that ask for an effective group of 1, with the reason they give (R133, R134, R164, R132). -/
def groupOne (i : Instr) (opc : Nat) (h : Head) : Option Nat :=
  if [0x2C5, 0x2C6, 0x2E4, 0x2E5, 0x2D0, 0x2F0, 0x2F9, 0x2FA, 0x2A0, 0x2A1, 0x2A2, 0x391].contains opc then some 8
  else match i with
    | .cvtFloat .. | .bq .. => bif rmStoch h then some 6 else none
    | _ => none

/-- The register and mask multiples of R28, and the size that `aq.pop` asks for (R278). -/
def multiplesOk (i : Instr) (sh : Shape) (c : Ctx) : Bool :=
  (sh.ops.all fun o => !o.grp || (o.num % c.g == 0 && (o.cls != .pred || o.num + c.g ≤ 16)))
    && (c.mask == 0 || (c.mask % c.g == 0 && c.mask + c.g ≤ 16))
    && (match i with
      | .aqPop .. => c.w * c.g == 64
      | _ => true)

/-- The sizes of R112 and R129: a mask that fits its pair, and whole blocks of 32 elements. -/
def sizesOk (i : Instr) (c : Ctx) : Bool :=
  match i with
  | .voteMsk .. => c.w * c.g ≤ 64
  | .bscale .. => c.w * c.g % 32 == 0
  | _ => true

/-- The reason of an illegal instruction that the wave's own state decides: a prefix (6), a size (7), a group or a
multiple (8). -/
def waveReason (i : Instr) (sh : Shape) (c : Ctx) : Option Nat :=
  let g := bif c.g != 1 then groupOne i sh.opc sh.head else none
  if g = some 6 then some 6
  else if !sizesOk i c then some 7
  else if g.isSome || !multiplesOk i sh c then some 8
  else none

/-- The reason that a wave gives for parcels that decoding refuses with reason `r`: a check of R75 that depends on the
wave and stands before that one decides. -/
def earlierReason (opc : Nat) (h : Head) (r : Nat) (c : Ctx) : Nat :=
  if r ≠ 7 ∧ r ≠ 8 then r
  else if (opc = 0x240 ∨ opc = 0x244) ∧ rmStoch h ∧ c.g ≠ 1 then 6
  else if opc = 0x1B3 ∧ 64 < c.w * c.g then 7
  else if opc = 0x243 ∧ c.w * c.g % 32 ≠ 0 then 7
  else r

/-- The first register that the instruction names and the kernel does not declare (R40). -/
def undeclared (sh : Shape) (c : Ctx) : Option Nat :=
  sh.ops.findSome? fun o =>
    let top := o.num + o.regs c.g - 1
    match o.cls with
    | .vec => bif c.r.v.length ≤ top then some (max o.num c.r.v.length) else none
    | .uni => bif top != 0 && c.r.s.length ≤ top then some (max o.num c.r.s.length) else none
    | _ => none

/-- Traps of a part before its instruction executes: reasons 6 and 8 in every issuing lane, then the
register-range fault in the lanes of E. -/
def preTraps (i : Instr) (sh : Shape) (c : Ctx) : List (Nat × TrapInfo) :=
  match waveReason i sh c with
  | some r => inLanes c.iss (illegal r)
  | none => match undeclared sh c with
    | some n => inLanes c.e { cause := 5, det := n }
    | none => []

/-! ### Readiness (R21) -/

/-- Registers that a load in flight, a reply or a `fact` will write (R95, R125, R138). -/
def Wave.awaited (w : Wave) : List (RegClass × Nat) :=
  (w.loads.flatMap fun p => p.elems.map fun e => match e.dst with
    | .v n _ => (.vec, n)
    | .s n => (.uni, n))
  ++ (w.facts.flatMap fun f => f.elems.map fun e => (.vec, e.1))
  ++ (w.replies.flatMap fun x => match x.kind with
    | .reg n pair _ => (.uni, n) :: (bif pair then [(.uni, n + 1)] else [])
    | .answer .. => [])

/-- The instruction reads or writes an awaited register. -/
def shapeTouches (sh : Shape) (g : Nat) (aw : List (RegClass × Nat)) : Bool :=
  sh.ops.any fun o => aw.any fun a => a.1 == o.cls && o.num ≤ a.2 && a.2 < o.num + o.regs g

/-- The instruction accesses memory or sends a command, so an acquire can hold it back (R282, R283). -/
def opcAccesses (opc : Nat) : Bool :=
  (0x2C0 ≤ opc && opc ≤ 0x31F) || (0x330 ≤ opc && opc ≤ 0x351) || (0x380 ≤ opc && opc ≤ 0x386)
    || (0x390 ≤ opc && opc ≤ 0x3A3) || opc == 0x0C0 || opc == 0x290 || (0x3C2 ≤ opc && opc ≤ 0x3D1)

/-- The engine of a core holds the commands that an issue's parts send: at most 128 and 64 (R230, R274). -/
def engineRoom (s : State) (core : Nat) (i : Instr) (cs : List Ctx) : Bool :=
  let n := cs.countP fun c => c.ref.isSome && c.e != 0
  match i with
  | .mxMma .. | .mxSt .. | .mxLd .. | .mxClr .. | .mxRq .. | .tst .. | .tldV .. => (s.core core).matrix.length + n ≤ 128
  | .apCpy .. | .apCp2 .. | .apGth .. | .apSct .. => (s.core core).access.length + n ≤ 64
  | _ => true

/-- What single instructions wait for. -/
def ownReady (i : Instr) (t : Team) (w : Wave) : Bool :=
  match i with
  | .aqPop _ o => match t.queues[o.q.toNat]? with
    | some q => !q.isEmpty
    | none => true
  | .movUniformFromSpecial _ o => o.spec != 0x0F || w.facts.isEmpty
  | .movVectorFromSpecial _ o => o.spec != 0x0F || w.facts.isEmpty
  | .movToSpecial _ o => o.spec != 0x0F || w.facts.isEmpty
  | .fact _ o => ((t.act.getD o.tb.toNat {}).shadow).isNone
  | .actLd _ o => ((t.act.getD o.tb.toNat {}).shadow).isNone
  | .wentSt .. => w.ld.isEmpty && w.cp.isEmpty && w.tl.isEmpty
  | .svEnd .. | .svEndRes .. => w.ld.isEmpty && w.st.isEmpty
  | _ => true

/-- The wave's lanes `m` may have their next instruction issued, whatever it is: no answer or reply is owed (R157, R300,
R328), no nap of theirs is on (R91), and no `fact` in flight can still trap (R208). -/
def Wave.free (w : Wave) (cycle : Nat) (m : Mask) : Bool :=
  !w.blocked && (w.naps.all fun n => n.1 &&& m == 0 || n.2 ≤ cycle) && (w.facts.isEmpty || w.regs.fflags.extractLsb' 8 6 == 0)

/-- The instruction can be issued for this wave now. -/
def waveReady (s : State) (i : Instr) (sh : Shape) (c : Ctx) (r : WaveRef) : Bool :=
  match s.wave? r, s.team? r.team with
  | some w, some t =>
    w.free s.cycle c.iss
      && !(shapeTouches sh c.g w.awaited)
      && (w.holdLd.isEmpty || !opcAccesses sh.opc)
      && ownReady i t w
  | _, _ => false

end Sys2Proof.Machine
end

