-- ==== Sys2Proof/Machine/Operands.lean ====
section
/-! DEFINITION. The operand forms: the B operands of uniform and vector instructions (R80, R99), displacements,
branch offsets, and the amounts and indices of the lane-movement forms (R67, R69, R110). -/
namespace Sys2Proof
open Machine

/-- The value of a uniform B operand (R80). -/
def UB.val (b : UB) (r : Regs) : Word :=
  match b with
  | .reg n => r.getS n.toNat
  | .imm i => imm16 i
  | .long i => i

/-- The value of a pair B operand: a pair, or the immediate sign-extended to 64 bits (R83). -/
def UB.val64 (b : UB) (r : Regs) : DWord :=
  match b with
  | .reg n => r.getPair n.toNat
  | .imm i => i.signExtend 64
  | .long i => i.signExtend 64

/-- The amount of a shift: the register's low bits, or the immediate (R81, R83). -/
def UB.amount (b : UB) (r : Regs) (nbits : Nat) : Nat :=
  match b with
  | .reg n => (r.getS n.toNat).toNat % 2 ^ nbits
  | .imm i => i.toNat
  | .long i => i.toNat

/-- Element `e` of a vector B operand (R99). -/
def VB.elem (b : VB) (c : Ctx) (e : Nat) : Word :=
  match b with
  | .vec n => c.r.elem n.toNat e
  | .uni n => c.r.getS n.toNat
  | .imm i => imm16 i
  | .long i => i

/-- The amount of a vector shift (R103). -/
def VB.amount (b : VB) (c : Ctx) (e : Nat) : Nat :=
  match b with
  | .imm i => i.toNat
  | _ => (b.elem c e).toNat % 64

def Imm.val : Imm → Word
  | .short i => imm16 i
  | .long i => i

/-- A branch offset in bytes (R67, R69). -/
def Off.bytes : Off → Int
  | .short o => 8 * o.toInt
  | .long o => 8 * o.toInt

def Disp.val : Disp → Int
  | .short d => d.toInt
  | .long d => d.toInt

/-- A lane-movement amount, signed; the uniform form reads 32 bits (R110). -/
def LaneArg.signed (a : LaneArg) (r : Regs) : Int :=
  match a with
  | .imm i => i.toInt
  | .uni n => (r.getS n.toNat).toInt

/-- A lane-movement index, unsigned (R110). -/
def LaneArg.index (a : LaneArg) (r : Regs) : Nat :=
  match a with
  | .imm i => i.toNat
  | .uni n => (r.getS n.toNat).toNat

/-- Position and length of a bit field (R106). -/
def FieldArg.posLen (f : FieldArg) (r : Regs) : Nat × Nat :=
  match f with
  | .imm p l => (p.toNat, l.toNat)
  | .uni n => ((r.getS n.toNat).extractLsb' 0 5 |>.toNat, (r.getS n.toNat).extractLsb' 8 6 |>.toNat)

/-- The fourth vector operand of a prefix (R70). -/
def Head.v4 (h : Head) : Nat := (h.pfx.map (·.v4th.toNat)).getD 0

end Sys2Proof
end

