-- ==== Sys2Proof/Machine/Control.lean ====
section
/-! DEFINITION. Branches, jumps and calls, the ends of lanes, naps, vector length, `wait`, barriers, posts and
software traps (05_isa_uniform_control_sync R86 to R97; 02 R18, R27, R36). -/
namespace Sys2Proof.Machine

/-! ### The kernel and function of a part -/

def ctxFn (s : State) (c : Ctx) : Nat :=
  match c.ref with
  | some r => s.fnOf r
  | none => ((s.inv? c.unit).map (·.fn)).getD 0

def ctxEntry (s : State) (c : Ctx) : Nat :=
  match c.ref with
  | some r => s.entryOf r
  | none => ((s.inv? c.unit).map (·.entry)).getD 0

/-- The launch of a part's wave. -/
def ctxLaunch (s : State) (c : Ctx) : Launch :=
  ((c.ref.bind fun r => s.team? r.team).bind fun t => s.launch? t.launch).getD {}

/-- The lowest lane of E, which acts for the wave (R112, R231). -/
def Ctx.lead (c : Ctx) : Nat := c.e.low.getD 0

/-- Who issues: with the anchor of the elected lane (R137, R231). -/
def issuerOf (s : State) (c : Ctx) : Issuer :=
  match c.ref with
  | none => {}
  | some r =>
    let t := (s.team? r.team).getD {}
    let l := ((s.wave? r).bind fun w => w.lanes[c.lead]?).getD {}
    { fn := t.fn, launch := t.launch, team := r.team, wave := r.wave, task := t.task, teamNo := t.team
      anchor := offsetOf (s.entryOf r) l.anchor }

/-! ### Branches (R86) -/

/-- What a target holds: no fetchable page, no header, a page that is away, or a header. -/
inductive Target where
  | bad | noHeader | away (page : Nat) | header
  deriving DecidableEq, Repr

def targetAt (s : State) (f : Nat) (a : Int) : Target :=
  if a < 0 then .bad else
  match fetchParcel s f a.toNat with
  | .bad => .bad
  | .away p => .away p
  | .word x => bif a.toNat % 8 == 0 && parcelCls x == 0xF then .header else .noHeader

/-- The traps of a part's taken lanes whose targets are of one kind. -/
def targetTraps (s : State) (f : Nat) (kind : Target) (cause : Nat) (tk : List (Nat × Int)) : List (Nat × TrapInfo) :=
  (tk.filter fun x => targetAt s f x.2 == kind).map fun x =>
    (x.1, { cause := cause, det := (x.2 % 2 ^ 64).toNat })

/-- Move one lane to its target, or park it on the page's migration. -/
def moveTo (s : State) (f : Nat) (r : WaveRef) (l : Nat) (a : Int) : State :=
  match targetAt s f a with
  | .away p => startMigration (s.onLanes r (Mask.put 0 l true) (Lane.park (.migration f p))) (s.standOf r) f p true
  | _ => s.onLanes r (Mask.put 0 l true) fun x => x.toHeader a.toNat

/-- Step 3 of R86 for a part; a root unit moves whole (R173). -/
def branchPart (i : Issue) (s : State) (c : Ctx) (tk : List (Nat × Int)) : State :=
  let f := ctxFn s c
  match c.ref with
  | some r =>
    let m := tk.foldl (fun m x => Mask.put m x.1 true) 0
    tk.foldl (fun s x => moveTo s f r x.1 x.2) (advance s i c (c.iss &&& ~~~m))
  | none =>
    match tk with
    | [] => advance s i c c.iss
    | x :: _ => s.modUnit c.unit fun u => { u with invs := u.invs.modify 0 fun v =>
        { v with pc := x.2.toNat, head := true } }

/-- A branch of any kind: the targets of all taken lanes are checked together, first that their pages can be
fetched, then that resident ones hold a header; the link is written only when neither check fails (R86, R89). -/
def runBranch (h : Head) (taken : State → Issue → Ctx → List (Nat × Int)) (link : State → Issue → Ctx → Regs)
    (s : State) : Host.Outcome State Fault Refusal :=
  match s.issue with
  | none => .fault .noIssue
  | some i =>
    let tk := (contexts s i h).map fun c => (c, taken s i c)
    let bad := fun kind cause => tk.map fun x => (x.1, targetTraps s (ctxFn s x.1) kind cause x.2)
    let rest := tk.foldl (fun s x => bif x.1.ref.isSome then advance s i x.1 (x.1.iss &&& ~~~x.1.e) else s) s
    if (bad .bad 8).any fun x => !x.2.isEmpty then .next (raiseAll rest (bad .bad 8))
    else if (bad .noHeader 3).any fun x => !x.2.isEmpty then .next (raiseAll rest (bad .noHeader 3))
    else .next (tk.foldl (fun s x => branchPart i (putRegs s x.1 (link s i x.1)) x.1 x.2) s)

/-- The target of a direct branch: the branch's address with bits [2:0] cleared, plus the offset (R67). -/
def directTarget (i : Issue) (o : Off) : Int := (i.pc / 8 * 8 : Nat) + o.bytes

/-- Every lane of E, with a target. -/
def allTaken (c : Ctx) (t : Nat → Int) : List (Nat × Int) := c.e.lanes.map fun l => (l, t l)

def noLink : State → Issue → Ctx → Regs := fun _ _ c => c.r

/-- The condition of a uniform-compare branch (R67). -/
def brHolds (cnd : BrCond) (a b : Word) : Bool :=
  match cnd with
  | .eq => a == b
  | .ne => a != b
  | .lt => a.slt b
  | .ge => !a.slt b
  | .ltn => a.ult b
  | .gen => !a.ult b
  | .always => true

def execBrCc (h : Head) (o : BrCc) (s : State) :=
  runBranch h (fun _ i c =>
    bif brHolds o.cnd (c.r.getS o.sa.toNat) (c.r.getS o.sb.toNat) then allTaken c fun _ => directTarget i o.off
    else []) noLink s

/-- The vote over E; in root code over the lanes below `%vl` alone (R88, R173). -/
def voteHolds (cnd : VoteCond) (c : Ctx) (p : Mask) : Bool :=
  let e := bif c.ref.isSome then c.e else c.e &&& Mask.full c.r.vl
  match cnd with
  | .any => e &&& p != 0
  | .all => e &&& ~~~p == 0
  | .none => e &&& p == 0
  | .nall => e &&& ~~~p != 0

def execBrVote (h : Head) (o : BrVoteOp) (s : State) :=
  runBranch h (fun _ i c =>
    bif voteHolds o.cnd c (c.r.getP o.pa.toNat) then allTaken c fun _ => directTarget i o.off else []) noLink s

def execJmpUniform (h : Head) (sa : UReg) (s : State) :=
  runBranch h (fun s _ c => allTaken c fun _ => ctxEntry s c + (c.r.getS sa.toNat).toNat) noLink s

def execJmpVector (h : Head) (s : State) :=
  runBranch h (fun s _ c => allTaken c fun l => ctxEntry s c + (c.r.getV h.v4 l).toNat) noLink s

/-- The link: the offset of the end of the call's block (R89). -/
def linkOf (s : State) (i : Issue) (c : Ctx) : Word := offsetOf (ctxEntry s c) i.stop

def execCallUniform (h : Head) (o : CallOp) (s : State) :=
  runBranch h (fun _ i c => allTaken c fun _ => directTarget i o.off)
    (fun s i c => onceE (fun _ r => r.setS o.sa.toNat (linkOf s i c)) c) s

def execCallVector (h : Head) (off : Off) (s : State) :=
  runBranch h (fun _ i c => allTaken c fun _ => directTarget i off)
    (fun s i c => c.e.lanes.foldl (fun r l => r.setV h.v4 l (linkOf s i c)) c.r) s

/-! ### Ends and naps (R90, R91) -/

/-- `exit` ends the lanes of E; in root code it ends the invocation (R185). -/
def execExit (h : Head) (s : State) :=
  runEach h (fun _ _ => [])
    (fun i c s => match c.ref with
      | some r => endLanes (advance s i c (c.iss &&& ~~~c.e)) r c.e
      | none => endInv s c.unit none) s

def execDone (h : Head) (s : State) :=
  runEach h (fun _ _ => [])
    (fun i c s => match c.ref with
      | some r => bif c.e == 0 then advance s i c c.iss else endLanes s r (Mask.full c.w)
      | none => s) s

def execNap (h : Head) (n : BitVec 12) (s : State) :=
  runEach h (fun _ _ => [])
    (fun i c s =>
      let s := advance s i c c.iss
      match c.ref with
      | some r => bif c.e == 0 then s else s.modWave r fun w => { w with naps := w.naps ++ [(c.e, s.cycle + n.toNat)] }
      | none => s) s

/-- Time passes up to a cycle (log 3). -/
def State.passTo (s : State) (t : Nat) : State := { s with cycle := max s.cycle t, ctime := s.ctime + BitVec.ofNat 64 (t - s.cycle) }

/-- The cycles of the wave's earliest nap run out; naps that last longer go on. -/
def execNapExpiry (w : WaveRef) (s : State) : Host.Outcome State Fault Refusal :=
  match (((s.wave? w).map (·.naps)).getD []).map (·.2) |>.min? with
  | none => .next s
  | some t => .next ((s.passTo t).modWave w fun x => { x with naps := x.naps.filter fun n => t < n.2 })

/-- The slot makes the group's next issue for the lagging wave alone (R18). -/
def execLaggingWaveStep (core slot grp : Nat) (s : State) : Host.Outcome State Fault Refusal :=
  match lagging s (members s core slot grp) (s.group core slot grp) with
  | none => .next s
  | some r => .next (s.modGroup core slot grp fun g => { g with lag := some r })

/-! ### Vector length (R92) -/

def execSetvl (h : Head) (o : SetVl) (s : State) :=
  runRegs h noTrap (onceE fun c r =>
    let req := ((r.getS o.sa.toNat).toNat + o.imm.toInt).toNat
    let vl := min req (c.w * c.g)
    { r with vl := vl }.setS o.dst.toNat (BitVec.ofNat 32 vl)) s

/-- The new `%vtype` (R92). -/
def vtypeVal (o : SetVtype) (r : Regs) : Word := r.getS o.sa.toNat + imm16 o.imm

def execSetvtype (h : Head) (o : SetVtype) (s : State) :=
  runRegs h
    (fun c => bif (vtypeVal o c.r).extractLsb' 4 28 != 0 then inLanes c.e (illegal 7) else [])
    (onceE fun c r =>
      let x := (vtypeVal o r).extractLsb' 0 4
      { r with vtype := x, vl := min r.vl (c.w * 2 ^ (x.extractLsb' 0 2).toNat) }) s

/-! ### `wait` and barriers (R93, R94) -/

/-- The bounds for LD, ST, CP and TL; a counter that is not waited on has the bound 63. -/
def WaitArg.bounds : WaitArg → Nat × Nat × Nat × Nat
  | .zero z => (bif z.getLsbD 0 then 0 else 63, bif z.getLsbD 1 then 0 else 63,
      bif z.getLsbD 2 then 0 else 63, bif z.getLsbD 3 then 0 else 63)
  | .bounds b => (bits b.toNat 5 0, bits b.toNat 13 8, bits b.toNat 21 16, bits b.toNat 29 24)

/-- The lanes of E park, and those whose bounds hold move on at once. -/
def execWait (h : Head) (a : WaitArg) (s : State) :=
  runEach h (fun _ _ => [])
    (fun i c s =>
      let s := advance s i c (c.iss &&& ~~~c.e)
      let (ld, st, cp, tl) := WaitArg.bounds a
      match c.ref with
      | some r => (s.onLanes r c.e (Lane.park (.wait ld st cp tl (i.pc + i.len)))).modWave r Wave.wake
      | none => s) s

/-- A barrier in trap mode or in save mode is illegal (R20, R94, R320). -/
def barTrap (s : State) (c : Ctx) : List (Nat × TrapInfo) :=
  match c.ref.bind s.wave? with
  | some w => bif (w.lanes.getD c.lead {}).mode != .ordinary then inLanes c.e (illegal 10) else []
  | none => []

/-- The lanes of E of every part arrive and park; once all have, barriers release whose lanes have all arrived (R27).
An arriving wave's outstanding loads read first, for no store after the barrier is before them (R290); its outstanding
stores are not covered (R27). -/
def runBarrier (gang : Bool) (h : Head) (s : State) : Host.Outcome State Fault Refusal :=
  onNext (fun s => (s.issueRefs.map (·.team)).dedup.foldl checkBarriers s) <| runEach h barTrap
    (fun i c s =>
      let s := advance s i c (c.iss &&& ~~~c.e)
      match c.ref with
      | some r =>
        let next := i.pc + i.len
        let s := bif c.e == 0 then s else performLoads s r s.nextId
        s.onLanes r c.e fun l =>
          bif gang then Lane.park (.gangBar next) { (l : Lane) with gangArr := true }
          else Lane.park (.teamBar next) { (l : Lane) with teamArr := true }
      | none => s) s

def execBarTeam (h : Head) (s : State) := runBarrier false h s
def execBarGang (h : Head) (s : State) := runBarrier true h s

/-! ### Posts and traps (R95 to R97) -/

/-- The window of a part's team. -/
def winSizeOf (s : State) (c : Ctx) : Nat := ((c.ref.bind fun r => s.team? r.team).map (·.winSize)).getD 0

/-- The checks of a block at a window offset: alignment, then the window (R95). -/
def winBlockTrap (s : State) (c : Ctx) (off align len : Nat) : List (Nat × TrapInfo) :=
  if off % align ≠ 0 then inLanes c.e (misaligned off)
  else if winSizeOf s c < off + len then inLanes c.e (violation off)
  else []

def execTaskPost (h : Head) (o : U2) (s : State) :=
  runEach h (fun s c => winBlockTrap s c (c.r.getS o.sa.toNat).toNat 64 256)
    (fun i c s =>
      let s := advance s i c c.iss
      match c.ref with
      | some r =>
        if c.e = 0 then s else
        let blk := viewNow s r (.win r.team (c.r.getS o.sa.toNat).toNat) 256
        let id := s.nextId
        -- a release at `.dev` for the wave's earlier accesses (R96)
        let s := chargeBlock (performAll s r) (issuerOf s c) (c.r.getS o.sa.toNat).toNat 256 |>.fresh
        let s := { s with posts := s.posts ++ [({ id := id, by_ := issuerOf s c, rec_ := blk } : Post)] }
        s.modWave r fun w => { w with replies := w.replies ++ [({ id := id, kind := .reg o.dst.toNat false false } : Reply)] }
      | none => s) s

/-- A reply reaches its wave: the register is written and is ready (R95); a wave that has ended has none. -/
def giveReply (s : State) (r : WaveRef) (id : Nat) (x : DWord) : State :=
  s.modWave r fun w =>
    match w.replies.find? fun y => y.id == id with
    | some { kind := .reg n pair _, .. } =>
      { w with regs := bif pair then w.regs.setPair n x else w.regs.setS n (loW x)
               replies := w.replies.filter fun y => y.id != id }
    | _ => w

/-- The predecessors that a record names (R95). -/
def predsOf (b : List Byte) (off : Nat) : List Nat :=
  ((List.range 4).map fun i => fieldB b (off + 4 * i) 4).filter (· != 0xFFFFFFFF)

/-- The task of a post or initial-task record: parameters, predecessors and tile declarations (R95, R309). -/
def taskOfRecord (idx : Nat) (b : List Byte) : Task :=
  { index := idx, params := (List.range 8).map fun i => BitVec.ofNat 32 (fieldB b (4 * i) 4)
    preds := predsOf b 0x20, tiles := (List.range (fieldB b 0x30 4)).map fun i => sliceB b (0x40 + 24 * i) 24 }

/-- Reserved fields of a record, those of its eight declarations included (R6, R95). -/
def recordReserved (b : List Byte) : Bool :=
  fieldB b 0x34 12 != 0 || (List.range 8).any fun i => fieldB b (0x40 + 24 * i + 20) 4 != 0

/-- The failure code of a post, the first check that fails deciding it (R95). -/
def postFailure (l : Launch) (b : List Byte) : Option Word :=
  if 8 < fieldB b 0x30 4 || recordReserved b then some 0x80000003
  else if (predsOf b 0x20).any fun p => l.nt + l.posted ≤ p then some 0x80000002
  else if Config.maxTasks ≤ l.nt + l.posted then some 0x80000001
  else none

/-- The launch scheduler answers a post. -/
def execTaskPostReply (k : Nat) (s : State) : Host.Outcome State Fault Refusal :=
  match s.posts.find? fun p => p.id == k with
  | none => .next s
  | some p =>
    let s := { s with posts := s.posts.filter fun x => x.id != k }
    match s.launch? p.by_.launch with
    | none => .next s
    | some l =>
      let r : WaveRef := ⟨p.by_.team, p.by_.wave⟩
      match postFailure l p.rec_ with
      | some x => .next (giveReply s r k (x.setWidth 64))
      | none =>
        let idx := l.nt + l.posted
        -- staged accesses of the poster are performed when its team is released (R96, R299)
        let after := bif l.det then (bif l.gt == 0 then p.by_.task else p.by_.task * l.gt + p.by_.teamNo) + 1 else 0
        let t := { taskOfRecord idx p.rec_ with posted := true, after := after }
        let s := s.modLaunch l.id fun l => { l.setTask t with posted := l.posted + 1 }
        .next (giveReply s r k (BitVec.ofNat 64 idx))

def execTrap (h : Head) (n : BitVec 12) (s : State) :=
  runEach h (fun _ c => inLanes c.e { cause := 12, code := n.toNat })
    (fun i c s => advance s i c c.iss) s

end Sys2Proof.Machine
end

