-- ==== Sys2Proof/Machine/LoadStore.lean ====
section
/-! DEFINITION. Loads, stores, full/empty forms and prefetch (08_isa_loads_and_stores R134 to R146): forming the
address, the steps of R136 over all elements of an issue, and the accesses that they leave in flight. -/
namespace Sys2Proof.Machine

/-! ### Addresses (R135) -/

/-- An active element's access: the element, its lane, and its address or offset, in nibbles for `.b4`. -/
structure Elem where
  e : Nat
  l : Nat
  a : Int
  deriving DecidableEq, Repr, Inhabited

/-- What a form asks of its address: the space, the size in bytes, nibbles, and the permissions. -/
structure MemForm where
  sp   : Space
  size : Nat
  nib  : Bool := false
  rd   : Bool
  wr   : Bool
  deriving DecidableEq, Repr

/-- The address or offset of element `e`, exact. -/
def memAddr (c : Ctx) (m : MemOp) (nib : Bool) (e : Nat) : Int :=
  let base : Nat := match m.sp with
    | .global => bif m.sb == 0 then 0 else (c.r.getPair m.sb.toNat).toNat * bif nib then 2 else 1
    | _ => 0
  let i : Nat := match m.ix with
    | some (ix, sc) => (c.r.elem ix.toNat e).toNat * 2 ^ sc.toNat
    | none => 0
  Int.ofNat (base + i) + m.disp.val

def memElems (m : MemOp) (nib : Bool) (c : Ctx) : List Elem :=
  c.actives.map fun e => { e := e, l := e % c.w, a := memAddr c m nib e }

/-- The one access of a uniform form (R142). -/
def uniElems (m : MemOp) (c : Ctx) : List Elem :=
  bif c.e == 0 then [] else [{ e := 0, l := c.lead, a := memAddr c m false 0 }]

/-- The byte that an address names, and the half of a nibble address. -/
def MemForm.byte (f : MemForm) (a : Int) : Int := bif f.nib then a / 2 else a
def MemForm.hi (f : MemForm) (a : Int) : Bool := f.nib && a % 2 == 1

/-- The trap detail of an address: modulo 2^64. -/
def addrDet (a : Int) : Nat := (a % 2 ^ 64).toNat

/-- Team `k` of the gang of a wave's team; in a team program the gang is the team (R94, R135). -/
def gangTeam (s : State) (r : WaveRef) (k : Nat) : Option Team :=
  match s.team? r.team with
  | none => none
  | some t =>
    if ((s.launch? t.launch).map (·.gt)).getD 0 = 0 then (if k = 0 then some t else none)
    else s.teams.find? fun x => x.launch == t.launch && x.task == t.task && x.team == k

/-- The window that an offset reaches, and the offset in it. -/
def windowOf (s : State) (r : WaveRef) (f : MemForm) (b : Int) : Option (Team × Int) :=
  if b < 0 then none
  else match f.sp with
    | .gw => if 2 ^ 32 ≤ b then none else (gangTeam s r (b / 2 ^ 24).toNat).map fun t => (t, b % 2 ^ 24)
    | _ => (s.team? r.team).map fun t => (t, b)

/-- Step 1 of R136 for one access: range, then alignment. -/
def stepOne (s : State) (r : WaveRef) (f : MemForm) (a : Int) : Option TrapInfo :=
  let b := f.byte a
  let mis : Option TrapInfo := if b % f.size = 0 then none else some (misaligned (addrDet a))
  match f.sp with
  | .global => if b < 0 ∨ 2 ^ 56 < b + f.size then some (violation (addrDet a)) else mis
  | _ => match windowOf s r f b with
    | none => some (violation (addrDet a))
    | some (t, o) => if (t.winSize : Int) < o + f.size then some (violation (addrDet a)) else mis

/-! ### Translation (R136 steps 2 and 3, R270) -/

/-- What a core finds for a page without a walk: nothing yet, no valid entry (as a walk it awaited found), or
a translation. -/
inductive Xlat where
  | miss | bad | entry (t : Tlb)
  deriving DecidableEq, Repr

def translate (s : State) (r : WaveRef) (page : Nat) : Xlat :=
  let f := s.fnOf r
  match (s.core (s.coreOf r)).tlb.find? fun t => t.hits f page with
  | some t => .entry t
  | none => match ((s.wave? r).map (·.walked)).getD [] |>.find? fun x => x.1.hits f page with
    | some (t, true) => .entry t
    | some (_, false) => .bad
    | none => .miss

/-- Where a translated access lies; a host offset at or beyond HWSIZE reaches nothing (R331). -/
def leafLoc (s : State) (f : Nat) (leaf : DWord) (va : Nat) : Option Loc :=
  let pa := leafFrame leaf (va / 65536) + va % 65536
  if pa / 2 ^ 48 ≤ 1 then some (.dev pa) else locOfPa s f pa

/-- What an access comes to: a trap, a miss, a page that is not resident, or a place, with the page and whether
the translation holds D = 0. -/
inductive Reach where
  | trap (t : TrapInfo) | miss (page : Nat) | away (page : Nat) | ok (l : Loc) (page : Nat) (clean : Bool)
  deriving DecidableEq, Repr

def reach (s : State) (r : WaveRef) (f : MemForm) (a : Int) : Reach :=
  match stepOne s r f a with
  | some t => .trap t
  | none =>
    let b := f.byte a
    match f.sp with
    | .global =>
      let va := b.toNat
      match translate s r (va / 65536) with
      | .miss => .miss (va / 65536)
      | .bad => .trap (violation (addrDet a))
      | .entry t =>
        if (f.rd && !leafR t.leaf) || (f.wr && !leafW t.leaf) then .trap (violation (addrDet a))
        else if leafMig t.leaf || !leafResident t.leaf then .away (va / 65536)
        else match leafLoc s (s.fnOf r) t.leaf (va + f.size - 1), leafLoc s (s.fnOf r) t.leaf va with
          | none, _ | _, none => .trap (violation (addrDet a))
          | some _, some l => .ok l t.page (!leafD t.leaf)
    | _ => match windowOf s r f b with
      | none => .trap (violation (addrDet a))
      | some (t, o) => .ok (.win t.id o.toNat) 0 false

/-! ### The steps of R136 -/

/-- The traps of a part's lanes: each lane's lowest failing element; in a uniform form every lane of E. -/
def lanesOf (uni : Bool) (c : Ctx) (xs : List (Nat × TrapInfo)) : List (Nat × TrapInfo) :=
  match xs with
  | [] => []
  | x :: _ => bif uni then inLanes c.e x.2
    else (List.range 64).filterMap fun l => xs.find? fun y => y.1 == l

/-- The failures of a part's elements at step 1, the pages it lacks, and its failures at steps 2 and 3. -/
def fails1 (s : State) (f : MemForm) (uni : Bool) (c : Ctx) (xs : List Elem) : List (Nat × TrapInfo) :=
  match c.ref with
  | none => []
  | some r => lanesOf uni c (xs.filterMap fun x => (stepOne s r f x.a).map fun t => (x.l, t))

def missing (s : State) (f : MemForm) (c : Ctx) (xs : List Elem) : List Nat :=
  match c.ref with
  | none => []
  | some r => (xs.filterMap fun x => match reach s r f x.a with
      | .miss p => some p
      | _ => none).dedup

def fails3 (s : State) (f : MemForm) (uni : Bool) (c : Ctx) (xs : List Elem) : List (Nat × TrapInfo) :=
  match c.ref with
  | none => []
  | some r => lanesOf uni c (xs.filterMap fun x => match reach s r f x.a with
      | .trap t => some (x.l, t)
      | _ => none)

/-- The lanes of E of a part park on a miss, and the walks of the issue's pages begin. -/
def parkMiss (pages : List Nat) (s : State) (c : Ctx) : State :=
  match c.ref with
  | none => s
  | some r =>
    if c.e = 0 then s else
    let co := s.coreOf r
    let f := s.fnOf r
    let s := (s.onLanes r c.e (Lane.park .miss)).modWave r fun w => { w with misses := pages, walked := w.walked }
    pages.foldl (fun (s : State) p =>
      let w : Walk := { core := co, fn := f, page := p }
      bif s.walks.contains w then s else { s with walks := s.walks ++ [w] }) s

/-- The access has its translations: what walks left for it is used up. -/
def dropWalked (s : State) (c : Ctx) : State :=
  match c.ref with
  | some r => s.modWave r fun w => { w with walked := [] }
  | none => s

/-- Steps 1 to 4 of R136 over all parts of the issue; `act` performs a part. `chk` are the elements that trap,
`look` those that are translated first, and `pre` what is checked before step 1. -/
def runMem (h : Head) (f : MemForm) (uni : Bool) (pre : State → Ctx → List (Nat × TrapInfo))
    (chk look : Ctx → List Elem) (act : Issue → Ctx → State → State) (s : State) : Host.Outcome State Fault Refusal :=
  match s.issue with
  | none => .fault .noIssue
  | some i =>
    let cs := contexts s i h
    let rest := cs.foldl (fun s c => bif c.ref.isSome then advance s i c (c.iss &&& ~~~c.e) else s) s
    let bad0 := cs.map fun c => (c, pre s c)
    let bad1 := cs.map fun c => (c, fails1 s f uni c (chk c))
    let pages := (cs.flatMap fun c => missing s f c (look c)).dedup
    let bad3 := cs.map fun c => (c, fails3 s f uni c (chk c))
    if bad0.any fun x => !x.2.isEmpty then .next (raiseAll rest bad0)
    -- with an element that fails step 1 there is no walk, and every failing element counts (step 4)
    else if bad1.any fun x => !x.2.isEmpty then .next (raiseAll (cs.foldl dropWalked rest) bad3)
    else if !pages.isEmpty then .next (cs.foldl (parkMiss pages) rest)
    else if bad3.any fun x => !x.2.isEmpty then .next (raiseAll (cs.foldl dropWalked rest) bad3)
    else .next (cs.foldl (fun s c => act i c s) s)

/-! ### Performing a part (R136 steps 4 and 5) -/

/-- The lanes that park on migration, each with the page of its lowest element that is away; its other pages migrate when it
has come back (R136, log 118). -/
def awayLanes (uni : Bool) (c : Ctx) (xs : List (Elem × Reach)) : List (Nat × Nat) :=
  let ys := xs.filterMap fun x => match x.2 with
    | .away p => some (x.1.l, p)
    | _ => none
  match ys with
  | [] => []
  | y :: _ => bif uni then c.e.lanes.map fun l => (l, y.2)
    else ys.foldl (fun a z => bif a.any (·.1 == z.1) then a else a ++ [z]) []

def parkAway (s : State) (r : WaveRef) (gone : List (Nat × Nat)) : State :=
  let f := s.fnOf r
  gone.foldl (fun s x =>
    startMigration (s.onLanes r (Mask.put 0 x.1 true) (Lane.park (.migration f x.2))) (s.standOf r) f x.2 true) s

def laneSet (ls : List Nat) : Mask := ls.foldl (fun m l => Mask.put m l true) 0

/-- Meter domain, class and line of a place, for an access from a core: a device line may be found in the core's grove
cache (R146, R249, log 91). -/
def lineOf (s : State) (core : Nat) : Loc → (Nat × Nat) × Nat × Nat
  | .dev pa => (bif Config.groveHit s.turns (pa / 64) then (coreDom core, 8) else (locDom (.dev pa), locCls (.dev pa)), 0, pa / 64)
  | .host a => ((locDom (.host a), locCls (.host a)), 0, a / 64)
  | .win t o => ((coreDom core, 7), t, o / 64)

/-- The charges of an access: each 64-byte line touched counts once (R146). -/
def chargeLines (s : State) (f core : Nat) (ls : List Loc) : State := chargeKeys s f (ls.map (lineOf s core))

/-- The charges of a part's accesses: a line that an earlier part of the issue has touched counts no more (R146). -/
def chargeFresh (s : State) (f : Nat) (line : Loc → (Nat × Nat) × Nat × Nat) (ls : List Loc) : State :=
  let done := (s.issue.map (·.lines)).getD []
  let fresh := (ls.map line).filter fun k => !done.contains k
  { chargeKeys s f fresh with issue := s.issue.map fun i => { i with lines := i.lines ++ fresh.dedup } }

/-- A part's accesses from a core. -/
def chargeIssueLines (s : State) (f core : Nat) (ls : List Loc) : State := chargeFresh s f (lineOf s core) ls

/-- Zeros that the policies ask for in elements that are not active (R29), in `words` registers for each. -/
def zeroInactive (c : Ctx) (rd words : Nat) : Regs :=
  c.elems.foldl (fun r e => match c.kind e with
    | .zeroed => (List.range words).foldl (fun r j => r.setV (rd + j + e / c.w) (e % c.w) 0) r
    | _ => r) c.r

/-- An access that may be performed: the element and its place. -/
abbrev Placed := Elem × Loc

/-- The elements that are performed: those in place, of lanes that have not parked. -/
def placed (gm : Mask) (xs : List (Elem × Reach)) : List Placed :=
  xs.filterMap fun x => match x.2 with
    | .ok l _ _ => bif gm.has x.1.l then none else some (x.1, l)
    | _ => none

/-- D is set in the leaves of pages whose translation holds D = 0 (R270). -/
def markDirty (s : State) (f : Nat) (gm : Mask) (xs : List (Elem × Reach)) : State :=
  ((xs.filterMap fun x => match x.2 with
    | .ok (.win ..) _ _ => none
    | .ok _ p true => bif gm.has x.1.l then none else some p
    | _ => none).dedup).foldl (fun s p => setDirty s f p) s

/-- The charges of an atomic: each element's line (R282). -/
def chargeEach (s : State) (f core : Nat) (ls : List Loc) : State :=
  { s with charges := s.charges ++ ls.flatMap fun l =>
      let k := lineOf s core l
      chargeOf s f k.1.1 k.1.2 1 }

/-- Where an access is charged: a staged write goes to its team's staging area, in the scratchpad outside the window
(R299, R325), and is charged again when its ring unit releases it. -/
def chargedAt (s : State) (r : WaveRef) (write : Bool) (l : Loc) : Loc :=
  let staged := write && !l.isWin && ((s.team? r.team).any (State.isDet s)) && ((s.wave? r).any fun w => w.save == .no)
  bif staged then .win r.team (2 ^ 20 + l.addr) else l

/-- A part's steps 4 and 5: lanes park on migration or on a full counter, and the others are performed.
`idle` gives the registers when nothing is performed. -/
def memPart (f : MemForm) (uni : Bool) (ctr : Ctr) (elems : Ctx → List Elem) (idle : Ctx → Regs)
    (perform : State → WaveRef → Ctx → List Placed → State) (i : Issue) (c : Ctx) (s : State) : State :=
  match c.ref with
  | none => advance s i c c.iss
  | some r =>
    let xs := (elems c).map fun x => (x, reach s r f x.a)
    let s := dropWalked s c
    let gone := awayLanes uni c xs
    let gm := laneSet (gone.map (·.1))
    let s := parkAway s r gone
    let c' := { c with e := c.e &&& ~~~gm }
    let ok := placed gm xs
    if ok.isEmpty then advance (putRegs s c' (idle c')) i c (c.iss &&& ~~~gm)
    else if ((s.wave? r).map (·.ctr ctr)).getD 0 ≥ 63 then
      advance (s.onLanes r c'.e (Lane.park (.full ctr))) i c (c.iss &&& ~~~c.e)
    else
      let s := bif f.wr then markDirty s (s.fnOf r) gm xs else s
      let s := (bif f.rd && f.wr then chargeEach else chargeIssueLines) s (s.fnOf r) (s.coreOf r)
        (ok.map fun x => chargedAt s r (f.wr && !f.rd) x.2)
      advance (perform s r c' ok) i c (c.iss &&& ~~~gm)

/-! ### Loads (R138, R140) -/

/-- The elements of a load: data for those performed, zeros where the policies ask for them. -/
def loadElems (c : Ctx) (rd words : Nat) (cv : Elem → Conv) (ok : List Placed) : List LdElem :=
  c.elems.flatMap fun e => (List.range words).filterMap fun j =>
    let dst := LdDst.v (rd + j + e / c.w) (e % c.w)
    match c.kind e with
    | .active => (ok.find? fun x => x.1.e == e).map fun x => { dst := dst, src := .mem (x.2.add (4 * j)) (cv x.1) }
    | .zeroed => some { dst := dst, src := .known 0 }
    | .untouched => none

/-- A lane's region anchor, as an offset from the entry header (R22). -/
def laneAnchor (s : State) (r : WaveRef) (lane : Nat) : Word :=
  offsetOf (s.entryOf r) (((s.wave? r).bind fun w => w.lanes[lane]?).getD {}).anchor

/-- A load goes out, counted on LD. -/
def sendLoad (s : State) (r : WaveRef) (p : PendLoad) : State :=
  let id := s.nextId
  countOp (s.fresh.modWave r fun w => { w with loads := w.loads ++ [{ p with id := id }] }) r .ld id

/-- A vector load of `words` words of `size` bytes. -/
def runLoad (h : Head) (o : VMem) (size words : Nat) (nib : Bool) (cv : MemForm → Elem → Conv) (s : State) :
    Host.Outcome State Fault Refusal :=
  let f : MemForm := { sp := o.m.sp, size := size, nib := nib, rd := true, wr := false }
  runMem h f false (fun _ _ => []) (memElems o.m nib) (memElems o.m nib)
    (memPart f false .ld (memElems o.m nib) (fun c => zeroInactive c o.rd.toNat words)
      fun s r c ok => sendLoad s r { id := 0, elems := loadElems c o.rd.toNat words (cv f) ok }) s

def execLdB32 (h : Head) (o : VMem) (s : State) := runLoad h o 4 1 false (fun _ _ => .word) s
def execLdI8 (h : Head) (o : VMem) (s : State) := runLoad h o 1 1 false (fun _ _ => .sext8) s
def execLdN8 (h : Head) (o : VMem) (s : State) := runLoad h o 1 1 false (fun _ _ => .zext8) s
def execLdF16 (h : Head) (o : VMem) (s : State) := runLoad h o 2 1 false (fun _ _ => .zext16) s
def execLdB4 (h : Head) (o : VMem) (s : State) := runLoad h o 1 1 true (fun f x => .nibble (f.hi x.a)) s
def execLdW2 (h : Head) (o : VMem) (s : State) := runLoad h o 8 2 false (fun _ _ => .word) s
def execLdW4 (h : Head) (o : VMem) (s : State) := runLoad h o 16 4 false (fun _ _ => .word) s

/-- A uniform load of `words` words (R142). -/
def runLds (h : Head) (o : UMem) (words : Nat) (s : State) : Host.Outcome State Fault Refusal :=
  let f : MemForm := { sp := o.m.sp, size := 4 * words, rd := true, wr := false }
  runMem h f true (fun _ _ => []) (uniElems o.m) (uniElems o.m)
    (memPart f true .ld (uniElems o.m) (·.r) fun s r _ ok =>
      sendLoad s r { id := 0, elems := ok.flatMap fun x => (List.range words).map fun j =>
        { dst := .s (o.rd.toNat + j), src := .mem (x.2.add (4 * j)) .word } }) s

def execLdsB32 (h : Head) (o : UMem) (s : State) := runLds h o 1 s
def execLdsW2 (h : Head) (o : UMem) (s : State) := runLds h o 2 s

/-! ### First-fault loads (R143) -/

/-- The lowest active element above the first that fails steps 1 to 3, or whose page is away. -/
def firstFault (xs : List (Elem × Reach)) : Option (Elem × Reach) :=
  (xs.drop 1).find? fun x => match x.2 with
    | .ok .. => false
    | _ => true

/-- A part's steps. One migration starts at most for the part, which is a wave's in an issue of several (R143, log 115): that
of the lowest active element's page, or else that of the element which cuts the load short. -/
def ffPart (f : MemForm) (m : MemOp) (rd : Nat) (cv : Conv) (i : Issue) (c : Ctx) (s : State) : State :=
  match c.ref with
  | none => advance s i c c.iss
  | some r =>
    let xs := (memElems m false c).map fun x => (x, reach s r f x.a)
    if xs.isEmpty then advance s i c c.iss else
    let s := dropWalked s c
    let fn := s.fnOf r
    let gone := awayLanes false c (xs.take 1)
    let gm := laneSet (gone.map (·.1))
    let s := parkAway s r gone
    let cut := firstFault xs
    let vl := match cut with
      | some x => x.1.e
      | none => c.r.vl
    let c' := { c with e := c.e &&& ~~~gm, vl := min c.vl vl, r := { c.r with vl := vl } }
    let ok := (placed gm xs).filter fun x => x.1.e < c'.vl
    if !ok.isEmpty && ((s.wave? r).map (·.ctr .ld)).getD 0 ≥ 63 then
      advance (s.onLanes r c'.e (Lane.park (.full .ld))) i c (c.iss &&& ~~~c.e)
    else
      let s := match cut with
        | some (_, .away p) => bif gone.isEmpty then startMigration s (s.standOf r) fn p true else s
        | _ => s
      let s := bif ok.isEmpty then putRegs s c' (zeroInactive c' rd 1)
        else
          let s := chargeIssueLines s fn (s.coreOf r) (ok.map (·.2))
          sendLoad (putRegs s c' c'.r) r { id := 0, elems := loadElems c' rd 1 (fun _ => cv) ok }
      advance s i c (c.iss &&& ~~~gm)

def runFf (h : Head) (o : VMem) (size : Nat) (cv : Conv) (s : State) : Host.Outcome State Fault Refusal :=
  let f : MemForm := { sp := o.m.sp, size := size, rd := true, wr := false }
  runMem h f false (fun _ _ => []) (fun c => (memElems o.m false c).take 1) (memElems o.m false)
    (ffPart f o.m o.rd.toNat cv) s

def execLdFfB32 (h : Head) (o : VMem) (s : State) := runFf h o 4 .word s
def execLdFfN8 (h : Head) (o : VMem) (s : State) := runFf h o 1 .zext8 s

/-! ### Stores (R138, R140) -/

/-- A store goes out, counted on ST, with its data, its lowest lane, which a record of its fault names, and that lane's anchor
(R137, log 114). -/
def sendStore (s : State) (r : WaveRef) (lane : Nat) (teamRel : Bool) (es : List StElem) : State :=
  let id := s.nextId
  countOp (s.fresh.modWave r fun w => { w with stores := w.stores ++
    [{ id := id, elems := es, anchor := laneAnchor s r lane, lane := lane, teamRel := teamRel
       direct := (((s.wave? r).bind fun w => w.lanes[lane]?).getD {}).mode == .save }] }) r .st id

def lowLane (ok : List Placed) : Nat := ((ok.map fun x => x.1.l).min?).getD 0

/-- A vector store; `val` gives the bytes of an element. -/
def runStore (h : Head) (o : VMem) (size : Nat) (nib : Bool) (val : MemForm → Ctx → Nat → Elem → StVal) (s : State) :
    Host.Outcome State Fault Refusal :=
  let f : MemForm := { sp := o.m.sp, size := size, nib := nib, rd := false, wr := true }
  runMem h f false (fun _ _ => []) (memElems o.m nib) (memElems o.m nib)
    (memPart f false .st (memElems o.m nib) (·.r) fun s r c ok =>
      sendStore s r (lowLane ok) false (ok.map fun x => { loc := x.2, val := val f c o.rd.toNat x.1 })) s

/-- The low `n` bytes of the register's element, and `words` registers' words. -/
def storeLow (n : Nat) (_ : MemForm) (c : Ctx) (rd : Nat) (x : Elem) : StVal := .bytes (leBytes n (c.r.elem rd x.e).toNat)
def storeWords (words : Nat) (_ : MemForm) (c : Ctx) (rd : Nat) (x : Elem) : StVal :=
  .bytes ((List.range words).flatMap fun j => leBytes 4 (c.r.elem (rd + j) x.e).toNat)
def storeNibble (f : MemForm) (c : Ctx) (rd : Nat) (x : Elem) : StVal :=
  .nibble (f.hi x.a) ((c.r.elem rd x.e).extractLsb' 0 4)

def execStB32 (h : Head) (o : VMem) (s : State) := runStore h o 4 false (storeLow 4) s
def execStN8 (h : Head) (o : VMem) (s : State) := runStore h o 1 false (storeLow 1) s
def execStF16 (h : Head) (o : VMem) (s : State) := runStore h o 2 false (storeLow 2) s
def execStB4 (h : Head) (o : VMem) (s : State) := runStore h o 1 true storeNibble s
def execStW2 (h : Head) (o : VMem) (s : State) := runStore h o 8 false (storeWords 2) s
def execStW4 (h : Head) (o : VMem) (s : State) := runStore h o 16 false (storeWords 4) s

/-- A uniform store of `words` words (R142). -/
def runSts (h : Head) (o : UMem) (words : Nat) (s : State) : Host.Outcome State Fault Refusal :=
  let f : MemForm := { sp := o.m.sp, size := 4 * words, rd := false, wr := true }
  runMem h f true (fun _ _ => []) (uniElems o.m) (uniElems o.m)
    (memPart f true .st (uniElems o.m) (·.r) fun s r c ok =>
      sendStore s r (lowLane ok) false (ok.map fun x => { loc := x.2, val := .bytes ((List.range words).flatMap fun j =>
        leBytes 4 (c.r.getS (o.rd.toNat + j)).toNat) })) s

def execStsB32 (h : Head) (o : UMem) (s : State) := runSts h o 1 s
def execStsW2 (h : Head) (o : UMem) (s : State) := runSts h o 2 s

/-! ### Full/empty forms (R25, R144) -/

inductive FeKind where
  | load | store | fill | clear
  deriving DecidableEq, Repr

/-- A lane parks on a word for a state, first or last in the word's order. -/
def feParkLane (s : State) (q : Nat × Nat × Nat) (team off : Nat) (full first : Bool) : State :=
  let s := s.modTeam team fun t =>
    let w := t.feWord off
    t.setFe { w with queue := bif first then q :: w.queue else w.queue ++ [q] }
  s.onLanes ⟨q.1, q.2.1⟩ (Mask.put 0 q.2.2 true) (Lane.park (.word team off full))

/-- `ld.sync` or `st.sync` of one lane: its word must be in the state `full` and, if reserved, be reserved for it.
On success `act` runs, the word changes state and the lane moves on; otherwise the lane parks. -/
def feSync (i : Issue) (q : Nat × Nat × Nat) (team off : Nat) (full : Bool) (act : State → State) (s : State) : State :=
  match s.team? team with
  | none => s
  | some t =>
    let w := t.feWord off
    if w.reserved.isSome && w.reserved != some q then feParkLane s q team off full false
    else
      let mine := w.reserved.isSome
      let s := s.modTeam team fun t => t.setFe { w with reserved := none }
      if w.full = full then
        (setFull (act s) team off (!full)).onLanes ⟨q.1, q.2.1⟩ (Mask.put 0 q.2.2 true) (Lane.advance i.len)
      else wakeFe (feParkLane s q team off full mine) team off w.full

/-- One lane's full/empty operation. -/
def feStep (k : FeKind) (i : Issue) (r : WaveRef) (c : Ctx) (rd : Nat) (s : State) (x : Placed) : State :=
  match x.2 with
  | .win team off =>
    let q := (r.team, r.wave, x.1.l)
    let m := Mask.put 0 x.1.l true
    let data := c.r.elem rd x.1.e
    match k with
    | .load => feSync i q team off true (fun s =>
        s.modWave r fun w => { w with regs := w.regs.setV rd x.1.l (readWord s (.win team off)) }) s
    | .store => feSync i q team off false (fun s => writeWord s (.win team off) data) s
    | .fill => (setFull (writeWord s (.win team off) data) team off true).onLanes r m (Lane.advance i.len)
    | .clear => (setFull s team off false).onLanes r m (Lane.advance i.len)
  | _ => s

def fePart (k : FeKind) (f : MemForm) (m : MemOp) (rd : Nat) (i : Issue) (c : Ctx) (s : State) : State :=
  match c.ref with
  | none => advance s i c c.iss
  | some r =>
    if c.e = 0 then advance s i c c.iss else
    let ok := placed 0 ((memElems m false c).map fun x => (x, reach s r f x.a))
    let busy := laneSet (ok.map fun x => x.1.l)
    -- the form releases at its scope before it acts (R144, R288)
    let s := performAll s r
    let s := bif k == .load then putRegs s c (zeroInactive c rd 1) else s
    let s := ok.foldl (feStep k i r c rd) (advance s i c (c.iss &&& ~~~busy))
    let did := ok.filter fun x => !(match x.2 with
      | .win team off => awaits s team off (k == .load) (r.team, r.wave, x.1.l)
      | _ => false)
    chargeIssueLines s (s.fnOf r) (s.coreOf r) (did.map (·.2))

def runFe (k : FeKind) (h : Head) (m : MemOp) (rd : Nat) (s : State) : Host.Outcome State Fault Refusal :=
  let f : MemForm := { sp := m.sp, size := 4, rd := false, wr := false }
  runMem h f false (fun _ _ => []) (memElems m false) (memElems m false) (fePart k f m rd) s

def execLdSync (h : Head) (o : VMem) (s : State) := runFe .load h o.m o.rd.toNat s
def execStSync (h : Head) (o : VMem) (s : State) := runFe .store h o.m o.rd.toNat s
def execStFill (h : Head) (o : VMem) (s : State) := runFe .fill h o.m o.rd.toNat s
def execFeClr (h : Head) (m : MemOp) (s : State) := runFe .clear h m 0 s

/-! ### Prefetch (R145) -/

/-- The fast-tier lines that the elements of a prefetch bring into the grove cache; an element that fails is dropped. -/
def pfLines (s : State) (r : WaveRef) (xs : List Elem) : List Loc :=
  (xs.filter fun x => 0 ≤ x.a).filterMap fun x => match findVa s (s.fnOf r) x.a.toNat with
    | .at_ _ l => bif locCls l == 9 then some l else none
    | _ => none

/-- The lines come at the DRAM weight, each once in the issue (R146); level 1 starts the migration of valid pages that are not
resident. -/
def pfPart (lvl : Nat) (m : MemOp) (i : Issue) (c : Ctx) (s : State) : State :=
  let s := match c.ref with
    | some r =>
      let xs := memElems m false c
      let s := chargeFresh s (s.fnOf r) directLine (pfLines s r xs)
      if lvl = 1 then
        ((xs.filter fun (x : Elem) => (0 : Int) ≤ x.a && x.a < 2 ^ 56).map fun x => x.a.toNat / 65536).dedup.foldl
          (fun s p => match findVa s (s.fnOf r) (p * 65536) with
            | .away _ => startMigration s (s.standOf r) (s.fnOf r) p true
            | _ => s) s
      else s
    | none => s
  advance s i c c.iss

def execPf (h : Head) (o : PfOp) (s : State) :=
  runEach h (fun _ _ => []) (pfPart o.lvl.toNat o.m) s

end Sys2Proof.Machine
end

