-- ==== Sys2Proof/Machine/MemEvents.lean ====
section
/-! DEFINITION. What happens to accesses after their issue: data arriving, stores retiring, walks ending and pages
arriving in the other tier (02 R32; 08 R136 to R138; 18 R270 to R272). -/
namespace Sys2Proof.Machine

/-- The data of load `k` arrives (R138). -/
def execLoadComplete (w : WaveRef) (k : Nat) (s : State) : Host.Outcome State Fault Refusal :=
  .next (completeLoad s w k)

/-- The wave's oldest store is performed and retires; `failed` is a write error where it is performed (R32, R137). -/
def execStoreRetire (w : WaveRef) (failed : Bool) (s : State) : Host.Outcome State Fault Refusal :=
  .next (retireStore s w failed)

/-! ### Walks (R136, R270) -/

/-- Put an entry at the end of a TLB of `n` entries; the oldest leaves. -/
def tlbPut (n : Nat) (t : Tlb) (ts : List Tlb) : List Tlb :=
  let ts := (ts.filter fun x => !(x.fn == t.fn && x.page == t.page)) ++ [t]
  ts.drop (ts.length - n)

/-- What the walk of a page yields: the grove TLB's entry, or a walk of the tables. -/
def walkFor (s : State) (grove f page : Nat) : Option Tlb :=
  match ((alGet s.groveTlb grove).getD []).find? fun t => t.hits f page with
  | some t => some t
  | none => (walk s f page).map fun x => { fn := f, page := page, leaf := x.2 }

/-- The walk's result reaches the waves that await it; a wave that awaits no more has its lanes runnable again. -/
def Wave.walkDone (t : Tlb) (ok : Bool) (page : Nat) (w : Wave) : Wave :=
  if w.misses.contains page then
    let w := { w with misses := w.misses.filter (· != page), walked := w.walked ++ [(t, ok)] }
    bif w.misses.isEmpty then
      { w with lanes := w.lanes.map fun l => bif l.run == .parked .miss then l.unpark else l }
    else w
  else w

/-- A walk's reads are charged to the function whose page it is, each line by itself (R248, R249). -/
def chargeWalk (s : State) (w : Walk) : State :=
  chargeEach s w.fn w.core ((walkReads s w.fn w.page).filterMap (locOfPa s w.fn))

/-- A walk's result reaches the engine's commands that await it. -/
def Core.walkDone (k : Walker) (t : Tlb) (ok : Bool) (page : Nat) (c : Core) : Core :=
  match k with
  | .lanes => c
  | .matrix => { c with matrix := c.matrix.map fun x => bif x.by_.fn == t.fn && x.misses.contains page then
      { x with misses := x.misses.filter (· != page), walked := x.walked ++ [(t, ok)] } else x }
  | .access => { c with access := c.access.map fun x => bif x.by_.fn == t.fn && x.misses.contains page then
      { x with misses := x.misses.filter (· != page), walked := x.walked ++ [(t, ok)] } else x }

/-- The TLB that a walk fills takes an entry. -/
def Core.fill (k : Walker) (t : Tlb) (c : Core) : Core :=
  match k with
  | .lanes => { c with tlb := tlbPut 64 t c.tlb }
  | .matrix => { c with mxTlb := tlbPut 64 t c.mxTlb }
  | .access => { c with apTlb := tlbPut 64 t c.apTlb }

/-- Each stand's walker runs 64 walks at once, in the order of their misses; an entry that is not valid, or whose
page is moving, is not held. An engine's TLB holds 64 entries too (log 99). -/
def execPageWalkComplete (k : Nat) (s : State) : Host.Outcome State Fault Refusal :=
  match s.walks[k]? with
  | none => .next s
  | some w =>
    if 64 ≤ (s.walks.take k).countP fun x => coreStand x.core == coreStand w.core then .next s else
    let s := { s with walks := s.walks.eraseIdx k }
    let grove := w.core / 16
    let found := walkFor s grove w.fn w.page
    let s := bif ((alGet s.groveTlb grove).getD []).any fun t => t.hits w.fn w.page then s else chargeWalk s w
    let t := found.getD { fn := w.fn, page := w.page, leaf := 0 }
    let s := match found with
      | some t =>
        if leafMig t.leaf then s
        else
          let s := s.modCore w.core (Core.fill w.for_ t)
          { s with groveTlb := alSet grove (tlbPut 1024 t ((alGet s.groveTlb grove).getD [])) s.groveTlb }
      | none => s
    let s := s.modCore w.core (Core.walkDone w.for_ t found.isSome w.page)
    .next { s with teams := s.teams.map fun x => bif w.for_ == .lanes && x.core == w.core && x.fn == w.fn
      then { x with waves := x.waves.map (Wave.walkDone t found.isSome w.page) } else x }

/-! ### Migration (R271, R272) -/

/-- A location lies in a 64 KiB frame. -/
def Loc.inFrame (frame : Nat) : Loc → Bool
  | .dev pa => pa / 65536 == frame / 65536
  | .host _ | .win .. => false

/-- The wave has an access in flight that was translated to the frame (step 2). -/
def Wave.uses (frame : Nat) (w : Wave) : Bool :=
  (w.loads.any fun p => p.elems.any fun e => match e.src with
    | .mem l _ | .atom l _ _ _ => l.inFrame frame
    | .known _ => false)
  || (w.stores.any fun p => p.elems.any fun e => e.loc.inFrame frame)

/-- Accesses translated to the frame are outstanding: a wave's, or a copy's whose current row has been translated (R276). -/
def frameBusy (s : State) (frame : Nat) : Bool :=
  s.teams.any (fun t => t.waves.any (Wave.uses frame))
    || s.cores.any fun c => c.access.any fun x => x.trans.any fun y => y.2.inFrame frame

/-- Move the cells of a frame to another place: the copy of a page. -/
def copyFrame (m : List Host.Cell) (src dst : Nat) : List Host.Cell :=
  let m' := m.filter fun c => c.1 / 65536 != dst / 65536
  (m.filter fun c => c.1 / 65536 == src / 65536).foldl (fun m c => writeCell (dst + c.1 % 65536) c.2 m) m'

/-- The frame that the fault unit takes: on its stand's home stack where the pool has one there (step 3; log 9). -/
def pickFrame (s : State) (up : Bool) (stand : Nat) (pool : List Nat) : Option Nat :=
  let home := pool.filter fun p => up && p / 2 ^ 36 == stand
  pickOf s (bif home.isEmpty then pool else home)

/-- A lane that was parked on the page's migration resumes at its anchor (R22), runnable. -/
def Lane.resume (f page : Nat) (l : Lane) : Lane :=
  bif l.run == .parked (.migration f page) then { l with run := .runnable, pc := l.anchor, pos := .atHeader } else l

/-- The migration that a `bmac` entry awaits has ended. -/
def BmacEnt.ended (page : Nat) (lost : Bool) (e : BmacEnt) : BmacEnt :=
  { e with wait := none, lost := bif lost then e.lost ++ [page] else e.lost }

/-- Engines and units that await the page go on, or see that its migration has failed. -/
def State.onWaits (s : State) (f page : Nat) (lost : Bool) : State :=
  let hit := fun (w : Option Nat) (g : Nat) => g == f && w == some page
  let w' : Option Nat := bif lost then some page else none
  let onInv := fun (x : Inv) => bif hit x.wait x.fn then { x with wait := w', lost := lost } else x
  let onTask := fun (g : Nat) (x : Task) => bif hit x.wait g then { x with wait := w', lost := lost } else x
  let cmdFn := fun (id : Nat) => ((s.rootCmds.find? fun c => c.id == id).map (·.by_.fn)).getD 0
  { s with
    cores := s.cores.map fun c => { c with
      matrix := c.matrix.map fun x => bif hit x.wait x.by_.fn then { x with wait := w', lost := lost, state := .running } else x
      access := c.access.map fun x => bif hit x.wait x.by_.fn then { x with wait := w', lost := lost } else x }
    bagCmds := s.bagCmds.map fun x => bif hit x.wait x.by_.fn then { x with wait := w', lost := lost } else x
    units := s.units.map fun u => { u with
      invs := u.invs.map onInv
      bmacs := u.bmacs.map fun e => bif hit e.wait (cmdFn e.cmd) then e.ended page lost else e }
    launches := s.launches.map fun l => { l with tasks := l.tasks.map (onTask l.fn) }
    collects := s.collects.map fun c => bif hit c.wait c.fn then { c with wait := w', lost := lost } else c
    saved := s.saved.map fun v => bif hit v.wait v.team.fn then { v with wait := w', lost := lost } else v }

/-- Step 5: every waiter goes on. -/
def wakeMigrated (s : State) (f page : Nat) : State :=
  let s := s.onWaits f page false
  { s with teams := s.teams.map fun t => { t with waves := t.waves.map fun w =>
      { w with lanes := w.lanes.map (Lane.resume f page) } } }

/-- A failed migration: waiting lanes raise a precise trap at their access, waiting units treat the page as
unmapped (R272). -/
def failMigrated (s : State) (f page : Nat) : State :=
  let s := s.onWaits f page true
  let hit := (allRefs s).map fun r => (r, ((s.wave? r).map (·.lanes)).getD [] |>.zipIdx.filterMap fun x =>
    bif x.1.run == .parked (.migration f page) then some x.2 else none)
  let s := hit.foldl (fun s x =>
    let s := s.onLanes x.1 (laneSet x.2) Lane.unpark
    takeTraps s (x.2.map fun l => (x.1, l, { cause := 0x0D, det := 65536 * page }))) s
  (s.units.filter fun u => u.invs.head?.any fun v => v.lost).foldl (fun s u => rootFault s u.id 2 0) s
where
  allRefs (s : State) : List WaveRef :=
    s.teams.flatMap fun t => (List.range t.waves.length).map fun i => ⟨t.id, i⟩

/-- The leaf after a migration: the new frame, MIG clear. -/
def movedLeaf (leaf : DWord) (pa : Nat) : DWord :=
  BitVec.ofNat 64 (leaf.toNat / 2 ^ 52 * 2 ^ 52 + bits pa 51 16 * 65536) |> fun x => setBit64 x 56 false

/-- The new frame leaves its pool; the old one joins the pool of its tier, unless it is retired (R271, R342). -/
def swapFrames (retired : List Nat) (up : Bool) (old new : Nat) (f : Fn) : Fn :=
  let f := bif up then { f with fast := f.fast.erase new } else { f with slow := f.slow.erase new }
  if retired.contains (old / 65536) then f
  else bif old / 2 ^ 48 == 0 then { f with fast := f.fast ++ [old] } else { f with slow := f.slow ++ [old] }

/-- Staged writes follow their page to its new frame: a staging area holds them for the pages that they name (R299). -/
def Staged.follow (old new : Nat) : Staged → Staged
  | .store w a l o e => .store w a l o (match e.loc with
      | .dev pa => bif pa / 65536 == old / 65536 then { e with loc := .dev (new + pa % 65536) } else e
      | _ => e)
  | x => x

def followStaged (s : State) (f old new : Nat) : State :=
  let go := fun (t : Team) => bif t.fn == f then { t with staged := t.staged.map (Staged.follow old new) } else t
  { s with teams := s.teams.map go, saved := s.saved.map fun v => { v with team := go v.team } }

/-- The migration's page copy ends; `failed` is an uncorrectable error met by the copy, in some line of the old frame (R342). -/
def execMigrationComplete (k : Nat) (failed : Bool) (s : State) : Host.Outcome State Fault Refusal :=
  match s.migrations[k]? with
  | none => .next s
  | some m =>
    let f := s.fn m.fn
    let old := leafFrame m.leaf m.page
    if frameBusy s old then .next s else
    let s := { s with migrations := s.migrations.eraseIdx k }
    let now := readEntry s m.fn m.leafAt
    let met := s.badLines.filter (fun n => n / 1024 == old / 65536)
      ++ bif failed then [old / 64 + Config.choose s.turns 1024 % 1024] else []
    let s := bif Loc.reachable s (.dev old) then { s with errLines := s.errLines ++ met.dedup } else s
    let bad := !met.isEmpty || !Loc.reachable s (.dev old)
    match pickFrame s m.up m.stand (bif m.up then f.fast else f.slow) with
    | some new =>
      if !bad && Loc.reachable s (.dev new) && now == m.leaf then
        let s := followStaged { s with mem := copyFrame s.mem old new } m.fn old new
        let s := writeEntry s m.fn m.leafAt (movedLeaf m.leaf new)
        let s := s.modFn m.fn (swapFrames (s.retired ++ s.volatileRetired) m.up old new)
        let s := (s.charge m.fn (locDom (.dev old)) (locCls (.dev old)) 1024).charge m.fn
          (locDom (.dev new)) (locCls (.dev new)) 1024
        .next (wakeMigrated (invalidate s m.fn m.page 1) m.fn m.page)
      else .next (failMigrated (clearMig s m now) m.fn m.page)
    | none => .next (failMigrated (clearMig s m now) m.fn m.page)
where
  clearMig (s : State) (m : Migration) (now : DWord) : State :=
    invalidate (bif leafMig now then writeEntry s m.fn m.leafAt (setBit64 now 56 false) else s) m.fn m.page 1

end Sys2Proof.Machine
end

