-- ==== Sys2Proof/Machine/Atomics.lean ====
section
/-! DEFINITION. Atomics, updates, fences and remote promotion (18_memory_movement_and_tiers R280 to R283;
19_consistency R288 to R296, in one order of performed accesses, log 8). -/
namespace Sys2Proof.Machine

def Ord.acquires : Ord → Bool
  | .acquire | .acqRel => true
  | _ => false
def Ord.releases : Ord → Bool
  | .release | .acqRel => true
  | _ => false

/-- The memory operand of an ordered form. -/
def atomMem (o : AtomOp) : MemOp :=
  { sp := o.sp, ix := o.ix, sb := o.sb, disp := match o.disp with
    | none => .short 0
    | some d => .long d }

def atomForm (o : AtomOp) : MemForm := { sp := o.sp, size := 4, rd := true, wr := true }

/-- In a deterministic launch a value-returning atomic above team scope is illegal, reason 12 (R282). -/
def detAtom (o : AtomOp) (s : State) (c : Ctx) : List (Nat × TrapInfo) :=
  bif (ctxLaunch s c).det && o.sco != .wave && o.sco != .team then inLanes c.e (illegal 12) else []

/-- The elements of an atomic: the operation for those performed, zeros where the policies ask for them. -/
def atomElems (c : Ctx) (k : AtomKind) (rd v4 : Nat) (ok : List Placed) : List LdElem :=
  c.elems.filterMap fun e =>
    let dst := LdDst.v (rd + e / c.w) (e % c.w)
    match c.kind e with
    | .active => (ok.find? fun x => x.1.e == e).map fun x =>
        { dst := dst, src := .atom x.2 k (c.r.elem rd e) (bif k == .cas then c.r.elem v4 e else 0) }
    | .zeroed => some { dst := dst, src := .known 0 }
    | .untouched => none

/-- Requests for the lines of an atomic with RMT. -/
def requestPromotion (s : State) (core : Nat) (ok : List Placed) : State :=
  { s with promotions := s.promotions ++ (ok.filterMap fun x => (remoteReleaser s core x.2).bind fun _ => x.2.line).dedup }

/-- A value-returning atomic (R281). -/
def runAtom (k : AtomKind) (h : Head) (o : AtomOp) (s : State) : Host.Outcome State Fault Refusal :=
  let m := atomMem o
  let f := atomForm o
  runMem h f false (detAtom o) (memElems m false) (memElems m false)
    (memPart f false .ld (memElems m false) (fun c => zeroInactive c o.rd.toNat 1) fun s r c ok =>
      let s := bif Ord.releases o.ord then performAll s r else s
      let s := bif o.rmt then requestPromotion s (s.coreOf r) ok else s
      let id := s.nextId
      let s := bif Ord.acquires o.ord then s.modWave r fun w => { w with holdLd := w.holdLd ++ [id] } else s
      sendLoad s r { id := id, elems := atomElems c k o.rd.toNat h.v4 ok, rmt := o.rmt
                     rel := Ord.releases o.ord, team := o.sco == .team
                     anchor := laneAnchor s r (lowLane ok), lane := lowLane ok }) s

def execAtomAdd (h : Head) (o : AtomOp) (s : State) := runAtom .add h o s
def execAtomMinI32 (h : Head) (o : AtomOp) (s : State) := runAtom .minI h o s
def execAtomMinN32 (h : Head) (o : AtomOp) (s : State) := runAtom .minN h o s
def execAtomMaxI32 (h : Head) (o : AtomOp) (s : State) := runAtom .maxI h o s
def execAtomMaxN32 (h : Head) (o : AtomOp) (s : State) := runAtom .maxN h o s
def execAtomAnd (h : Head) (o : AtomOp) (s : State) := runAtom .and h o s
def execAtomOr (h : Head) (o : AtomOp) (s : State) := runAtom .or h o s
def execAtomXor (h : Head) (o : AtomOp) (s : State) := runAtom .xor h o s
def execAtomXchg (h : Head) (o : AtomOp) (s : State) := runAtom .xchg h o s
def execAtomCas (h : Head) (o : AtomOp) (s : State) := runAtom .cas h o s
def execAtomFadd (h : Head) (o : AtomOp) (s : State) := runAtom .fadd h o s

/-- An update: an atomic without a result, counted on ST (R281, R282). -/
def runUpd (k : AtomKind) (h : Head) (o : AtomOp) (s : State) : Host.Outcome State Fault Refusal :=
  let m := atomMem o
  let f := atomForm o
  runMem h f false (fun _ _ => []) (memElems m false) (memElems m false)
    (memPart f false .st (memElems m false) (·.r) fun s r c ok =>
      let rel := Ord.releases o.ord
      let s := bif rel then performAll s r else s
      sendStore s r (lowLane ok) (rel && o.sco == .team)
        (ok.map fun x => { loc := x.2, val := .upd k (c.r.elem o.rd.toNat x.1.e) })) s

def execUpdAdd (h : Head) (o : AtomOp) (s : State) := runUpd .add h o s
def execUpdMinI32 (h : Head) (o : AtomOp) (s : State) := runUpd .minI h o s
def execUpdMinN32 (h : Head) (o : AtomOp) (s : State) := runUpd .minN h o s
def execUpdMaxI32 (h : Head) (o : AtomOp) (s : State) := runUpd .maxI h o s
def execUpdMaxN32 (h : Head) (o : AtomOp) (s : State) := runUpd .maxN h o s
def execUpdAnd (h : Head) (o : AtomOp) (s : State) := runUpd .and h o s
def execUpdOr (h : Head) (o : AtomOp) (s : State) := runUpd .or h o s
def execUpdXor (h : Head) (o : AtomOp) (s : State) := runUpd .xor h o s
def execUpdFadd (h : Head) (o : AtomOp) (s : State) := runUpd .fadd h o s

/-- The wave that asks for the promotion of a line: one with an atomic of it outstanding that has RMT. -/
def promoter (s : State) (line : Nat) : WaveRef :=
  ((wavesOn s none none).find? fun r => (s.wave? r).any fun w => w.loads.any fun p =>
    p.rmt && p.spans.any fun x => x.1.line == some line).getD ⟨0, 0⟩

/-- A core that receives a promotion request performs its pending team-scope releases (R295). -/
def execRemotePromotionRequest (line : Nat) (s : State) : Host.Outcome State Fault Refusal :=
  if s.promotions.contains line then
    let r := promoter s line
    let s := { s with promotions := s.promotions.filter (· != line) }
    match alGet s.lrel line with
    | some p => .next (promoteAs s r (wavesOn s (some p) none))
    | none => .next s
  else .next s

/-- A fence (R283, R296). -/
def execFence (h : Head) (o : FenceOp) (s : State) :=
  runEach h (fun _ _ => [])
    (fun i c s =>
      let s := match c.ref with
        | some r =>
          if c.e = 0 then s else
          let s := bif o.rmt then promoteAs s r (wavesOn s none (some (s.fnOf r))) else s
          let s := bif Ord.releases o.ord then performAll s r else s
          bif Ord.acquires o.ord then s.modWave r fun w => { w with holdLd := w.loads.map (·.id) } else s
        | none => s
      advance s i c c.iss) s

end Sys2Proof.Machine
end

