-- ==== Sys2Proof/Machine/Engine.lean ====
section
/-! DEFINITION. What the engine commands share: sending one (02 R31, R33; 15 R231; 17 R259), its block's checks, and
an engine's reads and writes of global memory and of a team's window (19 R286, R299; 16 R248). -/
namespace Sys2Proof.Machine

/-! ### Issue -/

/-- An instruction that sends a command counted on `ctrs`: with E empty it does nothing; with a counter at 63 the
lanes of E park; otherwise the send is a release for the wave's earlier accesses and `go` runs with the
command's identifier (R31, R33). -/
def cmdPart (ctrs : List Ctr) (go : Nat → WaveRef → Ctx → State → State) (i : Issue) (c : Ctx) (s : State) : State :=
  match c.ref with
  | none => advance s i c c.iss
  | some r =>
    if c.e = 0 then advance s i c c.iss else
    let w := (s.wave? r).getD {}
    match ctrs.find? fun k => 63 ≤ w.ctr k with
    | some k => advance (s.onLanes r c.e (Lane.park (.full k))) i c (c.iss &&& ~~~c.e)
    | none =>
      let id := s.nextId
      let s := (performAll s r).fresh
      let s := ctrs.foldl (fun s k => countOp s r k id) s
      advance (go id r c s) i c c.iss

/-- The bytes of a block in the window as the wave sees them at issue (R139). -/
def windowBlock (s : State) (c : Ctx) (off n : Nat) : List Byte :=
  match c.ref with
  | some r => viewNow s r (.win r.team off) n
  | none => []

/-- A failing field of a block: reason 14, with its offset (R231, R259). -/
def blockField (c : Ctx) (off : Nat) : List (Nat × TrapInfo) := inLanes c.e { cause := 1, rsn := 14, code := off }

/-- The first failing field, in the order of the list. -/
def firstFail (fs : List (Nat × Bool)) : Option Nat := (fs.find? fun f => !f.2).map (·.1)

/-- Window ranges that a block names: the first that does not lie in the window gives an access violation. -/
def rangeTraps (s : State) (c : Ctx) (rs : List (Nat × Nat)) : List (Nat × TrapInfo) :=
  match rs.find? fun r => winSizeOf s c < r.1 + r.2 with
  | some r => inLanes c.e (violation r.1)
  | none => []

/-! ### Global memory -/

/-- A command of a team whose launch is deterministic: its global writes are staged (R299). -/
def issuerDet (s : State) (b : Issuer) : Bool :=
  match s.team? b.team with
  | some t => s.isDet t
  | none => false

/-- Global bytes as an issuer's engine reads them: memory with its team's staged writes over it. -/
def getGlobal (s : State) (b : Issuer) (va n : Nat) : List Byte :=
  let st := ((s.team? b.team).map Team.stagedPieces).getD []
  (List.range n).flatMap fun i => match findVa s b.fn (va + i) with
    | .at_ _ l => overlay s st l 1
    | _ => [emptyByte]

/-- The pieces of `[va, va + n)` by page: address, offset and length. -/
def pageParts (va n : Nat) : List (Nat × Nat × Nat) :=
  (pagesOf va n).map fun p =>
    let lo := max va (65536 * p)
    let hi := min (va + n) (65536 * (p + 1))
    (lo, lo - va, hi - lo)

/-- The pieces of `[va, va + n)` by 64-byte line. -/
def lineParts (va n : Nat) : List (Nat × Nat × Nat) :=
  (List.range (linesOf va n)).map fun i =>
    let lo := max va (64 * (va / 64 + i))
    let hi := min (va + n) (64 * (va / 64 + i + 1))
    (lo, lo - va, hi - lo)

/-- Write global bytes for an issuer: at once, or line by line into its team's staging area (80 bytes a line,
R325). D is set in each page. -/
def putGlobal (s : State) (b : Issuer) (va : Nat) (bs : List Byte) : State :=
  if issuerDet s b then
    (lineParts va bs.length).foldl (fun s p =>
      match findVa s b.fn p.1 with
      | .at_ _ l => stagePiece (setDirty s b.fn (p.1 / 65536)) b 0xFFFFFFFF 0
          { loc := l, val := .bytes ((bs.drop p.2.1).take p.2.2) } 80
      | _ => s) s
  else writeVa s b.fn va bs

/-- The places of a range's bytes, one for each 64-byte line it meets. -/
def rangeLocs (s : State) (f va n : Nat) : List Loc :=
  (List.range (linesOf va n)).filterMap fun i =>
    match findVa s f (max va ((va / 64 + i) * 64)) with
    | .at_ _ l => some l
    | _ => none

/-- Charge lines that an engine reads to an issuer, each at the weight of its tier (R246, R248, R262). -/
def chargeGlobal (s : State) (b : Issuer) (va n : Nat) : State := chargeDirect s b.fn (rangeLocs s b.fn va n)

/-- Charge a window range. -/
def chargeWindow (s : State) (b : Issuer) (core off n : Nat) : State :=
  s.charge b.fn (coreDom core) 7 (linesOf off n)

/-- Charge lines that an engine writes: staged ones go to the staging area, and are charged again at their release
(R325). -/
def chargePut (s : State) (b : Issuer) (core : Nat) (ls : List Loc) : State :=
  if issuerDet s b then s.charge b.fn (coreDom core) 7 ls.dedup.length else chargeDirect s b.fn ls

/-- An uncorrectable error in the range: its first bad address. -/
def badIn (s : State) (f va n : Nat) : Option Nat :=
  (List.range (linesOf va n)).findSome? fun i =>
    let a := max va ((va / 64 + i) * 64)
    match findVa s f a with
    | .at_ _ l => bif l.broken s then some a else none
    | _ => none

/-- A write of bytes of one line fails where it is performed: it cannot be reached, meets a write error in the capacity tier or
host memory, or writes a part of a line that has an uncorrectable error (R137, R334). -/
def lineFails (s : State) (f : Nat) (p : Nat × List Byte) : Bool :=
  match findVa s f p.1 with
  | .at_ _ l => !l.reachable s || (l.mayFail && Config.writeFails s.turns p.1) || (p.2.length != 64 && l.broken s)
  | _ => false

/-! ### Translation (R236, R261, R270) -/

/-- What an engine finds for a range that it reads or writes: nothing in the way, a page whose walk it must await, a page
that is away, or a fault: its cause and address. -/
inductive Access where
  | ok | miss (page : Nat) | park (page : Nat) | fault (cause a : Nat)
  deriving DecidableEq, Repr, Inhabited

/-- The engine holds a page's translation, or a walk for its current unit has found what there is. -/
def held (tlb : List Tlb) (walked : List (Tlb × Bool)) (f page : Nat) : Bool :=
  tlb.any (fun t => t.hits f page) || walked.any fun t => t.1.hits f page

/-- An engine's translation of a range. With translations for all its pages, it goes by what the tables hold now
(log 99). A page whose migration has just failed counts as unmapped (R272). -/
def pagesAccess (s : State) (has : Nat → Bool) (f va n : Nat) (write : Bool) (wait : Option Nat) (lost : Bool) : Access :=
  match (pagesOf va n).find? fun p => lost && wait == some p with
  | some p => .fault 0x0D (65536 * p)
  | none =>
    match (pagesOf va n).find? fun p => !has p && decide (p < 2 ^ 40) with
    | some p => .miss p
    | none => match checkRange s f va n write with
      | .ok => .ok
      | .bad a => .fault 8 a
      | .away p => .park p

/-- An engine's access: the translation of its range, and for a read its lines' errors. -/
def engineAccess (s : State) (has : Nat → Bool) (f va n : Nat) (write : Bool) (wait : Option Nat) (lost : Bool) : Access :=
  match pagesAccess s has f va n write wait lost with
  | .ok => match (bif write then none else badIn s f va n) with
    | some a => .fault 0x10 a
    | none => .ok
  | a => a

/-- Begin the walk of a page for an engine. -/
def walkPage (s : State) (core f page : Nat) (k : Walker) : State :=
  let w : Walk := { core := core, fn := f, page := page, for_ := k }
  bif s.walks.contains w then s else { s with walks := s.walks ++ [w] }

end Sys2Proof.Machine
end

