-- ==== Sys2Proof/Machine/AccessProc.lean ====
section
/-! DEFINITION. The access processor: gathers, copies, scatters, access queues and migration hints
(17_program_row_gather R258 to R262; 18_memory_movement_and_tiers R274 to R279, R285). -/
namespace Sys2Proof.Machine

/-! ### Blocks (R259, R275) -/

structure GthBlk where
  src   : Nat
  nrows : Nat
  rb    : Nat
  ni    : Nat
  flg   : Nat
  idx   : Nat
  dst   : Nat
  sig   : Nat
  row0  : Nat
  deriving DecidableEq, Repr

def gthBlk (b : List Byte) : GthBlk :=
  { src := fieldB b 0 8, nrows := fieldB b 8 4, rb := fieldB b 12 2, ni := fieldB b 14 1, flg := fieldB b 15 1
    idx := fieldB b 16 4, dst := fieldB b 20 4, sig := fieldB b 24 4, row0 := fieldB b 28 4 }

/-- "No signal". -/
def noSig : Nat := 0xFFFFFFFF

def GthBlk.swz (g : GthBlk) : Bool := g.flg % 2 == 1

def GthBlk.fields (g : GthBlk) : List (Nat × Bool) :=
  [(0x00, g.src % 16 == 0 && g.src + g.nrows * g.rb ≤ 2 ^ 56),
   (0x0C, g.rb % 16 == 0 && 16 ≤ g.rb && g.rb ≤ 4096 && (!g.swz || g.rb % 256 == 0)),
   (0x0E, 1 ≤ g.ni && g.ni ≤ 64), (0x0F, g.flg / 2 == 0), (0x10, g.idx % 4 == 0),
   (0x14, g.dst % 16 == 0 && (!g.swz || g.dst % 256 == 0)), (0x18, g.sig % 4 == 0 || g.sig == noSig)]

def GthBlk.ranges (g : GthBlk) : List (Nat × Nat) :=
  [(g.idx, 4 * g.ni), (g.dst, g.rb * g.ni)] ++ bif g.sig == noSig then [] else [(g.sig, 4 * g.ni)]

structure CpyBlk where
  src  : Nat
  dst  : Nat
  rb   : Nat
  nr   : Nat
  sstr : Nat
  dstr : Nat
  sig  : Nat
  spc  : Nat
  zero : Nat
  deriving DecidableEq, Repr

def cpyBlk (b : List Byte) : CpyBlk :=
  { src := fieldB b 0 8, dst := fieldB b 8 8, rb := fieldB b 16 4, nr := fieldB b 20 4, sstr := fieldB b 24 4
    dstr := fieldB b 28 4, sig := fieldB b 32 4, spc := fieldB b 36 1, zero := fieldB b 37 27 }

/-- Source and destination space: 0 global, 1 window, 2 queue. -/
def CpyBlk.ss (g : CpyBlk) : Nat := g.spc % 4
def CpyBlk.ds (g : CpyBlk) : Nat := g.spc / 4 % 4
/-- The rows of a copy: one, or NR for `ap.cp2`. -/
def CpyBlk.rows (g : CpyBlk) (two : Bool) : Nat := bif two then g.nr else 1

def CpyBlk.fields (g : CpyBlk) (two : Bool) : List (Nat × Bool) :=
  let n := g.rows two
  [(0x00, g.src % 4 == 0 && (g.ss != 0 || g.src + (n - 1) * g.sstr + g.rb ≤ 2 ^ 56)),
   (0x08, bif g.ds == 2 then decide (g.dst ≤ 3)
      else g.dst % 4 == 0 && (g.ds != 0 || g.dst + (n - 1) * g.dstr + g.rb ≤ 2 ^ 56)),
   (0x10, g.rb % 4 == 0 && 4 ≤ g.rb && g.rb ≤ (bif two then 2 ^ 16 else 2 ^ 24)),
   (0x14, bif two then 1 ≤ g.nr && g.nr ≤ 65536 else g.nr == 0),
   (0x18, bif two then g.sstr % 4 == 0 else g.sstr == 0),
   (0x1C, bif two then g.dstr % 4 == 0 && (g.ds != 2 || g.dstr == 0) else g.dstr == 0),
   (0x20, g.sig % 4 == 0 || g.sig == noSig),
   (0x24, g.ss ≤ 1 && g.ds ≤ 2 && g.spc / 16 == 0), (0x25, g.zero == 0)]

def CpyBlk.ranges (g : CpyBlk) (two : Bool) : List (Nat × Nat) :=
  let n := g.rows two
  (bif g.ss == 1 then [(g.src, (n - 1) * g.sstr + g.rb)] else [])
    ++ (bif g.ds == 1 then [(g.dst, (n - 1) * g.dstr + g.rb)] else [])
    ++ (bif g.sig == noSig then [] else [(g.sig, 4)])

/-! ### Issue -/

/-- Steps 1 to 4 of R259 for a block of `size` bytes. -/
def apChecks (size : Nat) (fields : List Byte → List (Nat × Bool)) (ranges : List Byte → List (Nat × Nat))
    (sb : UReg) (s : State) (c : Ctx) : List (Nat × TrapInfo) :=
  let off := (c.r.getS sb.toNat).toNat
  let t := winBlockTrap s c off size size
  if !t.isEmpty then t else
  let b := windowBlock s c off size
  match firstFail (fields b) with
  | some x => blockField c x
  | none => rangeTraps s c (ranges b)

/-- Send a command of the access processor. -/
def sendAp (opc size : Nat) (o : AsyOp) (id : Nat) (r : WaveRef) (c : Ctx) (s : State) : State :=
  let b := windowBlock s c (c.r.getS o.sb.toNat).toNat size
  let core := s.coreOf r
  let s := s.charge (s.fnOf r) (coreDom core) 13 1
  let cmd : ApCmd := { id := id, by_ := issuerOf s c, opc := opc, sco := o.sco, blk := b, since := s.cycle }
  s.modCore core fun x => { x with access := x.access ++ [cmd] }

def gthChecks (o : AsyOp) : State → Ctx → List (Nat × TrapInfo) :=
  apChecks 32 (fun b => (gthBlk b).fields) (fun b => (gthBlk b).ranges) o.sb
def cpyChecks (two : Bool) (o : AsyOp) : State → Ctx → List (Nat × TrapInfo) :=
  apChecks 64 (fun b => (cpyBlk b).fields two) (fun b => (cpyBlk b).ranges two) o.sb

def execApGth (h : Head) (o : AsyOp) (s : State) := runEach h (gthChecks o) (cmdPart [.cp] (sendAp 0x332 32 o)) s
def execApSct (h : Head) (o : AsyOp) (s : State) := runEach h (gthChecks o) (cmdPart [.cp] (sendAp 0x333 32 o)) s
def execApCpy (h : Head) (o : AsyOp) (s : State) := runEach h (cpyChecks false o) (cmdPart [.cp] (sendAp 0x330 64 o)) s
def execApCp2 (h : Head) (o : AsyOp) (s : State) := runEach h (cpyChecks true o) (cmdPart [.cp] (sendAp 0x331 64 o)) s

/-! ### Commands in progress -/

/-- The processor's command, if it may go on: it waits for no page and no walk. -/
def apHead (s : State) (core : Nat) : Option ApCmd :=
  ((s.core core).access.find? fun c => c.midUnit || !c.by_.held s).filter fun c =>
    c.misses.isEmpty && (c.wait.isNone || c.lost)

/-- A free processor chooses between the functions whose commands wait (R311). -/
def apChoose (s : State) (core : Nat) : State :=
  let ok := fun (c : ApCmd) => c.midUnit || !c.by_.held s
  let cs := (s.core core).access.filter ok
  match cs.head? with
  | none => s
  | some c =>
    if c.taken then s else
    match chooseFn s (.access core) (cs.map fun x => x.by_.fn).dedup with
    | none => s
    | some (s, f) => s.modCore core fun x =>
        { x with access := (toFront (fun y => ok y && y.by_.fn == f) x.access).modify 0 fun y => { y with taken := true } }

def setAp (s : State) (core : Nat) (c : ApCmd) : State :=
  s.modCore core fun x => { x with access := x.access.map fun y => bif y.id == c.id then c else y }

/-- The command has ended: it leaves the processor and retires on CP (R32, R262). -/
def endAp (s : State) (core : Nat) (c : ApCmd) : State :=
  let s := s.modCore core fun x => { x with access := x.access.filter fun y => y.id != c.id }
  retireOp s ⟨c.by_.team, c.by_.wave⟩ .cp c.id

/-- The command parks on a page, whose migration starts (R261, R276). -/
def parkAp (s : State) (core : Nat) (c : ApCmd) (page : Nat) : State :=
  startMigration
    (setAp s core { c with wait := some page, lost := false, walked := [], sts := c.sts ||| 0x02000000 })
    (coreStand core) c.by_.fn page true

/-- A translation miss delays the command (R261). -/
def missAp (s : State) (core : Nat) (c : ApCmd) (page : Nat) : State :=
  walkPage (setAp s core { c with misses := [page] }) core c.by_.fn page .access

/-- The processor has a page's translation for a command. -/
def apHas (s : State) (core : Nat) (c : ApCmd) : Nat → Bool := held (s.core core).apTlb c.walked c.by_.fn

/-- The command past what it waited for. -/
def ApCmd.fresh (c : ApCmd) : ApCmd := { c with wait := none, lost := false, misses := [], walked := [] }

/-- Status bits of R261. -/
def stsOob : Word := 0x01000000
def stsMig : Word := 0x02000000
def stsErr : Word := 0x04000000

/-- Where chunk `c` of the window row of position `k` stands (R260, R279). -/
def chunkAt (g : GthBlk) (k c : Nat) : Nat :=
  let r := (g.row0 + k) % 2 ^ 32
  g.dst + g.rb * k + 16 * bif g.swz then c ^^^ (r % 16) else c

/-- The index words of a command's current step. -/
def stepIndices (s : State) (c : ApCmd) (g : GthBlk) : List Byte :=
  let t := c.rowI / 8
  readBytes s (.win c.by_.team (g.idx + 32 * t)) (4 * min 8 (g.ni - 8 * t))

/-- The command with the index words of its step, which are read at the step's start (R260). -/
def withIndices (s : State) (c : ApCmd) (g : GthBlk) : ApCmd :=
  bif c.buf.isEmpty then { c with buf := stepIndices s c g } else c

/-- The next position is due; index words are used up at the end of their step. -/
def ApCmd.nextPos (c : ApCmd) : ApCmd :=
  { c.fresh with rowI := c.rowI + 1, chunk := 0, sts := 0, buf := bif (c.rowI + 1) % 8 == 0 then [] else c.buf }

/-- The command's current position ends with a status: its signal word is filled (R260). -/
def endPos (s : State) (core : Nat) (c : ApCmd) (g : GthBlk) (sts : Word) : State :=
  let s := bif g.sig == noSig then s else fillWord s c.by_.team (g.sig + 4 * c.rowI) sts
  bif g.ni ≤ c.rowI + 1 then endAp s core c else setAp s core c.nextPos

/-- Copy chunks of a gather's row from chunk `c.chunk` on, until one cannot be read. The fuel is their number. -/
def gatherChunks (core : Nat) (g : GthBlk) (k x : Nat) : Nat → ApCmd → State → State × ApCmd × Access
  | 0, c, s => (s, c, .ok)
  | n + 1, c, s =>
    let va := g.src + x * g.rb + 16 * c.chunk
    match engineAccess s (apHas s core c) c.by_.fn va 16 false c.wait c.lost with
    | .ok =>
      let s := writeBytes s (.win c.by_.team (chunkAt g k c.chunk)) (getGlobal s c.by_ va 16)
      gatherChunks core g k x n { c with chunk := c.chunk + 1, wait := none, lost := false } s
    | a => (s, c, a)

/-- One position of a gather. Each source line read is charged, the one of an error too, and each 64 bytes written
(R262). -/
def gatherPos (s : State) (core : Nat) (c : ApCmd) (g : GthBlk) : State :=
  let k := c.rowI
  let x := fieldB c.buf (4 * (k % 8)) 4
  let at_ := g.dst + g.rb * k
  let zero := fun (s : State) => chargeWindow (writeBytes s (.win c.by_.team at_) (List.replicate g.rb 0)) c.by_ core at_ g.rb
  let id24 : Word := BitVec.ofNat 32 (x % 2 ^ 24)
  if g.nrows ≤ x then endPos (zero s) core c g (id24 ||| stsOob)
  else
    let from_ := c.chunk
    let va := g.src + x * g.rb + 16 * from_
    let (s, c, a) := gatherChunks core g k x (g.rb / 16 - c.chunk) c s
    let n := 16 * (c.chunk - from_)
    match a with
    | .ok => endPos (chargeWindow (chargeGlobal s c.by_ va n) c.by_ core at_ g.rb) core c g (id24 ||| c.sts)
    | .miss p => missAp (chargeGlobal s c.by_ va n) core c p
    | .park p => parkAp (chargeGlobal s c.by_ va n) core c p
    | .fault cause a =>
      let s := chargeGlobal s c.by_ va (n + bif cause == 0x10 then 16 else 0)
      let s := zero (chargeWindow s c.by_ core at_ (16 * c.chunk))
      endPos (issuerFault (noteErrorAt s c.by_.fn a) c.by_ cause (2 + 256 * core) a k) core c g (id24 ||| c.sts ||| stsErr)

/-- A position of the gather at the head of a core's access processor: its unit for pre-emption (R260, R262). -/
def execApGatherStep (core : Nat) (s : State) : Host.Outcome State Fault Refusal :=
  match apHead s core with
  | none => .next s
  | some c =>
    if c.opc ≠ 0x332 then .next s else
    let g := gthBlk c.blk
    .next (gatherPos s core (withIndices s c g) g)

/-- One position of the scatter at the head of a core's access processor (R279). -/
def execApScatterPosition (core : Nat) (s : State) : Host.Outcome State Fault Refusal :=
  match apHead s core with
  | none => .next s
  | some c =>
    if c.opc ≠ 0x333 then .next s else
    let g := gthBlk c.blk
    let k := c.rowI
    let c := withIndices s c g
    let x := fieldB c.buf (4 * (k % 8)) 4
    let id24 : Word := BitVec.ofNat 32 (x % 2 ^ 24)
    let va := g.src + x * g.rb
    .next (if g.nrows ≤ x then endPos s core c g (id24 ||| stsOob)
      else match engineAccess s (apHas s core c) c.by_.fn va g.rb true c.wait c.lost with
        | .miss p => missAp s core c p
        | .park p => parkAp s core c p
        | .fault cause a => endPos (issuerFault s c.by_ cause (2 + 256 * core) a k) core c g (id24 ||| c.sts ||| stsErr)
        | .ok =>
          let row := (List.range (g.rb / 16)).flatMap fun ch => readBytes s (.win c.by_.team (chunkAt g k ch)) 16
          let s := chargePut (chargeWindow s c.by_ core (g.dst + g.rb * k) g.rb) c.by_ core (rangeLocs s c.by_.fn va g.rb)
          endPos (putGlobal s c.by_ va row) core c g (id24 ||| c.sts))

/-! ### Copies (R276, R277) -/

/-- The copy ends: its signal word is filled with the rows completed and the status bits. -/
def endCopy (s : State) (core : Nat) (c : ApCmd) (g : CpyBlk) (rows : Nat) (bits_ : Word) : State :=
  let sts := BitVec.ofNat 32 rows ||| c.sts ||| bits_
  endAp (bif g.sig == noSig then s else fillWord s c.by_.team g.sig sts) core c

/-- The team does not hold the queue that a copy names (R277). -/
def noQueue (s : State) (c : ApCmd) (q : Nat) : Bool :=
  match s.team? c.by_.team with
  | some t => t.queues.length ≤ q
  | none => true

/-- The global ranges of a copy's current row: the source's and the destination's, with whether it is written. -/
def rowRanges (c : ApCmd) (g : CpyBlk) : List (Nat × Bool) :=
  (bif g.ss == 0 then [(g.src + c.rowI * g.sstr, false)] else [])
    ++ bif g.ds == 0 then [(g.dst + c.rowI * g.dstr, true)] else []

/-- What stands in the way of a copy's current row, whose pages are translated before its first piece (R276). -/
def rowAccess (s : State) (core : Nat) (c : ApCmd) (g : CpyBlk) : Access :=
  if c.lost then .fault 0x0D (65536 * c.wait.getD 0)
  else if !c.trans.isEmpty then .ok
  else (rowRanges c g).foldl (fun a r => match a with
    | .ok => pagesAccess s (apHas s core c) c.by_.fn r.1 g.rb r.2 none false
    | a => a) .ok

/-- Where the pages of the current row lie: as they were found before its first piece, or as they are. -/
def rowPlaces (s : State) (c : ApCmd) (g : CpyBlk) : List (Nat × Loc) :=
  bif !c.trans.isEmpty then c.trans
  else ((rowRanges c g).flatMap fun r => pagesOf r.1 g.rb).dedup.filterMap fun p =>
    match findVa s c.by_.fn (65536 * p) with
    | .at_ _ l => some (p, l)
    | _ => none

/-- A byte's place in a translated row. -/
def placeOf (ps : List (Nat × Loc)) (va : Nat) : Option Loc := (alGet ps (va / 65536)).map (·.add (va % 65536))

/-- The places of a range's lines in a translated row. -/
def placedLines (ps : List (Nat × Loc)) (va n : Nat) : List Loc := (lineParts va n).filterMap fun p => placeOf ps p.1

/-- Bytes of a translated row, with the team's staged writes over them. -/
def getPlaced (s : State) (b : Issuer) (ps : List (Nat × Loc)) (va n : Nat) : List Byte :=
  let st := ((s.team? b.team).map Team.stagedPieces).getD []
  (pageParts va n).flatMap fun p => match placeOf ps p.1 with
    | some l => overlay s st l p.2.2
    | none => List.replicate p.2.2 emptyByte

/-- Write bytes of a translated row: at once, or line by line into the team's staging area (R325). -/
def putPlaced (s : State) (b : Issuer) (ps : List (Nat × Loc)) (va : Nat) (bs : List Byte) : State :=
  if issuerDet s b then
    (lineParts va bs.length).foldl (fun s p => match placeOf ps p.1 with
      | some l => stagePiece s b 0xFFFFFFFF 0 { loc := l, val := .bytes ((bs.drop p.2.1).take p.2.2) } 80
      | none => s) s
  else
    (pageParts va bs.length).foldl (fun s p => match placeOf ps p.1 with
      | some l => writeBytes s l ((bs.drop p.2.1).take p.2.2)
      | none => s) s

/-- D is set in the pages that the row will write, as they are translated (R270). -/
def markRow (s : State) (c : ApCmd) (g : CpyBlk) : State :=
  bif !c.trans.isEmpty then s
  else ((rowRanges c g).filter (·.2)).foldl (fun s r => (pagesOf r.1 g.rb).foldl (fun s p => setDirty s c.by_.fn p) s) s

/-- Step past a piece of `n` bytes that begins at `lo`. -/
def ApCmd.nextPiece (c : ApCmd) (g : CpyBlk) (ps : List (Nat × Loc)) (lo n : Nat) : ApCmd :=
  bif g.rb ≤ lo + n then { c.fresh with rowI := c.rowI + 1, piece := 0, trans := [] }
  else { c.fresh with piece := c.piece + 1, trans := ps }

/-- The copy reads no more: its rows are read, or a row has ended it (R276). -/
def readAll (c : ApCmd) (g : CpyBlk) : Bool := g.rows (c.opc == 0x331) ≤ c.rowI || c.cut

/-- A copy meets a row that it cannot write: it ends with ERR, a queue's after the push of the rows before (log 80). -/
def stopCopy (s : State) (core : Nat) (c : ApCmd) (g : CpyBlk) : State :=
  if g.ds = 2 ∧ !c.buf.isEmpty then
    setAp s core { c.fresh with cut := true, sts := c.sts ||| stsErr, trans := [] }
  else endCopy s core c g c.rowI stsErr

/-- Rows of a queue copy whose bytes have all been pushed. -/
def rowsPushed (c : ApCmd) (g : CpyBlk) : Nat := (g.rb * c.rowI + 4096 * c.piece - c.buf.length) / g.rb

/-- One piece of at most 4 KiB of the copy at the head of a core's access processor. -/
def execApCopyRow (core : Nat) (s : State) : Host.Outcome State Fault Refusal :=
  match apHead s core with
  | none => .next s
  | some c =>
    if c.opc ≠ 0x330 ∧ c.opc ≠ 0x331 then .next s else
    let g := cpyBlk c.blk
    let rows := g.rows (c.opc == 0x331)
    -- bytes read for a queue are pushed before more are read
    if g.ds = 2 ∧ (256 ≤ c.buf.length ∨ (readAll c g ∧ !c.buf.isEmpty)) then .next s
    else if readAll c g then .next (endCopy s core c g c.rowI 0)
    else if g.ds = 2 ∧ noQueue s c g.dst then
      .next (endAp (issuerFault s c.by_ 8 (2 + 256 * core) g.dst 0) core c)
    else
      match rowAccess s core c g with
      | .miss p => .next (missAp s core c p)
      | .park p => .next (parkAp s core c p)
      | .fault cause a =>
        .next (stopCopy (issuerFault s c.by_ cause (2 + 256 * core) a c.rowI) core c g)
      | .ok =>
        let lo := 4096 * c.piece
        let n := min 4096 (g.rb - lo)
        let sa := g.src + c.rowI * g.sstr + lo
        let da := g.dst + c.rowI * g.dstr + lo
        let ps := rowPlaces s c g
        let s := markRow s c g
        let bad := bif g.ss == 0 then
          (lineParts sa n).findSome? fun p => bif (placeOf ps p.1).any (Loc.broken s) then some p.1 else none else none
        let data := match bad with
          | some _ => List.replicate n 0
          | none => bif g.ss == 0 then getPlaced s c.by_ ps sa n else readBytes s (.win c.by_.team sa) n
        let s := match bad with
          | some a => issuerFault ((placeOf ps a).elim s (noteError s)) c.by_ 0x10 (2 + 256 * core) a c.rowI
          | none => s
        let c := bif bad.isSome then { c with sts := c.sts ||| stsErr } else c
        let s := bif g.ss == 0 then chargeDirect s c.by_.fn (placedLines ps sa n) else chargeWindow s c.by_ core sa n
        let s := match g.ds with
          | 0 => putPlaced (chargePut s c.by_ core (placedLines ps da n)) c.by_ ps da data
          | 1 => chargeWindow (writeBytes s (.win c.by_.team da) data) c.by_ core da n
          | _ => s
        let c := bif g.ds == 2 then { c with buf := c.buf ++ data, since := s.cycle } else c
        let c := c.nextPiece g ps lo n
        .next (bif rows ≤ c.rowI && g.ds != 2 then endCopy s core c g c.rowI 0 else setAp s core c)

/-- Entries of a queue (R277). -/
def queueEntries : Nat := 32

/-- The queue copy at the head of a core's processor that has an entry to push. -/
def pushing (s : State) (core : Nat) : Option (ApCmd × CpyBlk) :=
  match apHead s core with
  | none => none
  | some c =>
    let g := cpyBlk c.blk
    if (c.opc = 0x330 ∨ c.opc = 0x331) ∧ g.ds = 2 ∧ (256 ≤ c.buf.length ∨ (readAll c g ∧ !c.buf.isEmpty)) then some (c, g)
    else none

def queueLen (s : State) (t q : Nat) : Nat := (((s.team? t).map fun x => x.queues.getD q []).getD []).length

/-- Push one entry, zero-padded at the end of the stream, if the queue has room; the signal follows the last push. -/
def execApQueuePush (core : Nat) (s : State) : Host.Outcome State Fault Refusal :=
  match pushing s core with
  | none => .next s
  | some (c, g) =>
    if queueEntries ≤ queueLen s c.by_.team g.dst then .next s else
    let e := (c.buf.take 256) ++ List.replicate (256 - c.buf.length) 0
    let s := s.modTeam c.by_.team fun t => { t with queues := t.queues.modify g.dst (· ++ [e]) }
    let c := { c with buf := c.buf.drop 256, since := s.cycle }
    .next (bif c.buf.isEmpty && readAll c g then endCopy s core c g c.rowI 0 else setAp s core c)

/-- A command held 110,000 cycles by a full queue ends: its bytes are discarded, its signal is written with ERR and
a record names it (R274). -/
def execApQueueStall (core : Nat) (s : State) : Host.Outcome State Fault Refusal :=
  match pushing s core with
  | none => .next s
  | some (c, g) =>
    if queueLen s c.by_.team g.dst < queueEntries then .next s else
    let s := s.passTo (c.since + Config.stallCycles)
    .next (endCopy (issuerFault s c.by_ 0x13 (2 + 256 * core) g.dst c.rowI) core c g (rowsPushed c g) stsErr)

/-- Pop the oldest entry of a queue into 64 elements (R278). -/
def execAqPop (h : Head) (o : AqPop) (s : State) :=
  runEach h
    (fun s c => match c.ref.bind fun r => s.team? r.team with
      | some t => bif t.queues.length ≤ o.q.toNat then inLanes c.e (violation o.q.toNat) else []
      | none => [])
    (fun i c s => match c.ref with
      | none => advance s i c c.iss
      | some r =>
        if c.e = 0 then advance s i c c.iss else
        match ((s.team? r.team).map fun t => t.queues.getD o.q.toNat []).getD [] with
        | [] => s
        | x :: rest =>
          let s := s.modTeam r.team fun t => { t with queues := t.queues.set o.q.toNat rest }
          let regs := c.elems.foldl (fun rg e =>
            rg.setV (o.vd.toNat + e / c.w) (e % c.w) (BitVec.ofNat 32 (fieldB x (4 * e) 4))) c.r
          advance (putRegs s c regs) i c c.iss) s

/-! ### Hints (R285) -/

/-- The pages that a hint names. -/
def hintPages (c : Ctx) (o : MigOp) : List Nat :=
  let n := min (c.r.getS o.sc.toNat).toNat 1024
  (List.range n).map fun k => (c.r.getPair o.sb.toNat).toNat / 65536 + k

/-- Ask for one page's migration to the fast tier or the capacity tier; a page that cannot move is skipped. -/
def hintPage (r : WaveRef) (up : Bool) (s : State) (p : Nat) : State :=
  let f := s.fnOf r
  if 2 ^ 40 ≤ p then s else
  match walk s f p with
  | none => s
  | some (_, x) =>
    let tier := bits x.toNat 51 48
    if pageFixed s f p x ∨ tier ≠ (if up then 1 else 0) then s else startMigration s (s.standOf r) f p up

def runHint (up : Bool) (h : Head) (o : MigOp) (s : State) : Host.Outcome State Fault Refusal :=
  runEach h (fun _ _ => [])
    (fun i c s =>
      let s := match c.ref with
        | some r => bif c.e == 0 then s else (hintPages c o).foldl (hintPage r up) s
        | none => s
      advance s i c c.iss) s

def execMigUp (h : Head) (o : MigOp) (s : State) := runHint true h o s
def execMigDown (h : Head) (o : MigOp) (s : State) := runHint false h o s

end Sys2Proof.Machine
end

