-- ==== Sys2Proof/Machine/Bags.lean ====
section
/-! DEFINITION. Bags: the nine commands at issue, their takes at the placement units, and their answers
(10_bags R150 to R170). -/
namespace Sys2Proof.Machine

/-! ### Descriptors and shares (R150, R151) -/

/-- Record size, share count and first pseudo-channel of a descriptor. -/
def bagZ (d : List Byte) : Nat := 8 * 2 ^ fieldB d 4 1
def bagLb (d : List Byte) : Nat := fieldB d 2 1
def bagQ0 (d : List Byte) : Nat := 64 * fieldB d 0 1 + fieldB d 1 1

def bagDescOk (d : List Byte) : Bool :=
  fieldB d 0 1 ≤ 15 && fieldB d 1 1 ≤ 63 && bagLb d ≤ 10 && fieldB d 3 1 == 0 && fieldB d 4 1 ≤ 4
    && 1 ≤ fieldB d 5 1 && fieldB d 5 1 ≤ 32 && fieldB d 7 1 == 0
    && 1 ≤ fieldB d 8 4 && fieldB d 8 4 ≤ 2 ^ 20 && fieldB d 12 20 == 0
    && bagQ0 d % 2 ^ bagLb d == 0 && bagQ0 d + 2 ^ bagLb d ≤ 1024

/-- A new bag from its descriptor (R153). -/
def bagOf (d : List Byte) : Bag :=
  { desc := d, q0 := bagQ0 d, lb := bagLb d, z := bagZ d, kw := fieldB d 5 1, slack := fieldB d 6 1, cap := fieldB d 8 4
    shares := List.replicate (2 ^ bagLb d) {} }

/-- 64 KiB units of rows that each share of a bag reserves. -/
def rowUnits (cap z : Nat) : Nat := (cap * z + 65535) / 65536

/-- Units that the bags of all functions reserve in a pseudo-channel. -/
def unitsIn (s : State) (q : Nat) : Nat :=
  (s.fns.map fun f => (f.bags.map fun e => match e.bag with
    | some b => if b.q0 ≤ q ∧ q < b.q0 + b.shares.length then rowUnits b.cap b.z else 0
    | none => 0).sum).sum

/-- Rows for `n` more units in each share: a pseudo-channel has 1 GiB, of which the manual does not say how much is
free (log 14). -/
def rowsFree (s : State) (q0 shares n : Nat) : Bool :=
  n == 0 || ((List.range shares).all fun i => unitsIn s (q0 + i) + n ≤ 16384) && Config.rowsAvailable s.turns

/-! ### The placement rule (R154) -/

def homeShare (b : Bag) (x : Nat) : Nat :=
  if b.lb = 0 then 0 else (x % 2 ^ b.kw * 0x9E3779B1) % 2 ^ 32 / 2 ^ (32 - b.lb)

def Bag.counts (b : Bag) : List Nat := b.shares.map (·.c)

/-- The share of the next record with key `x`. -/
def targetShare (b : Bag) (x : Nat) : Nat :=
  let cs := b.counts
  let h := homeShare b x
  let m := (cs.min?).getD 0
  let t := if cs.getD h 0 - m < b.slack then h else (cs.findIdx? (· == m)).getD 0
  if cs.getD t 0 = b.cap then (cs.findIdx? (· < b.cap)).getD 0 else t

/-- Place a record. -/
def placeRecord (b : Bag) (x : Nat) (rec_ : List Byte) : Bag :=
  { b with shares := b.shares.modify (targetShare b x) fun h =>
      { h with rows := writeCells (h.c * b.z) rec_ h.rows, c := h.c + 1 } }

/-- A record fits in the bag. -/
def Bag.room (b : Bag) (n : Nat) : Bool := b.total + n ≤ b.cap * b.shares.length

/-- The stack of a share, and the lines that its record `j` touches. -/
def Bag.stack (b : Bag) (i : Nat) : Nat := (b.q0 + i) / 64
def Bag.lines (b : Bag) (j : Nat) : Nat := linesOf (j * b.z) b.z

/-- Place one record of a function's bag and charge its lines (R170). -/
def placeIn (s : State) (f : Nat) (h : Word) (x : Word) (rec_ : List Byte) : State :=
  match findBag s f h with
  | none => s
  | some b =>
    let t := targetShare b x.toNat
    ((modBag s f h fun b => placeRecord b x.toNat rec_).charge f (standDom (b.q0 / 64)) 14 1).charge f
      (stackDom (b.stack t)) 9 (b.lines ((b.shares.getD t {}).c))

/-! ### Issue (R152, R157, R159, R162) -/

def isDetCtx (s : State) (c : Ctx) : Bool := (ctxLaunch s c).det

/-- Reason 12 for a command that a deterministic launch does not allow (R159). -/
def detTrap (s : State) (c : Ctx) : List (Nat × TrapInfo) := bif isDetCtx s c then inLanes c.e (illegal 12) else []

/-- The handle is valid in the context, or the lanes of E raise an access violation. -/
def handleTrap (s : State) (c : Ctx) (h : Word) : List (Nat × TrapInfo) :=
  match findBag s (ctxFn s c) h with
  | some _ => []
  | none => inLanes c.e (violation h.toNat)

/-- The checks of most bag commands. -/
def bagChecks (sb : UReg) (s : State) (c : Ctx) : List (Nat × TrapInfo) :=
  let d := detTrap s c
  bif d.isEmpty then handleTrap s c (c.r.getS sb.toNat) else d

/-- The lanes of E as they stand at an answered command (R148, R157). -/
def lanesOfE (s : State) (r : WaveRef) (c : Ctx) : List (Nat × Lane) :=
  match s.wave? r with
  | some w => c.e.lanes.map fun l => (l, w.lanes.getD l {})
  | none => []

/-- Send a command to its placement unit; the wave awaits the reply or the answer. -/
def sendBag (h : Ctx → Word) (sco : Scope) (op : Ctx → BagOp) (kind : WaveRef → Ctx → State → ReplyKind) (id : Nat)
    (r : WaveRef) (c : Ctx) (s : State) : State :=
  let cmd : BagCmd := { id := id, by_ := issuerOf s c, handle := h c, op := op c, sco := sco }
  let s := { s with bagCmds := s.bagCmds ++ [cmd] }
  s.modWave r fun w => { w with replies := w.replies ++ [({ id := id, kind := kind r c s } : Reply)] }

/-- What an answered command keeps for its answer. -/
def answered (fp : Ctx → Option (Nat × List Nat × List Nat × Mask)) (r : WaveRef) (c : Ctx) (s : State) : ReplyKind :=
  .answer (lanesOfE s r c) (fp c)
def replying (dst : UReg) (_ : WaveRef) (_ : Ctx) (_ : State) : ReplyKind := .reg dst.toNat false false

/-- An answered command on CP with a handle in sb. -/
def bagCp (op : Ctx → BagOp) (sco : Scope) (sb : UReg) : Issue → Ctx → State → State :=
  cmdPart [.cp] (sendBag (fun c => c.r.getS sb.toNat) sco op (answered fun _ => none))

def execBagNew (h : Head) (o : U2) (s : State) :=
  runEach h (fun s c =>
      let d := detTrap s c
      let a := (c.r.getPair o.sa.toNat).toNat
      if !d.isEmpty then d else if a % 32 ≠ 0 then inLanes c.e (misaligned a) else [])
    (cmdPart [] (sendBag (fun _ => 0) .dev (fun c => .new (c.r.getPair o.sa.toNat).toNat) (replying o.dst))) s

def execBagCnt (h : Head) (o : BagCnt) (s : State) :=
  runEach h (bagChecks o.sa)
    (cmdPart [] (sendBag (fun c => c.r.getS o.sa.toNat) .dev (fun c => .cnt o.sel (c.r.getS o.sb.toNat)) (replying o.dst))) s

def execBagGrow (h : Head) (o : U3) (s : State) :=
  runEach h (bagChecks o.sa)
    (cmdPart [] (sendBag (fun c => c.r.getS o.sa.toNat) .dev (fun c => .grow (c.r.getS o.sb.toNat)) (replying o.dst))) s

def execBagSnap (h : Head) (o : AsyOp) (s : State) := runEach h (bagChecks o.sb) (bagCp (fun _ => .snap) o.sco o.sb) s
def execBagSeal (h : Head) (o : AsyOp) (s : State) := runEach h (bagChecks o.sb) (bagCp (fun _ => .seal) o.sco o.sb) s
def execBagFree (h : Head) (o : AsyOp) (s : State) := runEach h (bagChecks o.sb) (bagCp (fun _ => .free) o.sco o.sb) s

def execBagEach (h : Head) (o : Sys2Proof.RootCmd) (s : State) :=
  runEach h (bagChecks o.sb) (bagCp (fun c => .each (c.r.getS o.sc.toNat) o.tgt) o.sco o.sb) s

def execBagDrain (h : Head) (o : BagDrain) (s : State) :=
  runEach h (fun s c =>
      let t := bagChecks o.sb s c
      let d := (c.r.getPair o.sc.toNat).toNat
      if !t.isEmpty then t else if d % 8 ≠ 0 then inLanes c.e (misaligned d) else [])
    (bagCp (fun c => .drain (c.r.getPair o.sc.toNat).toNat) o.sco o.sb) s

/-! ### `bag.put` (R159, R164) -/

/-- The record of an element: z/4 words of the registers after the key's. -/
def recordOf (c : Ctx) (k z e : Nat) : List Byte :=
  (List.range (z / 4)).flatMap fun j => leBytes 4 (c.r.elem (k + 1 + j) e).toNat

def putChecks (o : BagPut) (s : State) (c : Ctx) : List (Nat × TrapInfo) :=
  if isDetCtx s c ∧ o.nf then inLanes c.e (illegal 12) else
  match findBag s (ctxFn s c) (c.r.getS o.sb.toNat) with
  | none => inLanes c.e (violation (c.r.getS o.sb.toNat).toNat)
  | some b =>
    let top := o.va.toNat + b.z / 4
    if 511 < top then inLanes c.e (illegal 8)
    else if c.r.v.length ≤ top then inLanes c.e { cause := 5, det := max (o.va.toNat + 1) c.r.v.length }
    else []

/-- The records that a put sends: element, key and bytes. -/
def putRecords (o : BagPut) (s : State) (c : Ctx) : List (Nat × Word × List Byte) :=
  match findBag s (ctxFn s c) (c.r.getS o.sb.toNat) with
  | none => []
  | some b => c.actives.map fun e => (e, c.r.elem o.va.toNat e, recordOf c o.va.toNat b.z e)

/-- The failure predicate of a put with `.nf`: its register, the active elements and those to be zeroed. -/
def putFp (o : BagPut) (c : Ctx) : Option (Nat × List Nat × List Nat × Mask) :=
  bif o.nf then some (o.fp.toNat, c.actives, c.elems.filter fun e => c.kind e == .zeroed, c.e) else none

/-- Stage a put of a deterministic launch: the ring unit accepts it, and it retires on ST. -/
def stagePut (o : BagPut) (recs : List (Nat × Word × List Byte)) (id : Nat) (r : WaveRef) (c : Ctx) (s : State) : State :=
  match s.team? r.team with
  | none => s
  | some t =>
    let cost := (recs.map fun x => 32 + x.2.2.length).sum
    let s := if t.failed then s else if stagingSize < t.stagedBytes + cost then
        failStaging s (issuerOf s c) (BitVec.ofNat 32 c.lead) else
      s.modTeam t.id fun t => { t with
        staged := t.staged ++ [.put r.wave (issuerOf s c).anchor (c.r.getS o.sb.toNat) (recs.map (·.2))]
        stagedBytes := t.stagedBytes + cost }
    retireOp s r .st id

def execBagPut (h : Head) (o : BagPut) (s : State) :=
  runEach h (putChecks o)
    (fun i c s =>
      let recs := putRecords o s c
      if recs.isEmpty then advance s i c c.iss
      else if isDetCtx s c then cmdPart [.st] (stagePut o recs) i c s
      else cmdPart [.st] (sendBag (fun c => c.r.getS o.sb.toNat) o.sco (fun _ => .put o.nf recs) (answered (putFp o))) i c s) s

/-! ### Takes (R147, R157, R158) -/

/-- The stand whose placement unit takes a command: that of the first share's stack, of the bag that it names or of the
one that it makes; none where neither the handle nor the descriptor says (R152). -/
def BagCmd.unit (s : State) (c : BagCmd) : Option Nat :=
  match c.op with
  | .new a => match findVa s c.by_.fn a with
    | .at_ _ l => some (readLoc s l).toNat
    | _ => none
  | _ => (findBag s c.by_.fn c.handle).map fun b => b.q0 / 64

/-- Two commands may come to one placement unit. -/
def unitsMeet (a b : Option Nat) : Bool := a.isNone || b.isNone || a == b

/-- The command's bag, if a drain of it is copying: it is held (R161). -/
def draining (s : State) (f : Nat) (h : Word) : Bool := (findBag s f h).any fun b => b.drain.isSome

/-- A command that its placement unit may take: it waits for no page, it is the oldest of its wave at the unit, and no
drain of its bag is copying (R147, R161). -/
def bagCmd? (s : State) (k : Nat) : Option BagCmd :=
  match s.bagCmds.find? fun c => c.id == k with
  | none => none
  | some c =>
    let behind := (s.bagCmds.takeWhile fun x => x.id != k).any fun x =>
      x.by_.team == c.by_.team && x.by_.wave == c.by_.wave && unitsMeet (x.unit s) (c.unit s)
    let held : Bool := match c.op with
      | .new _ => false
      | _ => draining s c.by_.fn c.handle
    if (c.wait.isSome ∧ !c.lost) ∨ behind ∨ held then none else some c

/-- The command is taken, and its answer or reply is on its way. -/
def answerBag (s : State) (c : BagCmd) (a : Answer) : State :=
  { s with bagCmds := s.bagCmds.filter fun x => x.id != c.id
           arrivals := s.arrivals ++ [{ id := c.id, team := c.by_.team, wave := c.by_.wave, ans := a }] }

def replyBag (s : State) (c : BagCmd) (x : Word) : State := answerBag s c (.reply x)
def refuseBag (s : State) (c : BagCmd) (t : TrapInfo) : State := answerBag s c (.refused t)
def acceptBag (s : State) (c : BagCmd) : State := answerBag s c (.accepted [])

/-- Retire a command of a wave on CP or ST. -/
def retireBag (s : State) (c : BagCmd) (ctr : Ctr) : State := retireOp s ⟨c.by_.team, c.by_.wave⟩ ctr c.id

/-- The command waits for a page, whose migration starts. -/
def waitBag (s : State) (c : BagCmd) (stand page : Nat) : State :=
  startMigration { s with bagCmds := s.bagCmds.map fun (x : BagCmd) => bif x.id == c.id then { x with wait := some page, lost := false } else x }
    stand c.by_.fn page true

/-- A refusal of a command whose handle `bag.free` has made invalid (R165). -/
def staleBag (s : State) (c : BagCmd) : State := refuseBag s c (violation c.handle.toNat)

/-- Free entries of a context's bag table. -/
def freeSlots (f : Fn) : List Nat := (List.range 4096).filter fun k => let e := f.entry k; e.bag.isNone && !e.retired

/-- The reply of a `bag.new` whose descriptor has been read, in the order of R163. -/
def newBag (s : State) (c : BagCmd) (d : List Byte) : State :=
  let f := s.fn c.by_.fn
  let b := bagOf d
  let free := freeSlots f
  if !bagDescOk d then replyBag s c 0x80000001
  else if (List.range b.shares.length).any fun i => !s.stackMask.getLsbD (b.stack i) then replyBag s c 0x80000002
  else match free[Config.choose s.turns free.length % free.length]? with
    | none => replyBag s c 0x80000004
    | some slot =>
      if !rowsFree s b.q0 b.shares.length (rowUnits b.cap b.z) then replyBag s c 0x80000003
      else
        let gen := (f.entry slot).gen
        let s := s.modFn f.id fun x => x.setEntry { x.entry slot with bag := some b }
        replyBag s c (handleOf slot gen)

def execBagNewTake (k : Nat) (s : State) : Host.Outcome State Fault Refusal :=
  match bagCmd? s k with
  | some c =>
    match c.op with
    | .new a =>
      if c.lost then .next (replyBag s c 0x80000005)
      else
        let s := chargeWalks s c.by_.fn (pagesOf a 32)
        match checkRange s c.by_.fn a 32 false with
        | .bad _ => .next (replyBag s c 0x80000005)
        | .away p => .next (waitBag s c (s.standOf ⟨c.by_.team, c.by_.wave⟩) p)
        | .ok => .next (newBag (chargeDirect s c.by_.fn (lineLocs s c.by_.fn a 32)) c (readVa s c.by_.fn a 32))
    | _ => .next s
  | none => .next s

/-- A put with `.nf`: records that do not fit fail. -/
def putSome (s : State) (c : BagCmd) : List (Nat × Word × List Byte) → State × List Nat
  | [] => (s, [])
  | (e, x, r) :: rest =>
    match findBag s c.by_.fn c.handle with
    | none => (s, [])
    | some b =>
      if !b.sealed && b.room 1 then putSome (placeIn s c.by_.fn c.handle x r) c rest
      else
        let (s, fs) := putSome s c rest
        (s, e :: fs)

def bagFull (c : BagCmd) (code : Nat) : TrapInfo := { cause := 9, code := code, det := c.handle.toNat }
def bagBusy (c : BagCmd) (b : Bag) : TrapInfo := { cause := 10, code := b.lowBusy, det := c.handle.toNat }

def execBagPutTake (k : Nat) (s : State) : Host.Outcome State Fault Refusal :=
  match bagCmd? s k with
  | some c =>
    match c.op with
    | .put nf recs =>
      match findBag s c.by_.fn c.handle with
      | none => .next (staleBag s c)
      | some b =>
        if nf then
          let (s, fs) := putSome s c recs
          .next (retireBag (answerBag s c (.accepted fs)) c .st)
        else if b.sealed then .next (refuseBag s c (bagFull c 1))
        else if !b.room recs.length then .next (refuseBag s c (bagFull c 0))
        else
          let s := recs.foldl (fun s x => placeIn s c.by_.fn c.handle x.2.1 x.2.2) s
          .next (retireBag (acceptBag s c) c .st)
    | _ => .next s
  | none => .next s

/-- A command without a refusal of its own changes the bag and retires at take (R165). -/
def takeSimple (s : State) (k : Nat) (want : BagOp) (f : Bag → Bag) : Host.Outcome State Fault Refusal :=
  match bagCmd? s k with
  | some c =>
    if c.op ≠ want then .next s else
    match findBag s c.by_.fn c.handle with
    | none => .next (staleBag s c)
    | some b =>
      let s := bif want == .snap then s.charge c.by_.fn (standDom (b.q0 / 64)) 14 1 else s
      .next (retireBag (acceptBag (modBag s c.by_.fn c.handle f) c) c .cp)
  | none => .next s

/-- Every snapshot becomes its count. -/
def Bag.snapAll (b : Bag) : Bag :=
  { b with shares := b.shares.map fun (h : Share) => ({ h with snap := h.c } : Share) }

def execBagSnapTake (k : Nat) (s : State) := takeSimple s k .snap Bag.snapAll
def execBagSealTake (k : Nat) (s : State) := takeSimple s k .seal fun b => { b with sealed := true }

/-- An entry after `bag.free`: the bag is gone, and the generation rises or the entry is retired (R152). -/
def BagEntry.freed (e : BagEntry) : BagEntry :=
  if e.gen = 2 ^ 19 - 1 then { e with bag := none, retired := true } else { e with bag := none, gen := e.gen + 1 }

def execBagFreeTake (k : Nat) (s : State) : Host.Outcome State Fault Refusal :=
  match bagCmd? s k with
  | some c =>
    if c.op ≠ .free then .next s else
    match findBag s c.by_.fn c.handle with
    | none => .next (staleBag s c)
    | some b =>
      if b.anyBusy then .next (refuseBag s c (bagBusy c b)) else
      let s := freeRows s c.by_.fn (handleSlot c.handle) b
      let s := s.modFn c.by_.fn fun f => f.setEntry (f.entry (handleSlot c.handle)).freed
      .next (retireBag (acceptBag s c) c .cp)
  | none => .next s

/-- A unit's invocation joins those that wait for the unit (R178). -/
def queueInv (s : State) (q : Nat) (v : Inv) : State := s.modUnit q fun u => { u with invs := u.invs ++ [v] }

/-- Start root code on the shares of an iteration (R160). -/
def startEach (s : State) (c : BagCmd) (b : Bag) (param tgt : Word) : State :=
  let live := b.shares.zipIdx.filter fun x => x.1.snap != 0
  if live.isEmpty then retireBag s c .cp else
  let mark := fun (h : Share) => ({ h with busy := h.snap != 0 } : Share)
  let s := modBag s c.by_.fn c.handle fun b => { b with shares := b.shares.map mark }
  let cmd : RootCmd := { id := c.id, by_ := c.by_, op := .each c.handle, sco := c.sco, taken := true, left := live.length }
  let s := { s with rootCmds := s.rootCmds ++ [cmd] }
  let entry := ((s.launch? c.by_.launch).map (·.entry)).getD 0
  live.foldl (fun s x => queueInv s (b.q0 + x.2)
    { cmd := c.id, kind := .each, fn := c.by_.fn, idx := x.2, nrec := x.1.snap, z := b.z, param := param
      handle := c.handle, entry := entry, code := tgt.toNat, by_ := c.by_ }) s

/-- What stands at a root-code target: a legal header, a page that is away, or neither (R166, R180). -/
inductive RootTarget where
  | good | away (page : Nat) | bad
  deriving DecidableEq, Repr

def rootTarget (s : State) (f a : Nat) : RootTarget :=
  match fetchParcel s f a, fetchParcel s f (a + 4) with
  | .word lo, .word hi => bif a % 8 == 0 && hdrLegal (dword lo hi) then .good else .bad
  | .away p, _ => .away p
  | _, .away p => .away p
  | _, _ => .bad

def execBagEachTake (k : Nat) (s : State) : Host.Outcome State Fault Refusal :=
  match bagCmd? s k with
  | some c =>
    match c.op with
    | .each param tgt =>
      match findBag s c.by_.fn c.handle with
      | none => .next (staleBag s c)
      | some b =>
        let a := ((s.launch? c.by_.launch).map (·.entry)).getD 0 + tgt.toNat
        match rootTarget s c.by_.fn a, c.lost with
        | .away p, false => .next (waitBag s c (b.q0 / 64) p)
        | .good, _ =>
          if b.anyBusy then .next (refuseBag s c (bagBusy c b))
          else .next (startEach (acceptBag s c) c b param tgt)
        | _, _ => .next (refuseBag s c { cause := 3, det := a })
    | _ => .next s
  | none => .next s

/-- The records of a bag in share order, each share's in slot order (R167). -/
def Bag.records (b : Bag) : List Byte := b.shares.flatMap fun h => readCells h.rows 0 (h.c * b.z)

/-- A bag emptied: counts and snapshots 0, not sealed. -/
def Bag.emptied (b : Bag) : Bag :=
  { b with sealed := false, drain := none, shares := b.shares.map fun (h : Share) => ({ h with c := 0, snap := 0, rows := [] } : Share) }

/-- A drain's pages are all resident: they are pinned, D is set in them, and the copy begins. -/
def startDrain (s : State) (c : BagCmd) (b : Bag) (dst : Nat) : State :=
  let f := c.by_.fn
  let n := b.total * b.z
  if n = 0 then retireBag (acceptBag (modBag s f c.handle Bag.emptied) c) c .cp else
  let ps := pagesOf dst n
  let frames := ps.filterMap fun p => match findVa s f (65536 * p) with
    | .at_ _ l => some (p, l)
    | _ => none
  let s := ps.foldl (fun s p => setDirty s f p) { s with pinned := s.pinned ++ ps.map fun p => (f, p) }
  let d : Drain := { dst := dst, pages := frames, data := b.records, id := c.id, by_ := c.by_, sco := c.sco }
  acceptBag (modBag s f c.handle fun b => { b with drain := some d }) c

def execBagDrainTake (k : Nat) (s : State) : Host.Outcome State Fault Refusal :=
  match bagCmd? s k with
  | some c =>
    match c.op with
    | .drain dst =>
      match findBag s c.by_.fn c.handle with
      | none => .next (staleBag s c)
      | some b =>
        if b.anyBusy then .next (refuseBag s c (bagBusy c b))
        else match c.lost, c.wait with
          | true, some p => .next (refuseBag s c { cause := 0x0D, det := 65536 * p })
          | _, _ =>
            let s := chargeWalks s c.by_.fn (pagesOf dst (b.total * b.z))
            match checkRange s c.by_.fn dst (b.total * b.z) true with
            | .bad a => .next (refuseBag s c (violation a))
            | .away p => .next (waitBag s c (b.q0 / 64) p)
            | .ok => .next (startDrain s c b dst)
    | _ => .next s
  | none => .next s

/-- Write bytes of a drain into the frames found at its take. -/
def drainWrite (s : State) (d : Drain) (bs : List Byte) : State :=
  let a := d.dst + 4096 * d.next
  (pageParts a bs.length).foldl (fun s p =>
    match alGet d.pages (p.1 / 65536) with
    | some l => writeBytes s (l.add (p.1 % 65536)) ((bs.drop p.2.1).take p.2.2)
    | none => s) s

/-- The charge of a drained record's write: each line, at the DRAM weight, where its page's frame lies; for a page of host
memory, on the stack `home` of the placement unit (R170, log 119). -/
def chargeDrained (s : State) (f : Nat) (d : Drain) (home z j : Nat) : State :=
  (lineParts (d.dst + z * j) z).foldl (fun s p => match alGet d.pages (p.1 / 65536) with
    | some (.host _) => s.charge f (stackDom home) 9 1
    | some l => s.charge f (locDom l) 9 1
    | none => s) s

/-- The copy of the drain that command `k` began has ended (R167 steps 4 and 5). -/
def execBagDrainComplete (k : Nat) (s : State) : Host.Outcome State Fault Refusal :=
  match s.fns.findSome? fun f => f.bags.findSome? fun e => match e.bag with
    | some b => (b.drain.filter fun d => d.id == k).map fun d => (f.id, handleOf e.slot e.gen, b, d)
    | none => none with
  | none => .next s
  | some (f, h, b, d) =>
    if d.stop then .next s else
    let s := drainWrite s d (d.data.drop (4096 * d.next))
    let s := (b.shares.zipIdx).foldl (fun s x =>
      s.charge f (stackDom (b.stack x.2)) 9 ((List.range x.1.c).map b.lines).sum) s
    let s := (List.range b.total).foldl (fun s j => chargeDrained s f d (b.q0 / 64) b.z j) s
    let s := { modBag s f h Bag.emptied with
      pinned := (pagesOf d.dst d.data.length).foldl (fun l p => l.erase (f, p)) s.pinned }
    .next (retireOp s ⟨d.by_.team, d.by_.wave⟩ .cp d.id)

/-- The reply of `bag.cnt` (R168). -/
def countReply (b : Bag) (sel : BitVec 2) (i : Word) : Word :=
  let share := b.shares[i.toNat]?
  if sel = 0 then BitVec.ofNat 32 b.total
  else if sel = 3 then BitVec.ofNat 32 (b.shares.map (·.snap)).sum
  else match share with
    | none => 0xFFFFFFFF
    | some h => BitVec.ofNat 32 (bif sel == 1 then h.c else h.snap)

def execBagCntTake (k : Nat) (s : State) : Host.Outcome State Fault Refusal :=
  match bagCmd? s k with
  | some c =>
    match c.op with
    | .cnt sel i =>
      match findBag s c.by_.fn c.handle with
      | none => .next (replyBag s c 0x80000006)
      | some b => .next (replyBag s c (countReply b sel i))
    | _ => .next s
  | none => .next s

def execBagGrowTake (k : Nat) (s : State) : Host.Outcome State Fault Refusal :=
  match bagCmd? s k with
  | some c =>
    match c.op with
    | .grow cap =>
      match findBag s c.by_.fn c.handle with
      | none => .next (replyBag s c 0x80000006)
      | some b =>
        if cap.toNat < b.cap ∨ 2 ^ 20 < cap.toNat then .next (replyBag s c 0x80000001)
        else if cap.toNat = b.cap then .next (replyBag s c 0)
        else if !rowsFree s b.q0 b.shares.length (rowUnits cap.toNat b.z - rowUnits b.cap b.z) then
          .next (replyBag s c 0x80000003)
        else .next (replyBag (modBag s c.by_.fn c.handle fun b => { b with cap := cap.toNat }) c 0)
    | _ => .next s
  | none => .next s

/-! ### Answers (R148, R157) -/

/-- The failure predicate is written with the answer. -/
def writeFp (r : Regs) (fp : Nat) (act zero failed : List Nat) : Regs :=
  if act.isEmpty ∧ zero.isEmpty then r else
  let old := r.getP fp
  r.setP fp (Mask.ofFn r.width fun l =>
    bif act.contains l then failed.contains l else bif zero.contains l then false else old.has l)

/-- An answer or reply reaches its wave. After a refusal the lanes of E stand at the command as they stood when it
issued, it counts no more, and they take the trap. -/
def execBagAnswerArrival (k : Nat) (s : State) : Host.Outcome State Fault Refusal :=
  match s.arrivals.find? fun a => a.id == k with
  | none => .next s
  | some a =>
    let s := { s with arrivals := s.arrivals.filter fun x => x.id != k }
    let r : WaveRef := ⟨a.team, a.wave⟩
    let rep := (s.wave? r).bind fun w => w.replies.find? fun y => y.id == k
    let drop := fun (s : State) => s.modWave r fun w => { w with replies := w.replies.filter fun y => y.id != k }
    let kind : Option ReplyKind := rep.map (·.kind)
    match a.ans, kind with
    | .reply x, _ => .next (giveReply s r k (x.setWidth 64))
    | .accepted fs, some (.answer _ fp) =>
      let s := drop s
      match fp with
      | some (p, act, zero, _) => .next (s.modWave r fun w => { w with regs := writeFp w.regs p act zero fs })
      | none => .next s
    | .refused t, some (.answer lanes _) =>
      let s := s.modWave r fun w =>
        { w with replies := w.replies.filter (fun y => y.id != k), regs := w.unpassed, cleared := none }
      let s := releaseOp (releaseOp s r .cp k) r .st k
      let s := lanes.foldl (fun s x => s.onLanes r (Mask.put 0 x.1 true) fun _ => x.2) s
      .next (takeTraps s (lanes.map fun x => (r, x.1, t)))
    | _, _ => .next (drop s)

end Sys2Proof.Machine
end

