-- ==== Sys2Proof/Machine/FloatOps.lean ====
section
/-! DEFINITION. Result functions of the floating-point instructions on single values: sums, products, minimum,
compare, classify, quotients, roots, sine, cosine, exp2, log2, conversions, the 4-bit block family, the exact
accumulator and the random generator (07 R118 to R133; 13 R204 to R217). -/
namespace Sys2Proof.Machine

/-! ### Sums and products (R118) -/

/-- Rounding of a value that need not be finite (R204 to R206). -/
def roundVal (f : Fmt) (rm : RMode) : FVal → Nat × BitVec 6
  | .nan _ => (f.nan, 0)
  | .inf n => (f.inf n, 0)
  | .zero n => (f.withSign n 0, 0)
  | .fin n m e => roundEx f rm { neg := n, m := m, e := e }

def faddV (f : Fmt) (rm : RMode) (a b : Nat) : Nat × BitVec 6 := fsum f rm (f.val a) (f.val b)
def fsubV (f : Fmt) (rm : RMode) (a b : Nat) : Nat × BitVec 6 := fsum f rm (f.val a) (f.val b).flip

def fmulV (f : Fmt) (acc : BitVec 2) (rm : RMode) (a b : Nat) : Nat × BitVec 6 :=
  let p := mulF f.prec acc (f.val a) (f.val b)
  let r := roundVal f rm p.1
  (r.1, r.2 ||| p.2)

/-- ±M ± c, rounded once. -/
def fmaV (f : Fmt) (acc : BitVec 2) (negP negC : Bool) (rm : RMode) (a b c : Nat) : Nat × BitVec 6 :=
  let p := mulF f.prec acc (f.val a) (f.val b)
  let r := fsum f rm (bif negP then p.1.flip else p.1) (bif negC then (f.val c).flip else f.val c)
  (r.1, r.2 ||| p.2)

/-! ### Signs, minimum, compare, classify (R119 to R121) -/

def fnegV (f : Fmt) (a : Nat) : Nat := a ^^^ f.signBit
def fabsV (f : Fmt) (a : Nat) : Nat := a % f.signBit
def fsgnV (f : Fmt) (a b : Nat) : Nat := a % f.signBit + (b / f.signBit) * f.signBit

/-- Order of values that are not NaN, −0 below +0. -/
def forder (f : Fmt) (x : Nat) : Int :=
  bif bit x (f.eb + f.fb) then -(x % f.signBit : Nat) - 1 else x

def fminmaxV (f : Fmt) (max : Bool) (a b : Nat) : Nat × BitVec 6 :=
  let fl := snanFlag [f.val a, f.val b]
  let r := match (f.val a).isNan, (f.val b).isNan with
    | true, true => f.nan
    | true, false => b
    | false, true => a
    | false, false => bif (decide (forder f b < forder f a)) != max then b else a
  (r, fl)

/-- The order of two numbers, −0 equal to +0. -/
def fnum (x : Nat) : Int := bif bit x 31 then -((x % 2 ^ 31 : Nat) : Int) else x

def frelV (rel : FRel) (a b : Nat) : Bool × BitVec 6 :=
  let va := f32.val a
  let vb := f32.val b
  if va.isNan || vb.isNan then
    match rel with
    | .ne | .un => (true, snanFlag [va, vb])
    | .eq | .ord => (false, snanFlag [va, vb])
    | .lt | .le | .gt | .ge => (false, flagNV)
  else
    (match rel with
      | .eq => fnum a == fnum b
      | .ne => fnum a != fnum b
      | .lt => decide (fnum a < fnum b)
      | .le => decide (fnum a ≤ fnum b)
      | .gt => decide (fnum b < fnum a)
      | .ge => decide (fnum b ≤ fnum a)
      | .un => false
      | .ord => true, 0)

/-- The class bit of R121. -/
def fclassV (a : Nat) : Word :=
  match f32.val a with
  | .inf n => bif n then 1 else 0x80
  | .zero n => bif n then 8 else 0x10
  | .nan s => bif s then 0x100 else 0x200
  | .fin n m _ => bif m < 2 ^ 23 then (bif n then 4 else 0x20) else (bif n then 2 else 0x40)

/-! ### Quotients and roots (R122) -/

/-- An exact quotient of positive dyadic numbers m·2^e and n·2^k, to 64 bits and more with what is left of it. -/
def exDiv (neg : Bool) (m : Nat) (e : Int) (n : Nat) (k : Int) : Ex :=
  let s := 64 + Nat.log2 n
  let q := m * 2 ^ s / n
  { neg := neg, m := q, e := e - k - s, more := q * n != m * 2 ^ s }

def fdivV (f : Fmt) (rm : RMode) (a b : Nat) : Nat × BitVec 6 :=
  match f.val a, f.val b with
  | .nan x, .nan y => (f.nan, snanFlag [.nan x, .nan y])
  | .nan x, _ | _, .nan x => (f.nan, snanFlag [.nan x])
  | .inf _, .inf _ | .zero _, .zero _ => (f.nan, flagNV)
  | .inf x, v => (f.inf (x != v.neg), 0)
  | v, .inf y => (f.withSign (v.neg != y) 0, 0)
  | .zero x, v => (f.withSign (x != v.neg) 0, 0)
  | .fin x _ _, .zero y => (f.inf (x != y), flagDZ)
  | .fin x m e, .fin y n k => roundEx f rm (exDiv (x != y) m e n k)

/-- The integer square root, bit by bit from bit n − 1. -/
def isqrt (x : Nat) : Nat → Nat → Nat
  | 0, r => r
  | n + 1, r => isqrt x n (bif (r + 2 ^ n) * (r + 2 ^ n) ≤ x then r + 2 ^ n else r)

/-- The square root of m·2^e to 64 bits and more. -/
def exSqrt (m : Nat) (e : Int) : Ex :=
  let odd := e % 2 != 0
  let x := (bif odd then 2 * m else m) * 2 ^ 160
  let r := isqrt x 96 0
  { neg := false, m := r, e := (bif odd then e - 1 else e) / 2 - 80, more := r * r != x }

def fsqrtV (f : Fmt) (rm : RMode) (a : Nat) : Nat × BitVec 6 :=
  match f.val a with
  | .nan s => (f.nan, snanFlag [.nan s])
  | .zero n => (f.withSign n 0, 0)
  | .inf false => (f.inf false, 0)
  | .inf true | .fin true _ _ => (f.nan, flagNV)
  | .fin false m e => roundEx f rm (exSqrt m e)

/-- 1/√(m·2^e) to 64 bits and more. -/
def exRsqrt (m : Nat) (e : Int) : Ex :=
  let odd := e % 2 != 0
  let n := bif odd then 2 * m else m
  let r := isqrt (2 ^ 200 / n) 101 0
  { neg := false, m := r, e := -((bif odd then e - 1 else e) / 2) - 100, more := r * r * n != 2 ^ 200 }

def frsqV (rm : RMode) (a : Nat) : Nat × BitVec 6 :=
  match f32.val a with
  | .nan s => (f32.nan, snanFlag [.nan s])
  | .zero n => (f32.inf n, flagDZ)
  | .inf false => (0, 0)
  | .inf true | .fin true _ _ => (f32.nan, flagNV)
  | .fin false m e => roundEx f32 rm (exRsqrt m e)

/-! ### Sine, cosine, exp2 and log2 (R123): fixed point with 400 fraction bits, and what is left (log 12) -/

/-- π/2 and ln 2 in units of 2^−400, rounded down. -/
def piHalf : Nat := 0x1921fb54442d18469898cc51701b839a252049c1114cf98e804177d4c76273644a29410f31c6809bbdf2a33679a7486366056
def lnTwo : Nat := 0xb17217f7d1cf79abc9e3b39803f2f6af40f343267298b62d8a0d175b8baafa2be7b876206debac98559552fb4afa1b10ed2e

/-- Multiplication in units of 2^−400. -/
def fxMul (a b : Nat) : Nat := a * b / 2 ^ 400

/-- Σ over n terms of y^i/i!-like series: term t, next term t·z/((k+1)(k+2)), alternating signs when `alt`. -/
def fxSeries (z : Nat) : Nat → Nat → Nat → Nat
  | 0, _, _ => 0
  | n + 1, t, k => t - fxSeries z n (fxMul t z / ((k + 1) * (k + 2))) (k + 2)

/-- Sine and cosine of r in [0, π/2], in units of 2^−400. -/
def fxSin (r : Nat) : Nat := fxSeries (fxMul r r) 60 r 1
def fxCos (r : Nat) : Nat := fxSeries (fxMul r r) 60 (2 ^ 400) 0

/-- e^y for y in [0, 1). -/
def fxExp (y : Nat) : Nat → Nat → Nat → Nat
  | 0, _, _ => 0
  | n + 1, t, k => t + fxExp y n (fxMul t y / (k + 1)) (k + 1)

/-- The artanh series of z: z + z³/3 + z⁵/5 + … -/
def fxAtanh (z2 : Nat) : Nat → Nat → Nat → Nat
  | 0, _, _ => 0
  | n + 1, t, k => t / k + fxAtanh z2 n (fxMul t z2) (k + 2)

/-- |x| = m·2^e as a number of units of 2^−400, for e ≥ −400. -/
def fxOf (m : Nat) (e : Int) : Nat := m * 2 ^ (e + 400).toNat

/-- Sine (odd) or cosine of ±m·2^e below 2^30, as an exact real with what is left. A small operand is bracketed
from its series: x − x³/6 lies just below x, and 1 − x²/2 just below 1. -/
def exTrig (cosine neg : Bool) (m : Nat) (e : Int) : Ex :=
  if (Nat.log2 m : Int) + e < -40 then
    bif cosine then { neg := false, m := 2 ^ 70 - 1, e := -70, more := true }
    else { neg := neg, m := m * 2 ^ 40 - 1, e := e - 40, more := true }
  else
    let x := fxOf m e
    let n := x / piHalf
    let r := x - n * piHalf
    let q := (bif cosine then n + 1 else n) % 4
    let v := bif q % 2 == 1 then fxCos r else fxSin r
    { neg := (bif cosine then false else neg) != (q == 2 || q == 3), m := v, e := -400, more := true }

/-- The operand is at or beyond 2^30. -/
def beyond30 (m : Nat) (e : Int) : Bool := 30 ≤ (Nat.log2 m : Int) + e

def ftrigV (cosine : Bool) (rm : RMode) (a : Nat) : Nat × BitVec 6 :=
  match f32.val a with
  | .nan s => (f32.nan, snanFlag [.nan s])
  | .inf _ => (f32.nan, flagRG)
  | .zero n => (bif cosine then 0x3F800000 else f32.withSign n 0, 0)
  | .fin n m e => bif beyond30 m e then (f32.nan, flagRG) else roundEx f32 rm (exTrig cosine n m e)

/-- 2^x for ±m·2^e, as an exact real; beyond ±2^10 any value that overflows or underflows alike stands for it. -/
def exExp2 (neg : Bool) (m : Nat) (e : Int) : Ex :=
  if 10 ≤ (Nat.log2 m : Int) + e then { neg := false, m := 1, e := bif neg then -1000 else 1000 }
  else
    let x := m * 2 ^ (e + 400).toNat
    let q := (bif neg then x + (2 ^ 400 - 1) else x) / 2 ^ 400
    let k := bif neg then -(Int.ofNat q) else Int.ofNat q
    let f := bif neg then q * 2 ^ 400 - x else x % 2 ^ 400
    if f = 0 then { neg := false, m := 1, e := k }
    else { neg := false, m := fxExp (fxMul f lnTwo) 90 (2 ^ 400) 0, e := k - 400, more := true }

def fexp2V (rm : RMode) (a : Nat) : Nat × BitVec 6 :=
  match f32.val a with
  | .nan s => (f32.nan, snanFlag [.nan s])
  | .inf n => (bif n then 0 else f32.inf false, 0)
  | .zero _ => (0x3F800000, 0)
  | .fin n m e => roundEx f32 rm (exExp2 n m e)

/-- log2 of m·2^e, which is not a power of two: the exponent plus ln(1 + t)/ln 2. -/
def exLog2 (m : Nat) (e : Int) : Ex :=
  let j := Nat.log2 m
  let k : Int := j + e
  -- 1 + t = m / 2^j, and z = t/(2 + t)
  let z := (m - 2 ^ j) * 2 ^ 400 / (m + 2 ^ j)
  let l : Nat := 2 * fxAtanh (fxMul z z) 140 z 1 * 2 ^ 400 / lnTwo
  let v := k * 2 ^ 400 + Int.ofNat l
  -- the value lies just above v: below zero its magnitude lies just below that of v
  if v < 0 then { neg := true, m := v.natAbs - 1, e := -400, more := true }
  else { neg := false, m := v.natAbs, e := -400, more := true }

/-- `flog2`: 1 gives +0 in every mode, and a finite x of 2^30 or more is rounded as a smaller one is (R123, log 112). -/
def flog2V (rm : RMode) (a : Nat) : Nat × BitVec 6 :=
  match f32.val a with
  | .nan s => (f32.nan, snanFlag [.nan s])
  | .zero _ => (f32.inf true, flagDZ)
  | .inf false => (f32.inf false, 0)
  | .inf true | .fin true _ _ => (f32.nan, flagNV)
  | .fin false m e =>
    if m = 2 ^ Nat.log2 m then
      let k : Int := Nat.log2 m + e
      if k = 0 then (0, 0) else roundEx f32 rm (exOf k 0)
    else roundEx f32 rm (exLog2 m e)

/-! ### Conversions (R127, R128, R206) -/

/-- A value of format S as FP32. -/
def widenV (s : Fmt) (a : Nat) : Nat × BitVec 6 :=
  let v := s.val a
  ((roundVal f32 .rne v).1, snanFlag [v])

/-- An FP32 value rounded to format D. -/
def narrowV (d : Fmt) (rm : RMode) (sat : Bool) (a : Nat) : Nat × BitVec 6 :=
  match f32.val a with
  | .nan s => (d.nan, snanFlag [.nan s])
  | .inf n => (d.inf n, bif d.e4m3 then flagNV else 0)
  | .zero n => (d.withSign n 0, 0)
  | .fin n m e => roundSat d rm sat { neg := n, m := m, e := e }

/-- An integer as FP32; 0 gives +0 in every mode (R128, log 112). -/
def intToF (rm : RMode) (x : Int) : Nat × BitVec 6 := if x = 0 then (0, 0) else roundEx f32 rm (exOf x 0)

/-- |x| rounded to an integer, and whether that was inexact. -/
def roundInt (rm : RMode) (neg : Bool) (m : Nat) (e : Int) : Nat × Bool :=
  if 0 ≤ e then (m * 2 ^ e.toNat, false)
  else
    let d := 2 ^ (-e).toNat
    (bif roundUp rm neg (m / d) (m % d) d false then m / d + 1 else m / d, m % d != 0)

def fToInt (t : Ty) (rm : RMode) (a : Nat) : Word × BitVec 6 :=
  match f32.val a with
  | .nan _ => (0, flagNV)
  | .inf n => (wordOf (bif n then t.minI else t.maxI), flagNV)
  | .zero _ => (0, 0)
  | .fin n m e =>
    let r := roundInt rm n m e
    let x : Int := bif n then -(r.1 : Int) else r.1
    let y := clampI t.minI t.maxI x
    (wordOf y, if x ≠ y then flagNV else bif r.2 then flagNX else 0)

def frintV (rm : RMode) (a : Nat) : Nat × BitVec 6 :=
  match f32.val a with
  | .nan s => (f32.nan, snanFlag [.nan s])
  | .fin n m e =>
    let r := (roundInt rm n m e).1
    (bif r == 0 then f32.withSign n 0 else (roundEx f32 .rne { neg := n, m := r, e := 0 }).1, 0)
  | v => ((roundVal f32 rm v).1, 0)

/-! ### The 4-bit block family (R129, R130, R210 to R212) -/

/-- Value of a code in units of 1/8, without its sign (R211). -/
def codeMag (ty c : Nat) : Nat :=
  if ty = 0 then 8 * (if c < 8 then c else 16 - c)
  else if ty = 1 then [0, 4, 8, 12, 16, 24, 32, 48].getD (c % 8) 0
  else if ty = 2 then if c = 8 then 0 else 2 ^ (c % 8)
  else 8 * [0, 1, 2, 3, 4, 6, 8, 12].getD (c % 8) 0

/-- The sign of a code: that of −0 too, but not of the power-of-two type's zero. -/
def codeNeg (ty c : Nat) : Bool := 8 ≤ c && !(ty == 2 && c == 8)

def zeroCode (ty : Nat) : Nat := if ty = 2 then 8 else 0

/-- The largest positive value, in units of 1/8. -/
def blockMax (ty : Nat) : Nat := if ty = 0 then 56 else if ty = 1 then 48 else if ty = 2 then 128 else 96

/-- The codes of one sign with their magnitudes, rising; the integer and the power-of-two type have one zero. -/
def codesOf (ty : Nat) (neg : Bool) : List (Nat × Nat) :=
  let cs : List Nat :=
    if ty = 0 then bif neg then [0, 15, 14, 13, 12, 11, 10, 9, 8] else [0, 1, 2, 3, 4, 5, 6, 7]
    else if ty = 2 then 8 :: (bif neg then [9, 10, 11, 12, 13, 14, 15] else [0, 1, 2, 3, 4, 5, 6, 7])
    else bif neg then [8, 9, 10, 11, 12, 13, 14, 15] else [0, 1, 2, 3, 4, 5, 6, 7]
  cs.map fun c => (c, codeMag ty c)

/-- |y| = n/d in units of 1/8, rounded to the codes of its sign: the code. -/
def pickCode (rm : RMode) (neg : Bool) (cs : List (Nat × Nat)) (n d : Nat) : Nat :=
  let lo := (cs.filter fun c => c.2 * d ≤ n).getLastD (0, 0)
  match cs.find? fun c => n < c.2 * d with
  | none => lo.1
  | some hi =>
    let r := n - lo.2 * d
    let w := (hi.2 - lo.2) * d
    let up := match rm with
      | .rtz => false
      | .rup => r != 0 && !neg
      | .rdn => r != 0 && neg
      | .rna => w ≤ 2 * r
      -- a tie goes to the code with bit 0 clear, and to zero between the power-of-two type's two such
      | .rne => decide (w < 2 * r) || (2 * r == w && lo.1 % 2 == 1)
      | .sto q => decide (q * w < 65536 * r)
    bif up then hi.1 else lo.1

/-- The code of an FP32 value under a scale byte, and the flags (R130, R212). -/
def quantV (rm : RMode) (sigma a : Nat) : Nat × BitVec 6 :=
  let ty := sigma / 64 % 4
  let ex : Int := sigma % 64
  let v := f32.val a
  if sigma % 64 = 63 then (zeroCode ty, snanFlag [v]) else
  match v with
  | .nan s => (zeroCode ty, snanFlag [.nan s])
  | .zero _ => (zeroCode ty, 0)
  | .inf n => (((codesOf ty n).getLastD (0, 0)).1, flagOF)
  | .fin n m e =>
    -- |y| in units of 1/8 is m·2^(e − EXP + 35)
    let k := e - ex + 35
    let (x, d) := if 0 ≤ k then (m * 2 ^ k.toNat, 1) else (m, 2 ^ (-k).toNat)
    let cs := codesOf ty n
    let top := cs.getLastD (0, 0)
    bif top.2 * d < x then (top.1, flagOF) else (pickCode rm n cs x d, 0)

/-- The value of a code under a scale byte, as FP32 (R130, R210). -/
def dequantV (sigma c : Nat) : Nat :=
  let ty := sigma / 64 % 4
  if sigma % 64 = 63 then f32.nan
  else if codeMag ty c = 0 then f32.withSign (codeNeg ty c && ty != 0) 0
  else (roundEx f32 .rne { neg := codeNeg ty c, m := codeMag ty c, e := (sigma % 64 : Int) - 35 }).1

/-- |a| ≤ Mt·2^(e − 32) for a finite FP32 value. -/
def fitsScale (ty : Nat) (e a : Nat) : Bool :=
  match f32.val a with
  | .fin _ m k => decide ((m : Int) * 2 ^ (k + 35 - e + 200).toNat ≤ blockMax ty * 2 ^ 200)
  | _ => true

/-- The scale byte of a block's active values (R129). -/
def scaleByte (ty : Nat) (xs : List Nat) : Nat :=
  let e := if xs.any fun x => match f32.val x with
      | .nan _ | .inf _ => true
      | _ => false then 63
    else ((List.range 63).find? fun e => xs.all (fitsScale ty e)).getD 62
  64 * ty + e

/-! ### The exact accumulator (R131, R216, R217) -/

/-- Add m·2^e, of which 2^−266 is a whole part; a sum outside 576 bits sets OVF. -/
def Xacc.addDy (x : Xacc) (m e : Int) : Xacc :=
  let s := x.j.toInt + m * 2 ^ (e + 266).toNat
  { x with j := BitVec.ofInt 576 s, ovf := x.ovf || decide (s < -(2 ^ 575)) || decide (2 ^ 575 ≤ s) }

def Xacc.addVal (x : Xacc) (v : FVal) : Xacc :=
  match v with
  | .nan _ => { x with nan := true }
  | .inf false => { x with pinf := true }
  | .inf true => { x with ninf := true }
  | .zero _ => x
  | .fin n m e => x.addDy (bif n then -(m : Int) else m) e

/-- The result of `xacc.rd` and its flags. -/
def Xacc.read (x : Xacc) (rm : RMode) : Nat × BitVec 6 :=
  if x.nan || x.ovf || (x.pinf && x.ninf) then (f32.nan, flagNV)
  else if x.pinf then (f32.inf false, 0)
  else if x.ninf then (f32.inf true, 0)
  else if x.j = 0 then (0, 0)
  else roundEx f32 rm (exOf x.j.toInt (-266))

/-! ### Random streams (R132, R133) -/

/-- A generator's state: x in the lowest word, then y, z and w. -/
abbrev Gen := BitVec 128

def Gen.word (g : Gen) (i : Nat) : Word := g.extractLsb' (32 * i) 32

/-- One step of the update map. -/
def Gen.step (g : Gen) : Gen :=
  let x := g.word 0
  let w := g.word 3
  let t := x ^^^ (x <<< 11)
  let w' := w ^^^ (w >>> 19) ^^^ t ^^^ (t >>> 8)
  w' ++ g.extractLsb' 32 96

/-- The output of a step is its new w. -/
def Gen.output (g : Gen) : Word := g.step.word 3

/-- A linear map of states by the images of the 128 unit states, and its use on a state. -/
def linApply (m : List Gen) (g : Gen) : Gen :=
  (m.zipIdx).foldl (fun a x => bif g.getLsbD x.2 then a ^^^ x.1 else a) 0

/-- M, and M^(2^k) by squaring k times. -/
def genMap : List Gen := (List.range 128).map fun i => Gen.step (1#128 <<< i)

def genPow : Nat → List Gen
  | 0 => genMap
  | k + 1 => let m := genPow k; m.map (linApply m)

/-- M^(2^k), …, M^(2^(k + n − 1)) applied by the binary digits of a multiplier, lowest first. -/
def genJumpFrom : Nat → List Gen → Nat → Gen → Gen
  | 0, _, _, g => g
  | n + 1, m, x, g =>
    if x = 0 then g else
    genJumpFrom n (m.map (linApply m)) (x / 2) (bif x % 2 == 1 then linApply m g else g)

/-- M^(n·2^64) applied to a state. -/
def Gen.jump (n : Nat) (g : Gen) : Gen := if n = 0 then g else genJumpFrom 64 (genPow 64) n g

/-- B of R133. -/
def Gen.base (seed : DWord) : Gen := (0x6A09E667 : Word) ++ (0x9E3779B1 : Word) ++ seed

end Sys2Proof.Machine
end

