-- ==== Sys2Proof/Machine/MatrixIssue.lean ====
section
/-! DEFINITION. The matrix engine up to the sending of a command: tile descriptors, the blocks of its commands with
their checks, and descriptor registers (15_matrix_engine R227 to R233, R238 to R244; 18 R284). -/
namespace Sys2Proof.Machine

/-! ### Tile descriptors (R227, R228) -/

structure Desc where
  base   : Nat
  stride : Nat
  rows   : Nat
  cols   : Nat
  ty     : Nat
  fwi    : Nat
  swz    : Nat
  spc    : Bool
  tr     : Bool
  aon    : Bool
  ind    : Bool
  rsv    : Nat
  deriving DecidableEq, Repr, Inhabited

def descOf (d : Nat) : Desc :=
  { base := bits d 63 0, stride := bits d 87 64, rows := bits d 99 88, cols := bits d 111 100, ty := bits d 115 112
    fwi := bits d 117 116, swz := bits d 119 118, spc := bit d 120, tr := bit d 121, aon := bit d 122
    ind := bit d 124, rsv := bits d 127 125 }

/-- The descriptor at an offset of a block image. -/
def descAt (b : List Byte) (off : Nat) : Desc := descOf (fieldB b off 16)

/-- The effective element type under a format word. -/
def Desc.eff (d : Desc) (fw : Nat) : Nat := if d.fwi = 0 then d.ty else bits fw (4 * d.fwi - 1) (4 * d.fwi - 4)

/-- The same descriptor with its effective type. -/
def Desc.typed (d : Desc) (fw : Nat) : Desc := { d with ty := d.eff fw }

/-- Bytes of an element; a 4-bit element's run of two counts as one byte. -/
def elemSize (ty : Nat) : Nat := if ty = 5 then 4 else if ty = 6 ∨ ty = 7 then 2 else 1

def isB4 (ty : Nat) : Bool := ty == 10

/-- Bytes of a stored row. -/
def Desc.rowBytes (d : Desc) (ty : Nat) : Nat :=
  bif isB4 ty then d.cols / 2 + d.cols / 32 else d.cols * elemSize ty

/-- The length of the extent. -/
def Desc.extent (d : Desc) (ty : Nat) : Nat :=
  let rb := d.rowBytes ty
  (d.rows - 1) * d.stride + (if d.swz = 0 then rb else (rb + 255) / 256 * 256)

/-- The logical sizes. -/
def Desc.lrows (d : Desc) : Nat := bif d.tr then d.cols else d.rows
def Desc.lcols (d : Desc) : Nat := bif d.tr then d.rows else d.cols

/-- The address of byte `x` of stored row `r`. -/
def Desc.at_ (d : Desc) (r x : Nat) : Nat :=
  d.base + r * d.stride + (if d.swz = 1 then x ^^^ (16 * (r % 16)) else if d.swz = 2 then x ^^^ (32 * (r % 8)) else x)

/-- What R227, R228 and R233 ask of any descriptor with its effective type. -/
def Desc.ok (d : Desc) (ty win : Nat) : Bool :=
  d.rsv == 0 && !d.ind && d.swz != 3 && d.rows != 0 && d.cols != 0
    && (d.fwi == 0 || d.ty == 0) && 5 ≤ ty && ty ≤ 10
    && (!isB4 ty || d.cols % 32 == 0)
    && d.rowBytes ty ≤ d.stride && d.base % elemSize ty == 0
    && (d.swz == 0 || (d.base % 256 == 0 && d.stride % 256 == 0))
    && (bif d.spc then d.base < 2 ^ 32 && d.base + d.extent ty ≤ win
        else d.base + d.extent ty ≤ 2 ^ 56)

/-- What an all-or-nothing store and a versioned load ask of a descriptor (R241). -/
def Desc.aonOk (d : Desc) (ty : Nat) : Bool := d.base % 8 == 0 && 8 ≤ d.base && d.extent ty ≤ 262144

/-- An IND descriptor of a block is replaced by the register it names (R231 step 3). -/
def resolveInd (r : Regs) (off : Nat) (b : List Byte) : List Byte :=
  let d := fieldB b off 16
  if bit d 124 ∧ d % 2 ^ 4 + 2 ^ 124 = d then b.take off ++ leBytes 16 (r.getT (d % 16)).toNat ++ b.drop (off + 16) else b

/-! ### Blocks -/

/-- K of one tile of an element type (R232). -/
def tileK (ta : Nat) : Nat := if ta = 10 then 64 else if ta = 8 ∨ ta = 9 then 32 else 16

/-- The failing reason of a format word, if it fails (R232, R231 step 4). -/
def formatBad (fw acc : Nat) : Option Nat :=
  let ta := bits fw 3 0
  let tb := bits fw 7 4
  let tc := bits fw 11 8
  let pair := (ta == tb && (ta == 6 || ta == 7 || ta == 10)) || ((ta == 8 || ta == 9) && (tb == 8 || tb == 9))
  if fw / 2 ^ 12 ≠ 0 ∨ (tc ≠ 5 ∧ tc ≠ 6) ∨ !pair then some 14
  else if acc ≠ 0 ∧ 8 ≤ ta then some 7
  else none

/-- The fields of an `mx.mma` block (R195). -/
structure MmaBlk where
  mt   : Nat
  nt   : Nat
  kt   : Nat
  mode : Nat
  acn  : Nat
  da   : Desc
  db   : Desc
  deriving DecidableEq, Repr

def mmaBlk (b : List Byte) (fw : Nat) : MmaBlk :=
  { mt := fieldB b 0 1, nt := fieldB b 1 1, kt := fieldB b 2 1, mode := fieldB b 3 1, acn := fieldB b 4 2
    da := (descAt b 0x10).typed fw, db := (descAt b 0x20).typed fw }

/-- K-slices of one output tile (R234). -/
def MmaBlk.slices (m : MmaBlk) : Nat := m.kt * tileK m.da.ty / 16
def MmaBlk.steps (m : MmaBlk) : Nat := m.mt * m.nt * m.slices

/-- The conditions of R233, in ascending offset; a product of 2^24 steps or more is charged to the first field. -/
def mmaFields (b : List Byte) (fw win : Nat) : List (Nat × Bool) :=
  let m := mmaBlk b fw
  let ra := descAt b 0x10
  let rb := descAt b 0x20
  let ta := bits fw 3 0
  let tb := bits fw 7 4
  let k := m.kt * tileK ta
  [(0x00, m.mt != 0 && m.mt * m.nt * (k / 16) < 2 ^ 24), (0x01, m.nt != 0), (0x02, m.kt != 0), (0x03, m.mode ≤ 1),
   (0x04, m.acn + m.mt * m.nt ≤ 512), (0x06, fieldB b 6 10 == 0),
   (0x10, ra.ok (ra.eff fw) win && ra.eff fw == ta && !ra.aon && ra.lrows == 16 * m.mt && ra.lcols == k
      && !(isB4 ta && ra.tr)),
   (0x20, rb.ok (rb.eff fw) win && rb.eff fw == tb && !rb.aon && rb.lrows == k && rb.lcols == 16 * m.nt
      && (!isB4 tb || rb.tr)),
   (0x30, fieldB b 0x30 16 == 0)]

/-- The fields of an `mx.st` or `mx.ld` block (R238, R239). -/
structure StBlk where
  rmc  : Nat
  sat  : Bool
  bt   : Nat
  mode : Nat
  acn  : Nat
  d    : Desc
  deriving DecidableEq, Repr

def stBlk (b : List Byte) : StBlk :=
  { rmc := fieldB b 0 1, sat := bit (fieldB b 1 1) 0, bt := fieldB b 2 1, mode := fieldB b 3 1, acn := fieldB b 4 2
    d := descAt b 0x10 }

def StBlk.mt (m : StBlk) : Nat := m.d.lrows / 16
def StBlk.nt (m : StBlk) : Nat := m.d.lcols / 16

/-- A descriptor without format-word type, of a given type, in whole tiles. -/
def tilesOk (d : Desc) (ty win : Nat) : Bool :=
  d.ok ty win && d.fwi == 0 && d.ty == ty && d.lrows % 16 == 0 && d.lcols % 16 == 0

def stFields (ty : Nat) (b : List Byte) (_ win : Nat) : List (Nat × Bool) :=
  let m := stBlk b
  let b4 := isB4 ty
  [(0x00, bif b4 then m.rmc == 0 || m.rmc == 5 else decide (m.rmc ≤ 6)), (0x01, fieldB b 1 1 ≤ 1),
   (0x02, bif b4 then decide (m.bt ≤ 3) else m.bt == 0), (0x03, m.mode == 0),
   (0x04, m.acn + m.mt * m.nt ≤ 512), (0x06, fieldB b 6 10 == 0),
   (0x10, tilesOk m.d ty win && !(b4 && m.d.tr) && (!m.d.aon || m.d.aonOk ty)), (0x20, fieldB b 0x20 32 == 0)]

def ldFields (ty : Nat) (sto : Bool) (b : List Byte) (_ win : Nat) : List (Nat × Bool) :=
  let m := stBlk b
  [(0x00, m.rmc == 0), (0x01, fieldB b 1 1 == 0), (0x02, m.bt == 0), (0x03, m.mode ≤ 1 && !(sto && m.mode == 1)),
   (0x04, m.acn + m.mt * m.nt ≤ 512), (0x06, fieldB b 6 10 == 0), (0x10, tilesOk m.d ty win),
   (0x20, fieldB b 0x20 32 == 0)]

/-- The block of `mx.rq` (R243). -/
structure RqBlk where
  rmc  : Nat
  bt   : Nat
  seed : Nat
  src  : Desc
  dst  : Desc
  deriving DecidableEq, Repr

def rqBlk (b : List Byte) : RqBlk :=
  { rmc := fieldB b 0 1, bt := fieldB b 1 1, seed := fieldB b 2 2, src := descAt b 0x10, dst := descAt b 0x20 }

def b4Ok (d : Desc) (win : Nat) : Bool := d.ok 10 win && d.fwi == 0 && d.ty == 10 && !d.tr

/-- AON of a source descriptor, here and in `mx.ld`, has no condition and no effect (log 104). -/
def rqFields (b : List Byte) (_ win : Nat) : List (Nat × Bool) :=
  let m := rqBlk b
  [(0x00, m.rmc == 0 || m.rmc == 5 || m.rmc == 6), (0x01, m.bt ≤ 3), (0x04, fieldB b 4 12 == 0),
   (0x10, b4Ok m.src win && m.src.rows % 32 == 0),
   (0x20, b4Ok m.dst win && !m.dst.aon && m.dst.rows == m.src.cols && m.dst.cols == m.src.rows),
   (0x30, fieldB b 0x30 16 == 0)]

/-- The block of `tst` and `tld.v` (R284): its descriptors. -/
def copyFields (load : Bool) (b : List Byte) (_ win : Nat) : List (Nat × Bool) :=
  let x := descAt b 0
  let y := descAt b 0x10
  [(0x00, x.ok x.ty win && x.fwi == 0 && x.spc != load && !(isB4 x.ty && x.tr) && (!load || x.aonOk x.ty)),
   (0x10, y.ok y.ty win && y.fwi == 0 && y.spc == load && !(isB4 y.ty && y.tr)
      && (bif load then !y.aon else !y.aon || y.aonOk y.ty)
      && y.ty == x.ty && y.lrows == x.lrows && y.lcols == x.lcols),
   (0x20, fieldB b 0x20 32 == 0)]

/-! ### Checks at issue (R231) -/

/-- The accumulators that the team declares. -/
def accCount (s : State) (c : Ctx) : Nat := ((c.ref.bind fun r => s.team? r.team).map fun t => t.accs.length).getD 0

/-- Accumulators `[n, n + k)` are declared, or the register-range fault names the first that is not. -/
def accTraps (s : State) (c : Ctx) (n k : Nat) : List (Nat × TrapInfo) :=
  let a := accCount s c
  if n + k ≤ a then [] else inLanes c.e { cause := 5, det := max n a }

/-- The block image of a command: the bytes in the window, with the IND descriptors at `inds` resolved. -/
def mxImage (s : State) (c : Ctx) (sb : UReg) (inds : List Nat) : List Byte :=
  inds.foldl (fun b o => resolveInd c.r o b) (windowBlock s c (c.r.getS sb.toNat).toNat 64)

/-- Steps 2 to 4 of R231. `bad` is what fails before the block's fields, `accs` the accumulators that a good block names. -/
def mxChecks (fw : Nat) (bad : List Byte → Option TrapInfo) (inds : List Nat) (fields : List Byte → Nat → Nat → List (Nat × Bool))
    (accs : List Byte → Nat × Nat) (sb : UReg) (s : State) (c : Ctx) : List (Nat × TrapInfo) :=
  let t := winBlockTrap s c (c.r.getS sb.toNat).toNat 64 64
  if !t.isEmpty then t else
  let b := mxImage s c sb inds
  match bad b with
  | some x => inLanes c.e x
  | none =>
    match firstFail (fields b fw (winSizeOf s c)) with
    | some x => blockField c x
    | none => accTraps s c (accs b).1 (accs b).2

/-- A command on its way to the engine. -/
structure MxSend where
  opc  : Nat
  acc  : BitVec 2 := 0
  sco  : Scope
  func : BitVec 14 := 0
  fw   : Word := 0

/-- Step 5: the command joins the engine's queue; `rm` is `%frm` for a block that asks for it. -/
def sendMx (m : MxSend) (blk : State → Ctx → List Byte) (st : List Byte → Bool) (id : Nat) (r : WaveRef) (c : Ctx)
    (s : State) : State :=
  let b := blk s c
  let core := s.coreOf r
  let cmd : MxCmd := { id := id, by_ := issuerOf s c, opc := m.opc, acc := m.acc, sco := m.sco, func := m.func
                       blk := b, fw := m.fw, rm := c.r.frm, stCnt := st b }
  let s := bif m.opc == 0x383 then s else s.charge (s.fnOf r) (coreDom core) 7 1
  s.modCore core fun x => { x with matrix := x.matrix ++ [cmd] }

/-! ### `mx.mma` -/

/-- The elected lane's format word, and the lanes of E that differ from it (step 1). -/
def electedFw (c : Ctx) (va : VReg) : Word := c.r.getV va.toNat c.lead
def dissent (c : Ctx) (va : VReg) : List Nat :=
  c.e.lanes.filter fun l => c.r.getV va.toNat l != electedFw c va

def mmaAccs (b : List Byte) : Nat × Nat := (fieldB b 4 2, fieldB b 0 1 * fieldB b 1 1)

def mmaChecks (h : Head) (o : MxMma) (s : State) (c : Ctx) : List (Nat × TrapInfo) :=
  let fw := electedFw c o.va
  match dissent c o.va with
  | [] => mxChecks fw.toNat (fun _ => (formatBad fw.toNat h.acc.toNat).map fun r => { cause := 1, rsn := r, code := 0x40 }) [0x10, 0x20] mmaFields mmaAccs o.sb s c
  | ls => ls.map fun l => (l, { cause := 6, det := fw.toNat })

/-- Lanes of E that agree in a vote that fails move on with those whose predicate is false. -/
def mmaMoves (o : MxMma) (c : Ctx) : Mask :=
  let d := dissent c o.va
  let agree := bif d.isEmpty then 0 else Mask.ofFn 64 fun l => c.e.has l && !d.contains l
  (c.iss &&& ~~~c.e) ||| agree

def execMxMma (h : Head) (o : MxMma) (s : State) : Host.Outcome State Fault Refusal :=
  match s.issue with
  | none => .fault .noIssue
  | some i =>
    let cs := contexts s i h
    let bad := cs.map fun c => (c, mmaChecks h o s c)
    if bad.any fun x => !x.2.isEmpty then
      .next (raiseAll (cs.foldl (fun s c => advance s i c (mmaMoves o c)) s) bad)
    else .next (cs.foldl (fun s c =>
      cmdPart [.tl] (sendMx { opc := 0x380, acc := h.acc, sco := o.sco, fw := electedFw c o.va }
        (fun s c => mxImage s c o.sb [0x10, 0x20]) (fun _ => false)) i c s) s)

/-! ### The other commands -/

/-- The tiles that a store or load names. -/
def stAccs (b : List Byte) : Nat × Nat := ((stBlk b).acn, (stBlk b).mt * (stBlk b).nt)
def noAccs (_ : List Byte) : Nat × Nat := (0, 0)

/-- Counters of a part's command: TL, and ST too when its block has a global destination (R238). -/
def storeCtrs (g : Bool) : List Ctr := bif g then [.tl, .st] else [.tl]

/-- A command whose destination descriptor, at `off`, decides its counters. -/
def storePart (m : MxSend) (sb : UReg) (inds : List Nat) (off : Nat) (i : Issue) (c : Ctx) (s : State) : State :=
  let img := fun (s : State) (c : Ctx) => mxImage s c sb inds
  let isGlobal := fun (b : List Byte) => !(descAt b off).spc
  cmdPart (storeCtrs (isGlobal (img s c))) (sendMx m img isGlobal) i c s

def execMxSt (h : Head) (o : MxSt) (s : State) :=
  let ty := o.ty.code.toNat
  runEach h (mxChecks 0 (fun _ => none) [0x10] (stFields ty) stAccs o.sb)
    (storePart { opc := 0x381, sco := o.sco, func := BitVec.ofNat 14 ty } o.sb [0x10] 0x10) s

/-- A stochastic tile that is overwritten takes BF16 alone: another type is an operand that the form does not have, reason
7 (R239, log 103). -/
def ldBad (o : MxLd) (b : List Byte) : Option TrapInfo :=
  if o.sto ∧ o.ty ≠ .bf16 ∧ (stBlk b).mode = 0 then some (illegal 7) else none

def ldChecks (o : MxLd) : State → Ctx → List (Nat × TrapInfo) :=
  mxChecks 0 (ldBad o) [0x10] (ldFields o.ty.code.toNat o.sto) stAccs o.sb

def execMxLd (h : Head) (o : MxLd) (s : State) :=
  runEach h (ldChecks o)
    (cmdPart [.tl] (sendMx { opc := 0x382, sco := o.sco, func := BitVec.ofNat 14 (o.ty.code.toNat + bif o.sto then 16 else 0) }
      (fun s c => mxImage s c o.sb [0x10]) (fun _ => false))) s

def execMxRq (h : Head) (o : AsyOp) (s : State) :=
  runEach h (mxChecks 0 (fun _ => none) [0x10, 0x20] rqFields noAccs o.sb)
    (storePart { opc := 0x384, sco := o.sco } o.sb [0x10, 0x20] 0x20) s

def execTst (h : Head) (o : AsyOp) (s : State) :=
  runEach h (mxChecks 0 (fun _ => none) [0, 0x10] (copyFields false) noAccs o.sb)
    (storePart { opc := 0x350, sco := o.sco } o.sb [0, 0x10] 0x10) s

def execTldV (h : Head) (o : AsyOp) (s : State) :=
  runEach h (mxChecks 0 (fun _ => none) [0, 0x10] (copyFields true) noAccs o.sb)
    (cmdPart [.tl] (sendMx { opc := 0x351, sco := o.sco } (fun s c => mxImage s c o.sb [0, 0x10]) (fun _ => false))) s

/-- The image of an `mx.clr`: its first accumulator and its count (R245). -/
def clrImage (o : MxClr) (_ : State) (c : Ctx) : List Byte :=
  leBytes 2 (c.r.getS o.sb.toNat).toNat ++ leBytes 2 (c.r.getS o.sc.toNat).toNat ++ List.replicate 60 0

def clrChecks (o : MxClr) (s : State) (c : Ctx) : List (Nat × TrapInfo) :=
  let n := (c.r.getS o.sb.toNat).toNat
  let k := (c.r.getS o.sc.toNat).toNat
  if k = 0 ∨ 512 < k ∨ 511 < n + k - 1 then blockField c 0 else accTraps s c n k

def execMxClr (h : Head) (o : MxClr) (s : State) :=
  runEach h (clrChecks o)
    (cmdPart [.tl] (sendMx { opc := 0x383, sco := o.sco, func := bif o.sto then 1 else 0 } (clrImage o) (fun _ => false))) s

/-! ### Descriptor registers (R244) -/

def tdChecks (o : TdOp) (s : State) (c : Ctx) : List (Nat × TrapInfo) :=
  winBlockTrap s c (c.r.getS o.sb.toNat).toNat 16 16

/-- The charge of a window access of a wave. -/
def chargeSpad (s : State) (r : WaveRef) : State := s.charge (s.fnOf r) (coreDom (s.coreOf r)) 7 1

/-- Read 16 window bytes into a descriptor register, as the wave's earlier stores and atomics leave them (R139). -/
def execTdLd (h : Head) (o : TdOp) (s : State) :=
  runEach h (tdChecks o)
    (fun i c s => match c.ref with
      | none => advance s i c c.iss
      | some r =>
        if c.e = 0 then advance s i c c.iss else
        let off := (c.r.getS o.sb.toNat).toNat
        let s := performMeeting s r [(.win r.team off, 16)]
        let b := windowBlock s c off 16
        advance (chargeSpad (putRegs s c (c.r.setT o.t.toNat (BitVec.ofNat 128 (leNat b)))) r) i c c.iss) s

/-- Write a descriptor register to 16 window bytes, after the wave's earlier accesses to them (R139). -/
def execTdSt (h : Head) (o : TdOp) (s : State) :=
  runEach h (tdChecks o)
    (fun i c s => match c.ref with
      | none => advance s i c c.iss
      | some r =>
        if c.e = 0 then advance s i c c.iss else
        let s := writeBytes (performAll s r) (.win r.team (c.r.getS o.sb.toNat).toNat) (leBytes 16 (c.r.getT o.t.toNat).toNat)
        advance (chargeSpad s r) i c c.iss) s

/-- BASE takes the pair's value; the other fields stay. -/
def execTdBase (h : Head) (o : TdOp) (s : State) :=
  runRegs h noTrap (onceE fun _ r =>
    r.setT o.t.toNat ((r.getT o.t.toNat).extractLsb' 64 64 ++ r.getPair o.sb.toNat)) s

end Sys2Proof.Machine
end

