-- ==== Sys2Proof/Machine/MatrixRun.lean ====
section
/-! DEFINITION. The matrix engine at work: steps of a multiply-accumulate, stores, loads and clears of accumulators,
requantisation, tile copies and the version-word protocol (15_matrix_engine R234 to R243, R246; 13 R213 to R215;
18 R284). Commands are performed one after another in arrival order (R235). -/
namespace Sys2Proof.Machine

/-! ### Values and accumulators (R213 to R215, R234) -/

/-- The exact sum of values, special ones included; a zero keeps its sign only when every addend has it (R118). -/
def sumVals (xs : List FVal) : FVal :=
  if xs.any FVal.isNan then .nan false else
  let pos := xs.contains (.inf false)
  let neg := xs.contains (.inf true)
  if pos ∧ neg then .nan false
  else if pos then .inf false
  else if neg then .inf true
  else
    let d := dySum (xs.map FVal.dy)
    if d.1 = 0 then .zero (!xs.isEmpty && xs.all fun x => x == .zero true)
    else .fin (d.1 < 0) d.1.natAbs d.2

/-- One step of a column generator (R215). -/
def colStep (x : Word) : Word :=
  let x := x ^^^ (x <<< 13)
  let x := x ^^^ (x >>> 17)
  x ^^^ (x <<< 5)

/-- The draw of a generator's state. -/
def colDraw (x : Word) : Nat := x.toNat / 65536

def seedWord (seed : DWord) (n : Nat) : Word :=
  let s := loW seed ^^^ hiW seed ^^^ BitVec.ofNat 32 (0x9E3779B1 * n)
  if s = 0 then 0x6A09E667 else s

/-- `seed(n, j)`. -/
def colSeed (seed : DWord) (n j : Nat) : Word := seedWord seed (16 * n + j + 1)

/-- An update in stochastic BF16 mode with the draw `q` (R214). -/
def updSto (q : Nat) (v : FVal) : Word :=
  match v with
  | .nan _ => 0x7FC0
  | .inf n => BitVec.ofNat 32 (bf16.inf n)
  | .zero n => BitVec.ofNat 32 (bf16.withSign n 0)
  | .fin n m e =>
    let t := ((roundEx f32 .rtz { neg := false, m := m, e := e }).1 + q) / 65536
    BitVec.ofNat 32 (bf16.withSign n (if 0x7F80 ≤ t then 0x7F80 else t))

/-- An update in FP32 mode. -/
def updF32 (v : FVal) : Word := BitVec.ofNat 32 (roundVal f32 .rne v).1

/-- The format of a tile's elements. -/
def AccFmt.fmt : AccFmt → Fmt
  | .f32 => Sys2Proof.Machine.f32
  | .sto => bf16

def accFmtOf (tc : Nat) : AccFmt := if tc = 6 then .sto else .f32

/-- Update every element of a tile with `v i j e`, `e` the element's value; in stochastic mode each column draws row
by row. -/
def Acc.update (a : Acc) (v : Nat → Nat → FVal → FVal) : Acc :=
  (List.range 256).foldl (fun (a : Acc) n =>
    let i := n / 16
    let j := n % 16
    let x := v i j (a.fmt.fmt.val (a.e.getD n 0).toNat)
    match a.fmt with
    | .f32 => { a with e := a.e.set n (updF32 x) }
    | .sto =>
      let g := colStep (a.g.getD j 0)
      { a with e := a.e.set n (updSto (colDraw g) x), g := a.g.set j g }) a

def Acc.reseed (seed : DWord) (n : Nat) (a : Acc) : Acc := { a with g := (List.range 16).map (colSeed seed n) }

/-- A tile in a format, holding +0; a stochastic one is reseeded. -/
def Acc.clear (fmt : AccFmt) (seed : DWord) (n : Nat) (a : Acc) : Acc :=
  let a := { a with fmt := fmt, e := List.replicate 256 0 }
  if fmt = .sto then a.reseed seed n else a

def getAcc (s : State) (t n : Nat) : Acc := ((s.team? t).map fun x => x.accs.getD n {}).getD {}
def modAcc (s : State) (t n : Nat) (f : Acc → Acc) : State :=
  s.modTeam t fun x => { x with accs := x.accs.modify n f }

/-- `%seed` of an issuer's launch. -/
def seedOf (s : State) (b : Issuer) : DWord := ((s.launch? b.launch).map (·.seed)).getD 0

/-! ### Pieces of an operand -/

/-- The bytes of logical element (i, j), and of byte `x` of a row of 4-bit blocks. -/
def elemPiece (d : Desc) (i j : Nat) : Nat × Nat :=
  let (r, c) := bif d.tr then (j, i) else (i, j)
  (d.at_ r (c * elemSize d.ty), elemSize d.ty)

/-- A logical row as pieces in order: its elements, or its code bytes and then its scale bytes. -/
def rowPieces (d : Desc) (i : Nat) : List (Nat × Nat) :=
  bif isB4 d.ty then (List.range (d.rowBytes d.ty)).map fun x => (d.at_ i x, 1)
  else (List.range d.lcols).map fun j => elemPiece d i j

/-- Adjoining pieces joined. -/
def joinPieces (ps : List (Nat × Nat)) : List (Nat × Nat) :=
  (ps.foldl (fun (a : List (Nat × Nat)) p => match a with
    | (x, n) :: rest => bif x + n == p.1 then (x, n + p.2) :: rest else p :: a
    | [] => [p]) []).reverse

/-- Joined pieces with the bytes that go there. -/
def joinData (ps : List (Nat × List Byte)) : List (Nat × List Byte) :=
  (ps.foldl (fun (a : List (Nat × List Byte)) p => match a with
    | (x, b) :: rest => bif x + b.length == p.1 then (x, b ++ p.2) :: rest else p :: a
    | [] => [p]) []).reverse

/-- Data laid over pieces in order. -/
def layData : List (Nat × Nat) → List Byte → List (Nat × List Byte)
  | [], _ => []
  | (a, n) :: ps, b => (a, b.take n) :: layData ps (b.drop n)

def mxRead (s : State) (b : Issuer) (d : Desc) (a n : Nat) : List Byte :=
  bif d.spc then readBytes s (.win b.team a) n else getGlobal s b a n

def readPieces (s : State) (b : Issuer) (d : Desc) (ps : List (Nat × Nat)) : List Byte :=
  (joinPieces ps).flatMap fun p => mxRead s b d p.1 p.2

/-- The engine has a page's translation for a command. -/
def mxHas (s : State) (core : Nat) (c : MxCmd) : Nat → Bool := held (s.core core).mxTlb c.walked c.by_.fn

/-- What stands in the way of a command's access to pieces of an operand: the first hindrance in order. -/
def piecesAccess (s : State) (core : Nat) (c : MxCmd) (d : Desc) (ps : List (Nat × Nat)) (write : Bool) : Access :=
  if d.spc then .ok else
  (joinPieces ps).foldl (fun a p => match a with
    | .ok => engineAccess s (mxHas s core c) c.by_.fn p.1 p.2 write c.wait c.lost
    | a => a) .ok

/-- Charge the distinct 64-byte lines of pieces that are read, or written when `put` (R246, R325). -/
def chargePieces (s : State) (c : MxCmd) (core : Nat) (d : Desc) (ps : List (Nat × Nat)) (put : Bool := false) : State :=
  let lines := (ps.flatMap fun p => (List.range (linesOf p.1 p.2)).map fun i => p.1 / 64 + i).dedup
  if d.spc then s.charge c.by_.fn (coreDom core) 7 lines.length
  else
    let ls := lines.filterMap fun l => match findVa s c.by_.fn (64 * l) with
      | .at_ _ x => some x
      | _ => none
    bif put then chargePut s c.by_ core ls else chargeDirect s c.by_.fn ls

/-- Report a fault of the command's current step (R237). -/
def mxFault (s : State) (c : MxCmd) (core cause a : Nat) : State :=
  issuerFault s c.by_ cause (1 + 256 * core) a c.step

/-- A piece put into a list of pieces in order of address. -/
def putPiece (p : Nat × List Byte) : List (Nat × List Byte) → List (Nat × List Byte)
  | [] => [p]
  | q :: qs => bif p.1 < q.1 then p :: q :: qs else q :: putPiece p qs

/-- The bytes of a row, wherever its swizzle puts them, by 64-byte line. -/
def rowLines (ps : List (Nat × List Byte)) : List (Nat × List Byte) :=
  (joinData ((joinData ps).foldl (fun a p => putPiece p a) [])).flatMap fun p =>
    (lineParts p.1 p.2.length).map fun x => (x.1, (p.2.drop x.2.1).take x.2.2)

/-- Write a row. One whose write fails where it is performed is an imprecise store fault: the lines that fail are not
written, and one record names the first of them (R238). -/
def writePieces (s : State) (c : MxCmd) (core : Nat) (d : Desc) (ps : List (Nat × List Byte)) : State :=
  if d.spc then (joinData ps).foldl (fun s p => writeBytes s (.win c.by_.team p.1) p.2) s
  else
    let ls := rowLines ps
    let bad := if issuerDet s c.by_ then [] else ls.filter (lineFails s c.by_.fn)
    let s := (ls.filter fun p => !bad.contains p).foldl (fun s p => putGlobal s c.by_ p.1 p.2) s
    match bad.head? with
    | some p => mxFault s c core 0x10 p.1
    | none => s

/-- The code of element (r, c) of stored 4-bit rows, as an FP32 value (R210, R228). -/
def b4Value (s : State) (b : Issuer) (d : Desc) (r c : Nat) : Word :=
  let code := ((mxRead s b d (d.at_ r (c / 2)) 1).getD 0 0).toNat
  let sigma := ((mxRead s b d (d.at_ r (d.cols / 2 + c / 32)) 1).getD 0 0).toNat
  BitVec.ofNat 32 (dequantV sigma (if c % 2 = 1 then code / 16 else code % 16))

/-- Pieces of a 4-bit run `[c, c + n)` of a stored row: code bytes and the scale bytes of its blocks. -/
def b4Pieces (d : Desc) (r c n : Nat) : List (Nat × Nat) :=
  ((List.range (n / 2)).map fun x => (d.at_ r (c / 2 + x), 1))
    ++ (List.range ((n + 31) / 32)).map fun x => (d.at_ r (d.cols / 2 + c / 32 + x), 1)

/-! ### The engine's queue -/

/-- The accumulators that a command names: the first and how many. -/
def MxCmd.tiles (c : MxCmd) : Nat × Nat :=
  if c.opc = 0x380 then mmaAccs c.blk
  else if c.opc = 0x381 ∨ c.opc = 0x382 then stAccs c.blk
  else if c.opc = 0x383 then (fieldB c.blk 0 2, fieldB c.blk 2 2)
  else (0, 0)

/-- Two commands share a tile: they are performed one after the other (R235). -/
def MxCmd.shares (a b : MxCmd) : Bool :=
  a.by_.team == b.by_.team && decide (a.tiles.1 < b.tiles.1 + b.tiles.2) && decide (b.tiles.1 < a.tiles.1 + a.tiles.2)

/-- The command waits for a page, or for a walk. -/
def MxCmd.stalled (c : MxCmd) : Bool := !c.misses.isEmpty || (c.wait.isSome && !c.lost)

/-- The commands that no pre-emption stops, in order of arrival. -/
def mxQueue (s : State) (core : Nat) : List MxCmd := (s.core core).matrix.filter fun c => c.midUnit || !c.by_.held s

/-- The command that the engine performs: the first that it has taken and that is not stalled. -/
def mxHead (s : State) (core : Nat) : Option MxCmd := (mxQueue s core).find? fun c => c.taken && !c.stalled

/-- A function's next command: the first that is not taken, once no command taken before it shares a tile with it. Other
commands may wait meanwhile for pages (R235, log 41). -/
def mxNext (cs : List MxCmd) (f : Nat) : Option MxCmd :=
  (cs.find? fun c => c.by_.fn == f && !c.taken).filter fun c => cs.all fun d => !(d.taken && d.shares c)

def setMx (s : State) (core : Nat) (c : MxCmd) : State :=
  s.modCore core fun x => { x with matrix := x.matrix.map fun y => bif y.id == c.id then c else y }

/-- The command has ended: it retires on TL, and together with it on ST when it counts there (R238). -/
def endMx (s : State) (core : Nat) (c : MxCmd) : State :=
  let s := s.modCore core fun x => { x with matrix := x.matrix.filter fun y => y.id != c.id }
  let r : WaveRef := ⟨c.by_.team, c.by_.wave⟩
  bif c.stCnt then retireBoth s r c.id else retireOp s r .tl c.id

/-- The command parks on a page, whose migration starts (R236). -/
def parkMx (s : State) (core : Nat) (c : MxCmd) (page : Nat) : State :=
  startMigration (setMx s core { c with wait := some page, lost := false, state := .parked, walked := [] })
    (coreStand core) c.by_.fn page true

/-- A translation miss delays the command's unit (R236). -/
def missMx (s : State) (core : Nat) (c : MxCmd) (page : Nat) : State :=
  walkPage (setMx s core { c with misses := [page] }) core c.by_.fn page .matrix

/-- An engine fault ends the command (R237). -/
def faultMx (s : State) (core : Nat) (c : MxCmd) (cause a : Nat) : State := endMx (mxFault s c core cause a) core c

/-- The command as its next unit begins. -/
def MxCmd.fresh (c : MxCmd) : MxCmd := { c with wait := none, lost := false, state := .running, misses := [], walked := [] }

/-- A unit of a command is performed: the next is due, or the command ends after `total`. -/
def nextUnit (s : State) (core : Nat) (c : MxCmd) (total : Nat) : State :=
  let c := { c.fresh with step := c.step + 1, row := 0, buf := [] }
  bif total ≤ c.step then endMx s core c else setMx s core c

/-- A unit begins, when nothing stands in its way. -/
def onAccess (s : State) (core : Nat) (c : MxCmd) (a : Access) (go : State) : State :=
  match a with
  | .ok => go
  | .miss p => missMx s core c p
  | .park p => parkMx s core c p
  | .fault cause at_ => faultMx (noteErrorAt s c.by_.fn at_) core c cause at_

/-- Run a unit for which `a` says what stands in its way. -/
def runUnit (s : State) (core : Nat) (c : MxCmd) (a : Access) (total : Nat) (go : State → State) : State :=
  onAccess s core c a (nextUnit (go s) core c total)

/-- The lowest accumulator of a range whose format is not the one named. -/
def mismatch (s : State) (t n k : Nat) (f : AccFmt) : Option Nat :=
  ((List.range k).map (· + n)).find? fun x => (getAcc s t x).fmt != f

/-- With no command that it can go on with, the engine chooses between the functions that have a next one (R311). -/
def mxChoose (s : State) (core : Nat) : Option (State × MxCmd) :=
  if (mxHead s core).isSome then none else
  let cs := mxQueue s core
  match chooseFn s (.matrix core) ((cs.map fun x => x.by_.fn).dedup.filter fun f => (mxNext cs f).isSome) with
  | none => none
  | some (s, f) => (mxNext cs f).map fun c => (s, c)

/-- The engine takes a command; an accumulate-mode multiply whose format word names another format than a tile's
performs nothing (R234). -/
def execMatrixCommandTake (core : Nat) (s : State) : Host.Outcome State Fault Refusal :=
  match mxChoose s core with
  | none => .next s
  | some (s, c) =>
    let c := { c with taken := true, state := .running }
    let m := mmaBlk c.blk c.fw.toNat
    let bad := bif c.opc == 0x380 && m.mode == 1 then
      mismatch s c.by_.team m.acn (m.mt * m.nt) (accFmtOf (bits c.fw.toNat 11 8)) else none
    match bad with
    | some n =>
      let e := { issuerErr s c.by_ 0x12 (1 + 256 * core) n n with flg := 0 }
      .next (endMx (countErr (pushErr s c.by_.fn e) c.by_.launch) core c)
    | none => .next (setMx s core c)

/-! ### Multiply-accumulate (R234, R236) -/

/-- The stored row and first stored column of row `r` of an operand in a step: `outer` is the operand's own index. -/
def rowAt (tr outerIsRow : Bool) (outer k r : Nat) : Nat × Nat :=
  bif tr != outerIsRow then (outer + r, k) else (k + r, outer)

/-- The pieces of one fetched row of sixteen elements. -/
def fetchPieces (d : Desc) (r c : Nat) : List (Nat × Nat) :=
  bif isB4 d.ty then b4Pieces d r c 16
  else (List.range 16).map fun x => (d.at_ r ((c + x) * elemSize d.ty), elemSize d.ty)

/-- One fetched row: sixteen codes, or FP32 values of 4-bit elements. -/
def fetchValues (s : State) (b : Issuer) (d : Desc) (r c : Nat) : List Word :=
  (List.range 16).map fun x =>
    bif isB4 d.ty then b4Value s b d r (c + x)
    else BitVec.ofNat 32 (leNat (mxRead s b d (d.at_ r ((c + x) * elemSize d.ty)) (elemSize d.ty)))

/-- Rows 0 to 15 of a step are A's, rows 16 to 31 B's; `ti`, `tj` and `k` place the step. -/
def stepRow (m : MmaBlk) (ti tj k n : Nat) : Desc × Nat × Nat :=
  if n < 16 then (m.da, rowAt m.da.tr true (16 * ti) k n) else (m.db, rowAt m.db.tr false (16 * tj) k (n - 16))

/-- Fetch the rows of a step from `c.row` on, until one cannot be read. -/
def fetchRows (core : Nat) (m : MmaBlk) (ti tj k : Nat) : Nat → State → MxCmd → State × MxCmd × Access
  | 0, s, c => (s, c, .ok)
  | n + 1, s, c =>
    let (d, r, x) := stepRow m ti tj k c.row
    match piecesAccess s core c d (fetchPieces d r x) false with
    | .ok =>
      let c := { c with row := c.row + 1, buf := c.buf ++ fetchValues s c.by_ d r x, wait := none, lost := false }
      fetchRows core m ti tj k n s c
    | a => (s, c, a)

/-- Logical A[i][k] and B[k][j] of the fetched rows. -/
def bufA (m : MmaBlk) (buf : List Word) (i k : Nat) : Word := buf.getD (bif m.da.tr then 16 * k + i else 16 * i + k) 0
def bufB (m : MmaBlk) (buf : List Word) (k j : Nat) : Word :=
  buf.getD (256 + bif m.db.tr then 16 * j + k else 16 * k + j) 0

/-- The format of a fetched element. -/
def fetchFmt (ty : Nat) : Fmt := if ty = 6 then bf16 else if ty = 7 then f16 else if ty = 8 then e4m3 else if ty = 9 then e5m2 else f32

/-- The product of two fetched elements under the command's class (R118, R221, R222). -/
def mxProduct (m : MmaBlk) (acc : BitVec 2) (a b : Word) : FVal :=
  (mulF (fetchFmt m.da.ty).prec acc ((fetchFmt m.da.ty).val a.toNat) ((fetchFmt m.db.ty).val b.toNat)).1

/-- A step's update of its tile. -/
def applyStep (m : MmaBlk) (acc : BitVec 2) (buf : List Word) (a : Acc) : Acc :=
  a.update fun i j e =>
    sumVals (e :: (List.range 16).map fun k => mxProduct m acc (bufA m buf i k) (bufB m buf k j))

/-- The class of a tile product (R226). -/
def tileClass (ty : Nat) (acc : BitVec 2) : Nat := if ty = 6 ∨ ty = 7 then 20 + acc.toNat else if ty = 10 then 24 else 23

/-- One step of a multiply-accumulate; a tile's product is charged with its last slice (log 105). -/
def mmaStep (s : State) (core : Nat) (c : MxCmd) : State :=
  let m := mmaBlk c.blk c.fw.toNat
  let sl := c.step % m.slices
  let t := c.step / m.slices
  let k := 16 * sl
  let row0 := c.row
  let (s, c, a) := fetchRows core m (t / m.nt) (t % m.nt) k (32 - c.row) s c
  let got := (List.range (c.row - row0)).map fun i => stepRow m (t / m.nt) (t % m.nt) k (row0 + i)
  let pieces := fun (b : Bool) => (got.zipIdx.filter fun g => (row0 + g.2 < 16) == b).flatMap fun g => fetchPieces g.1.1 g.1.2.1 g.1.2.2
  let s := chargePieces (chargePieces s c core m.da (pieces true)) c core m.db (pieces false)
  let n := m.acn + t
  runUnit s core c a m.steps fun s =>
    let s := bif sl == 0 && m.mode == 0 then
      modAcc s c.by_.team n (Acc.clear (accFmtOf (bits c.fw.toNat 11 8)) (seedOf s c.by_) n) else s
    let s := modAcc s c.by_.team n (applyStep m c.acc c.buf)
    bif (sl + 1) % (tileK m.da.ty / 16) == 0 then s.charge c.by_.fn (coreDom core) (tileClass m.da.ty c.acc) 1 else s

/-- An `mx.clr` sets its tiles to +0 (R240). -/
def clearStep (s : State) (core : Nat) (c : MxCmd) : State :=
  let n := fieldB c.blk 0 2
  let s := (List.range (fieldB c.blk 2 2)).foldl (fun s i =>
    modAcc s c.by_.team (n + i) (Acc.clear (if c.func = 1 then .sto else .f32) (seedOf s c.by_) (n + i))) s
  endMx s core c

/-- One step of the command at the head of a core's matrix engine, an `mx.mma` or an `mx.clr`. -/
def execMatrixStep (core : Nat) (s : State) : Host.Outcome State Fault Refusal :=
  match mxHead s core with
  | none => .next s
  | some c =>
    if c.opc = 0x380 then .next (mmaStep s core c)
    else if c.opc = 0x383 then .next (clearStep s core c)
    else .next s

/-! ### Stores (R238, R284) -/

/-- The destination of a store command. -/
def storeDesc (c : MxCmd) : Desc := descAt c.blk 0x10

/-- Groups of sixteen rows of a store's destination. -/
def storeGroups (c : MxCmd) : Nat := ((storeDesc c).lrows + 15) / 16

/-- The rows of a group: sixteen logical rows, whatever the orientation (log 106). -/
def groupRows (c : MxCmd) (g : Nat) : List Nat := (List.range (min 16 ((storeDesc c).lrows - 16 * g))).map (· + 16 * g)

/-- The rounding mode of a store element: the draw of its column, or the code's mode. -/
def storeMode (rmc q : Nat) : RMode := if rmc = 5 then .sto q else RMode.ofCode (BitVec.ofNat 3 rmc)

/-- An element of a tile converted to a type: copied when the type is the tile's own (R238). -/
def storeElem (f : AccFmt) (ty : Nat) (rm : RMode) (sat : Bool) (e : Word) : Nat :=
  match f, ty with
  | .f32, 5 => e.toNat
  | .sto, 6 => e.toNat
  | .sto, 5 => (widenV bf16 e.toNat).1
  | .f32, _ => (narrowV (fetchFmt ty) rm sat e.toNat).1
  | .sto, _ => (narrowV (fetchFmt ty) rm sat (widenV bf16 e.toNat).1).1

/-- The FP32 value of an element. -/
def accValue (f : AccFmt) (e : Word) : Nat := match f with
  | .f32 => e.toNat
  | .sto => (widenV bf16 e.toNat).1

/-- The draws of a generator for sixteen rows: its states, in order. -/
def draws : Nat → Word → List Word
  | 0, _ => []
  | n + 1, g => colStep g :: draws n (colStep g)

/-- The 32 codes of a run and its scale byte (R129, R130). -/
def runCodes (bt : Nat) (vs : List (Nat × RMode)) : List Nat × Nat :=
  let sigma := scaleByte bt (vs.map (·.1))
  (vs.map fun v => (quantV v.2 sigma v.1).1, sigma)

/-- Codes packed two to a byte. -/
def packCodes : List Nat → List Byte
  | a :: b :: rest => BitVec.ofNat 8 (a + 16 * b) :: packCodes rest
  | [a] => [BitVec.ofNat 8 a]
  | [] => []

/-- A row of values as 4-bit blocks: code bytes, then scale bytes. -/
def blockRow (bt : Nat) (vs : List (Nat × RMode)) : List Byte :=
  let runs := (List.range (vs.length / 32)).map fun b => runCodes bt ((vs.drop (32 * b)).take 32)
  (runs.flatMap fun r => packCodes r.1) ++ runs.map fun r => BitVec.ofNat 8 r.2

/-- The bytes of the rows of group `g` of an `mx.st`, and the state with its generators advanced. -/
def stRows (s : State) (c : MxCmd) (g : Nat) : State × List (List Byte) :=
  let m := stBlk c.blk
  let ty := m.d.ty
  let rmc := if m.rmc = 6 then c.rm.toNat else m.rmc
  let tiles := (List.range m.nt).map fun tj => m.acn + m.nt * g + tj
  let ts := tiles.map fun n => getAcc s c.by_.team n
  let ds := ts.map fun a => (a, a.g.map (draws 16))
  let elem := fun (i j : Nat) =>
    let (a, d) := ds.getD (j / 16) ({}, [])
    (a.fmt, a.e.getD (16 * i + j % 16) 0, storeMode rmc (colDraw ((d.getD (j % 16) []).getD i 0)))
  let row := fun i =>
    let es := (List.range (16 * m.nt)).map (elem i)
    bif isB4 ty then blockRow m.bt (es.map fun x => (accValue x.1 x.2.1, x.2.2))
    else es.flatMap fun x => leBytes (elemSize ty) (storeElem x.1 ty x.2.2 m.sat x.2.1)
  let s := if rmc = 5 then
      tiles.foldl (fun s n => modAcc s c.by_.team n fun a =>
        { a with g := a.g.map fun x => (draws 16 x).getLastD x }) s
    else s
  (s, (List.range 16).map row)

/-- The bytes of the rows of a group, for `mx.st` or `tst`. -/
def groupData (s : State) (c : MxCmd) (core g : Nat) : State × List (List Byte) :=
  if c.opc = 0x381 then stRows s c g
  else
    let d := descAt c.blk 0
    (chargePieces s c core d ((groupRows c g).flatMap (rowPieces d)),
      (groupRows c g).map fun i => readPieces s c.by_ d (rowPieces d i))

/-- Write group `g`. -/
def storeGroup (core : Nat) (c : MxCmd) (g : Nat) (s : State) : State :=
  let d := storeDesc c
  let (s, rows) := groupData s c core g
  let ps := (groupRows c g).map (rowPieces d)
  let s := chargePieces s c core d ps.flatten true
  (ps.zip rows).foldl (fun s x => writePieces s c core d (layData x.1 x.2)) s

/-- A group of sixteen destination rows of the store at the head of a core's matrix engine. -/
def execMatrixStoreRows (core : Nat) (s : State) : Host.Outcome State Fault Refusal :=
  match mxHead s core with
  | none => .next s
  | some c =>
    let d := storeDesc c
    if (c.opc ≠ 0x381 ∧ c.opc ≠ 0x350) ∨ d.aon then .next s else
    .next (runUnit s core c (piecesAccess s core c d ((groupRows c c.step).flatMap (rowPieces d)) true) (storeGroups c)
      (storeGroup core c c.step))

/-! ### All-or-nothing stores (R241) -/

/-- The version word's address, and the pages of the word and the extent. -/
def verAt (d : Desc) : Nat := d.base - 8
def aonPages (d : Desc) : List Nat := pagesOf (verAt d) (8 + d.extent d.ty)

def readVer (s : State) (c : MxCmd) (d : Desc) : Word := BitVec.ofNat 32 (leNat (mxRead s c.by_ d (verAt d) 4))
def writeVer (s : State) (c : MxCmd) (core : Nat) (d : Desc) (v : Word) : State :=
  writePieces (chargePieces s c core d [(verAt d, 4)] true) c core d [(verAt d, leBytes 4 v.toNat)]

/-- Pin or unpin the pages of a global destination. -/
def pinAon (s : State) (c : MxCmd) (d : Desc) : State :=
  bif d.spc then s else { s with pinned := s.pinned ++ (aonPages d).map fun p => (c.by_.fn, p) }
def unpinAon (s : State) (c : MxCmd) (d : Desc) : State :=
  bif d.spc then s else { s with pinned := (aonPages d).foldl (fun l p => l.erase (c.by_.fn, p)) s.pinned }

/-- An all-or-nothing store goes on: it makes its pages resident and pins them; once V is even it makes V odd; it
writes its groups of rows; at the end it makes V even again and retires. -/
def execAonStore (core : Nat) (s : State) : Host.Outcome State Fault Refusal :=
  match mxHead s core with
  | none => .next s
  | some c =>
    let d := storeDesc c
    if (c.opc ≠ 0x381 ∧ c.opc ≠ 0x350) ∨ !d.aon then .next s else
    match c.ver with
    | none =>
      if c.row = 0 then
        .next (onAccess s core c (piecesAccess s core c d [(verAt d, 8 + d.extent d.ty)] true)
          (setMx (pinAon s c d) core { c.fresh with row := 1 }))
      else
        let v := readVer s c d
        if v.getLsbD 0 then .next s
        else .next (setMx (writeVer s c core d (v + 1)) core { c with ver := some (v + 1) })
    | some v =>
      if c.step < storeGroups c then
        .next (setMx (storeGroup core c c.step s) core { c with step := c.step + 1 })
      else .next (endMx (unpinAon (writeVer s c core d (v + 1)) c d) core c)

/-! ### Loads into accumulators (R239) -/

/-- A source element as a value. -/
def ldElem (ty : Nat) (b : List Byte) : FVal := (fetchFmt ty).val (leNat b)

/-- The new tile of an `mx.ld` from its 256 source values. -/
def ldTile (sto accumulate : Bool) (seed : DWord) (n : Nat) (vs : List FVal) (a : Acc) : Acc :=
  if accumulate then a.update fun i j e => sumVals [e, vs.getD (16 * i + j) (.zero false)]
  else if sto then
    { a.clear .sto seed n with e := vs.map fun v => BitVec.ofNat 32 (roundVal bf16 .rne v).1 }
  else { a.clear .f32 seed n with e := vs.map fun v => updF32 v }

/-- One tile of the `mx.ld` at the head of a core's matrix engine. -/
def execMatrixLoadTile (core : Nat) (s : State) : Host.Outcome State Fault Refusal :=
  match mxHead s core with
  | none => .next s
  | some c =>
    if c.opc ≠ 0x382 then .next s else
    let m := stBlk c.blk
    let ti := c.step / m.nt
    let tj := c.step % m.nt
    let ps := (List.range 256).map fun n => elemPiece m.d (16 * ti + n / 16) (16 * tj + n % 16)
    .next (runUnit s core c (piecesAccess s core c m.d ps false) (m.mt * m.nt) fun s =>
      let vs := ps.map fun p => ldElem m.d.ty (mxRead s c.by_ m.d p.1 p.2)
      let n := m.acn + c.step
      modAcc (chargePieces s c core m.d ps) c.by_.team n
        (ldTile (c.func.getLsbD 4) (m.mode == 1) (seedOf s c.by_) n vs))

/-! ### Requantising transposition (R243) -/

/-- The state of row `r`'s generator after `n` codes. -/
def rowGen (seed : DWord) (sd r : Nat) (n : Nat) : Word :=
  (List.range n).foldl (fun g _ => colStep g) (seedWord seed (4096 * sd + r + 1))

/-- The scale byte and codes of destination row `r` in block column `b`. -/
def rqBlock (s : State) (c : MxCmd) (m : RqBlk) (b r : Nat) : List Nat × Nat :=
  let rmc := if m.rmc = 6 then c.rm.toNat else m.rmc
  let g := rowGen (seedOf s c.by_) m.seed r (32 * b)
  let ds := draws 32 g
  runCodes m.bt ((List.range 32).map fun i =>
    ((b4Value s c.by_ m.src (32 * b + i) r).toNat,
      if rmc = 5 then RMode.sto (colDraw (ds.getD i 0)) else .rne))

/-- One destination block column of the `mx.rq` at the head of a core's matrix engine. -/
def execRequantiseBlockColumn (core : Nat) (s : State) : Host.Outcome State Fault Refusal :=
  match mxHead s core with
  | none => .next s
  | some c =>
    if c.opc ≠ 0x384 then .next s else
    let m := rqBlk c.blk
    let b := c.step
    let src := (List.range 32).flatMap fun i => b4Pieces m.src (32 * b + i) 0 m.src.cols
    let dst := (List.range m.dst.rows).flatMap fun r => b4Pieces m.dst r (32 * b) 32
    let a := match piecesAccess s core c m.src src false with
      | .ok => piecesAccess s core c m.dst dst true
      | x => x
    .next (runUnit s core c a (m.src.rows / 32) fun s =>
      let rows := (List.range m.dst.rows).map fun r => rqBlock s c m b r
      let s := chargePieces (chargePieces s c core m.src src) c core m.dst dst true
      rows.zipIdx.foldl (fun s x =>
        writePieces s c core m.dst (layData (b4Pieces m.dst x.2 (32 * b) 32)
          (packCodes x.1.1 ++ [BitVec.ofNat 8 x.1.2]))) s)

/-! ### Versioned loads (R242, R284) -/

/-- The `tld.v` at the head of a core's matrix engine goes on: it reads an even V and the tile, and then V again;
when both readings agree the tile is written to the window, and otherwise the attempt begins again. -/
def execVersionedTileRead (core : Nat) (s : State) : Host.Outcome State Fault Refusal :=
  match mxHead s core with
  | none => .next s
  | some c =>
    if c.opc ≠ 0x351 then .next s else
    let x := descAt c.blk 0
    let y := descAt c.blk 0x10
    let rows := List.range x.lrows
    let ps := rows.flatMap (rowPieces x)
    let v := readVer s c x
    let s' := chargePieces s c core x [(verAt x, 4)]
    -- the word, and the rows in the reading that takes them
    .next (onAccess s core c (piecesAccess s core c x ((verAt x, 4) :: bif c.ver.isNone then ps else []) false)
      (match c.ver with
      | none =>
        if v.getLsbD 0 then setMx s' core c.fresh else
        let data := rows.flatMap fun i => readPieces s' c.by_ x (rowPieces x i)
        setMx (chargePieces s' c core x ps) core { c.fresh with ver := some v, buf := data.map fun b => b.setWidth 32 }
      | some u =>
        if u ≠ v then setMx s' core { c.fresh with ver := none, buf := [] } else
        let qs := rows.flatMap (rowPieces y)
        endMx (writePieces (chargePieces s' c core y qs true) c core y (layData qs (c.buf.map fun w => w.setWidth 8))) core c))

end Sys2Proof.Machine
end

