-- ==== Sys2Proof/Machine/RootUnits.lean ====
section
/-! DEFINITION. Root code's own instructions, `root.run`, `bmac` and the crown (11_root_units_and_crown R171 to
R193). -/
namespace Sys2Proof.Machine

/-! ### Windows (R177, R182, R183) -/

/-- The invocation that a part of root code runs. -/
def invOf (s : State) (c : Ctx) : Inv := (s.inv? c.unit).getD {}

/-- The fault of the address of the word at window offset `o`, if there is one. -/
def windowFault (v : Inv) (write : Bool) (o : Int) : Option TrapInfo :=
  if o < 0 ∨ v.size < o + 4 then some (violation 0)
  else if o % 4 ≠ 0 then some (misaligned 0)
  else if write ∧ !v.writable o.toNat then some (violation 0)
  else none

/-- Faults of the active lanes, in ascending order: those of the addresses, which are checked over all active lanes before
any access (R183), or else those that reading meets. The lowest lane's cause is reported (log 87). -/
def windowTraps (s : State) (c : Ctx) (write : Bool) (at_ : Nat → Option Int) : List (Nat × TrapInfo) :=
  let v := invOf s c
  let bad := c.actives.filterMap fun l => match at_ l with
    | none => some (l, violation 0)
    | some o => (windowFault v write o).map fun t => (l, t)
  if !bad.isEmpty ∨ write then bad else
  c.actives.filterMap fun l =>
    let o := ((at_ l).getD 0).toNat
    bif (List.range 4).any fun k => v.badLine s (o + k) then some (l, { cause := 0x10 }) else none

/-- Charge the distinct 64-byte lines of memory that window words lie in (R193). -/
def chargeWinLines (s : State) (c : Ctx) (os : List Nat) : State :=
  let v := invOf s c
  s.charge v.fn (stackDom (c.unit / 64)) 11 ((os.map fun o => (v.wbase + o) / 64).dedup.length)

/-- Read window words into a vector register. -/
def windowLoad (vd : Nat) (at_ : Inv → Ctx → Nat → Option Int) (i : Issue) (c : Ctx) (s : State) : State :=
  let v := invOf s c
  let off := fun l => ((at_ v c l).getD 0).toNat
  let s := chargeWinLines s c (c.actives.map off)
  advance (putRegs s c (c.putV c.r vd fun l => v.readWord s (off l))) i c c.iss

/-- Write a vector register's lanes to window words, in ascending order. -/
def windowStore (va : Nat) (at_ : Inv → Ctx → Nat → Option Int) (i : Issue) (c : Ctx) (s : State) : State :=
  let v := invOf s c
  let off := fun l => ((at_ v c l).getD 0).toNat
  let s := chargeWinLines s c (c.actives.map off)
  advance (c.actives.foldl (fun s l => v.write s (off l) (c.r.getV va l)) s) i c c.iss

/-- Where byte `off` of the lane's record lies; none without a bound record that holds the word. -/
def recAt (off : Nat) (v : Inv) (_ : Ctx) (l : Nat) : Option Int :=
  match v.record l with
  | none => none
  | some r => if off + 4 ≤ v.z then some (r * v.z + off) else none

def execRecLd (h : Head) (o : RecLd) (s : State) :=
  runEach h (fun s c => windowTraps s c false (recAt o.off.toNat (invOf s c) c)) (windowLoad o.dst.toNat (recAt o.off.toNat)) s

def execRecSt (h : Head) (o : RecSt) (s : State) :=
  runEach h (fun s c => windowTraps s c true (recAt o.off.toNat (invOf s c) c)) (windowStore o.sa.toNat (recAt o.off.toNat)) s

def execRecIdx (h : Head) (vd : VReg) (s : State) :=
  runEach h (fun _ _ => []) (fun i c s =>
    let b := (invOf s c).block
    advance (putRegs s c (c.putV c.r vd.toNat fun l => BitVec.ofNat 32 (32 * b + l))) i c c.iss) s

/-- The window offset of an address form (R183). -/
def winAt (m : MemOp) (_ : Inv) (c : Ctx) (l : Nat) : Option Int := some (memAddr c m false l)

def execRld (h : Head) (o : VMem) (s : State) :=
  runEach h (fun s c => windowTraps s c false (winAt o.m (invOf s c) c)) (windowLoad o.rd.toNat (winAt o.m)) s

def execRst (h : Head) (o : VMem) (s : State) :=
  runEach h (fun s c => windowTraps s c true (winAt o.m (invOf s c) c)) (windowStore o.rd.toNat (winAt o.m)) s

/-! ### `zskip` (R184) -/

/-- The least j from `j` on with its bit set, among the next `n`; `j + n` if there is none. -/
def skipTo (bitAt : Nat → Bool) : Nat → Nat → Nat
  | 0, j => j
  | n + 1, j => bif bitAt j then j else skipTo bitAt n (j + 1)

/-- Bit j of the skip bitmap. -/
def skipBit (s : State) (v : Inv) (base j : Nat) : Bool := ((v.read s (base + j / 8)).getLsbD (j % 8))

/-- The result, and the bytes of the bitmap that are read to find it: those up to the byte of the bit found (log 116). -/
def skipResult (s : State) (v : Inv) (base l i : Nat) : Nat × List Nat :=
  let j := skipTo (skipBit s v base) (l - i) i
  (j, (List.range (min j (l - 1) / 8 + 1 - i / 8)).map (· + base + i / 8))

def zskipTraps (o : U3) (s : State) (c : Ctx) : List (Nat × TrapInfo) :=
  let v := invOf s c
  let base := (c.r.getS o.sa.toNat).toNat
  let l := (c.r.getS (o.sa.toNat + 1)).toNat
  let i := (c.r.getS o.sb.toNat).toNat
  if c.e = 0 ∨ l ≤ i then []
  else if v.size < base + (l + 7) / 8 then [(c.lead, violation 0)]
  else if (skipResult s v base l i).2.any fun b => v.badLine s b then [(c.lead, { cause := 0x10 })]
  else []

def execZskip (h : Head) (o : U3) (s : State) :=
  runEach h (zskipTraps o) (fun i c s =>
    if c.e = 0 then advance s i c c.iss else
    let v := invOf s c
    let base := (c.r.getS o.sa.toNat).toNat
    let l := (c.r.getS (o.sa.toNat + 1)).toNat
    let k := (c.r.getS o.sb.toNat).toNat
    if l ≤ k then advance (putRegs s c (c.r.setS o.dst.toNat (BitVec.ofNat 32 l))) i c c.iss
    else
      let (j, bs) := skipResult s v base l k
      advance (putRegs (chargeWinLines s c bs) c (c.r.setS o.dst.toNat (BitVec.ofNat 32 j))) i c c.iss) s

/-! ### Blocks (R176, R185) -/

def execRkNext (h : Head) (s : State) :=
  runEach h (fun _ _ => []) (fun _ c s => match c.ref with
    | none => nextBlock s c.unit
    | some _ => s) s

/-- A block that has issued 2^20 instructions without ending is a root fault. -/
def execRootBlockLimit (q : Nat) (s : State) : Host.Outcome State Fault Refusal :=
  match s.inv? q with
  | some v => .next (bif v.started && v.bound && Config.rootBlockLimit ≤ v.count then rootFault s q 5 0 else s)
  | none => .next s

/-- The unit holds work of the function that it has started and a stop holds, or the function's root region holds its record: a
unit has at most one started work of a function (R192). -/
def unitKeeps (s : State) (q f : Nat) : Bool :=
  let u := s.unit q
  u.invs.any (fun v => v.fn == f && v.started && v.by_.held s)
    || u.bmacs.any (fun e => (cmdIssuer s e.cmd).fn == f && e.chosen && (cmdIssuer s e.cmd).held s)
    || s.savedRoots.any fun r => r.unit == q && r.by_.fn == f && r.begun

/-- What a unit may choose: the function and the command of an invocation that waits, and of a `bmac` entry. -/
def unitWaits (s : State) (q : Nat) : List (Nat × Nat) :=
  let u := s.unit q
  (((u.invs.filter fun v => !v.by_.held s).map fun v => (v.fn, v.cmd))
    ++ ((u.bmacs.filter fun e => !(cmdIssuer s e.cmd).held s).map fun e => ((cmdIssuer s e.cmd).fn, e.cmd))).filter
      fun x => !unitKeeps s q x.1

/-- The invocation runs on its unit: it has been started, and no stop holds it between its blocks. -/
def Inv.runs (s : State) (v : Inv) : Bool := v.started && (v.bound || !v.by_.held s)

/-- A unit that is between works chooses between the functions that have an invocation or a `bmac` entry waiting, by
WRT, and takes the chosen one's oldest (R311). One that a stop had taken off the unit goes on first. -/
def chooseRoot (s : State) (q : Nat) : State :=
  let u := s.unit q
  let onInv := Inv.runs s
  let onBmac := fun (e : BmacEnt) => !(cmdIssuer s e.cmd).held s && e.chosen
  if u.invs.head?.any onInv || u.bmacs.head?.any onBmac then s
  else if u.invs.any onInv then s.modUnit q fun u => { u with invs := toFront onInv u.invs }
  else if u.bmacs.any onBmac then s.modUnit q fun u => { u with bmacs := toFront onBmac u.bmacs }
  else
    let ws := unitWaits s q
    match chooseFn s (.root q) (ws.map (·.1)).dedup with
    | none => s
    | some (s, f) =>
      let first := (((ws.filter fun x => x.1 == f).map (·.2)).min?).getD 0
      if u.invs.any fun v => v.cmd == first && !v.by_.held s then
        s.modUnit q fun u => { u with invs := (toFront (fun v => v.cmd == first && !v.by_.held s) u.invs).modify 0 Inv.start }
      else
        let take := fun (e : BmacEnt) => ({ e with chosen := true } : BmacEnt)
        s.modUnit q fun u => { u with bmacs := (toFront (fun e => e.cmd == first) u.bmacs).modify 0 take }

/-- The unit's next invocation starts, unless it has work under way or chooses a `bmac` entry (R175, R192, R311). -/
def execRootInvocationStart (q : Nat) (s : State) : Host.Outcome State Fault Refusal := .next (chooseRoot s q)

/-! ### The crown (R188 to R191) -/

/-- The poison value, and a node of the crown (R189). -/
def poison : Word := 0x7FC00E0E
def crownNode (a b : Word) : Word := bif a == poison || b == poison then poison else fadd32 a b

def crownZero : List Word := List.replicate 256 0

/-- The slot of a function in a unit; one that was never written holds +0. -/
def crownSlot (s : State) (f q : Nat) : List Word := (alGet s.crown (f, q)).getD crownZero

/-- The unit acts on the elements 32q … 32q + 31 of its slot. -/
def execCrownPut (h : Head) (o : CrownPut) (s : State) :=
  runEach h (fun _ _ => []) (fun i c s =>
    let f := (invOf s c).fn
    let k := ((c.r.getS o.sb.toNat).toNat) % 8
    let new := c.actives.foldl (fun sl l =>
      let e := 32 * k + l
      let x := c.r.getV o.sa.toNat l
      sl.set e (if o.ty = .f32 then crownNode (sl.getD e 0) x else x)) (crownSlot s f c.unit)
    advance { s with crown := alSet (f, c.unit) new s.crown } i c c.iss) s

/-- One level of the tree; a pair of absent inputs, which hold +0, gives an absent one. -/
def crownLevel : List (Option (List Word)) → List (Option (List Word))
  | a :: b :: rest =>
    (match a, b with
      | none, none => none
      | _, _ => some (List.zipWith crownNode (a.getD crownZero) (b.getD crownZero))) :: crownLevel rest
  | xs => xs

def crownLevels : Nat → List (Option (List Word)) → List (Option (List Word))
  | 0, xs => xs
  | n + 1, xs => crownLevels n (crownLevel xs)

/-- The sum of the 1024 slots of a function. -/
def crownSum (s : State) (f : Nat) : List Word :=
  (((crownLevels 10 ((List.range 1024).map fun q => alGet s.crown (f, q))).head?).join).getD crownZero

/-- Nodes that a stack's domain weighs: levels 1 to 6 of its own, and those above whose lower input it is. -/
def crownNodes (k : Nat) : Nat :=
  63 + (bif k % 2 == 0 then 1 else 0) + (bif k % 4 == 0 then 1 else 0) + (bif k % 8 == 0 then 1 else 0)
    + (bif k == 0 then 1 else 0)

/-- Every slot of the function to +0. -/
def crownClear (s : State) (f : Nat) : State := { s with crown := s.crown.filter fun x => x.1.1 != f }

/-- The destination of a sum: a window and an offset in it. -/
def crownDst (s : State) (r : WaveRef) (gw : Bool) (off : Nat) : Option (Team × Int) :=
  windowOf s r { sp := bif gw then .gw else .sp, size := 1024, rd := false, wr := true } off

def crownTraps (o : CrownSum) (s : State) (c : Ctx) : List (Nat × TrapInfo) :=
  let d := detTrap s c
  let off := (c.r.getS o.sb.toNat).toNat
  if !d.isEmpty then d
  else if off % 64 ≠ 0 then inLanes c.e (misaligned off)
  else match c.ref.bind fun r => crownDst s r o.gw off with
    | some (t, x) => if (t.winSize : Int) < x + 1024 then inLanes c.e (violation off) else []
    | none => inLanes c.e (violation off)

/-- Send a root or crown command (R179). -/
def sendRoot (op : Ctx → RootOp) (acc : BitVec 2) (sco : Scope) (id : Nat) (_ : WaveRef) (c : Ctx) (s : State) : State :=
  let cmd : RootCmd := { id := id, by_ := issuerOf s c, op := op c, acc := acc, sco := sco }
  { s with rootCmds := s.rootCmds ++ [cmd] }

def execCrownSum (h : Head) (o : CrownSum) (s : State) :=
  runEach h (crownTraps o)
    (cmdPart [.cp] (sendRoot (fun c => .sum o.clr o.gw (c.r.getS o.sb.toNat).toNat) 0 o.sco)) s

def execCrownClr (h : Head) (sco : Scope) (s : State) :=
  runEach h detTrap (cmdPart [.cp] (sendRoot (fun _ => .clr) 0 sco)) s

/-- The crown command `k`, if every earlier one of its function has finished. -/
def crownCmd? (s : State) (k : Nat) : Option RootCmd :=
  match s.rootCmds.find? fun c => c.id == k with
  | none => none
  | some c =>
    let older := (s.rootCmds.takeWhile fun x => x.id != k).any fun x => x.op.isCrown && x.by_.fn == c.by_.fn
    bif older then none else some c

def execCrownSumTake (k : Nat) (s : State) : Host.Outcome State Fault Refusal :=
  match crownCmd? s k with
  | none => .next s
  | some c =>
    match c.op with
    | .sum clr gw off =>
      let f := c.by_.fn
      let x := crownSum s f
      let s := bif clr then crownClear s f else s
      let s := (List.range 16).foldl (fun s k =>
        bif s.stackMask.getLsbD k then s.charge f (stackDom k) 12 (256 * crownNodes k) else s) s
      let s := match crownDst s ⟨c.by_.team, c.by_.wave⟩ gw off with
        | some (t, o) => (writeBytes s (.win t.id o.toNat) (x.flatMap fun w => leBytes 4 w.toNat)).charge f (coreDom t.core) 7 16
        | none => s
      .next (finishRoot s c.id)
    | _ => .next s

def execCrownClrTake (k : Nat) (s : State) : Host.Outcome State Fault Refusal :=
  match crownCmd? s k with
  | none => .next s
  | some c => .next (if c.op = .clr then finishRoot (crownClear s c.by_.fn) c.id else s)

/-! ### `root.run` (R180) -/

def runTraps (o : Sys2Proof.RootCmd) (s : State) (c : Ctx) : List (Nat × TrapInfo) :=
  let d := detTrap s c
  let off := (c.r.getS o.sb.toNat).toNat
  if !d.isEmpty then d else
  let t := winBlockTrap s c off 64 16
  if !t.isEmpty then t else winBlockTrap s c off 64 (16 + 16 * fieldB (windowBlock s c off 2) 0 2)

def execRootRun (h : Head) (o : Sys2Proof.RootCmd) (s : State) :=
  runEach h (runTraps o)
    (cmdPart [.cp] (sendRoot (fun c => .run (c.r.getS o.sb.toNat).toNat (c.r.getS o.sc.toNat) o.tgt) 0 o.sco)) s

/-- Near-memory pages of a range: the pseudo-channel and each page's frame and whether it may be stored to; or the
reason of a refusal: 17 unmapped or not readable, 16 not near-memory or in several pseudo-channels, 19 not enabled. -/
def nearPages (s : State) (f va n : Nat) : Sum Nat (Nat × List (Nat × Bool)) :=
  let ls := (pagesOf va n).map fun p => ((if p < 2 ^ 40 then walk s f p else none).map fun x => (leafFrame x.2 p, x.2))
  if ls.any fun l => match l with
      | some (_, x) => !leafR x
      | none => true then .inl 17
  else
    let fr := ls.filterMap id
    let q := ((fr.head?.map (·.1)).getD 0) / 2 ^ 30
    if fr.any fun x => !leafNm x.2 || x.1 / 2 ^ 30 != q then .inl 16
    else if !s.stackMask.getLsbD (q / 64) then .inl 19
    else .inr (q, fr.map fun x => (x.1, leafW x.2))

/-- The fields of a run block that belong to no entry: one that is not valid makes every entry's (R6, log 85). -/
def runBlockOk (b : List Byte) : Bool := 1 ≤ fieldB b 0 2 && fieldB b 0 2 ≤ 1024 && fieldB b 3 13 == 0

/-- One entry of a run block: refused with a reason, or the unit and its invocation's window. -/
def runEntry (s : State) (f : Nat) (ok : Bool) (rs va len : Nat) : Sum Nat (Nat × List (Nat × Bool)) :=
  let z := 4 * 2 ^ rs
  if !ok ∨ 5 < rs ∨ va % z ≠ 0 ∨ len = 0 ∨ len % z ≠ 0 then .inl 18 else nearPages s f va len

/-- The entries of the block from `j` on: refused ones get their status, the others wait for their units. -/
def runEntries (c : RootCmd) (ok : Bool) (off rs entry : Nat) (param tgt : Word) : Nat → Nat → State → State × Nat
  | 0, _, s => (s, 0)
  | n + 1, j, s =>
    let b := readBytes s (.win c.by_.team (off + 16 + 16 * j)) 12
    let va := fieldB b 0 8
    let len := fieldB b 8 4
    match runEntry s c.by_.fn ok rs va len with
    | .inl why =>
      let s := bif why == 18 then s else chargeWalks s c.by_.fn (pagesOf va len)
      runEntries c ok off rs entry param tgt n (j + 1) (writeStatus s c.by_ (off + 16 + 16 * j + 12) (runStatus 2 why 0))
    | .inr (q, pages) =>
      let s := chargeWalks { s with pinned := s.pinned ++ (pagesOf va len).map fun p => (c.by_.fn, p) } c.by_.fn (pagesOf va len)
      let v : Inv := { cmd := c.id, kind := .run, fn := c.by_.fn, idx := j, nrec := len / (4 * 2 ^ rs), z := 4 * 2 ^ rs
                       param := param, wbase := va, pages := pages, entry := entry, code := tgt.toNat, blkoff := off
                       by_ := c.by_ }
      let (s, k) := runEntries c ok off rs entry param tgt n (j + 1) (queueInv s q v)
      (s, k + 1)

/-- The command is taken; it ends at once when every entry is refused. -/
def setRoot (s : State) (c : RootCmd) : State :=
  { s with rootCmds := s.rootCmds.map fun x => bif x.id == c.id then c else x }

def execRootRunTake (k : Nat) (s : State) : Host.Outcome State Fault Refusal :=
  match s.rootCmds.find? fun c => c.id == k with
  | none => .next s
  | some c =>
    match c.op, c.taken with
    | .run off param tgt, false =>
      if c.by_.held s then .next s else
      let b := readBytes s (.win c.by_.team off) 16
      let s := chargeBlock s c.by_ off (16 + 16 * fieldB b 0 2)
      let entry := ((s.launch? c.by_.launch).map (·.entry)).getD 0
      let (s, n) := runEntries c (runBlockOk b) off (fieldB b 2 1) entry param tgt (fieldB b 0 2) 0 s
      let s := setRoot s { c with taken := true, left := n }
      .next (bif n == 0 then finishRoot s c.id else s)
    | _, _ => .next s

/-! ### `bmac` (R186, R187) -/

def bmacTraps (o : AsyOp) (s : State) (c : Ctx) : List (Nat × TrapInfo) :=
  let d := detTrap s c
  let off := (c.r.getS o.sb.toNat).toNat
  if !d.isEmpty then d else
  let t := winBlockTrap s c off 64 32
  if !t.isEmpty then t else winBlockTrap s c off 64 (32 + 32 * fieldB (windowBlock s c off 32) 9 1)

def execBmac (h : Head) (o : AsyOp) (s : State) :=
  runEach h (bmacTraps o) (cmdPart [.cp] (sendRoot (fun c => .bmac (c.r.getS o.sb.toNat).toNat) h.acc o.sco)) s

/-- Format codes of x and W. -/
def bmacFmt (x : Nat) : Fmt := if x = 1 then bf16 else if x = 2 then f16 else f32
def bmacSize (x : Nat) : Nat := if x = 0 then 4 else 2

/-- An entry of a block: W, rows, stride and Y. -/
def bmacEntry (b : List Byte) (j : Nat) : Nat × Nat × Nat × Nat :=
  let o := 0x20 + 32 * j
  (fieldB b o 8, fieldB b (o + 8) 4, fieldB b (o + 12) 4, fieldB b (o + 16) 8)

/-- Bytes of an entry's rows in W; the pages between rows, where a stride passes over some, are checked as the others are
(log 117). -/
def bmacSpan (k wf rows stride : Nat) : Nat := (rows - 1) * stride + k * bmacSize wf

/-- Reason 1: a field of the block is invalid. -/
def bmacFieldsOk (b : List Byte) (win : Nat) : Bool :=
  let k := fieldB b 4 2
  let xf := fieldB b 6 1
  let wf := fieldB b 7 1
  let nr := fieldB b 9 1
  1 ≤ k && k ≤ 4096 && xf ≤ 2 && wf ≤ 2 && fieldB b 8 1 ≤ 1 && 1 ≤ nr && nr ≤ 64
    && fieldB b 0x0A 2 == 0 && fieldB b 0x10 16 == 0 && fieldB b 0 4 + k * bmacSize xf ≤ win
    && (List.range nr).all fun j =>
      let (_, rows, stride, _) := bmacEntry b j
      1 ≤ rows && rows ≤ 65536 && stride % bmacSize wf == 0 && k * bmacSize wf ≤ stride && fieldB b (0x38 + 32 * j) 8 == 0

/-- The permission of an output range: writable, and readable to accumulate, wherever its pages lie; a host page ends where
the function's host window does (R331). -/
def outputOk (s : State) (f y n : Nat) (read : Bool) : Bool :=
  y + n ≤ 2 ^ 56 && (firstUnmapped s f y n true).isNone && (!read || (firstUnmapped s f y n false).isNone)

/-- The check of one entry: a reason of R187, or its unit and frames. -/
def bmacCheck (s : State) (f : Nat) (b : List Byte) (j : Nat) : Sum Nat (Nat × List Nat) :=
  let wf := fieldB b 7 1
  let (w, rows, stride, y) := bmacEntry b j
  if w % bmacSize wf ≠ 0 ∨ y % 4 ≠ 0 then .inl 4
  else if !outputOk s f y (4 * rows) (fieldB b 8 1 == 1) then .inl 3
  else match nearPages s f w (bmacSpan (fieldB b 4 2) wf rows stride) with
    | .inl 17 => .inl 3
    | .inl 16 => .inl 2
    | .inl _ => .inl 5
    | .inr (q, fr) => .inr (q, fr.map (·.1))

/-- The walks of an entry's pages, unless its addresses are misaligned. -/
def bmacWalks (s : State) (f : Nat) (b : List Byte) (r : Sum Nat (Nat × List Nat)) (j : Nat) : State :=
  let (w, rows, stride, y) := bmacEntry b j
  bif r == .inl 4 then s
  else chargeWalks s f (pagesOf y (4 * rows) ++ pagesOf w (bmacSpan (fieldB b 4 2) (fieldB b 7 1) rows stride))

/-- The first reason among the entries, in the order of its checks: misaligned, unmapped, not near, not enabled. -/
def bmacWhy (rs : List (Sum Nat (Nat × List Nat))) : Option Nat :=
  [4, 3, 2, 5].find? fun w => rs.any fun r => match r with
    | .inl x => x == w
    | .inr _ => false

def refuseBmac (s : State) (c : RootCmd) (off why : Nat) : State :=
  let s := writeStatus s c.by_ (off + 0x0C) (BitVec.ofNat 32 (2 + 4 * why))
  retireOp { s with rootCmds := s.rootCmds.filter fun x => x.id != c.id } ⟨c.by_.team, c.by_.wave⟩ .cp c.id

def execBmacTake (k : Nat) (s : State) : Host.Outcome State Fault Refusal :=
  match s.rootCmds.find? fun c => c.id == k with
  | none => .next s
  | some c =>
    match c.op, c.taken with
    | .bmac off, false =>
      if c.by_.held s then .next s else
      let team := c.by_.team
      let win := ((s.team? team).map (·.winSize)).getD 0
      let b := readBytes s (.win team off) (32 + 32 * fieldB (readBytes s (.win team off) 32) 9 1)
      let s := chargeBlock s c.by_ off b.length
      if !bmacFieldsOk b win then .next (refuseBmac s c off 1) else
      let nr := fieldB b 9 1
      let rs := (List.range nr).map (bmacCheck s c.by_.fn b)
      let s := rs.zipIdx.foldl (fun s r => bmacWalks s c.by_.fn b r.1 r.2) s
      match bmacWhy rs with
      | some why => .next (refuseBmac s c off why)
      | none =>
        let kk := fieldB b 4 2
        let xf := fieldB b 6 1
        let xs := readBytes s (.win team (fieldB b 0 4)) (kk * bmacSize xf)
        let s := chargeBlock s c.by_ (fieldB b 0 4) (kk * bmacSize xf)
        let c := { c with taken := true, left := nr, k := kk, xf := xf, wf := fieldB b 7 1, mode := fieldB b 8 1
                          x := (List.range kk).map fun i => BitVec.ofNat 32 (fieldB xs (i * bmacSize xf) (bmacSize xf)) }
        .next (rs.zipIdx.foldl (fun s r => match r.1 with
          | .inl _ => s
          | .inr (q, fr) =>
            let (w, rows, stride, y) := bmacEntry b r.2
            let e : BmacEnt := { cmd := c.id, idx := r.2, off := off, wpages := fr, w := w, rows := rows, stride := stride, y := y }
            s.modUnit q fun u => { u with bmacs := u.bmacs ++ [e] }) (setRoot s c))
    | _, _ => .next s

/-- Where a byte of an entry's W lies. -/
def BmacEnt.wPa (e : BmacEnt) (va : Nat) : Nat := e.wpages.getD (va / 65536 - e.w / 65536) 0 + va % 65536

/-- Where a byte of an output lies, wherever its page is, and whether the page is near-memory. -/
def outputLoc (s : State) (f va : Nat) : Option (Loc × Bool) :=
  match walk s f (va / 65536) with
  | none => none
  | some (_, x) => (locOfPa s f (leafFrame x (va / 65536) + va % 65536)).map fun l => (l, leafNm x)

/-- The bank of a near-memory byte, as QC and BANK (R174, R187). -/
def nearBank (pa : Nat) : Nat × Nat := (pa / 2 ^ 30 % 1024, pa / 4096 % 16)

/-- The fast-tier bank of an output byte; none outside the fast tier. -/
def outputBank (l : Loc) (near : Bool) : Option (Nat × Nat) :=
  match l with
  | .dev pa =>
    if pa / 2 ^ 48 ≠ 0 then none
    else if near then some (nearBank pa)
    else let b := Config.lineBank (pa / 64); some (64 * (pa / 2 ^ 36 % 16) + b.1 % 64, b.2 % 16)
  | _ => none

/-- A read there meets an uncorrectable error: one that is known, or one that this read meets (R187, R334). -/
def lineBad (s : State) (errs : List Nat) (l : Loc) : Bool :=
  l.broken s || (match l with
    | .dev pa => errs.contains (pa / 64)
    | _ => false)

/-- The output's page has been found to be gone: its migration has failed, or it is no longer mapped (R272). -/
def BmacEnt.gone (s : State) (f : Nat) (e : BmacEnt) (va : Nat) : Bool :=
  e.lost.contains (va / 65536) || (outputLoc s f va).isNone

/-- A read of a row that meets an error: its virtual address, its place, and its fast-tier bank. -/
abbrev RowFault := Nat × Option Loc × Option (Nat × Nat)

/-- What the reads of a row meet; in accumulate mode an output whose page is gone is one that lies in no fast-tier bank. -/
def rowErrors (s : State) (c : RootCmd) (e : BmacEnt) (errs : List Nat) (i : Nat) : List RowFault :=
  let ws := (List.range c.k).filterMap fun k =>
    let va := e.w + i * e.stride + k * bmacSize c.wf
    let pa := e.wPa va
    bif lineBad s errs (.dev pa) then some (va, some (.dev pa), some (nearBank pa)) else none
  let va := e.y + 4 * i
  let ys : List RowFault := if c.mode ≠ 1 then [] else
    bif e.gone s c.by_.fn va then [(va, none, none)] else
    match outputLoc s c.by_.fn va with
    | some (l, near) => bif lineBad s errs l then [(va, some l, outputBank l near)] else []
    | none => []
  ws ++ ys

/-- The lines of the module that returned the errors (R342). -/
def errorLines (hit : List RowFault) : List Nat :=
  (hit.filterMap fun x => match x.2.1 with
    | some (.dev pa) => some (pa / 64)
    | _ => none).dedup

/-- The first page of the group's outputs that is not resident or is moving, and whose migration has not failed (R271). -/
def BmacEnt.away (s : State) (f n : Nat) (e : BmacEnt) : Option Nat :=
  (pagesOf (e.y + 4 * e.next) (4 * n)).find? fun p => !e.lost.contains p && match findVa s f (65536 * p) with
    | .away _ => true
    | _ => false

/-- The value of row `i` (R186). -/
def bmacRow (s : State) (c : RootCmd) (e : BmacEnt) (i : Nat) : Word :=
  let p := max (bmacFmt c.xf).prec (bmacFmt c.wf).prec
  let y0 := if c.mode ≠ 1 then 0 else match outputLoc s c.by_.fn (e.y + 4 * i) with
    | some (l, _) => (readWord s l).toNat
    | none => 0
  BitVec.ofNat 32 ((List.range c.k).foldl (fun acc k =>
    let va := e.w + i * e.stride + k * bmacSize c.wf
    let w := leNat (readBytes s (.dev (e.wPa va)) (bmacSize c.wf))
    let m := (mulF p c.acc ((bmacFmt c.wf).val w) ((bmacFmt c.xf).val (c.x.getD k 0).toNat)).1
    (fsum f32 .rne (f32.val acc) m).1) y0)

/-- The record of a row whose output cannot be written (R137, R272, R334): its cause and detail. A page whose migration has
failed gives 0x0D and the page, one that is mapped no more an access violation, and a port that is down a write error; a
host write may also meet one (log 113). -/
def outputFault (s : State) (f : Nat) (e : BmacEnt) (va : Nat) : Option (Nat × Nat) :=
  if e.lost.contains (va / 65536) then some (0x0D, 65536 * (va / 65536)) else
  match outputLoc s f va with
  | none => some (8, va)
  | some (l, _) => bif !l.reachable s || (l.mayFail && Config.writeFails s.turns va) then some (0x10, va) else none

/-- Write an output word. -/
def outputWrite (s : State) (f va : Nat) (x : Word) : State :=
  match outputLoc s f va with
  | some (l, _) => writeWord (setDirty s f (va / 65536)) l x
  | none => s

/-- Charges of a group of rows: products, W lines through the TSV path, and Y lines (R193). -/
def chargeBmac (s : State) (c : RootCmd) (e : BmacEnt) (q i n : Nat) : State :=
  let f := c.by_.fn
  let cls := (if c.xf = 0 ∧ c.wf = 0 then 37 else 40) + c.acc.toNat
  let s := s.charge f (stackDom (q / 64)) cls (n * c.k)
  let s := s.charge f (stackDom (q / 64)) 11
    ((List.range n).map fun r => linesOf (e.w + (i + r) * e.stride) (c.k * bmacSize c.wf)).sum
  let ys := (List.range n).filterMap fun r => (outputLoc s f (e.y + 4 * (i + r))).map (·.1)
  let s := chargeDirect s f ys
  if c.mode = 1 then chargeDirect s f ys else s

/-- The records of a group of rows: one for its first row that met an error, and one for its first output that could not be
written (log 45). -/
def bmacRecords (s : State) (c : RootCmd) (q : Nat) (hit : List (Nat × List RowFault)) (unwritten : List (Nat × Nat × Nat)) : State :=
  let s := match hit.find? fun x => x.2.any (·.2.1.isSome) with
    | some (i, x) => issuerFault s c.by_ 0x10 (7 + 256 * q) (((x.find? (·.2.1.isSome)).map (·.1)).getD 0) i
    | none => s
  match unwritten.head? with
  | some (i, cause, det) => issuerFault s c.by_ cause (7 + 256 * q) det i
  | none => s

/-- The rows `[next, next + n)` of a unit's chosen entry. Every row is read before an output is written (log 88). -/
def bmacRows (s : State) (c : RootCmd) (e : BmacEnt) (q n : Nat) (errs : List Nat) : State :=
  let f := c.by_.fn
  let va := fun (i : Nat) => e.y + 4 * i
  let rows := (List.range n).map (· + e.next)
  let bad := rows.map fun i => (i, rowErrors s c e errs i)
  let hit := bad.flatMap (·.2)
  let s := chargeBmac s c e q e.next n
  let vals := bad.map fun x => (x.1, bif x.2.isEmpty then bmacRow s c e x.1 else poison)
  let unwritten := rows.filterMap fun i => (outputFault s f e (va i)).map fun x => (i, x)
  let s := (vals.filter fun x => !unwritten.any fun y => y.1 == x.1).foldl (fun s x => outputWrite s f (va x.1) x.2) s
  let s := bmacRecords { s with errLines := s.errLines ++ errorLines hit } c q bad unwritten
  let s := setRoot s { c with
    fails := (c.fails ++ hit.filterMap (·.2.2)).dedup
    partialRun := c.partialRun || !hit.isEmpty || unwritten.any fun x => x.2.1 == 0x0D }
  let done := e.rows ≤ e.next + n
  let on := fun (x : BmacEnt) => ({ x with next := x.next + n } : BmacEnt)
  let s := s.modUnit q fun u => { u with bmacs := bif done then u.bmacs.drop 1 else u.bmacs.modify 0 on }
  bif done then entryEnded s c.id else s

/-- A unit computes the next 32 rows of its first `bmac` entry; `errs` are lines that return an uncorrectable error in
these reads. Outputs that depend on one are poisoned, and the owner gets a record; so too of outputs that cannot be
written. The entry waits while a page of the group's outputs migrates to the fast tier (R271). -/
def execBmacRowGroup (q : Nat) (errs : List Nat) (s : State) : Host.Outcome State Fault Refusal :=
  let s := chooseRoot s q
  match (s.unit q).bmacs.head?.filter (·.chosen) with
  | none => .next s
  | some e =>
    match s.rootCmds.find? fun c => c.id == e.cmd with
    | none => .next s
    | some c =>
      if c.by_.held s ∨ e.wait.isSome ∨ (s.unit q).invs.any (Inv.runs s) then .next s else
      let n := min 32 (e.rows - e.next)
      let s := chargeWalks s c.by_.fn (pagesOf (e.y + 4 * e.next) (4 * n))
      match e.away s c.by_.fn n with
      | some p =>
        let on := fun (x : BmacEnt) => ({ x with wait := some p } : BmacEnt)
        .next (startMigration (s.modUnit q fun u => { u with bmacs := u.bmacs.modify 0 on }) (q / 64) c.by_.fn p true)
      | none => .next (bmacRows s c e q n errs)

end Sys2Proof.Machine
end

