-- ==== Sys2Proof/Machine/Arith.lean ====
section
/-! DEFINITION. Result functions of the integer and logic instructions, on words: the uniform forms of R80 to R83
and the vector forms of R102 to R109 share them. -/
namespace Sys2Proof.Machine

/-- a ± b, clamped to the type's range. -/
def addSat (t : Ty) (a b : Word) : Word := wordOf (clampI t.minI t.maxI (tyVal t a + tyVal t b))
def subSat (t : Ty) (a b : Word) : Word := wordOf (clampI t.minI t.maxI (tyVal t a - tyVal t b))

def ltTy (t : Ty) (a b : Word) : Bool := decide (tyVal t a < tyVal t b)
def minTy (t : Ty) (a b : Word) : Word := bif ltTy t b a then b else a
def maxTy (t : Ty) (a b : Word) : Word := bif ltTy t a b then b else a

/-- P as a 64-bit two's-complement value (R80). -/
def prod64 (t : Ty) (acc : BitVec 2) (a b : Word) : DWord := dwordOf (mulInt 32 acc (tyVal t a) (tyVal t b))
def mulLo (t : Ty) (acc : BitVec 2) (a b : Word) : Word := loW (prod64 t acc a b)
def mulHi (t : Ty) (acc : BitVec 2) (a b : Word) : Word := hiW (prod64 t acc a b)

/-- Quotient rounded toward zero; a zero divisor gives all ones; −2^31 / −1 gives −2^31 (R80). -/
def divTy (t : Ty) (a b : Word) : Word :=
  if b = 0 then 0xFFFFFFFF else wordOf (Int.tdiv (tyVal t a) (tyVal t b))
def remTy (t : Ty) (a b : Word) : Word :=
  if b = 0 then a else wordOf (Int.tmod (tyVal t a) (tyVal t b))

/-- Shifts by 0 to 63 (R81). -/
def shlW (a : Word) (k : Nat) : Word := a <<< k
def shrTy (t : Ty) (a : Word) (k : Nat) : Word := bif t.signed then a.sshiftRight k else a >>> k

/-- Conditions under a type (R82, R107). -/
def condTy (cc : Cond) (t : Ty) (a b : Word) : Bool :=
  match cc with
  | .eq => a == b
  | .ne => a != b
  | .lt => ltTy t a b
  | .ge => !ltTy t a b
  | .le => !ltTy t b a
  | .gt => ltTy t b a

/-- The two's-complement absolute value, and the exact absolute difference (R102). -/
def absW (a : Word) : Word := wordOf a.toInt.natAbs
def absdTy (t : Ty) (a b : Word) : Word := wordOf (tyVal t a - tyVal t b).natAbs

/-- Bit `4a + 2b + c` of the table for each bit (R104). -/
def lut3W (table : BitVec 8) (a b c : Word) : Word :=
  BitVec.ofNat 32 ((List.range 32).foldl (fun x i =>
    let k := 4 * (a.getLsbD i).toNat + 2 * (b.getLsbD i).toNat + (c.getLsbD i).toNat
    bif table.getLsbD k then x + 2 ^ i else x) 0)

/-- Funnel shifts of a:b by 0 to 31 (R103). -/
def fshlW (a b : Word) (k : Nat) : Word := (((a ++ b : BitVec 64) <<< k).extractLsb' 32 32)
def fshrW (a b : Word) (k : Nat) : Word := (((a ++ b : BitVec 64) >>> k).extractLsb' 0 32)

/-- Counts (R105). -/
def popcW (a : Word) : Word := BitVec.ofNat 32 ((List.range 32).filter a.getLsbD).length
def clzW (a : Word) : Word := BitVec.ofNat 32 (if a = 0 then 32 else 31 - Nat.log2 a.toNat)
def ctzW (a : Word) : Word := BitVec.ofNat 32 (((List.range 32).find? a.getLsbD).getD 32)
def brevW (a : Word) : Word :=
  BitVec.ofNat 32 ((List.range 32).foldl (fun x i => bif a.getLsbD i then x + 2 ^ (31 - i) else x) 0)

/-- Bit-field extract and insert (R106). -/
def bfxTy (t : Ty) (a : Word) (pos len : Nat) : Word :=
  let L := min len (32 - pos)
  let f := a.toNat / 2 ^ pos % 2 ^ L
  if L = 0 then 0 else if t.signed then wordOf (sextI f L) else BitVec.ofNat 32 f
def bfiW (d a : Word) (pos len : Nat) : Word :=
  let L := min len (32 - pos)
  let m : Word := BitVec.ofNat 32 ((2 ^ L - 1) * 2 ^ pos)
  (d &&& ~~~m) ||| ((a <<< pos) &&& m)

/-- Byte `i` of a word, under a type, and four bytes made from integers (R109). -/
def byteI (t : Ty) (x : Word) (i : Nat) : Int :=
  let b := x.extractLsb' (8 * i) 8
  bif t.signed then b.toInt else b.toNat
def bytesW (f : Nat → Int) : Word :=
  BitVec.ofInt 8 (f 3) ++ BitVec.ofInt 8 (f 2) ++ BitVec.ofInt 8 (f 1) ++ BitVec.ofInt 8 (f 0)

def packed (t : Ty) (f : Int → Int → Int) (a b : Word) : Word := bytesW fun i => f (byteI t a i) (byteI t b i)

/-- The byte dot product: four products under the class, summed exactly with c (R109). -/
def pdotTy (t : Ty) (acc : BitVec 2) (a b c : Word) : Word :=
  wordOf ((List.range 4).foldl (fun x i => x + mulInt 8 acc (byteI t a i) (byteI t b i)) (c.toNat : Int))

/-- A 32-bit integer clamped to a byte of the type. -/
def clampByte (t : Ty) (x : Word) : BitVec 8 :=
  BitVec.ofInt 8 (clampI t.minI t.maxI (bif t.signed then x.toInt else x.toNat))

/-- `pack`: bytes 2H and 2H + 1 are replaced (R109). -/
def packTy (t : Ty) (hi : Bool) (d a b : Word) : Word :=
  let p : BitVec 16 := clampByte t b ++ clampByte t a
  bif hi then p ++ d.extractLsb' 0 16 else d.extractLsb' 16 16 ++ p

/-- The operation and the identity of a reduction (R113). -/
def redFn (op : RedOp) (t : Ty) (a b : Word) : Word :=
  match op with
  | .add => a + b
  | .adds => addSat t a b
  | .min => minTy t a b
  | .max => maxTy t a b
  | .and => a &&& b
  | .or => a ||| b
  | .xor => a ^^^ b

def redId (op : RedOp) (t : Ty) : Word :=
  match op with
  | .and => 0xFFFFFFFF
  | .min => wordOf t.maxI
  | .max => wordOf t.minI
  | _ => 0

end Sys2Proof.Machine
end

