-- ==== Sys2Proof/Machine/VectorInt.lean ====
section
/-! DEFINITION. Vector integer arithmetic, shifts, logic, fields, compares, select and packed bytes
(06_isa_vector_integer_and_lanes R99 to R109, R114; 03 R53). -/
namespace Sys2Proof.Machine

/-- A vector destination, put element by element (R99). -/
def runVec (h : Head) (dst : VReg) (f : Ctx → Nat → Word) : State → Host.Outcome State Fault Refusal :=
  runRegs h noTrap fun c => c.putV c.r dst.toNat (f c)

/-- A predicate destination, written across its registers (R28, R99, R107). -/
def runVPred (h : Head) (pd : PReg) (f : Ctx → Nat → Bool) : State → Host.Outcome State Fault Refusal :=
  runRegs h noTrap fun c => c.putP c.r pd.toNat (f c)

/-- The element-by-element form of two operands, of one, and of three (R102, R104). -/
def runVBin (h : Head) (o : VBin) (f : Word → Word → Word) : State → Host.Outcome State Fault Refusal :=
  runVec h o.dst fun c e => f (c.r.elem o.sa.toNat e) (o.b.elem c e)
def runVUn (h : Head) (dst sa : VReg) (f : Word → Word) : State → Host.Outcome State Fault Refusal :=
  runVec h dst fun c e => f (c.r.elem sa.toNat e)
def runVTri (h : Head) (o : VTri) (f : Word → Word → Word → Word) : State → Host.Outcome State Fault Refusal :=
  runVec h o.dst fun c e => f (c.r.elem o.sa.toNat e) (c.r.elem o.sb.toNat e) (c.r.elem o.sc.toNat e)

/-! ### Arithmetic (R102) -/

def execAddVector (h : Head) (o : VBin) (s : State) := runVBin h o (· + ·) s
def execSubVector (h : Head) (o : VBin) (s : State) := runVBin h o (· - ·) s
def execAddsVector (h : Head) (o : VBin) (s : State) := runVBin h o (addSat o.ty) s
def execSubsVector (h : Head) (o : VBin) (s : State) := runVBin h o (subSat o.ty) s
def execMinVector (h : Head) (o : VBin) (s : State) := runVBin h o (minTy o.ty) s
def execMaxVector (h : Head) (o : VBin) (s : State) := runVBin h o (maxTy o.ty) s
def execAbs (h : Head) (o : VUnTy) (s : State) := runVUn h o.dst o.sa absW s
def execAbsd (h : Head) (o : VBin) (s : State) := runVBin h o (absdTy o.ty) s
def execMulVector (h : Head) (o : VBin) (s : State) := runVBin h o (mulLo o.ty h.acc) s
def execMulhVector (h : Head) (o : VBin) (s : State) := runVBin h o (mulHi o.ty h.acc) s
def execMad (h : Head) (o : VTri) (s : State) := runVTri h o (fun a b c => mulLo o.ty h.acc a b + c) s

/-! ### Shifts (R103) -/

def execShlVector (h : Head) (o : VBin) (s : State) :=
  runVec h o.dst (fun c e => shlW (c.r.elem o.sa.toNat e) (o.b.amount c e)) s
def execShrVector (h : Head) (o : VBin) (s : State) :=
  runVec h o.dst (fun c e => shrTy o.ty (c.r.elem o.sa.toNat e) (o.b.amount c e)) s

/-- The amount of a funnel shift: N, or the fourth operand's low five bits. -/
def funnelAmount (h : Head) (o : Funnel) (c : Ctx) (e : Nat) : Nat :=
  bif o.va then (c.r.elem h.v4 e).toNat % 32 else o.n.toNat

def execFshl (h : Head) (o : Funnel) (s : State) :=
  runVec h o.dst (fun c e => fshlW (c.r.elem o.sa.toNat e) (c.r.elem o.sb.toNat e) (funnelAmount h o c e)) s
def execFshr (h : Head) (o : Funnel) (s : State) :=
  runVec h o.dst (fun c e => fshrW (c.r.elem o.sa.toNat e) (c.r.elem o.sb.toNat e) (funnelAmount h o c e)) s

/-! ### Logic, counts and fields (R104 to R106) -/

def execLut3 (h : Head) (o : Lut3Op) (s : State) :=
  runVec h o.dst (fun c e =>
    lut3W o.table (c.r.elem o.sa.toNat e) (c.r.elem o.sb.toNat e) (c.r.elem o.sc.toNat e)) s
def execAndVector (h : Head) (o : VBin) (s : State) := runVBin h o (· &&& ·) s
def execOrVector (h : Head) (o : VBin) (s : State) := runVBin h o (· ||| ·) s
def execXorVector (h : Head) (o : VBin) (s : State) := runVBin h o (· ^^^ ·) s
def execAndnVector (h : Head) (o : VBin) (s : State) := runVBin h o (fun a b => a &&& ~~~b) s
def execNot (h : Head) (o : VUn) (s : State) := runVUn h o.dst o.sa (~~~·) s
def execPopc (h : Head) (o : VUn) (s : State) := runVUn h o.dst o.sa popcW s
def execClz (h : Head) (o : VUn) (s : State) := runVUn h o.dst o.sa clzW s
def execCtz (h : Head) (o : VUn) (s : State) := runVUn h o.dst o.sa ctzW s
def execBrev (h : Head) (o : VUn) (s : State) := runVUn h o.dst o.sa brevW s

def execBfx (h : Head) (o : BField) (s : State) :=
  runVec h o.dst (fun c e =>
    let p := o.f.posLen c.r
    bfxTy o.ty (c.r.elem o.sa.toNat e) p.1 p.2) s
def execBfi (h : Head) (o : BField) (s : State) :=
  runVec h o.dst (fun c e =>
    let p := o.f.posLen c.r
    bfiW (c.r.elem o.dst.toNat e) (c.r.elem o.sa.toNat e) p.1 p.2) s

/-! ### Compares and select (R107, R108) -/

def runCmp (cc : Cond) (h : Head) (o : VCmp) : State → Host.Outcome State Fault Refusal :=
  runVPred h o.pd fun c e => condTy cc o.ty (c.r.elem o.sa.toNat e) (o.b.elem c e)

def execCmpEq (h : Head) (o : VCmp) (s : State) := runCmp .eq h o s
def execCmpNe (h : Head) (o : VCmp) (s : State) := runCmp .ne h o s
def execCmpLt (h : Head) (o : VCmp) (s : State) := runCmp .lt h o s
def execCmpGe (h : Head) (o : VCmp) (s : State) := runCmp .ge h o s
def execCmpLe (h : Head) (o : VCmp) (s : State) := runCmp .le h o s
def execCmpGt (h : Head) (o : VCmp) (s : State) := runCmp .gt h o s

/-- Element `e` of a predicate operand; `p0` is true throughout (R28, log 11). -/
def Ctx.predElem (c : Ctx) (p : PReg) (e : Nat) : Bool :=
  if p = 0 then true else (c.r.getP (p.toNat + e / c.w)).has (e % c.w)

def execSel (h : Head) (o : SelOp) (s : State) :=
  runVec h o.dst (fun c e => bif c.predElem o.selp e then c.r.elem o.sa.toNat e else o.b.elem c e) s

/-! ### Packed bytes (R109) -/

def execPadd (h : Head) (o : VBin) (s : State) := runVBin h o (packed o.ty (· + ·)) s
def execPsub (h : Head) (o : VBin) (s : State) := runVBin h o (packed o.ty (· - ·)) s
def execPadds (h : Head) (o : VBin) (s : State) :=
  runVBin h o (packed o.ty fun a b => clampI o.ty.minI o.ty.maxI (a + b)) s
def execPsubs (h : Head) (o : VBin) (s : State) :=
  runVBin h o (packed o.ty fun a b => clampI o.ty.minI o.ty.maxI (a - b)) s
def execPmin (h : Head) (o : VBin) (s : State) := runVBin h o (packed o.ty min) s
def execPmax (h : Head) (o : VBin) (s : State) := runVBin h o (packed o.ty max) s
def execPabsd (h : Head) (o : VBin) (s : State) :=
  runVBin h o (packed o.ty fun a b => ((a - b).natAbs : Int)) s
def execPdot (h : Head) (o : VTri) (s : State) := runVTri h o (pdotTy o.ty h.acc) s
def execPack (h : Head) (o : PackOp) (s : State) :=
  runVec h o.dst (fun c e =>
    packTy o.ty o.h (c.r.elem o.dst.toNat e) (c.r.elem o.sa.toNat e) (o.b.elem c e)) s

/-! ### Moves (R114) and indexed moves (R53) -/

def execMovVectorReg (h : Head) (o : VUn) (s : State) := runVUn h o.dst o.sa id s
def execMovVectorImm (h : Head) (o : VImm) (s : State) := runVec h o.dst (fun _ _ => o.imm.val) s
def execMovVectorUniform (h : Head) (o : VFromU) (s : State) :=
  runVec h o.dst (fun c _ => c.r.getS o.sa.toNat) s

/-- The computed register number (R53). -/
def ixNum (a : UReg) (imm : BitVec 9) (r : Regs) : Nat := (r.getS a.toNat).toNat + imm.toNat

/-- The register-range fault of an indexed form: not a multiple of g, or not declared. -/
def ixTrap (a : UReg) (imm : BitVec 9) (c : Ctx) : List (Nat × TrapInfo) :=
  let n := ixNum a imm c.r
  bif n % c.g != 0 || decide (c.r.v.length ≤ n + c.g - 1) then inLanes c.e { cause := 5, det := n } else []

def execMovIxRead (h : Head) (o : IxRead) (s : State) :=
  runRegs h (ixTrap o.a o.imm) (fun c =>
    c.putV c.r o.dst.toNat fun e => c.r.elem (ixNum o.a o.imm c.r) e) s
def execMovIxWrite (h : Head) (o : IxWrite) (s : State) :=
  runRegs h (ixTrap o.a o.imm) (fun c =>
    c.putV c.r (ixNum o.a o.imm c.r) fun e => c.r.elem o.sb.toNat e) s

end Sys2Proof.Machine
end

