-- ==== Sys2Proof/Machine/VectorFloat.lean ====
section
/-! DEFINITION. Vector floating point, conversions, block quantisation, the exact accumulator and random streams
(07_isa_vector_float_and_functions R116 to R123, R127 to R133). -/
namespace Sys2Proof.Machine

/-! ### Values, flags and traps of an instruction (R116, R208) -/

/-- An element of a 16-bit type holds two values. -/
def isHalf (t : Ty) : Bool := t == .bf16 || t == .f16

/-- A function of values on whole elements: once, or on each half. -/
def onHalves (t : Ty) (f : List Nat → Nat × BitVec 6) (xs : List Word) : Word × BitVec 6 :=
  if isHalf t then
    let lo := f (xs.map (·.toNat % 65536))
    let hi := f (xs.map (·.toNat / 65536))
    (BitVec.ofNat 16 hi.1 ++ BitVec.ofNat 16 lo.1, lo.2 ||| hi.2)
  else
    let r := f (xs.map (·.toNat))
    (BitVec.ofNat 32 r.1, r.2)

/-- The flags that arise in the active elements of a lane, and in all of them. -/
def laneFlags (c : Ctx) (fl : Nat → BitVec 6) (l : Nat) : BitVec 6 :=
  (List.range c.g).foldl (fun a j => bif c.active (j * c.w + l) then a ||| fl (j * c.w + l) else a) 0
def allFlags (c : Ctx) (fl : Nat → BitVec 6) : BitVec 6 := c.actives.foldl (fun a e => a ||| fl e) 0

/-- The arithmetic exceptions: in each lane where an enabled flag arose. Root code raises none (R171). -/
def floatTraps (fl : Ctx → Nat → BitVec 6) (c : Ctx) : List (Nat × TrapInfo) :=
  if c.ref.isNone then [] else
  c.e.lanes.filterMap fun l =>
    let t := trappedFlags c.r.fflags (laneFlags c (fl c) l)
    bif t == 0 then none else some (l, { cause := 11, code := t.toNat })

def addFlags (c : Ctx) (x : BitVec 6) (r : Regs) : Regs :=
  bif c.ref.isNone then r else { r with fflags := orFlags r.fflags x }

/-- A vector result with flags. -/
def runFloat (h : Head) (dst : VReg) (f : Ctx → Nat → Word × BitVec 6) : State → Host.Outcome State Fault Refusal :=
  runRegs h (floatTraps fun c e => (f c e).2) fun c =>
    addFlags c (allFlags c fun e => (f c e).2) (c.putV c.r dst.toNat fun e => (f c e).1)

def Ctx.mode (c : Ctx) : RMode := RMode.ofCode c.rm

/-- One operand, two and three, on the values of a type. -/
def runF1 (h : Head) (t : Ty) (dst sa : VReg) (f : RMode → Nat → Nat × BitVec 6) : State → Host.Outcome State Fault Refusal :=
  runFloat h dst fun c e => onHalves t (fun xs => f c.mode (xs.getD 0 0)) [c.r.elem sa.toNat e]
def runF2 (h : Head) (o : VBin) (f : RMode → Nat → Nat → Nat × BitVec 6) : State → Host.Outcome State Fault Refusal :=
  runFloat h o.dst fun c e =>
    onHalves o.ty (fun xs => f c.mode (xs.getD 0 0) (xs.getD 1 0)) [c.r.elem o.sa.toNat e, o.b.elem c e]
def runF3 (h : Head) (o : VTri) (f : RMode → Nat → Nat → Nat → Nat × BitVec 6) : State → Host.Outcome State Fault Refusal :=
  runFloat h o.dst fun c e =>
    onHalves o.ty (fun xs => f c.mode (xs.getD 0 0) (xs.getD 1 0) (xs.getD 2 0))
      [c.r.elem o.sa.toNat e, c.r.elem o.sb.toNat e, c.r.elem o.sc.toNat e]

/-! ### Arithmetic (R118 to R123) -/

def execFadd (h : Head) (o : VBin) (s : State) := runF2 h o (faddV (fmtOf o.ty)) s
def execFsub (h : Head) (o : VBin) (s : State) := runF2 h o (fsubV (fmtOf o.ty)) s
def execFmul (h : Head) (o : VBin) (s : State) := runF2 h o (fmulV (fmtOf o.ty) h.acc) s
def execFma (h : Head) (o : VTri) (s : State) := runF3 h o (fmaV (fmtOf o.ty) h.acc false false) s
def execFms (h : Head) (o : VTri) (s : State) := runF3 h o (fmaV (fmtOf o.ty) h.acc false true) s
def execFnma (h : Head) (o : VTri) (s : State) := runF3 h o (fmaV (fmtOf o.ty) h.acc true true) s
def execFnms (h : Head) (o : VTri) (s : State) := runF3 h o (fmaV (fmtOf o.ty) h.acc true false) s
def execFneg (h : Head) (o : VUnTy) (s : State) := runF1 h o.ty o.dst o.sa (fun _ a => (fnegV (fmtOf o.ty) a, 0)) s
def execFabs (h : Head) (o : VUnTy) (s : State) := runF1 h o.ty o.dst o.sa (fun _ a => (fabsV (fmtOf o.ty) a, 0)) s
def execFsgn (h : Head) (o : VBin) (s : State) := runF2 h o (fun _ a b => (fsgnV (fmtOf o.ty) a b, 0)) s
def execFmin (h : Head) (o : VBin) (s : State) := runF2 h o (fun _ => fminmaxV (fmtOf o.ty) false) s
def execFmax (h : Head) (o : VBin) (s : State) := runF2 h o (fun _ => fminmaxV (fmtOf o.ty) true) s
def execFdiv (h : Head) (o : VBin) (s : State) := runF2 h o (fdivV (fmtOf o.ty)) s
def execFsqrt (h : Head) (o : VUnTy) (s : State) := runF1 h o.ty o.dst o.sa (fsqrtV (fmtOf o.ty)) s
def execFrcp (h : Head) (o : VUn) (s : State) := runF1 h .f32 o.dst o.sa (fun rm => fdivV f32 rm 0x3F800000) s
def execFrsq (h : Head) (o : VUn) (s : State) := runF1 h .f32 o.dst o.sa frsqV s
def execFsin (h : Head) (o : VUn) (s : State) := runF1 h .f32 o.dst o.sa (ftrigV false) s
def execFcos (h : Head) (o : VUn) (s : State) := runF1 h .f32 o.dst o.sa (ftrigV true) s
def execFexp2 (h : Head) (o : VUn) (s : State) := runF1 h .f32 o.dst o.sa fexp2V s
def execFlog2 (h : Head) (o : VUn) (s : State) := runF1 h .f32 o.dst o.sa flog2V s
def execFrint (h : Head) (o : VUn) (s : State) := runF1 h .f32 o.dst o.sa frintV s

/-- The relation at an element, and its flags. -/
def fcmpAt (o : FCmpOp) (c : Ctx) (e : Nat) : Bool × BitVec 6 :=
  frelV o.rel (c.r.elem o.sa.toNat e).toNat (o.b.elem c e).toNat

def execFcmp (h : Head) (o : FCmpOp) (s : State) :=
  runRegs h (floatTraps fun c e => (fcmpAt o c e).2) (fun c =>
    addFlags c (allFlags c fun e => (fcmpAt o c e).2) (c.putP c.r o.pd.toNat fun e => (fcmpAt o c e).1)) s

def execFclass (h : Head) (o : VUn) (s : State) := runVUn h o.dst o.sa (fun a => fclassV a.toNat) s

/-! ### Generators in registers (R132, R133) -/

/-- The state of the generator at vs in a lane, and writing it. -/
def Regs.gen (r : Regs) (vs l : Nat) : Gen := r.getV (vs + 3) l ++ r.getV (vs + 2) l ++ r.getV (vs + 1) l ++ r.getV vs l
def Regs.setGen (r : Regs) (vs l : Nat) (g : Gen) : Regs :=
  (List.range 4).foldl (fun r i => r.setV (vs + i) l (g.word i)) r

/-- Change the generators of the active lanes. -/
def mapGens (c : Ctx) (vs : Nat) (f : Nat → Gen → Gen) (r : Regs) : Regs :=
  c.actives.foldl (fun r e => r.setGen vs (e % c.w) (f (e % c.w) (c.r.gen vs (e % c.w)))) r

/-- Rounding is stochastic: RM 101, or 110 with `%frm` at 101. -/
def Ctx.stoch (c : Ctx) : Bool := c.rm == 5

/-- The mode at an element: stochastic with the bits that its lane's generator draws. -/
def Ctx.modeAt (c : Ctx) (h : Head) (e : Nat) : RMode :=
  bif c.stoch then .sto ((c.r.gen h.v4 (e % c.w)).output.toNat / 65536) else c.mode

/-- A rounding that may draw on generators: each active element's generator advances one step. -/
def runStoch (h : Head) (dst : VReg) (f : Ctx → Nat → Word × BitVec 6) : State → Host.Outcome State Fault Refusal :=
  runRegs h (floatTraps fun c e => (f c e).2) fun c =>
    let r := addFlags c (allFlags c fun e => (f c e).2) (c.putV c.r dst.toNat fun e => (f c e).1)
    bif c.stoch then mapGens c h.v4 (fun _ g => g.step) r else r

def execRngInit (h : Head) (o : VFromU) (s : State) :=
  runEach h (fun _ _ => [])
    (fun i c s =>
      let la := ctxLaunch s c
      let task := ((c.ref.bind fun r => s.team? r.team).map (·.task)).getD 0
      let n := fun l => task * 2 ^ 22 + ((c.r.getS o.sa.toNat).toNat % 65536) * 64 + l
      advance (putRegs s c (mapGens c o.dst.toNat (fun l _ => (Gen.base la.seed).jump (n l)) c.r)) i c c.iss) s

def execRngNext (h : Head) (o : VUn) (s : State) :=
  runRegs h noTrap (fun c =>
    mapGens c o.sa.toNat (fun _ g => g.step)
      (c.putV c.r o.dst.toNat fun e => (c.r.gen o.sa.toNat (e % c.w)).output)) s

def execRngJump (h : Head) (o : VFromU) (s : State) :=
  runRegs h noTrap (fun c =>
    mapGens c o.dst.toNat (fun _ g => g.jump ((c.r.getS o.sa.toNat).toNat % 65536)) c.r) s

/-! ### Conversions (R127, R128) -/

/-- Bits of a narrow type. -/
def narrowBits (t : Ty) : Nat := if isHalf t then 16 else 8

/-- Replace the part of a word at a position. -/
def putPart (w : Word) (bitsN pos x : Nat) : Word :=
  let m := BitVec.ofNat 32 (2 ^ bitsN - 1) <<< (bitsN * pos)
  (w &&& ~~~m) ||| ((BitVec.ofNat 32 x <<< (bitsN * pos)) &&& m)

/-- The element of a float conversion. -/
def cvtAt (h : Head) (o : CvtOp) (c : Ctx) (e : Nat) : Word × BitVec 6 :=
  let a := (c.r.elem o.sa.toNat e).toNat
  if o.dty = .f32 then
    let n := narrowBits o.src
    let r := widenV (fmtOf o.src) (a / 2 ^ (n * o.pos.toNat) % 2 ^ n)
    (BitVec.ofNat 32 r.1, r.2)
  else
    let r := narrowV (fmtOf o.dty) (c.modeAt h e) o.sat a
    (putPart (c.r.elem o.dst.toNat e) (narrowBits o.dty) o.pos.toNat r.1, r.2)

def execCvtFloat (h : Head) (o : CvtOp) (s : State) := runStoch h o.dst (cvtAt h o) s

def cvtIntAt (o : CvtOp) (c : Ctx) (e : Nat) : Word × BitVec 6 :=
  let a := c.r.elem o.sa.toNat e
  if o.dty = .f32 then
    let r := intToF c.mode (tyVal o.src a)
    (BitVec.ofNat 32 r.1, r.2)
  else fToInt o.dty c.mode a.toNat

def execCvtIntFloat (h : Head) (o : CvtOp) (s : State) := runFloat h o.dst (cvtIntAt o) s

/-! ### Blocks (R129, R130) -/

/-- The scale byte of the block that holds element `e`, and the flags of the element. -/
def bscaleAt (o : BScale) (c : Ctx) (e : Nat) : Word × BitVec 6 :=
  let xs := ((List.range 32).map (· + e / 32 * 32)).filter c.active |>.map fun i => (c.r.elem o.sa.toNat i).toNat
  (BitVec.ofNat 32 (scaleByte o.bt.toNat xs), snanFlag [f32.val (c.r.elem o.sa.toNat e).toNat])

def execBscale (h : Head) (o : BScale) (s : State) := runFloat h o.dst (bscaleAt o) s

def bqAt (h : Head) (o : BQuant) (c : Ctx) (e : Nat) : Word × BitVec 6 :=
  let r := quantV (c.modeAt h e) ((o.b.elem c e).toNat % 256) (c.r.elem o.sa.toNat e).toNat
  (putPart (c.r.elem o.dst.toNat e) 4 o.pos.toNat r.1, r.2)

def execBq (h : Head) (o : BQuant) (s : State) := runStoch h o.dst (bqAt h o) s

def execBdq (h : Head) (o : BQuant) (s : State) :=
  runVec h o.dst (fun c e =>
    BitVec.ofNat 32 (dequantV ((o.b.elem c e).toNat % 256) ((c.r.elem o.sa.toNat e).toNat / 16 ^ o.pos.toNat % 16))) s

/-! ### The exact accumulator (R131) -/

def execXaccClr (h : Head) (s : State) := runRegs h noTrap (onceE fun _ r => { r with x := {} }) s

/-- The values that an active element adds, and its flags. -/
def runXacc (h : Head) (vals : Ctx → Nat → List FVal) (fl : Ctx → Nat → BitVec 6) : State → Host.Outcome State Fault Refusal :=
  runRegs h (floatTraps fl) fun c =>
    addFlags c (allFlags c (fl c)) { c.r with x := (c.actives.flatMap (vals c)).foldl Xacc.addVal c.r.x }

def execXaccAdd (h : Head) (va : VReg) (s : State) :=
  runXacc h (fun c e => [f32.val (c.r.elem va.toNat e).toNat])
    (fun c e => snanFlag [f32.val (c.r.elem va.toNat e).toNat]) s

/-- The values of both halves of two elements. -/
def halfVals (t : Ty) (x : Word) : List FVal := [(fmtOf t).val (x.toNat % 65536), (fmtOf t).val (x.toNat / 65536)]

def execXaccMac (h : Head) (o : XMac) (s : State) :=
  let prods := fun (c : Ctx) e =>
    List.zipWith (fun a b => mulF (fmtOf o.ty).prec 0 a b) (halfVals o.ty (c.r.elem o.sa.toNat e)) (halfVals o.ty (c.r.elem o.sb.toNat e))
  runXacc h (fun c e => (prods c e).map (·.1))
    (fun c e => (prods c e).foldl (fun f x => f ||| x.2) 0) s

def execXaccRd (h : Head) (sd : UReg) (s : State) :=
  runRegs h
    (fun c =>
      let t := trappedFlags c.r.fflags (c.r.x.read c.mode).2
      bif t == 0 || c.ref.isNone then [] else inLanes c.e { cause := 11, code := t.toNat })
    (onceE fun c r =>
      let v := r.x.read c.mode
      addFlags c v.2 (r.setS sd.toNat (BitVec.ofNat 32 v.1))) s

end Sys2Proof.Machine
end

