-- ==== Sys2Proof/Machine/Tables.lean ====
section
/-! DEFINITION. Activation tables: loading an image, the flip of a table, and `fact`
(07_isa_vector_float_and_functions R124 to R126; 13 R208). -/
namespace Sys2Proof.Machine

def FVal.finite : FVal → Bool
  | .zero _ | .fin .. => true
  | _ => false

/-- The table of an image (R124). -/
def tableOf (b : List Byte) : ActTable :=
  { lo := BitVec.ofNat 32 (fieldB b 0 4), hi := BitVec.ofNat 32 (fieldB b 4 4)
    y := (List.range 256).map fun i => BitVec.ofNat 32 (fieldB b (0x10 + 4 * i) 4) }

/-- An image is valid. -/
def imageOk (b : List Byte) : Bool :=
  let t := tableOf b
  (f32.val t.lo.toNat).finite && (f32.val t.hi.toNat).finite && decide (fnum t.lo.toNat < fnum t.hi.toNat)
    && fieldB b 8 8 == 0

/-- Change one table slot of a team. -/
def Team.modAct (t : Team) (tb : Nat) (f : ActSlot → ActSlot) : Team := { t with act := t.act.modify tb f }

def execActLd (h : Head) (o : ActLd) (s : State) :=
  runEach h (fun s c => winBlockTrap s c (c.r.getS o.sb.toNat).toNat 16 1040)
    (fun i c s =>
      match c.ref with
      | none => s
      | some r =>
        if c.e = 0 then advance s i c c.iss else
        let slot := (((s.team? r.team).bind fun t => t.act[o.tb.toNat]?).getD {})
        -- another wave of the team has a load of this table pending: this one issues again
        if slot.shadow.isSome then advance s i c (c.iss &&& ~~~c.e) else
        let s := advance s i c c.iss
        let off := (c.r.getS o.sb.toNat).toNat
        -- the wave's outstanding stores are not waited for
        let b := readBytes s (.win r.team off) 1040
        let s := s.charge (s.fnOf r) (coreDom (s.coreOf r)) 7 (linesOf off 1040)
        if !imageOk b then putRegs s c (c.r.setS o.rd.toNat 1) else
        let id := s.nextId
        let s := s.fresh.modTeam r.team fun t => t.modAct o.tb.toNat fun a => { a with shadow := some (tableOf b, r.wave, id) }
        s.modWave r fun w => { w with replies := w.replies ++ [({ id := id, kind := .reg o.rd.toNat false true } : Reply)] }) s

/-- No wave of the team has a `fact` of the table in flight. -/
def Team.quiet (t : Team) (tb : Nat) : Bool := t.waves.all fun w => w.facts.all fun f => f.table != tb

/-- The shadow becomes live, the version rises, and 0 is written. -/
def execActLdFlip (team : Nat) (tb : BitVec 2) (s : State) : Host.Outcome State Fault Refusal :=
  match s.team? team with
  | none => .next s
  | some t =>
    match (t.act.getD tb.toNat {}).shadow with
    | none => .next s
    | some (y, w, id) =>
      if !t.quiet tb.toNat then .next s else
      let s := s.modTeam team fun t => t.modAct tb.toNat fun a => { live := y, version := a.version + 1, shadow := none }
      .next (giveReply s ⟨team, w⟩ id 0)

/-! ### `fact` (R125) -/

/-- Integers of dyadic numbers in units of a common power of two, and its exponent. -/
def dyAlign (xs : List (Int × Int)) : List Int × Int :=
  let e := (xs.map (·.2)).min?.getD 0
  (xs.map fun x => x.1 * 2 ^ (x.2 - e).toNat, e)

/-- A NaN result is canonical (R116). -/
def canonNan (x : Word) : Word := bif (f32.val x.toNat).isNan then BitVec.ofNat 32 f32.nan else x

/-- The result of an element, and its flags. -/
def factVal (t : ActTable) (rm : RMode) (x : Word) : Word × BitVec 6 :=
  let v := f32.val x.toNat
  if v.isNan then (BitVec.ofNat 32 f32.nan, snanFlag [v])
  else if fnum x.toNat ≤ fnum t.lo.toNat then (canonNan (t.y.getD 0 0), 0)
  else if fnum t.hi.toNat ≤ fnum x.toNat then (canonNan (t.y.getD 255 0), 0)
  else
    let (xs, _) := dyAlign [v.dy, (f32.val t.lo.toNat).dy, (f32.val t.hi.toNat).dy]
    let n := (xs.getD 0 0 - xs.getD 1 0) * 255
    let d := xs.getD 2 0 - xs.getD 1 0
    let i := min (n / d).toNat 254
    -- f = fn/d
    let fn := n - i * d
    let y0 := t.y.getD i 0
    let y1 := t.y.getD (i + 1) 0
    if (f32.val y0.toNat).finite && (f32.val y1.toNat).finite then
      let (ys, ey) := dyAlign [(f32.val y0.toNat).dy, (f32.val y1.toNat).dy]
      let num := ys.getD 0 0 * d + fn * (ys.getD 1 0 - ys.getD 0 0)
      let r := if num = 0 then (f32.withSign (zeroSign rm) 0, 0)
        else roundEx f32 rm (exDiv (decide (num < 0)) num.natAbs ey d.natAbs 0)
      (BitVec.ofNat 32 r.1, r.2)
    else (Config.factOpen y0 y1 x, 0)

/-- What a `fact` writes: the results of the active elements, and the policy's zeros. -/
def factElems (t : ActTable) (o : FactOp) (c : Ctx) : List (Nat × Nat × Word) :=
  c.elems.filterMap fun e => match c.kind e with
    | .active => some (o.dst.toNat + e / c.w, e % c.w, (factVal t c.mode (c.r.elem o.sa.toNat e)).1)
    | .zeroed => some (o.dst.toNat + e / c.w, e % c.w, 0)
    | .untouched => none

/-- The flags of an element of a `fact`. -/
def factFlags (t : ActTable) (o : FactOp) (c : Ctx) (e : Nat) : BitVec 6 :=
  (factVal t c.mode (c.r.elem o.sa.toNat e)).2

/-- A `fact` in flight, from the table it latches. -/
def factOf (t : ActTable) (o : FactOp) (c : Ctx) : PendFact :=
  { table := o.tb.toNat, elems := factElems t o c, flags := allFlags c (factFlags t o c) }

/-- The live table that a `fact` names. -/
def factTable (s : State) (c : Ctx) (o : FactOp) : ActTable :=
  (((c.ref.bind fun r => s.team? r.team).bind fun t => t.act[o.tb.toNat]?).getD {}).live

/-- A `fact` whose flags a trap enable meets traps as every instruction does, with nothing written (R77, R116): the
enables cannot change before it completes (R208). -/
def execFact (h : Head) (o : FactOp) (s : State) :=
  runEach h (fun s c => floatTraps (factFlags (factTable s c o) o) c)
    (fun i c s =>
      let s := advance s i c c.iss
      match c.ref with
      | none => s
      | some r =>
        if c.e = 0 then s else
        s.modWave r fun w => { w with facts := w.facts ++ [factOf (factTable s c o) o c] }) s

/-- The oldest `fact` of a wave completes: it writes, and ORs its flags (R208). -/
def execFactComplete (w : WaveRef) (s : State) : Host.Outcome State Fault Refusal :=
  match (s.wave? w).bind (·.facts.head?) with
  | none => .next s
  | some f =>
    .next (lapseWritten (s.modWave w fun x => { x with
      facts := x.facts.drop 1
      regs :=
        let r := f.elems.foldl (fun r e => r.setV e.1 e.2.1 e.2.2) { x.regs with wrote := 0 }
        { r with fflags := orFlags r.fflags f.flags } }) w)

end Sys2Proof.Machine
end

