-- ==== Sys2Proof/Machine/SaveArea.lean ====
section
/-! DEFINITION. The context save area: where the parts of a team block lie, the images of waves, teams,
accumulators and queues, and the progress records of the engines (03 R52; 11 R192; 15 R245; 20 R304; 21 R318). -/
namespace Sys2Proof.Machine

/-! ### The team block (R318) -/

/-- Offsets of the parts of a team block, in the order of the table of R318; each wave has the room of a forced save. -/
structure Layout where
  act   : Nat
  fe    : Nat
  sp    : Nat
  acc   : Nat
  aq    : Nat
  prog  : Nat
  waves : Nat
  per   : Nat
  size  : Nat
  deriving DecidableEq, Repr

def layoutOf (w v u a tw win aqn : Nat) : Layout :=
  let fe := 0x100 + 4352
  let sp := fe + win / 32
  let acc := sp + win
  let aq := acc + (a + 3) / 4 * 4096
  let prog := aq + 8448 * aqn
  let waves := prog + 24704
  let per := 1024 + 32 * w + 4 * w * v + 4 * u
  { act := 0x100, fe := fe, sp := sp, acc := acc, aq := aq, prog := prog, waves := waves, per := per
    size := waves + per * tw }

/-- The wave width that a launch's descriptor gives. -/
def Launch.width (l : Launch) : Nat := 8 * 2 ^ l.wl

/-- The layout of a team of a launch with a window of `win` bytes. -/
def Launch.layout (l : Launch) (win : Nat) : Layout := layoutOf l.width l.v l.s l.a l.tw win l.aqn

def teamLayout (s : State) (t : Team) : Layout := ((s.launch? t.launch).getD {}).layout t.winSize

/-- The address of the team's block in its function's save area. -/
def Team.block (t : Team) : Nat := t.ctx.save + t.saveSlot.getD 0

/-- Where the image of a wave lies in the block. -/
def Layout.wave (l : Layout) (i : Nat) : Nat := l.waves + l.per * i

/-- Lines of a function's save area that a save writes or a restore reads, for a core's team or for none, are charged to it
(R248). -/
def chargeArea (s : State) (f : Nat) (core : Option Nat) (a n : Nat) : State :=
  match core with
  | some c => chargeLines s f c (rangeLocs s f a n)
  | none => chargeRange s f f a n

/-- Save bytes of a function's own area, charged to it. -/
def saveBytes (s : State) (f : Nat) (core : Option Nat) (a : Nat) (b : List Byte) : State :=
  writeVa (chargeArea s f core a b.length) f a b

/-! ### Wave images -/

/-- Bytes put at an offset of a longer image. -/
def patch (img : List Byte) (off : Nat) (b : List Byte) : List Byte := img.take off ++ b ++ img.drop (off + b.length)

def wordBytes (xs : List Word) : List Byte := xs.flatMap fun x => leBytes 4 x.toNat

/-- The image of the exact accumulator (R216). -/
def Xacc.bytes (x : Xacc) : List Byte :=
  leBytes 72 x.j.toNat ++ [BitVec.ofNat 8 (x.pinf.toNat + 2 * x.ninf.toNat + 4 * x.nan.toNat + 8 * x.ovf.toNat)]
    ++ List.replicate 7 0

def Xacc.ofBytes (b : List Byte) : Xacc :=
  let m := fieldB b 0x48 1
  { j := BitVec.ofNat 576 (fieldB b 0 72), pinf := bit m 0, ninf := bit m 1, nan := bit m 2, ovf := bit m 3 }

/-- A lane set as its mask. -/
def maskOf (ls : List Lane) (p : Lane → Bool) : Nat := (ls.zipIdx.map fun x => bif p x.1 then 2 ^ x.2 else 0).sum

/-- The lane whose PC and anchor stand for the wave: the lowest that has not exited. -/
def firstLane (ls : List Lane) : Lane := (ls.find? fun l => !l.ended).getD {}

/-- The saved counts as headers hold them: 511 stands for 512 and 127 for 128. -/
def countsWord (lv ls lp : Nat) : Nat := min lv 511 + 512 * min ls 127 + 65536 * min lp 31

/-- The record that a forced save appends for a lane. -/
def laneRecord (entry : Nat) (l : Lane) : List Byte :=
  let tr := l.mode == .trap
  let off := fun (x : Nat) => (offsetOf entry x).toNat
  leBytes 4 (off l.pc) ++ leBytes 4 (off l.anchor)
    ++ leBytes 4 (bif tr then off l.trap.tpc else 0) ++ leBytes 4 (bif tr then off l.trap.tanc else 0)
    ++ leBytes 4 l.tcause.toNat ++ leBytes 8 (bif tr then l.trap.tdet.toNat else 0) ++ List.replicate 4 0

/-- The 1,024 bytes of a wave image, from the values latched at save-mode entry. -/
def waveImage (entry : Nat) (forced : Bool) (k : Latch) : List Byte :=
  let r := k.regs
  let l0 := firstLane k.lanes
  let ps := (List.range 16).flatMap fun n => leBytes 8 (bif n < k.lp then (r.getP n).toNat else 0)
  let a := ps ++ (r.t.flatMap fun x => leBytes 16 x.toNat) ++ r.x.bytes
    ++ leBytes 4 r.vl ++ leBytes 4 r.vtype.toNat ++ leBytes 4 r.frm.toNat ++ leBytes 4 r.fflags.toNat
    ++ leBytes 64 r.wmV.toNat ++ leBytes 16 r.wmS.toNat ++ leBytes 16 r.wmP.toNat
    ++ leBytes 8 (maskOf k.lanes (·.teamArr)) ++ leBytes 8 (maskOf k.lanes (·.gangArr))
    ++ leBytes 8 (maskOf k.lanes (·.ended)) ++ leBytes 8 (maskOf k.lanes (·.mode == .trap))
    ++ leBytes 4 (offsetOf entry l0.pc).toNat ++ leBytes 4 (offsetOf entry l0.anchor).toNat
    ++ leBytes 4 (countsWord k.lv k.ls k.lp) ++ leBytes 4 forced.toNat
  a ++ List.replicate (1024 - a.length) 0

/-- What `went.st` writes for a wave: its image, each lane's record when the save is forced, and the vector and
uniform images (R52) with the registers as they stand at its issue. -/
def waveBytes (entry : Nat) (forced : Bool) (k : Latch) (r : Regs) : List Byte :=
  waveImage entry forced k ++ (bif forced then k.lanes.flatMap (laneRecord entry) else [])
    ++ ((r.v.take k.lv).flatMap wordBytes) ++ wordBytes ((List.range k.ls).map r.getS)

def wordsOf (b : List Byte) (off n : Nat) : List Word := (List.range n).map fun i => BitVec.ofNat 32 (fieldB b (off + 4 * i) 4)

/-- An address from its offset to the entry header. -/
def fromOffset (entry x : Nat) : Nat := ((entry : Int) + (BitVec.ofNat 32 x).toInt).toNat

/-- A lane as a restore leaves it: its PC and anchor as saved; its place in its block, which no image holds, as the
device kept it. -/
def restoreLane (entry : Nat) (b : List Byte) (forced : Bool) (i : Nat) (l : Lane) : Lane :=
  let has := fun off => bit (fieldB b off 8) i
  let o := 1024 + 32 * i
  let pc := fromOffset entry (bif forced then fieldB b o 4 else fieldB b 0x260 4)
  let an := fromOffset entry (bif forced then fieldB b (o + 4) 4 else fieldB b 0x264 4)
  let trap := forced && has 0x258
  let l := { l with
    pc := pc, anchor := an, teamArr := has 0x240, gangArr := has 0x248
    run := bif has 0x250 then .ended else .runnable
    mode := bif trap then .trap else .ordinary
    pos := bif !forced then .atHeader else bif pc == l.pc then l.pos else .inside
    tcause := bif forced then BitVec.ofNat 32 (fieldB b (o + 16) 4) else l.tcause }
  let tr := { l.trap with tpc := fromOffset entry (fieldB b (o + 8) 4), tanc := fromOffset entry (fieldB b (o + 12) 4)
                          tdet := BitVec.ofNat 64 (fieldB b (o + 20) 8) }
  { l with trap := bif trap then tr else {} }

/-- What `went.ld` loads: the inverse of `waveBytes`. Registers that were not saved read zero (R51). -/
def restoreLatch (entry : Nat) (b : List Byte) (r0 : Regs) (k : Latch) : Latch :=
  let forced := bit (fieldB b 0x26C 4) 0
  let c := fieldB b 0x268 4
  let lv := min (bif bits c 8 0 == 511 then 512 else bits c 8 0) r0.v.length
  let ls := min (bif bits c 15 9 == 127 then 128 else bits c 15 9) r0.s.length
  let lp := min (bits c 20 16) 16
  let w := r0.width
  let o := 1024 + bif forced then 32 * w else 0
  let v := (List.range lv).map fun n => wordsOf b (o + 4 * w * n) w
  let u := wordsOf b (o + 4 * w * lv) ls
  let r : Regs := { r0 with
    v := v ++ List.replicate (r0.v.length - lv) (List.replicate w 0)
    s := u ++ List.replicate (r0.s.length - ls) 0
    p := (List.range 16).map fun n => bif n < lp then BitVec.ofNat 64 (fieldB b (8 * n) 8) &&& Mask.full w else 0
    t := (List.range 16).map fun n => BitVec.ofNat 128 (fieldB b (0x80 + 16 * n) 16)
    x := Xacc.ofBytes (sliceB b 0x180 80)
    vl := fieldB b 0x1D0 4, vtype := BitVec.ofNat 4 (fieldB b 0x1D4 4), frm := BitVec.ofNat 3 (fieldB b 0x1D8 4)
    fflags := BitVec.ofNat 32 (fieldB b 0x1DC 4) &&& fflagsMask
    wmV := BitVec.ofNat 512 (fieldB b 0x1E0 64), wmS := BitVec.ofNat 128 (fieldB b 0x220 16)
    wmP := BitVec.ofNat 16 (fieldB b 0x230 2) }
  { regs := r, lanes := k.lanes.mapIdx fun i l => restoreLane entry b forced i l, lv := lv, ls := ls, lp := lp }

/-! ### Team parts -/

/-- The team header. -/
def teamHeader (s : State) (t : Team) : List Byte :=
  let l := (s.launch? t.launch).getD {}
  let y := l.layout t.winSize
  leBytes 4 t.waves.length ++ leBytes 4 t.winSize ++ leBytes 4 l.a ++ leBytes 4 l.aqn
    ++ ([y.act, y.fe, y.sp, y.acc, y.aq, y.prog].flatMap (leBytes 8))
    ++ ((List.range 16).flatMap fun i => leBytes 8 (match t.waves[i]? with
        | some w => bif w.allEnded then 0 else y.wave i
        | none => 0))
    ++ leBytes 4 l.number.toNat ++ leBytes 4 t.task ++ leBytes 4 t.team ++ leBytes 4 t.gang ++ leBytes 8 l.seed.toNat
    ++ List.replicate 40 0

/-- The image of an activation table (R124). -/
def ActTable.bytes (a : ActTable) : List Byte :=
  leBytes 4 a.lo.toNat ++ leBytes 4 a.hi.toNat ++ List.replicate 8 0 ++ wordBytes a.y

/-- The activation part: the images of the four tables, then their versions. -/
def actPart (t : Team) : List Byte :=
  let a := (t.act.flatMap fun x => x.live.bytes) ++ wordBytes (t.act.map (·.version))
  a ++ List.replicate (4352 - a.length) 0

/-- One bit for each word of the window: full. -/
def feBits (t : Team) : List Byte :=
  (List.range (t.winSize / 32)).map fun i =>
    BitVec.ofNat 8 ((List.range 8).map fun j => bif (t.feWord (4 * (8 * i + j))).full then 2 ^ j else 0).sum

/-- The parts that `went.st` of wave 0 writes, with their offsets in the block. -/
def teamParts (s : State) (t : Team) : List (Nat × List Byte) :=
  let y := teamLayout s t
  [(0, teamHeader s t), (y.act, actPart t), (y.fe, feBits t)]

/-- The activation tables and full/empty bits of a restored team; words start with no lane waiting. -/
def restoreParts (s : State) (t : Team) : Team :=
  let y := teamLayout s t
  let a := readVa s t.fn (t.block + y.act) 4352
  let e := readVa s t.fn (t.block + y.fe) (t.winSize / 32)
  { t with
    act := (List.range 4).map fun n =>
      ({ live := tableOf (sliceB a (1040 * n) 1040), version := BitVec.ofNat 32 (fieldB a (0x1040 + 4 * n) 4) } : ActSlot)
    fe := (e.zipIdx.flatMap fun x => (List.range 8).filterMap fun j =>
      bif x.1.getLsbD j then some ({ off := 4 * (8 * x.2 + j), full := true } : FeWord) else none) }

/-- The image of an accumulator (R52). -/
def Acc.bytes (a : Acc) : List Byte :=
  match a.fmt with
  | .f32 => wordBytes a.e
  | .sto => (a.e.flatMap fun x => leBytes 2 x.toNat) ++ wordBytes a.g ++ List.replicate 448 0

/-- An accumulator from its image and its format; the generators of an FP32 tile, which no image holds, are those it had. -/
def Acc.ofBytes (a : Acc) (sto : Bool) (b : List Byte) : Acc :=
  bif sto then { fmt := .sto, e := (List.range 256).map fun i => BitVec.ofNat 32 (fieldB b (2 * i) 2), g := wordsOf b 512 16 }
  else { a with fmt := .f32, e := wordsOf b 0 256 }

/-- An access queue: its head and count, then its entries from the head on (log 18). -/
def queueBytes (q : List (List Byte)) : List Byte :=
  leBytes 4 0 ++ leBytes 4 q.length ++ List.replicate 248 0
    ++ (q ++ List.replicate (32 - q.length) (List.replicate 256 0)).flatten

def queueOf (b : List Byte) : List (List Byte) :=
  (List.range (min (fieldB b 4 4) 32)).map fun i => sliceB b (256 + 256 * ((fieldB b 0 4 + i) % 32)) 256

/-- The header of the matrix part: the command count and the accumulators' formats. -/
def mxHeader (t : Team) (n : Nat) : List Byte :=
  leBytes 4 n ++ List.replicate 60 0
    ++ (List.range 64).map fun i => BitVec.ofNat 8 ((List.range 8).map fun j =>
        bif ((t.accs.getD (8 * i + j) {}).fmt == .sto) then 2 ^ j else 0).sum

/-- Write the accumulators, the access queues and the header of the matrix part, with its count of commands, of a
stopped team to its block (R245, R318). -/
def writeEngineParts (s : State) (t : Team) (n : Nat) : State :=
  let y := teamLayout s t
  let s := saveBytes s t.fn (some t.core) (t.block + y.acc) (t.accs.flatMap Acc.bytes)
  let s := saveBytes s t.fn (some t.core) (t.block + y.aq) (t.queues.flatMap queueBytes)
  saveBytes s t.fn (some t.core) (t.block + y.prog) (mxHeader t n)

/-- Read them back, the accumulators in the formats of the header. -/
def restoreEngineParts (s : State) (t : Team) : Team :=
  let y := teamLayout s t
  let fmts := readVa s t.fn (t.block + y.prog + 64) 64
  { t with
    accs := t.accs.mapIdx fun i a =>
      a.ofBytes ((fmts.getD (i / 8) 0).getLsbD (i % 8)) (readVa s t.fn (t.block + y.acc + 1024 * i) 1024)
    queues := t.queues.mapIdx fun i _ => queueOf (readVa s t.fn (t.block + y.aq + 8448 * i) 8448) }

/-- What a restore of the engines' parts of a team reads: the accumulators, the queues, and the records of its commands. -/
def chargeEngineParts (s : State) (t : Team) (mx ap : Nat) : State :=
  let y := teamLayout s t
  let s := chargeArea s t.fn (some t.core) (t.block + y.acc) ((t.accs.length + 3) / 4 * 4096)
  let s := chargeArea s t.fn (some t.core) (t.block + y.aq) (8448 * t.queues.length)
  let s := chargeArea s t.fn (some t.core) (t.block + y.prog) (128 + 128 * mx)
  chargeArea s t.fn (some t.core) (t.block + y.prog + 16512) (128 * ap)

/-! ### Progress records -/

/-- A block image as a record holds it: 64 bytes. -/
def blk64 (b : List Byte) : List Byte := (b ++ List.replicate 64 0).take 64

/-- A matrix command as it stops: a parked one has discarded its fetched rows (R245). -/
def MxCmd.halt (c : MxCmd) : MxCmd :=
  { c with state := .stopped, wait := none, lost := false, row := 0, ver := none, buf := [], misses := [], walked := [] }

def mxStateCode : MxState → Nat
  | .idle => 0 | .running => 1 | .parked => 2 | .stopped => 3

/-- The record of a matrix command (R245). -/
def MxCmd.record (c : MxCmd) : List Byte :=
  let b := blk64 c.blk ++ leBytes 4 c.fw.toNat
    ++ leBytes 4 (c.step % 2 ^ 24 + 2 ^ 24 * (c.row % 64) + 2 ^ 30 * mxStateCode c.state)
    ++ leBytes 4 (c.opc + 1024 * c.acc.toNat + 4096 * c.sco.code.toNat + 32768 * c.func.toNat)
    ++ leBytes 4 (waveField c.by_.wave c.by_.teamNo).toNat ++ leBytes 4 c.by_.anchor.toNat
  b ++ List.replicate (128 - b.length) 0

/-- A command requeued from its record: its block, format word and place in its work (R245). -/
def MxCmd.ofRecord (c : MxCmd) (b : List Byte) : MxCmd :=
  { c with blk := (b.take 64).take c.blk.length, fw := BitVec.ofNat 32 (fieldB b 0x40 4)
           step := fieldB b 0x44 4 % 2 ^ 24, state := bif c.taken then .running else .idle
           by_ := { c.by_ with anchor := BitVec.ofNat 32 (fieldB b 0x50 4) } }

/-- A gather or a scatter, whose place is its step and position; a copy's is its row and piece. -/
def ApCmd.indexed (c : ApCmd) : Bool := c.opc == 0x332 || c.opc == 0x333

/-- An access-processor command as it stops: index words and translations are found again; bytes read for a queue and
not pushed stay with it (log 18). -/
def ApCmd.halt (c : ApCmd) : ApCmd :=
  { c with wait := none, lost := false, misses := [], walked := [], trans := [], buf := bif c.indexed then [] else c.buf }

/-- The record of an access-processor command (R304). -/
def ApCmd.record (c : ApCmd) : List Byte :=
  let b := blk64 c.blk ++ leBytes 4 (c.opc + 1024 * c.sco.code.toNat)
    ++ leBytes 4 (bif c.indexed then c.rowI / 8 else c.rowI) ++ leBytes 4 (bif c.indexed then c.rowI else c.piece)
    ++ leBytes 4 c.chunk ++ leBytes 4 (waveField c.by_.wave c.by_.teamNo).toNat ++ leBytes 4 c.by_.anchor.toNat
    ++ leBytes 4 c.sts.toNat
  b ++ List.replicate (128 - b.length) 0

def ApCmd.ofRecord (c : ApCmd) (b : List Byte) : ApCmd :=
  { c with blk := (b.take 64).take c.blk.length, rowI := fieldB b (bif c.indexed then 0x48 else 0x44) 4
           piece := bif c.indexed then c.piece else fieldB b 0x48 4, chunk := fieldB b 0x4C 4
           sts := BitVec.ofNat 32 (fieldB b 0x58 4), by_ := { c.by_ with anchor := BitVec.ofNat 32 (fieldB b 0x54 4) } }

def InvKind.code : InvKind → Nat
  | .each => 0 | .run => 1 | .task => 2

/-- The 64-byte header of a root record (R192). -/
def SavedRoot.header (r : SavedRoot) : List Byte :=
  let w := fun (k : InvKind) => match k with
    | .task => r.by_.task
    | _ => (waveField r.by_.wave r.by_.teamNo).toNat
  let ws : List Nat := match r.inv, r.bmac with
    | some i, _ => [i.kind.code, i.idx, i.block, i.nrec, i.code, i.param.toNat, i.z,
                    bif i.kind == .each then i.handle.toNat else 0]
        ++ (bif i.kind == .each then [0, 0] else [i.wbase % 2 ^ 32, i.wbase / 2 ^ 32])
        ++ [bif i.kind == .run then i.blkoff else 0, w i.kind,
            bif i.kind == .task then 0xFFFFFFFF else r.by_.anchor.toNat]
    | none, some e => [3, e.idx, e.next, e.rows, 0, 0, 0, 0, 0, 0, e.off, w .run, r.by_.anchor.toNat]
    | none, none => []
  let b := (ws ++ [r.unit]).flatMap (leBytes 4)
  b ++ List.replicate (64 - b.length) 0

/-- The 8,512 bytes of a root record: the header and the images of the registers. -/
def SavedRoot.record (r : SavedRoot) : List Byte :=
  let b := r.header ++ match r.inv with
    | some i => (i.regs.v.flatMap wordBytes) ++ wordBytes i.regs.s
        ++ (List.range 16).flatMap fun n => leBytes 8 (i.regs.getP n).toNat
    | none => []
  b ++ List.replicate (8512 - b.length) 0

/-- A stopped invocation or entry as its record holds it. -/
def SavedRoot.ofRecord (b : List Byte) (r : SavedRoot) : SavedRoot :=
  let onInv := fun (i : Inv) =>
    let g : Regs := { i.regs with
      v := (List.range 64).map fun n => wordsOf b (64 + 128 * n) 32
      s := wordsOf b 8256 32
      p := (List.range 16).map fun n => BitVec.ofNat 64 (fieldB b (8384 + 8 * n) 8) &&& Mask.full 32 }
    { i with idx := fieldB b 4 4, block := fieldB b 8 4, nrec := fieldB b 12 4, code := fieldB b 16 4
             param := BitVec.ofNat 32 (fieldB b 20 4), z := fieldB b 24 4, regs := g, bound := false
             handle := bif i.kind == .each then BitVec.ofNat 32 (fieldB b 28 4) else i.handle
             wbase := bif i.kind == .each then i.wbase else fieldB b 32 8
             blkoff := bif i.kind == .run then fieldB b 40 4 else i.blkoff }
  let onBmac := fun (e : BmacEnt) =>
    ({ e with idx := fieldB b 4 4, next := fieldB b 8 4, rows := fieldB b 12 4, off := fieldB b 40 4 } : BmacEnt)
  { r with inv := r.inv.map onInv, bmac := r.bmac.map onBmac }

/-- Where the record of a unit stands in its function's save area (R318). -/
def rootRecordAt (s : State) (f unit : Nat) : Nat := (s.fn f).save.toNat + 0x1000 + 8512 * unit

/-! ### Bag images -/

/-- The image of a bag table entry (R318). -/
def bagImage (e : BagEntry) (b : Bag) : List Byte :=
  leBytes 4 (handleOf e.slot e.gen).toNat ++ leBytes 4 b.cap ++ [BitVec.ofNat 8 b.sealed.toNat, 0, 0, 0]
    ++ (match b.drain with
      | some d => leBytes 4 d.next ++ leBytes 8 d.dst
      | none => leBytes 4 0xFFFFFFFF ++ leBytes 8 0)
    ++ List.replicate 8 0 ++ b.desc
    ++ b.shares.flatMap fun h => leBytes 4 h.c ++ leBytes 4 (h.snap + bif h.busy then 2 ^ 31 else 0)

def Fn.bagImages (f : Fn) : List (List Byte) :=
  f.bags.filterMap fun e => e.bag.map fun b => bagImage e b

/-- The images that fit before SAVELEN, from offset `pos` on, and whether one was left out. -/
def fitImages (len : Nat) : Nat → List (List Byte) → List Byte × Bool
  | _, [] => ([], false)
  | pos, im :: rest =>
    if len < pos + im.length then ((fitImages len pos rest).1, true)
    else
      let r := fitImages len (pos + im.length) rest
      (im ++ r.1, r.2)

/-- The first 4 KiB-aligned offset past every reserved slot. -/
def Fn.bagStart (f : Fn) : Nat :=
  ((f.slots.foldl (fun m x => max m (x.1 + x.2.1)) 0x851000) + 4095) / 4096 * 4096

end Sys2Proof.Machine
end

