-- ==== Sys2Proof/Machine/Collector.lean ====
section
/-! DEFINITION. The collector: asking for a pre-emption, preparing the save area, sending the stop, completing a
pre-emption and what resumes afterwards; a function-level reset (20 R302, R303; 21 R317 to R322). -/
namespace Sys2Proof.Machine

/-- The function can be pre-empted (R317). -/
def Fn.preemptible (f : Fn) : Bool := f.svs != 0 && f.svr != 0 && f.saveLen != 0

/-- A pre-emption takes all of its function's work, or the teams on some stands alone (R328). -/
def Collect.wide (c : Collect) : Bool := match c.why with
  | .vfPre .. => false
  | _ => true

/-- A pre-emption is asked for; its 22,000 cycles count from now (R320). -/
def requestPreempt (s : State) (f : Nat) (why : StopWhy) (mask : BitVec 16) : State :=
  { s with collects := s.collects ++ [{ fn := f, why := why, mask := mask, since := s.cycle }] }

/-- The teams that a pre-emption takes: those with a slot in the save area (R317) on its stands. -/
def collectTeams (s : State) (c : Collect) : List Team :=
  s.teams.filter fun t => t.fn == c.fn && !t.done && t.saveSlot.isSome && c.mask.getLsbD (coreStand t.core)

/-- Work issued by `b` belongs to a pre-emption of function `f` that takes the teams `ts`. -/
def inSetOf (f : Nat) (wide : Bool) (ts : List Nat) (b : Issuer) : Bool := b.fn == f && (wide || ts.contains b.team)

def RootUnit.holds (s : State) (p : Issuer → Bool) (u : RootUnit) : Bool :=
  u.invs.any (fun v => p v.by_) || u.bmacs.any fun e => p (cmdIssuer s e.cmd)

/-- The engines that hold work of a set. -/
def enginesWith (s : State) (p : Issuer → Bool) : List EngineRef :=
  ((s.cores.filter fun c => c.matrix.any fun x => p x.by_).map fun c => EngineRef.matrix c.id)
    ++ ((s.cores.filter fun c => c.access.any fun x => p x.by_).map fun c => EngineRef.access c.id)
    ++ ((s.units.filter (RootUnit.holds s p)).map fun u => EngineRef.root u.id)

/-! ### The save area (R318) -/

/-- The ranges of the save area that a save writes. -/
def saveRanges (s : State) (c : Collect) : List (Nat × Nat) :=
  let f := s.fn c.fn
  let a := f.save.toNat
  let ts := collectTeams s c
  let p := inSetOf c.fn c.wide (ts.map (·.id))
  let bags := match c.why with
    | .vfStop .. => [(a + f.bagStart, (fitImages f.saveLen.toNat f.bagStart f.bagImages).1.length)]
    | _ => []
  [(a, 4096)] ++ (ts.map fun t => (t.block, (teamLayout s t).size))
    ++ ((s.units.filter (RootUnit.holds s p)).map fun u => (a + 0x1000 + 8512 * u.id, 8512)) ++ bags

/-- What the pages of some ranges are: the first that is not mapped readable and writable, the first that is not
resident, or all ready. -/
inductive Area where
  | ready (pages : List Nat) | bad (page : Nat) | away (page : Nat)
  deriving DecidableEq, Repr

def areaOf (s : State) (f : Nat) (rs : List (Nat × Nat)) : Area :=
  let ps := (rs.flatMap fun r => pagesOf r.1 r.2).dedup
  match rs.findSome? fun r => (firstUnmapped s f r.1 r.2 true).or (firstUnmapped s f r.1 r.2 false) with
  | some a => .bad (a / 65536)
  | none => match ps.find? fun p => match findVa s f (65536 * p) with
      | .at_ .. => false
      | _ => true with
    | some p => .away p
    | none => .ready ps

/-! ### A function-level reset (R321, R322) -/

/-- The registers of the function's own BAR, its queues, bags, accumulators, quota registers and decode table are as
at its creation; the records that the physical function keeps of it stay. -/
def Fn.afterReset (f : Fn) : Fn :=
  { id := f.id, troot := f.troot, save := f.save, saveLen := f.saveLen, svs := f.svs, svr := f.svr, hdef := f.hdef
    dmask := f.dmask, aith := f.aith, fast := f.fast, slow := f.slow, sten0 := f.sten0, sten1 := f.sten1
    state := bif f.stopAfter || f.state == .stopping then .stopped else .run }

/-- Migrations of the function end with their pages where they were. -/
def dropMigrations (s : State) (f : Nat) : State :=
  let s := (s.migrations.filter fun m => m.fn == f).foldl (fun s m =>
    let now := readEntry s f m.leafAt
    bif leafMig now then writeEntry s f m.leafAt (setBit64 now 56 false) else s) s
  { s with migrations := s.migrations.filter fun m => m.fn != f }

/-- Replies that a reset brings to waves that asked for a stop of the function (R302). -/
def abandonStops (s : State) (f : Nat) : State :=
  s.collects.foldl (fun s c => match c.why with
    | .vfStop b id _ _ => bif c.fn == f then giveReply s ⟨b.team, b.wave⟩ id 0x80000004 else s
    | .vfPre b id => bif c.fn == f then giveReply s ⟨b.team, b.wave⟩ id 0 else s
    | _ => s) s

/-- A root invocation is within a block, its stopping unit. -/
def Inv.midBlock (v : Inv) : Bool := v.started && v.bound && v.wait.isNone

/-- The function's work is dropped, but for what an engine's current unit needs when `rest` is false: root code within a
block, and engine commands that are within a unit or are never stopped. -/
def dropWork (s : State) (f : Nat) (rest : Bool) : State :=
  let other := fun (b : Issuer) => b.fn != f
  let stays := fun (v : Inv) => v.fn != f || (!rest && v.midBlock)
  let s : State := { s with
    saved := s.saved.filter fun v => v.team.fn != f
    savedRoots := s.savedRoots.filter fun r => other r.by_
    collects := s.collects.filter fun c => c.fn != f
    cores := s.cores.map fun c => { c with matrix := c.matrix.filter fun x => other x.by_ || (!rest && x.midUnit)
                                           access := c.access.filter fun x => other x.by_ || (!rest && x.midUnit) }
    units := s.units.map fun u => { u with invs := u.invs.filter stays
                                           bmacs := u.bmacs.filter fun e => other (cmdIssuer s e.cmd) }
    bagCmds := s.bagCmds.filter fun c => other c.by_
    posts := s.posts.filter fun p => other p.by_
    arrivals := s.arrivals.filter fun a => (s.team? a.team).any fun t => t.fn != f
    sysOps := s.sysOps.filter fun o => other o.by_
    walks := s.walks.filter fun w => !rest || w.fn != f }
  { s with rootCmds := s.rootCmds.filter fun c =>
      other c.by_ || (!rest && s.units.any fun u => u.invs.any fun v => v.cmd == c.id) }

/-- The function is in none of its engines' current units. -/
def resetDone (s : State) (f : Nat) : Bool :=
  s.units.all (fun u => u.invs.all fun v => v.fn != f || !v.midBlock)
    && s.cores.all fun c => c.matrix.all (fun x => x.by_.fn != f || !x.midUnit)
      && c.access.all fun x => x.by_.fn != f || !x.midUnit

/-- The function's context is discarded and every save in progress is lost. -/
def resetFunction (s : State) (f : Nat) : State :=
  let s := dropMigrations (abandonStops s f) f
  let s := (s.fn f).bags.foldl (fun s e => match e.bag with
    | some b => freeRows s f e.slot b
    | none => s) s
  let s := invalidate { dropWork s f true with
    teams := s.teams.filter fun t => t.fn != f
    launches := s.launches.filter fun l => l.fn != f
    pinned := s.pinned.filter fun p => p.1 != f
    charges := s.charges.filter fun c => c.fn != f
    crown := s.crown.filter fun x => x.1.1 != f } f 0 (2 ^ 40)
  s.modFn f Fn.afterReset

/-- A wave stands where it is, and awaits nothing. -/
def Wave.halted (w : Wave) : Wave :=
  { w with loads := [], stores := [], facts := [], replies := [], naps := [], misses := [] }

/-- A drain that is copying ends at a 4 KiB chunk and is dropped. -/
def cutDrain (s : State) (f : Nat) (e : BagEntry) (d : Drain) : State :=
  let n := (d.data.length + 4095) / 4096
  let k := max d.next (Config.choose s.turns n % max n 1)
  let s := bif d.stop then s else drainWrite s d ((d.data.take (4096 * k)).drop (4096 * d.next))
  modBag s f (handleOf e.slot e.gen) fun b => { b with drain := none }

/-- The function enters RESET: its waves stand where they are, and its engines end their current units and drop the rest
of its work. -/
def beginReset (s : State) (f : Nat) : State :=
  bif (s.fn f).state == .reset then s else
  let s := dropMigrations (abandonStops s f) f
  let s := (s.fn f).bags.foldl (fun s e => match e.bag.bind (·.drain) with
    | some d => cutDrain s f e d
    | none => s) s
  let s := dropWork s f false
  let halt := fun (t : Team) => bif t.fn == f then ({ t with stop := true, waves := t.waves.map Wave.halted } : Team) else t
  let s : State := { s with teams := s.teams.map halt }
  s.modFn f fun x => { x with state := .reset, frozen := true, stopAfter := x.state == .stopping }

/-- A reset ends once no engine is within a unit of the function's work; the function is then in RUN or STOPPED. -/
def finishResets (s : State) : State :=
  s.fns.foldl (fun s f => bif f.state == .reset && resetDone s f.id then resetFunction s f.id else s) s

/-- The save area of the function cannot be made ready (R318). -/
def saveFailure (s : State) (f page cause : Nat) : State :=
  beginReset (pushErrOf s f 0 { cause := BitVec.ofNat 32 cause, unit := 6, detail := BitVec.ofNat 64 (65536 * page) }) f

/-! ### Sending the stop (R320 steps 1 to 3) -/

/-- A drain that is copying stops at a 4 KiB chunk, and its CP count is released (R170, R319). -/
def stopDrain (s : State) (f : Nat) (e : BagEntry) (d : Drain) : State :=
  let n := (d.data.length + 4095) / 4096
  let k := max d.next (Config.choose s.turns n % max n 1)
  let s := drainWrite s d ((d.data.take (4096 * k)).drop (4096 * d.next))
  let s := modBag s f (handleOf e.slot e.gen) fun b => { b with drain := some { d with next := k, stop := true } }
  stopOp s ⟨d.by_.team, d.by_.wave⟩ .cp d.id

def stopDrains (s : State) (f : Nat) : State :=
  (s.fn f).bags.foldl (fun s e => match e.bag.bind (·.drain) with
    | some d => bif d.by_.held s && !d.stop then stopDrain s f e d else s
    | none => s) s

/-- Some of the pages lie on a stack. -/
def savesOn (s : State) (f : Nat) (pages : List Nat) (k : Nat) : Bool :=
  pages.any fun p => match findVa s f (65536 * p) with
    | .at_ _ (.dev pa) => pa / 2 ^ 36 == k
    | _ => false

/-- The stop is sent to the waves and the engines of the set, and the pages of the save area are pinned. -/
def beginCollect (s : State) (k : Nat) (c : Collect) (pins : List Nat) : State :=
  let ts := (collectTeams s c).map (·.id)
  let s := { s with
    pinned := s.pinned ++ pins.map fun p => (c.fn, p)
    teams := s.teams.map fun t =>
      bif ts.contains t.id || (c.wide && t.fn == c.fn && t.done) then { t with stop := true } else t }
  let s := bif c.wide then s.modFn c.fn fun f => { f with frozen := true } else s
  let acks := enginesWith s (inSetOf c.fn c.wide ts)
  -- a retraining that waits for saves on its stack waits for this one too (R341)
  let s := { s with rates := s.rates.mapIdx fun k (r : Rate) =>
    bif (r.st == 1 || r.next.isSome) && savesOn s c.fn pins k then { r with hold := max r.hold (c.since + Config.forceCycles) } else r }
  let c' := { c with begun := true, teams := ts, pins := pins, acks := acks, wait := none, lost := false }
  stopDrains { s with collects := s.collects.set k c' } c.fn

/-- The function's work may go on: what a pre-emption of all of it had stopped is no longer held. -/
def unfreeze (s : State) (f : Nat) : State :=
  { s.modFn f fun x => { x with frozen := false } with
    teams := s.teams.map fun t => bif t.fn == f && t.done then { t with stop := false } else t }

/-! ### Completion (R302, R303, R320 step 7) -/

def Wave.quiet (w : Wave) : Bool := w.ld.isEmpty && w.st.isEmpty && w.cp.isEmpty && w.tl.isEmpty
def Wave.gone (w : Wave) : Bool := (w.allEnded || w.save == .saved) && w.quiet

/-- Teams of the set that have not ended. -/
def Collect.live (s : State) (c : Collect) : List Team := s.teams.filter fun t => c.teams.contains t.id && !t.done

/-- Every engine has acknowledged and holds no work of the set, and every wave has left the core. -/
def collectDone (s : State) (c : Collect) : Bool :=
  let live := (c.live s).map (·.id)
  c.begun && c.acks.isEmpty
    && (c.live s).all (fun t => t.waves.all Wave.gone)
    && s.cores.all (fun k => k.matrix.all (fun x => !live.contains x.by_.team)
        && k.access.all fun x => !live.contains x.by_.team)
    && s.units.all (fun u => !u.holds s (inSetOf c.fn c.wide c.teams))
    && (!c.wide || s.teams.all fun t => t.fn != c.fn || t.done || c.teams.contains t.id)

/-- The captured progress records of a function: access-processor records by ascending core and then in arrival order,
matrix records, and the headers of root records. Those of teams saved before, and the commands of ended teams, which stay
with their engines, are among them. -/
def stopRecords (s : State) (c : Collect) : List (List Byte) × List (List Byte) × List (List Byte) :=
  let before := (s.saved.filter fun v => v.team.fn == c.fn && !c.teams.contains v.team.id).flatMap (·.work)
  let held := s.cores.flatMap fun k =>
    ((k.access.filter fun x => x.by_.fn == c.fn).map fun x => Progress.access k.id x.halt)
      ++ (k.matrix.filter fun x => x.by_.fn == c.fn).map fun x => Progress.matrix k.id x.halt
  let place := fun (p : Progress) => match p with
    | .matrix _ x => c.order.findIdx (· == x.id)
    | .access _ x => c.order.findIdx (· == x.id)
  let all := before ++ (c.work ++ held).mergeSort fun a b => place a ≤ place b
  let aps := all.filterMap fun p => match p with
    | .access k x => some (k, x.record)
    | .matrix .. => none
  let mxs := all.filterMap fun p => match p with
    | .matrix _ x => some x.record
    | .access .. => none
  let rts := (s.savedRoots.filter fun r => r.by_.fn == c.fn && r.begun).map fun r => r.header ++ List.replicate 64 0
  ((aps.mergeSort fun a b => a.1 ≤ b.1).map (·.2), mxs, rts)

/-- The stop record: its header and as many records as fit (R302 step 5, R303). -/
def stopRecord (s : State) (c : Collect) (teams nb : Nat) (bagsCut : Bool) : List Byte :=
  let (ap, mx, rt) := stopRecords s c
  let rs := ap ++ mx ++ rt
  let room := (65536 * nb - 256) / 128
  let out := rs.take room
  let f := s.fn c.fn
  let h := leBytes 4 (1 + 2 * (decide (room < rs.length)).toNat + 4 * bagsCut.toNat) ++ leBytes 4 (256 + 128 * out.length)
    ++ leBytes 4 teams ++ leBytes 4 ap.length ++ leBytes 4 mx.length ++ leBytes 4 rt.length ++ List.replicate 8 0
    ++ (List.range 8).flatMap fun l => leBytes 4 (f.posted.getD l 0).toNat ++ leBytes 4 (f.taken.getD l 0).toNat
  h ++ List.replicate (256 - h.length) 0 ++ out.flatten

/-- `vf.stop` ends: bag images, the function header, the stop record in the issuing context, and the reply. -/
def finishStop (s : State) (c : Collect) (b : Issuer) (reply a nb : Nat) : State :=
  -- what ended teams have left outstanding is performed too (R302 step 4)
  let s := (s.teams.filter fun t => t.fn == c.fn && t.done).foldl flushTeam s
  let f := s.fn c.fn
  let (im, cut) := fitImages f.saveLen.toNat f.bagStart f.bagImages
  let s := saveBytes s c.fn none (f.save.toNat + f.bagStart) im
  let s := s.modFn c.fn fun x => { x with bagOff := bif im.isEmpty then 0 else f.bagStart, state := .stopped }
  let s := writeHeader s c.fn
  let rec_ := stopRecord s c (s.saved.countP fun v => v.team.fn == c.fn) nb cut
  giveReply (placeVa (chargeRange s b.fn 0 a rec_.length) 0 a rec_) ⟨b.team, b.wave⟩ reply 0

/-- The matrix or access-processor commands of a team that a pre-emption has recorded. -/
def recordedOf (team : Nat) (matrix : Bool) (work : List Progress) : List Progress :=
  work.filter fun p => match p with
    | .matrix _ c => matrix && c.by_.team == team
    | .access _ c => !matrix && c.by_.team == team

/-- The pre-emption is complete: the teams leave their cores, and whoever asked for it goes on. -/
def finishCollect (s : State) (k : Nat) (c : Collect) : State :=
  let ts := c.live s
  let s := writeHeader (ts.foldl (fun s t => writeEngineParts s t (recordedOf t.id true c.work).length) s) c.fn
  let ofTeam := fun (t : Team) (b : Issuer) => b.team == t.id
  let saved := ts.map fun t => ({
    team := t
    work := c.work.filter fun p => match p with
      | .matrix _ x => ofTeam t x.by_
      | .access _ x => ofTeam t x.by_
    cmds := s.rootCmds.filter fun x => ofTeam t x.by_ } : Saved)
  let left := fun (id : Nat) => !(ts.any fun t => t.id == id)
  let s := { unpin s c.fn c.pins with
    teams := s.teams.filter fun t => left t.id
    rootCmds := s.rootCmds.filter fun x => left x.by_.team
    saved := s.saved ++ saved
    collects := s.collects.eraseIdx k }
  match c.why with
  | .vfStop b reply a nb => finishStop s c b reply a nb
  | .vfPre b reply => giveReply s ⟨b.team, b.wave⟩ reply 0
  | .quota => bif (s.fn c.fn).state == .run then unfreeze s c.fn else s
  | .slice =>
    -- the others of a slice in force stay stopped until its end
    let hold := s.slice.any fun x => x.active && x.fn != c.fn
    bif (s.fn c.fn).state == .run && !hold then unfreeze s c.fn else s

def finishCollects (s : State) : State :=
  match (s.collects.zipIdx.find? fun x => collectDone s x.1) with
  | some (c, k) => finishCollect s k c
  | none => s

/-! ### Root work, drains and replies that a stop holds -/

/-- A held root command none of whose entries a unit runs releases its CP count; one that is no longer held counts
again (R192; R320). -/
def countRootCmds (s : State) : State :=
  s.rootCmds.foldl (fun s c =>
    let r : WaveRef := ⟨c.by_.team, c.by_.wave⟩
    let set := fun (s : State) (b : Bool) =>
      { s with rootCmds := s.rootCmds.map fun (x : RootCmd) => bif x.id == c.id then { x with released := b } else x }
    let here := s.units.any fun u => (u.invs.any fun v => v.cmd == c.id) || u.bmacs.any fun e => e.cmd == c.id
    if c.op.isCrown then s
    else if c.by_.held s && !c.released && !here then set (stopOp s r .cp c.id) true
    else if !c.by_.held s && c.released then set (resumeOp s r .cp c.id) false
    else s) s

/-- A stopped invocation or entry as its record in the save area holds it; one that only waited, or whose record cannot be
read (R334), has none. -/
def SavedRoot.reread (s : State) (r : SavedRoot) : SavedRoot :=
  bif r.begun && (unreadable s r.by_.fn (rootRecordAt s r.by_.fn r.unit) 8512).isNone then r.ofRecord (peekVa s r.by_.fn (rootRecordAt s r.by_.fn r.unit) 8512) else r

/-- The reading of its record is charged to its function. -/
def SavedRoot.chargeRead (r : SavedRoot) (s : State) : State :=
  bif r.begun then chargeArea s r.by_.fn none (rootRecordAt s r.by_.fn r.unit) 8512 else s

/-- A stopped invocation or entry whose work is held no longer goes back to its unit, and goes on from its record
(R192). -/
def returnRoots (s : State) : State :=
  let back := fun (r : SavedRoot) => !r.by_.held s && s.rootCmds.any fun c =>
    some c.id == r.inv.map (·.cmd) || some c.id == r.bmac.map (·.cmd)
  let s' := { s with savedRoots := s.savedRoots.filter fun r => !back r }
  (s.savedRoots.filter back).foldl (fun s r =>
    let s := r.chargeRead s
    let r := r.reread s
    s.modUnit r.unit fun u => { u with invs := u.invs ++ r.inv.toList, bmacs := u.bmacs ++ r.bmac.toList }) s'

/-- A stopped drain resumes at its next chunk; D is set in its pages again (R170, R301). -/
def resumeDrains (s : State) : State :=
  s.fns.foldl (fun s f => f.bags.foldl (fun s e => match e.bag.bind (·.drain) with
    | some d =>
      let away := s.saved.any fun v => v.team.id == d.by_.team && !v.restoring
      if d.stop && !d.by_.held s && !away then
        let s := modBag s f.id (handleOf e.slot e.gen) fun b => { b with drain := some { d with stop := false } }
        resumeOp (d.pages.foldl (fun s p => setDirty s f.id p.1) s) ⟨d.by_.team, d.by_.wave⟩ .cp d.id
      else s
    | none => s) s) s

/-- A drain that has not retired, a root command of which a unit holds an entry, or a copy within a row. -/
def stillRuns (s : State) (id : Nat) : Bool :=
  (s.fns.any fun f => f.bags.any fun e => (e.bag.bind (·.drain)).any fun d => d.id == id)
    || s.units.any fun u => (u.invs.any fun v => v.cmd == id) || u.bmacs.any (fun e => e.cmd == id)
    || s.cores.any fun c => c.access.any fun x => x.id == id && !x.trans.isEmpty

/-- Replies of system instructions whose translated accesses have all been performed, and of `vf.rst` once the function is
in RUN or STOPPED (R301, R328). -/
def finishSysOps (s : State) : State :=
  let ready := fun (o : SysOp) => (o.resets.all fun f => (s.fn f).state != .reset) && (o.waits.all fun id => !stillRuns s id)
    && o.staged.all fun k => (s.teams ++ s.saved.map (·.team)).all fun t => t.id != k || t.stagedPieces.isEmpty
  let s' := { s with sysOps := s.sysOps.filter fun o => !ready o }
  (s.sysOps.filter ready).foldl (fun s o => giveReply s ⟨o.by_.team, o.by_.wave⟩ o.reply o.value) s'

/-! ### Resuming a restored team (R245, R304, R320, R328) -/

/-- The wave as it was saved, out of save mode. -/
def Wave.resume (w : Wave) : Wave :=
  if w.allEnded then w else { w with regs := w.latch.regs, lanes := w.latch.lanes, save := .no, latch := {} }

/-- A command is requeued at the team's core, and its counts are added again. -/
def requeue (s : State) (core : Nat) (p : Progress) : State :=
  match p with
  | .matrix _ c =>
    let r : WaveRef := ⟨c.by_.team, c.by_.wave⟩
    let s := resumeOp s r .tl c.id
    let s := bif c.stCnt then resumeOp s r .st c.id else s
    s.modCore core fun x => { x with matrix := x.matrix ++ [c] }
  | .access _ c =>
    -- what a full queue has held it before the stop does not count (R274)
    (resumeOp s ⟨c.by_.team, c.by_.wave⟩ .cp c.id).modCore core fun x => { x with access := x.access ++ [{ c with since := s.cycle }] }

/-- Every wave of a restored team has ended its restore: its commands are requeued with their counts, and its waves
leave save mode together. -/
def resumeTeam (s : State) (v : Saved) (t : Team) : State :=
  let s := { unpin s t.fn v.pins with saved := s.saved.filter fun x => x.team.id != t.id
                                      rootCmds := s.rootCmds ++ v.cmds }
  let s := v.work.foldl (fun s p => requeue s t.core p) s
  checkBarriers (s.modTeam t.id fun t => { t with waves := t.waves.map Wave.resume }) t.id

/-- The restore of a team has ended in all its waves. -/
def restoreEnded (s : State) (v : Saved) : Bool :=
  v.restoring && (s.team? v.team.id).any fun t => t.waves.all fun w => w.allEnded || w.save == .restored

/-- Teams resume once their restore, and that of the teams of their gang, has ended (R14). -/
def resumeTeams (s : State) : State :=
  s.saved.foldl (fun s' v => match s'.team? v.team.id with
    | some t =>
      bif s.saved.all (fun m => m.team.launch != v.team.launch || m.team.task != v.team.task || restoreEnded s m) then
        resumeTeam s' v t
      else s'
    | none => s') s

end Sys2Proof.Machine
end

