-- ==== Sys2Proof/Machine/Meter.lean ====
section
/-! DEFINITION. Sapflow metering: reading the meters, posting charges, the split of a period's continuous energy and
the quotas (16_sapflow_metering R247 to R257; 21 R310, R321, R324). -/
namespace Sys2Proof.Machine

/-! ### Reading (R256) -/

/-- A reading of the context's own meters, written once to a pair. -/
def readMeter (h : Head) (sd : UReg) (f : Fn → DWord) (s : State) : Host.Outcome State Fault Refusal :=
  runRegs h noTrap (onceE fun c r => r.setPair sd.toNat (f (s.fn (ctxFn s c)))) s

/-- Whole nanojoules of an accumulator. -/
def wholeNj (fj : Nat) : DWord := BitVec.ofNat 64 (fj / 1000000)

def execEmeter (h : Head) (sd : UReg) (s : State) := readMeter h sd (fun f => wholeNj f.events) s
def execEmeterShr (h : Head) (sd : UReg) (s : State) := readMeter h sd (fun f => wholeNj f.shares) s
def execEquota (h : Head) (sd : UReg) (s : State) :=
  readMeter h sd (fun f => bif f.id == 0 then 0x7FFFFFFFFFFFFFFF else f.q) s
def execEquotaFill (h : Head) (sd : UReg) (s : State) :=
  readMeter h sd (fun f => bif f.id == 0 then 0 else f.refill.setWidth 64) s
def execEquotaCap (h : Head) (sd : UReg) (s : State) :=
  readMeter h sd (fun f => bif f.id == 0 then 0 else f.cap.setWidth 64) s

/-! ### Posting (R251) -/

/-- The `k`-th event that waits is posted. -/
def execChargePost (k : Nat) (s : State) : Host.Outcome State Fault Refusal :=
  match s.charges[k]? with
  | none => .next s
  | some c => .next { s with fns := Charge.post s.fns c, charges := s.charges.eraseIdx k }

/-! ### Tenancy weights (R310) -/

/-- The weights of the virtual functions in a field of STEN0: as written, or scaled by 256 over their sum, rounding
down, when the sum passes 256. -/
def weightsOf (s : State) (hi lo : Nat) : List (Nat × Nat) :=
  let ws := (s.fns.filter fun f => f.id != 0).map fun f => (f.id, bits f.sten0.toNat hi lo)
  let sum := (ws.map (·.2)).sum
  bif sum ≤ 256 then ws else ws.map fun w => (w.1, w.2 * 256 / sum)

/-- WSLOT, the admission weight and slot-quota share. -/
def slotWeights (s : State) : List (Nat × Nat) := weightsOf s 63 55

/-! ### The split of a period (R252) -/

/-- Entries of a table that point on, with their indices. -/
def tableNodes (s : State) (f pa : Nat) : List (Nat × Nat) :=
  (List.range 1024).filterMap fun i =>
    let e := readEntry s f (pa + 8 * i)
    bif nodeOk e then some (i, bits e.toNat 51 13 * 8192) else none

/-- The pages of a function with valid leaves, and their frames. -/
def mappedPages (s : State) (f : Nat) : List (Nat × Nat) :=
  (tableNodes s f (s.fn f).troot.toNat).flatMap fun a =>
    (tableNodes s f a.2).flatMap fun b => (tableNodes s f b.2).flatMap fun c =>
      (List.range 1024).filterMap fun d =>
        let p := ((a.1 * 1024 + b.1) * 1024 + c.1) * 1024 + d
        (walk s f p).map fun x => (p, leafFrame x.2 p)

/-- Fast-tier units of 64 KiB that are allocated to a function on a stack: frames of its pool, frames that its tables map,
and rows of its bags (log 16). -/
def stackUnits (s : State) (f : Fn) (k : Nat) : Nat :=
  ((f.fast ++ (mappedPages s f.id).map (·.2)).dedup.filter fun pa => pa / 2 ^ 36 == k).length
    + (f.bags.map fun e => match e.bag with
        | some b => ((List.range b.shares.length).map fun i =>
            bif b.stack i == k then rowUnits b.cap b.z else 0).sum
        | none => 0).sum

/-- The weights u_f of the virtual functions in a domain, and the units that the domain has. -/
def domainWeights (s : State) (dom : Nat) : List (Nat × Nat) × Nat :=
  if dom < 256 then (slotWeights s, 256)
  else if dom < 272 then
    ((s.fns.filter fun f => f.id != 0).map fun f => (f.id, stackUnits s f (dom - 256)), 1048576)
  else ([], 1)

/-- The shares of a domain's energy: each virtual function's, and the physical function's remainder. -/
def splitDomain (e : Nat) (us : List (Nat × Nat)) (units : Nat) : List (Nat × Nat) :=
  let sum := (us.map (·.2)).sum
  let u := sum + (units - sum)
  let vs := us.map fun x => (x.1, e * x.2 / u)
  (0, e - (vs.map (·.2)).sum) :: vs

/-- Domains of the module (R333). -/
def domainCount : Nat := 306

/-- What each function is charged as shares for the period that ends: the split of each domain's energy, and to the
physical function the domain's unowned events. -/
def periodShares (s : State) : List (Nat × Nat) :=
  (List.range domainCount).flatMap fun d =>
    (0, Config.unownedOf s.turns d)
      :: splitDomain (Config.energyOf s.turns d) (domainWeights s d).1 (domainWeights s d).2

def shareOf (xs : List (Nat × Nat)) (f : Nat) : Nat := ((xs.filter fun x => x.1 == f).map (·.2)).sum

/-! ### Quotas (R253, R254) -/

/-- The update of one function, with its shares of the period: a pending write of Q applies first and clears the carry;
with metering enabled Q falls by whole microjoules and rises by REFILL, up to CAP. -/
def Fn.quotaUpdate (f : Fn) (share : Nat) : Fn :=
  let f := match f.qWrite with
    | some v => { f with q := v, qWrite := none, carry := 0 }
    | none => f
  if f.id = 0 || !f.en then f else
  let t := f.carry + (f.period + share)
  let q : Int := min f.cap.toNat (f.q.toInt - (t / 10 ^ 9 : Nat) + f.refill.toNat)
  let f := { f with q := BitVec.ofInt 64 q, carry := t % 10 ^ 9 }
  if q ≤ 0 then { f with exh := true }
  else if f.rls then { f with exh := false, rls := false }
  else f

/-- What follows an update for a function in RUN or HALT (R321, R324): EXH stops dispatch and asks for the
pre-emption of running work; EXH cleared lets it run again. -/
def afterUpdate (old : Fn) (s : State) (f : Nat) : State :=
  let x := s.fn f
  let s := bif x.exh && !old.exh && x.irq then s.modFn 0 fun p => { p with msix2 := true } else s
  if x.exh && x.state == .run then
    let s := s.modFn f fun y => { y with state := .halt }
    bif x.preemptible then requestPreempt s f .quota 0xFFFF else s
  else if !x.exh && x.state == .halt then
    let s := s.modFn f fun y => { y with state := .run }
    let s := { s with collects := s.collects.filter fun c => !(c.fn == f && c.why == .quota && !c.begun) }
    bif s.collects.any (fun c => c.fn == f && c.begun) then s else unfreeze s f
  else s

/-- A wear register after a period: the prediction, and the life consumed, which saturates (R343, log 92). -/
def wearNext (x : DWord) (eol : Word) (used : Nat) : DWord :=
  eol ++ BitVec.ofNat 32 (min 1000 (bits x.toNat 9 0 + used))

/-- A period of 110,000 cycles ends: shares are added, then quotas are updated; the weights of the next period follow
from the temperatures and voltages of this one (R250). -/
def execPeriodEnd (s : State) : Host.Outcome State Fault Refusal :=
  let s := s.passTo ((s.periods + 1) * Config.periodCycles)
  let xs := periodShares s
  let s' := { s with
    fns := s.fns.map fun f =>
      let n := shareOf xs f.id
      { Fn.quotaUpdate { f with shares := (f.shares + n) % (2 ^ 64 * 1000000) } n with period := 0 }
    periods := s.periods + 1
    perTurn := s.turns
    rowRecords := []
    wear := s.wear.mapIdx fun k x => wearNext x (Config.wearOf s.turns k).1 (Config.wearOf s.turns k).2 }
  .next (s.fns.foldl (fun t f => bif f.id == 0 then t else afterUpdate f t f.id) s')

/-- A write to Q waits for the next update (R253). -/
def execSqWrite (fn : Nat) (v : DWord) (s : State) : Host.Outcome State Fault Refusal :=
  outside s (bif fn == 0 then s else s.modFn fn fun f => { f with qWrite := some v })

/-- A write to SCTL: EN and IRQ; RLS only while EXH is 1 (R254). -/
def execSctlWrite (fn : Nat) (v : DWord) (s : State) : Host.Outcome State Fault Refusal :=
  outside s (bif fn == 0 then s else s.modFn fn fun f =>
    { f with en := v.getLsbD 0, irq := v.getLsbD 2, rls := bif f.exh then v.getLsbD 3 else f.rls })

end Sys2Proof.Machine
end

