-- ==== Sys2Proof/Machine/System.lean ====
section
/-! DEFINITION. The system instructions: leaving trap mode, saving and restoring a wave, decode tables, TLB
invalidation, dirty tracking, stopping and starting functions, slices and frame pools
(04 R73; 20 R300 to R302; 21 R314, R317, R320, R326 to R328). -/
namespace Sys2Proof.Machine

/-! ### Modes -/

/-- The mode of a part's issuing lanes, which issue in one set. -/
def ctxMode (s : State) (c : Ctx) : LaneMode :=
  match c.ref.bind s.wave? with
  | some w => (w.lanes.getD c.lead {}).mode
  | none => .ordinary

/-- Reason 15: the instruction stands outside its mode (R312, R328). -/
def modeTrap (m : LaneMode) (s : State) (c : Ctx) : List (Nat × TrapInfo) :=
  bif ctxMode s c == m then [] else inLanes c.e (illegal 15)

/-! ### Leaving trap mode (R314) -/

/-- Each lane of E leaves trap mode; the other issuing lanes move on. -/
def runTret (h : Head) (f : State → WaveRef → Lane → Lane) (s : State) : Host.Outcome State Fault Refusal :=
  runEach h (modeTrap .trap)
    (fun i c s => match c.ref with
      | some r => (advance s i c (c.iss &&& ~~~c.e)).onLanes r c.e (f s r)
      | none => advance s i c c.iss) s

def execTret (h : Head) (s : State) := runTret h (fun _ _ l => l.tretHere) s

/-- Bytes of the item at a trapped lane's TPC. -/
def itemBytes (s : State) (f : Nat) (l : Lane) : Nat :=
  let p := fun a => match fetchParcel s f a with
    | .word x => x
    | _ => 0
  4 * itemLen (p l.trap.tpc) (p (l.trap.tpc + 4)) ((l.trap.blk.stop - l.trap.tpc) / 4)

def execTretNext (h : Head) (s : State) := runTret h (fun s r l => l.tretNext (itemBytes s (s.fnOf r) l)) s

def execTretAnc (h : Head) (s : State) := runTret h (fun _ _ l => l.tretTo l.trap.tanc) s

/-- Where the lanes of E go: the entry header plus each lane's value. -/
def tretTargets (va : VReg) (s : State) (c : Ctx) : List (Nat × Int) :=
  allTaken c fun l => ctxEntry s c + (c.r.getV va.toNat l).toNat

/-- A legal header stands at the address, or its page is away. -/
def returnHeader (s : State) (f : Nat) (a : Int) : Bool :=
  match targetAt s f a, fetchParcel s f a.toNat, fetchParcel s f (a.toNat + 4) with
  | .away _, _, _ => true
  | .header, .word lo, .word hi => hdrLegal (dword lo hi)
  | .header, _, .away _ => true
  | _, _, _ => false

/-- A target that is no legal header is a bad target, which in trap mode is a double trap. -/
def execTretVector (h : Head) (va : VReg) (s : State) :=
  runEach h
    (fun s c =>
      let t := modeTrap .trap s c
      bif !t.isEmpty then t else
        ((tretTargets va s c).filter fun x => !returnHeader s (ctxFn s c) x.2).map fun x =>
          (x.1, { cause := 3, det := (x.2 % 2 ^ 64).toNat }))
    (fun i c s => match c.ref with
      | some r => (tretTargets va s c).foldl (fun s x =>
          match targetAt s (s.fnOf r) x.2 with
          | .away _ => moveTo s (s.fnOf r) r x.1 x.2
          | _ => s.onLanes r (Mask.put 0 x.1 true) fun l => l.tretTo x.2.toNat) (advance s i c (c.iss &&& ~~~c.e))
      | none => advance s i c c.iss) s

/-- TDET of each lane of E, in two registers; `%vl` and masks are ignored. -/
def execTinfo (h : Head) (vd : VReg) (s : State) :=
  runEach h (modeTrap .trap)
    (fun i c s =>
      let det := fun l => (((c.ref.bind s.wave?).bind fun w => w.lanes[l]?).map (·.trap.tdet)).getD 0
      let r := c.e.lanes.foldl (fun (r : Regs) l =>
        (r.setV vd.toNat l (loW (det l))).setV (vd.toNat + 1) l (hiW (det l))) c.r
      advance (putRegs s c r) i c c.iss) s

/-! ### Saving and restoring a wave (R318, R320, R328) -/

/-- What a wave's `went.st` writes, with addresses. -/
def wentParts (s : State) (r : WaveRef) (t : Team) (w : Wave) : List (Nat × List Byte) :=
  let y := teamLayout s t
  let forced := match w.save with
    | .saving b => b
    | _ => false
  let img := waveBytes (s.entryOf r) forced w.latch w.regs
  ((y.wave r.wave, img) :: (bif r.wave == 0 then teamParts s t else [])).map fun x => (t.block + x.1, x.2)

/-- The pieces of bytes at virtual addresses, by page. -/
def piecesAt (s : State) (f : Nat) (xs : List (Nat × List Byte)) : List StElem :=
  xs.flatMap fun x => (pageParts x.1 x.2.length).filterMap fun p => match findVa s f p.1 with
    | .at_ _ l => some { loc := l, val := .bytes ((x.2.drop p.2.1).take p.2.2) }
    | _ => none

/-- The block of the wave's team lies in pages that the function may read and write. -/
def wentTraps (s : State) (c : Ctx) : List (Nat × TrapInfo) :=
  let t := modeTrap .save s c
  bif !t.isEmpty then t else
  match c.ref.bind fun r => s.team? r.team with
  | none => []
  | some tm => match firstUnmapped s tm.fn tm.block (teamLayout s tm).size true with
    | some a => inLanes c.e (violation a)
    | none => []

/-- Run an operation of save mode once for each wave with a lane in E; the wave parks while a counter is full. -/
def saveOp (ctr : Ctr) (go : WaveRef → Team → Wave → Ctx → State → State) (i : Issue) (c : Ctx) (s : State) : State :=
  match c.ref with
  | none => advance s i c c.iss
  | some r =>
    if c.e = 0 then advance s i c c.iss else
    match s.team? r.team, s.wave? r with
    | some t, some w =>
      if 63 ≤ w.ctr ctr then advance (s.onLanes r c.e (Lane.park (.full ctr))) i c (c.iss &&& ~~~c.e)
      else advance (go r t w c s) i c c.iss
    | _, _ => advance s i c c.iss

/-- `went.st`: the image goes out through the store path, counted on ST, and the address of the scratchpad image is
written to the pair. -/
def execWentSt (h : Head) (sd : UReg) (s : State) :=
  runEach h wentTraps
    (saveOp .st fun r t w c s =>
      let xs := wentParts s r t w
      let s := xs.foldl (fun s x => (pagesOf x.1 x.2.length).foldl (fun s p => setDirty s t.fn p) s) s
      let s := chargeLines s t.fn t.core (xs.flatMap fun x => rangeLocs s t.fn x.1 x.2.length)
      let s := sendStore s r c.lead false (piecesAt s t.fn xs)
      s.modWave r fun x => { x with regs := x.regs.setPair sd.toNat (BitVec.ofNat 64 (t.block + (teamLayout s t).sp)) }) s

/-- A load of no register, counted on LD: its data goes to the latch. -/
def countLoad (s : State) (r : WaveRef) : State :=
  let id := s.nextId
  countOp (s.fresh.modWave r fun w => { w with loads := w.loads ++ [{ id := id, elems := [] }] }) r .ld id

/-- `went.ld`: the inverse of `went.st`. What it loads is held apart until `sv.end.res`, so the handler may go on
using its registers. -/
def execWentLd (h : Head) (sd : UReg) (s : State) :=
  runEach h wentTraps
    (saveOp .ld fun r t _ _ s =>
      let s := performAll s r
      let w := (s.wave? r).getD {}
      let y := teamLayout s t
      let img := readVa s t.fn (t.block + y.wave r.wave) y.per
      let k := restoreLatch (s.entryOf r) img w.regs w.latch
      let s := chargeLines s t.fn t.core (rangeLocs s t.fn (t.block + y.wave r.wave) y.per)
      let s := bif r.wave == 0 then
          (chargeArea s t.fn (some t.core) (t.block + y.act) (4352 + t.winSize / 32)).modTeam t.id fun x =>
            let q := restoreParts s x
            { x with act := q.act, fe := q.fe }
        else s
      (countLoad s r).modWave r fun x =>
        { x with latch := k, regs := x.regs.setPair sd.toNat (BitVec.ofNat 64 (t.block + y.sp)) }) s

/-- Once for each wave with a lane in E. -/
def onWave (go : WaveRef → State → State) (i : Issue) (c : Ctx) (s : State) : State :=
  match c.ref with
  | some r => bif c.e == 0 then advance s i c c.iss else go r (advance s i c c.iss)
  | none => advance s i c c.iss

/-- `sv.end`: the wave leaves the core. -/
def execSvEnd (h : Head) (s : State) :=
  runEach h (modeTrap .save)
    (onWave fun r s => (dropLatch s r).modWave r fun w => { w with save := .saved, entry := none }) s

/-- `sv.end.res`: the wave's restore has ended; the waves of its team resume together, when the last has. A wave that
was being saved goes on from what is latched. -/
def execSvEndRes (h : Head) (s : State) :=
  runEach h (modeTrap .save)
    (onWave fun r s => (dropLatch s r).modWave r fun w =>
      bif w.save == .restoring then { w with save := .restored } else w.resume) s

/-! ### Function numbers and replies (R300, R327) -/

/-- A function number that names no function, or one that the form refuses. -/
def fnTrap (zero : Bool) (sc : UReg) (s : State) (c : Ctx) : List (Nat × TrapInfo) :=
  let f := (c.r.getS sc.toNat).toNat
  bif s.hasFn f && (zero || f != 0) then [] else inLanes c.e (violation f)

/-- Checks in order: those of the first that finds a trap. -/
def inOrder (cs : List (State → Ctx → List (Nat × TrapInfo))) (s : State) (c : Ctx) : List (Nat × TrapInfo) :=
  (cs.map fun f => f s c).find? (fun x => !x.isEmpty) |>.getD []

/-- A system operation that replies at once: new state and status. -/
def runSys (h : Head) (rd : UReg) (chk : State → Ctx → List (Nat × TrapInfo)) (f : State → Ctx → State × Word) (s : State) :
    Host.Outcome State Fault Refusal :=
  runEach h chk
    (fun i c s => if c.e = 0 then advance s i c c.iss else
      let (s', x) := f s c
      advance (putRegs s' c (c.r.setS rd.toNat x)) i c c.iss) s

/-- A system operation whose reply may come later: the wave awaits it before its next instruction. -/
def awaitReply (s : State) (r : WaveRef) (n : Nat) (pair : Bool) : State × Nat :=
  let id := s.nextId
  (s.fresh.modWave r fun w => { w with replies := w.replies ++ [({ id := id, kind := .reg n pair true } : Reply)] }, id)

/-! ### Decode tables (R72, R73) -/

/-- The context has no resident, admitted or queued work. -/
def fnIdle (s : State) (f : Nat) : Bool :=
  !(s.teams.any (·.fn == f)) && !(s.saved.any (·.team.fn == f)) && !(s.launches.any (·.fn == f))
    && !(s.units.any fun u => u.invs.any (·.fn == f)) && (s.fn f).queues.all fun q => q.prod == q.cons

/-- An entry that a loaded map may hold. -/
def entryLegal (w : DWord) : Bool :=
  match Entry.ofWord w with
  | none => w == 0
  | some e =>
    bits w.toNat 62 56 == 0 && bits w.toNat 38 16 == 0 && e.op < 0x400
      && (match map1Entry e.op with
        | none => false
        | some m => e.fmts &&& ~~~m.fmts == 0 && e.accs &&& ~~~m.accs == 0 && e.mul == m.mul && e.sup == m.sup
            && ((e.lb == none && bits w.toNat 47 45 == 7) || e.lb == m.lb) && (!e.pfx || m.pfx))

/-- Load the map at `a` into function `f`, with the reply; a function that is not idle is found before a map that cannot be
read (R73, log 110). -/
def loadTable (s : State) (f a : Nat) : State × Word :=
  if !fnIdle s f then (s, 0xC0000001)
  else if 2 ^ 56 < a + 8192 ∨ (unreadable s 0 a 8192).isSome then (s, 0xC0000002)
  else
    let b := peekVa s 0 a 8192
    let s := chargeRange s 0 0 a 8192
    let t := (List.range 1024).map fun i => BitVec.ofNat 64 (fieldB b (8 * i) 8)
    match t.findIdx? fun w => !entryLegal w with
    | some i => (s, BitVec.ofNat 32 (0x80000000 + i))
    | none => (s.modFn f fun x => { x with dtab := some t }, 0)

def pairOf (sb : UReg) (c : Ctx) : Nat := (c.r.getPair sb.toNat).toNat
def fnNum (sc : UReg) (c : Ctx) : Nat := (c.r.getS sc.toNat).toNat

/-- `dtab.ld`: a function number that names none raises its violation before a misaligned map raises its trap (R73, log 110). -/
def execDtabLd (h : Head) (o : Sys3) (s : State) :=
  runSys h o.rd
    (inOrder [fnTrap true o.sc, fun _ c => bif pairOf o.sb c % 8192 == 0 then [] else inLanes c.e (misaligned (pairOf o.sb c))])
    (fun s c => loadTable s (fnNum o.sc c) (pairOf o.sb c)) s

/-! ### Invalidation (R328) and dirty tracking (R301) -/

/-- Every access that waves of a function have issued is performed. -/
def performFn (s : State) (f : Nat) : State :=
  (s.teams.filter fun t => t.fn == f).foldl flushTeam s

/-- Drains that have not retired, root and `bmac` commands of which a unit holds an entry, and copies within a row, whose
pages, translated before, lie in `[p, p + n)`. -/
def translated (s : State) (f p n : Nat) : List Nat :=
  let hit := fun (q : Nat) => p ≤ q && q < p + n
  ((s.fn f).bags.filterMap fun e => (e.bag.bind (·.drain)).bind fun d =>
      bif d.pages.any (fun x => hit x.1) then some d.id else none)
    ++ (s.units.flatMap fun u => (u.invs.filter fun v => v.fn == f && v.kind != .each
      && (pagesOf v.wbase v.size).any hit).map (·.cmd))
    ++ (s.units.flatMap fun u => (u.bmacs.filter fun e => (cmdIssuer s e.cmd).fn == f
      && (List.range e.wpages.length).any fun i => hit (e.w / 65536 + i)).map (·.cmd))
    ++ (s.cores.flatMap fun c => (c.access.filter fun x => x.by_.fn == f && x.trans.any fun y => hit y.1).map (·.id))

/-- Teams with staged writes to pages of `[p, p + n)`, which were translated when they were staged (R299, R301). -/
def stagedOn (s : State) (f p n : Nat) : List Nat :=
  -- of a wide range, any staged write of the function
  let at_ := (List.range (bif n ≤ 4096 then n else 0)).filterMap fun i => match findVa s f (65536 * (p + i)) with
    | .at_ _ l => some l
    | _ => none
  ((s.teams ++ s.saved.map (·.team)).filter fun t => t.fn == f && t.stagedPieces.any fun e =>
    4096 < n || at_.any fun l => spansMeet e.span (l, 65536)).map (·.id)

/-- Send a reply once the accesses translated through `[p, p + n)` have been performed. -/
def replyAfter (s : State) (c : Ctx) (r : WaveRef) (f p n : Nat) (rd : Nat) (pair : Bool) (x : DWord) : State :=
  let s := performFn s f
  let (s', id) := awaitReply s r rd pair
  { s' with sysOps := s'.sysOps ++ [{ by_ := issuerOf s c, reply := id, waits := translated s f p n, staged := stagedOn s f p n, value := x }] }

def execTlbInv (h : Head) (o : TlbInv) (s : State) :=
  runEach h (fnTrap true o.sc)
    (fun i c s => match c.ref with
      | some r =>
        if c.e = 0 then advance s i c c.iss else
        let f := fnNum o.sc c
        let (p, n) := if o.n = 0 then (0, 2 ^ 40) else (pairOf o.sb c / 65536, o.n.toNat)
        advance (replyAfter (invalidate s f p n) c r f p n 0 false 0) i c c.iss
      | none => advance s i c c.iss) s

/-- Read and clear the dirty bit of page `p`: whether it is reported, and whether it is tracked. -/
def snapPage (s : State) (f p : Nat) : State × Bool × Bool :=
  match walk s f p with
  | none => (s, false, false)
  | some (a, x) =>
    if leafSz x then (s, false, false)
    else if !leafResident x then (s, true, false)
    else
      let y := setBit64 x 57 false
      let s := writeEntry s f a y
      ({ s with migrations := s.migrations.map fun (m : Migration) => bif m.leafAt == a && m.fn == f then { m with leaf := y } else m },
        leafD x, true)

/-- What a page of a snapshot costs the issuing function: each table read of the walk, and the update of a tracked leaf. -/
def chargeSnap (s : State) (f p : Nat) (tracked : Bool) : State :=
  let rs := (walkReads s f p).filterMap (locOfPa s f)
  let us := (bif tracked then leafAddr s f p else none).bind (locOfPa s f)
  (rs ++ us.toList).foldl (fun s l => chargeDirect s 0 [l]) s

/-- The snapshot of 64 pages from `v`: the bits and the tracked pages, which are invalidated. -/
def dirtySnapshot (s : State) (f v : Nat) : State × DWord × List Nat :=
  (List.range 64).foldl (fun (a : State × DWord × List Nat) i =>
    let p := v / 65536 + i
    let (s, d, tracked) := snapPage a.1 f p
    let s := bif tracked then invalidate s f p 1 else s
    let s := chargeSnap s f p tracked
    (s, bif d then a.2.1 ||| (1#64 <<< i) else a.2.1, bif tracked then a.2.2 ++ [p] else a.2.2)) (s, 0, [])

/-- The checks of R300 beyond the function number. -/
def snapTraps (o : Sys3) (s : State) (c : Ctx) : List (Nat × TrapInfo) :=
  let v := pairOf o.sb c
  if v % 65536 ≠ 0 then inLanes c.e (misaligned v)
  else if 2 ^ 56 < v + 2 ^ 22 ∨ ((s.fn (fnNum o.sc c)).armed.any fun a => a != v) then inLanes c.e (violation v)
  else []

def runSnap (h : Head) (o : Sys3) (fin : Bool) (s : State) : Host.Outcome State Fault Refusal :=
  runEach h (inOrder [fnTrap false o.sc, snapTraps o])
    (fun i c s => match c.ref with
      | some r =>
        if c.e = 0 then advance s i c c.iss else
        let f := fnNum o.sc c
        let v := pairOf o.sb c
        -- acquire and release at `.sys`
        let (s, x, ps) := dirtySnapshot (performAll s r) f v
        let s := s.modFn f fun y => bif fin then { y with armed := none, tracked := [] } else { y with armed := some v, tracked := ps }
        advance (replyAfter s c r f (v / 65536) 64 o.rd.toNat true x) i c c.iss
      | none => advance s i c c.iss) s

def execDirtySnap (h : Head) (o : Sys3) (s : State) := runSnap h o false s
def execDirtySnapFin (h : Head) (o : Sys3) (s : State) := runSnap h o true s

/-! ### Stopping, starting and resetting functions -/

/-- What `vf.stop` finds at once (R302 step 1). -/
def stopRefusal (s : State) (f a nb : Nat) : Option Word :=
  let x := s.fn f
  if x.state = .reset then some 0x80000004 -- a reset wins (log 89)
  else if x.state = .stopped ∨ x.state = .stopping then some 0x80000002
  else if 2 ^ 56 < a + 65536 * nb ∨ (firstUnmapped s 0 a (65536 * nb) true).isSome then some 0x80000003
  else if !x.preemptible then some 0x80000005
  else none

def execVfStop (h : Head) (o : VfStop) (s : State) :=
  runEach h
    (inOrder [fnTrap false o.sc, fun _ c =>
      bif pairOf o.sb c % 256 == 0 then [] else inLanes c.e (misaligned (pairOf o.sb c))])
    (fun i c s => match c.ref with
      | some r =>
        if c.e = 0 then advance s i c c.iss else
        let f := fnNum o.sc c
        let a := pairOf o.sb c
        match stopRefusal s f a o.nb.toNat with
        | some x => advance (putRegs s c (c.r.setS o.rd.toNat x)) i c c.iss
        | none =>
          let b := issuerOf s c
          let (s, id) := awaitReply s r o.rd.toNat false
          let s := s.modFn f fun x => { x with state := .stopping }
          advance (requestPreempt s f (.vfStop b id a o.nb.toNat) 0xFFFF) i c c.iss
      | none => advance s i c c.iss) s

/-- A stopped function runs again; its saved teams are admitted again by the core scheduler (R321, R328). -/
def execVfStart (h : Head) (o : U2) (s : State) :=
  runSys h o.dst (fnTrap false o.sa)
    (fun s c =>
      let f := fnNum o.sa c
      if (s.fn f).state = .stopped then (unfreeze (s.modFn f fun x => { x with state := .run }) f, 0)
      else (s, 0x80000001)) s

def execVfPre (h : Head) (o : VfPre) (s : State) :=
  runEach h (fnTrap false o.sc)
    (fun i c s => match c.ref with
      | some r =>
        if c.e = 0 then advance s i c c.iss else
        let f := fnNum o.sc c
        let now := fun (x : Word) => advance (putRegs s c (c.r.setS o.rd.toNat x)) i c c.iss
        if s.collects.any (·.fn == f) then now 0x80000001
        else if !(s.fn f).preemptible then now 0x80000005
        else
          let b := issuerOf s c
          let (s, id) := awaitReply s r o.rd.toNat false
          advance (requestPreempt s f (.vfPre b id) o.m) i c c.iss
      | none => advance s i c c.iss) s

/-- A function-level reset; the wave goes on when the function is in RUN or STOPPED. -/
def execVfRst (h : Head) (sc : UReg) (s : State) :=
  runEach h (fnTrap false sc)
    (fun i c s => match c.ref with
      | some r =>
        if c.e = 0 then advance s i c c.iss else
        let f := fnNum sc c
        let (s, id) := awaitReply (beginReset s f) r 0 false
        advance { s with sysOps := s.sysOps ++ [{ by_ := issuerOf s c, reply := id, resets := some f }] } i c c.iss
      | none => advance s i c c.iss) s

/-! ### Slices (R326) and frame pools (R271) -/

/-- Read and accept a slice descriptor of the physical function. -/
def setSlice (s : State) (a : Nat) : State × Word :=
  if s.slice.isSome then (s, 0x80000001)
  else if 2 ^ 56 < a + 32 ∨ (unreadable s 0 a 32).isSome then (s, 0x80000003)
  else
    let b := peekVa s 0 a 32
    let s := chargeRange s 0 0 a 32
    let start := fieldB b 0 8
    let len := fieldB b 8 4
    let f := fieldB b 12 1
    if start < s.ctime.toNat ∨ len = 0 then (s, 0x80000002)
    else if !s.hasFn f ∨ fieldB b 13 3 ≠ 0 ∨ fieldB b 24 8 ≠ 0 then (s, 0x80000003)
    else ({ s with slice := some { start := BitVec.ofNat 64 start, len := BitVec.ofNat 32 len, fn := f, at_ := a } }, 0)

def execSliceSet (h : Head) (o : U2) (s : State) :=
  runSys h o.dst (fun _ _ => []) (fun s c => setSlice s (pairOf o.sa c)) s

/-- A frame that may be added to a pool of a tier: aligned, in an enabled part of the tier, not retired, and in no
function's pool. -/
def poolable (s : State) (cap : Bool) (pa : Nat) : Bool :=
  pa % 65536 == 0 && pa / 2 ^ 48 == cap.toNat && frameEnabled s pa
    && !(s.retired ++ s.volatileRetired).contains (pa / 65536)
    && !(s.fns.any fun f => f.fast.contains pa || f.slow.contains pa)

/-- Add the listed frames that may be added, with how many were. -/
def addFrames (s : State) (f a n : Nat) (cap : Bool) : State × Word :=
  let b := peekVa s 0 a (8 * n)
  let r := (List.range n).foldl (fun (x : State × Nat) i =>
    let pa := fieldB b (8 * i) 8
    if poolable x.1 cap pa then
      (x.1.modFn f fun y => bif cap then { y with slow := y.slow ++ [pa] } else { y with fast := y.fast ++ [pa] }, x.2 + 1)
    else x) (chargeRange s 0 0 a (8 * n), 0)
  (r.1, BitVec.ofNat 32 r.2)

def runPool (h : Head) (o : PoolAdd) (cap : Bool) (s : State) : Host.Outcome State Fault Refusal :=
  runSys h o.rd
    (inOrder [fnTrap true o.sc, fun s c =>
      let a := pairOf o.sb c
      if 2 ^ 56 < a + 8 * o.n.toNat then inLanes c.e (violation a) else
      match unreadable s 0 a (8 * o.n.toNat) with
      | some p => inLanes c.e (violation p)
      | none => []])
    (fun s c => addFrames s (fnNum o.sc c) (pairOf o.sb c) o.n.toNat cap) s

def execPoolAdd (h : Head) (o : PoolAdd) (s : State) := runPool h o false s
def execPoolAddCap (h : Head) (o : PoolAdd) (s : State) := runPool h o true s

end Sys2Proof.Machine
end

