-- ==== Sys2Proof/Machine/Sched.lean ====
section
/-! DEFINITION. The launch, task and core schedulers, swapping, the ring units and launch completion
(02 R11 to R14, R34 to R38; 03 R43 to R51; 11 R181; 19 R298, R299; 21 R306 to R311, R325; 22 R329, R330). -/
namespace Sys2Proof.Machine

/-! ### Completion entries (R329, R330) -/

def Compl.bytes (c : Compl) : List Byte :=
  leBytes 4 c.launch.toNat ++ leBytes 2 c.status ++ leBytes 2 c.count ++ List.replicate 8 0

/-- Write an entry to the function's completion ring and signal vector 0. -/
def writeCompl (s : State) (f : Nat) (c : Compl) : State :=
  let r := (s.fn f).compl
  let s := writeBytes s (.host (r.slot r.prod 16)) c.bytes
  (s.modFn f fun x => { x with compl := { x.compl with prod := x.compl.prod + 1 }, msix0 := true }).charge f 304 17 1

/-- Write an entry, or hold it while the ring is full or another is held. -/
def complete (s : State) (f : Nat) (c : Compl) : State :=
  if !(s.fn f).heldCompl.isEmpty || (s.fn f).compl.full then
    s.modFn f fun x => { x with heldCompl := x.heldCompl ++ [c] }
  else writeCompl s f c

/-! ### The pool (R43 to R46) and the functions' ranges (R310) -/

def rfGran (p : Word) : Nat := bits p.toNat 5 0
def accGran (p : Word) : Nat := bits p.toNat 13 8
def swapGran (p : Word) : Nat := bits p.toNat 21 16
def spGran (p : Word) : Nat := 48 - rfGran p - accGran p - swapGran p

/-- A valid partition word. -/
def poolOk (p : Word) : Bool :=
  2 ≤ rfGran p && rfGran p ≤ 16 && accGran p ≤ 32 && rfGran p + accGran p + swapGran p ≤ 48 && p &&& 0xFFC0C0C0 == 0

/-- What a function has a range of. -/
inductive Draw where
  | entries | rf | sp | acc | swap
  deriving DecidableEq, Repr

/-- Start and length of a range, in entries or thirty-seconds. -/
def Draw.field (d : Draw) (f : Fn) : Nat × Nat :=
  let x := f.sten1.toNat
  match d with
  | .entries => (bits f.sten0.toNat 4 0, bits f.sten0.toNat 10 5)
  | .rf => (bits x 4 0, bits x 10 5)
  | .sp => (bits x 15 11, bits x 21 16)
  | .acc => (bits x 26 22, bits x 32 27)
  | .swap => (bits x 37 33, bits x 43 38)

/-- Units of an area of `g` that a record names, cut at the end. -/
def Draw.span (d : Draw) (g : Nat) (f : Fn) : List Nat :=
  let (b, n) := d.field f
  (List.range (min g ((b + n) * g / 32))).filter fun u => b * g / 32 ≤ u

/-- Units that a function draws on: its own, without those of a function with a lower number. -/
def ownUnits (s : State) (f : Nat) (d : Draw) (g : Nat) : List Nat :=
  (d.span g (s.fn f)).filter fun u => !(s.fns.any fun x => x.id < f && (d.span g x).contains u)

/-- The granules of an area, in the order of R44: register file, swap, scratchpad, accumulators. -/
def Draw.granules (p : Word) : Draw → List Nat
  | .entries => []
  | .rf => List.range (rfGran p)
  | .swap => (List.range (swapGran p)).map (rfGran p + ·)
  | .sp => (List.range (spGran p)).map (rfGran p + swapGran p + ·)
  | .acc => (List.range (accGran p)).map (48 - accGran p + ·)

/-- The granules of the pool that a function draws on in an area (R44, R45). -/
def ownGranules (s : State) (f : Nat) (d : Draw) (p : Word) : List Nat :=
  let a := d.granules p
  (ownUnits s f d a.length).map fun u => a.getD u 0

/-- Bytes of an area that a function may draw. -/
def ownBytes (s : State) (f : Nat) (d : Draw) (p : Word) : Nat := Config.granule * (ownGranules s f d p).length

/-- Register file footprint of a wave, its swap record, and the accumulators of a team (R46). -/
def Launch.footprint (l : Launch) : Nat := (l.v + 7) / 8 * 32 * l.width + (l.s + 15) / 16 * 64
def Launch.swapRecord (l : Launch) : Nat := l.footprint + 1536
def Launch.accBytes (l : Launch) : Nat := (l.a + 3) / 4 * 4096

/-- The scratchpad window of a team of the launch (R46, R307). -/
def windowBytes (s : State) (l : Launch) : Nat :=
  bif l.spg == 0 then ownBytes s l.fn .sp l.pool else Config.granule * l.spg

/-! ### Taking launch records (R306 to R308) -/

/-- The slice in force lets the function's work start (R326). -/
def sliceAllows (s : State) (f : Nat) : Bool :=
  match s.slice with
  | some x => !x.active || (x.started && x.fn == f)
  | none => true

/-- Records of the function are taken and its tasks start (R321). -/
def dispatches (s : State) (f : Nat) : Bool :=
  s.hasFn f && (s.fn f).state == .run && !(s.fn f).frozen && sliceAllows s f

/-- The head record of a level, if it can be taken now. -/
def headRecord (s : State) (f level : Nat) : Option (List Byte) :=
  let q := (s.fn f).queues.getD level {}
  if q.size = 0 ∨ q.prod = q.cons then none else
  let b := readBytes s (.host (q.slot q.cons 64)) 64
  bif bit (fieldB b 0x0C 1) 1 && s.launches.any (fun l => l.fn == f && l.level == level) then none else some b

/-- The conditions of R307 on a record, but for SPG. -/
def recordOk (b : List Byte) : Bool :=
  fieldB b 0 8 % 64 == 0 && 1 ≤ fieldB b 8 3 && fieldB b 0x0B 1 == 0 && fieldB b 0x0C 1 < 8
    && fieldB b 0x0E 1 ≤ 4 && fieldB b 0x0F 1 ≤ 5 && fieldB b 0x18 4 % 8 == 0 && fieldB b 0x1E 2 == 0

/-- The conditions of R308 on a kernel descriptor. -/
def kernelOk (k : List Byte) : Bool :=
  fieldB k 0 8 % 8 == 0 && poolOk (BitVec.ofNat 32 (fieldB k 8 4)) && fieldB k 0x0C 2 ≤ 512 && fieldB k 0x0E 1 ≤ 128
    && fieldB k 0x0F 1 ≤ 3 && fieldB k 0x10 2 ≤ 512 && 1 ≤ fieldB k 0x12 1 && fieldB k 0x12 1 ≤ 16
    && fieldB k 0x13 1 ≤ 16 && fieldB k 0x14 4 % 8 == 0 && fieldB k 0x18 8 % 64 == 0
    && (fieldB k 0x20 4 == 0 || (fieldB k 0x20 4 % 64 == 0 && 256 ≤ fieldB k 0x20 4)) && fieldB k 0x24 28 == 0

/-- The launch of a record and its kernel descriptor. -/
def launchOf (id f level : Nat) (number : Word) (b k : List Byte) : Launch :=
  { id := id, fn := f, number := number, level := level
    det := bit (fieldB b 0x0C 1) 0, ordered := bit (fieldB b 0x0C 1) 1, nm := bit (fieldB b 0x0C 1) 2
    spg := fieldB b 0x0D 1, aqn := fieldB b 0x0E 1, rrs := fieldB b 0x0F 1, seed := BitVec.ofNat 64 (fieldB b 0x10 8)
    root := fieldB b 0x18 4, int := fieldB b 0x1C 2
    params := (List.range 8).map fun i => BitVec.ofNat 32 (fieldB b (0x20 + 4 * i) 4)
    nt := fieldB b 8 3, entry := fieldB k 0 8, pool := BitVec.ofNat 32 (fieldB k 8 4), v := fieldB k 0x0C 2
    s := fieldB k 0x0E 1, wl := fieldB k 0x0F 1, a := fieldB k 0x10 2, tw := fieldB k 0x12 1, gt := fieldB k 0x13 1
    hb := fieldB k 0x14 4, decl := fieldB k 0x18 8, dstr := fieldB k 0x20 4 }

/-- The save area of a pre-emptible function can hold a slot for a team of the launch (R311). -/
def slotFits (s : State) (l : Launch) : Bool :=
  let f := s.fn l.fn
  !f.preemptible || 0x851000 + (l.layout (windowBytes s l)).size ≤ f.saveLen.toNat

/-- The launch that a record makes, or nothing when a check fails. -/
def checkedLaunch (s : State) (f level : Nat) (b : List Byte) : Option Launch :=
  let kd := fieldB b 0 8
  if !recordOk b || (unreadable s f kd 64).isSome then none else
  let k := peekVa s f kd 64
  let l := launchOf s.nextId f level (s.fn f).launchNo b k
  bif kernelOk k && l.spg ≤ (ownGranules s f .sp l.pool).length && slotFits s l then some l else none

/-- The level and record that the launch scheduler would take from a function now: of the highest level whose head can be
taken. -/
def nextRecord (s : State) (f : Nat) : Option (Nat × List Byte) :=
  if !dispatches s f || !(s.fn f).heldCompl.isEmpty then none
  else [7, 6, 5, 4, 3, 2, 1, 0].findSome? fun k => (headRecord s f k).map fun b => (k, b)

/-- The function whose turn it is: the first, in round robin after the one served last, that does not pass (R306). -/
def launchTurn (s : State) : Option Nat :=
  let fs := s.fns.map (·.id)
  let after := match s.served with
    | some n => (fs.filter fun f => n < f) ++ fs.filter fun f => f ≤ n
    | none => fs
  after.find? fun f => (nextRecord s f).isSome

/-- The launch scheduler takes one record of a function in its turn; a record that fails a check is refused. -/
def execLaunchRecordTake (fn : Nat) (s : State) : Host.Outcome State Fault Refusal :=
  if launchTurn s ≠ some fn then .next s else
  let s := { s with served := some fn }
  match nextRecord s fn with
  | none => .next s
  | some (k, b) =>
    let got := checkedLaunch s fn k b
    let s := chargeRange s fn fn (fieldB b 0 8) 64
    let no := (s.fn fn).launchNo
    let s := (s.modFn fn fun x => { x with
      queues := x.queues.modify k fun q => { q with cons := q.cons + 1 }
      taken := x.taken.modify k (· + 1), launchNo := x.launchNo + 1 }).charge fn 304 17 1
    match got with
    | some l => .next { s.fresh with launches := s.launches ++ [l] }
    | none => .next (complete s fn { launch := no, status := 2, count := 0 })

/-! ### Starting tasks (R34, R181, R298, R309) -/

/-- A task fails before it starts, through its declaration or a migration; it counts as done. -/
def failTask (s : State) (l : Launch) (t : Task) (at_ : Nat) (cause : Word := 0x14) : State :=
  let s := countErr (pushErr s l.fn { cause := cause, launch := l.number, task := BitVec.ofNat 32 t.index
                                      wave := 0, unit := 6, detail := BitVec.ofNat 64 at_ }) l.id
  (unpin s l.fn t.pinned).modLaunch l.id fun l => l.setTask { t with phase := .done, pinned := [], wait := none, lost := false }

/-- An initial task as it is first considered: its declarations, or the address at which its record fails. -/
def initialTask (s : State) (l : Launch) (i : Nat) : Sum Nat Task :=
  if l.decl = 0 then .inr { index := i, params := l.params } else
  let a := l.decl + i * l.dstr
  match unreadable s l.fn a 256 with
  | some _ => .inl a
  | none =>
    let b := peekVa s l.fn a 256
    let t := taskOfRecord i b
    bif 8 < fieldB b 0x30 4 || recordReserved b || t.preds.any (fun p => i ≤ p) then .inl a
    else .inr { t with params := l.params }

/-- The task as the scheduler considers it. -/
def considered (s : State) (l : Launch) (i : Nat) : Option (Sum Nat Task) :=
  match l.task? i with
  | some t => bif t.phase == .waiting then some (.inr t) else none
  | none => bif i < l.nt then some (initialTask s l i) else none

/-- The engines, units and schedulers hold no work that `p` owns. -/
def noWork (s : State) (p : Issuer → Bool) : Bool :=
  s.cores.all (fun c => c.matrix.all (fun x => !p x.by_) && c.access.all fun x => !p x.by_)
    && s.rootCmds.all (fun c => !p c.by_) && s.bagCmds.all (fun c => !p c.by_) && s.posts.all (fun x => !p x.by_)
    && s.fns.all fun f => f.bags.all fun e => (e.bag.bind (·.drain)).all fun d => !p d.by_

/-- Every earlier write of a done task is performed at `.dev`, or none yet: its engine commands run, or its teams are
not released. -/
def Launch.ordinal (l : Launch) (t : Team) : Nat := bif l.gt == 0 then t.task else t.task * l.gt + t.team

def predDone (s : State) (l : Launch) (p : Nat) : Bool :=
  (l.task? p).any (fun t => t.phase == .done)
    && noWork s (fun b => b.launch == l.id && b.task == p)
    && (!l.det || (p + 1) * l.teamsOf ≤ l.released)

/-- The accesses that the waves of a task's teams left outstanding are performed (R298). -/
def flushTask (s : State) (launch task : Nat) : State :=
  (s.teams.filter fun t => t.launch == launch && t.task == task).foldl flushTeam s

/-- Descriptor, address and length of a declared tile's region, and its destination in the window. -/
def tileDesc (b : List Byte) : Desc := descAt b 0
def tileDst (b : List Byte) : Option Nat := let x := fieldB b 16 4; bif x == 0xFFFFFFFF then none else some x
def tileSpan (b : List Byte) : Nat × Nat := let d := tileDesc b; (d.base, d.extent d.ty)

/-- The declaration is well formed and lies in the context's mapping: its region readable, its destination in the
window (R34). -/
def tileFault (s : State) (l : Launch) (b : List Byte) : Option Nat :=
  let d := tileDesc b
  let (a, n) := tileSpan b
  if d.spc || d.fwi ≠ 0 || !d.ok d.ty 0 then some a else
  match firstUnmapped s l.fn a n false with
  | some x => some x
  | none => match tileDst b with
    | some o => bif windowBytes s l < o + n then some o else none
    | none => none

/-- Pages of the declared regions. -/
def taskPages (t : Task) : List Nat := (t.tiles.flatMap fun b => pagesOf (tileSpan b).1 (tileSpan b).2).dedup

/-- Page runs of a region: maximal runs of consecutive near-memory pages in one pseudo-channel, each with its
channel and the frames of its pages (R181). -/
def pageRuns (s : State) (f : Nat) (ps : List Nat) : List (Nat × Nat × List (Nat × Bool)) :=
  (ps.foldl (fun (a : List (Nat × Nat × List (Nat × Bool))) p =>
    match nearPages s f (65536 * p) 65536 with
    | .inl _ => a
    | .inr (q, fr) => match a with
      | (p0, q0, fs) :: rest => bif q0 == q && p0 + fs.length == p then (p0, q0, fs ++ fr) :: rest else (p, q, fr) :: a
      | [] => [(p, q, fr)]) []).reverse

/-- The task runs as root code: one invocation for each page run of its first tile. -/
def startNear (s : State) (l : Launch) (t : Task) : State :=
  let (a, n) := tileSpan (t.tiles.headD [])
  let z := 4 * 2 ^ l.rrs
  let records := fun (x : Nat × Nat × List (Nat × Bool)) =>
    (min (a + n) (65536 * (x.1 + x.2.2.length)) - max a (65536 * x.1)) / z
  -- an invocation of no record does not start (R175)
  let runs := (pageRuns s l.fn (pagesOf a n)).zipIdx.filter fun x => records x.1 != 0
  let by_ : Issuer := { fn := l.fn, launch := l.id, task := t.index, anchor := 0xFFFFFFFF }
  let id := s.nextId
  let s := s.fresh.modLaunch l.id fun x => x.setTask { t with phase := .running }
  let s := { s with rootCmds := s.rootCmds ++ [{ id := id, by_ := by_, op := .task l.id t.index, taken := true, left := runs.length }] }
  let s := runs.foldl (fun s x =>
    let ((p, q, fr), i) := x
    queueInv s q { cmd := id, kind := .task, fn := l.fn, idx := i, nrec := records x.1, z := z
                   param := t.params.getD 0 0, wbase := max a (65536 * p), pages := fr, entry := l.entry, code := l.root, by_ := by_ }) s
  bif runs.isEmpty then finishRoot s id else s

/-- The task is near-memory eligible, and its declared intensity asks for root code (R181). -/
def runsNear (s : State) (l : Launch) (t : Task) : Bool :=
  l.nm && (t.tiles.head?.any fun b => bit (fieldB b 0 16) 123) && l.int ≤ (s.fn l.fn).aith.toNat

/-- The stand whose task scheduler handles a task: any (R311). -/
def schedulerStand (s : State) : Nat := (pickOf s ((List.range 16).filter fun k => s.standMask.getLsbD k)).getD 0

/-- Its predecessors done, a task's regions are made resident and pinned; then it runs as root code, or waits for a
core. -/
def startTask (s : State) (l : Launch) (t : Task) : State :=
  let keep := fun (s : State) (t : Task) => s.modLaunch l.id fun x => x.setTask t
  if !t.preds.all (predDone s l) || l.released < t.after || (t.wait.isSome && !t.lost) then keep s t else
  let s := t.preds.foldl (fun s p => flushTask s l.id p) s
  match t.lost, t.wait, t.tiles.findSome? (tileFault s l) with
  | true, some p, _ => failTask s l t (65536 * p) 0x0D
  | _, _, some a => failTask s l t a
  | _, _, none =>
    let s := chargeWalks s l.fn (taskPages t)
    let away := (taskPages t).find? fun p => match findVa s l.fn (65536 * p) with
      | .at_ .. => false
      | _ => true
    match away with
    | some p => startMigration (keep s { t with wait := some p }) (schedulerStand s) l.fn p true
    | none =>
      let t := { t with pinned := taskPages t }
      let s := { s with pinned := s.pinned ++ t.pinned.map fun p => (l.fn, p) }
      bif runsNear s l t then startNear s l t else keep s { t with phase := .ready }

def execTaskStart (launch task : Nat) (s : State) : Host.Outcome State Fault Refusal :=
  match s.launch? launch with
  | none => .next s
  | some l =>
    if !dispatches s l.fn then .next s else
    match considered s l task with
    | none => .next s
    | some x =>
    -- the record is read when the task is first considered
    let s := if l.decl ≠ 0 ∧ (l.task? task).isNone then chargeRange s l.fn l.fn (l.decl + task * l.dstr) 256 else s
    match x with
    | .inl a => .next (failTask s l { index := task, params := l.params } a)
    | .inr t => .next (startTask s l t)

/-! ### Room on a core (R14, R45, R46, R49) -/

/-- A core that the part has and the masks enable (R332). -/
def coreEnabled (s : State) (c : Nat) : Bool :=
  c < 4096 && s.standMask.getLsbD (coreStand c) && (s.coreMasks.getD (c / 16) 0).getLsbD (c % 16)

/-- The team's staging area is held: it has not been released, nor passed over (R325). -/
def holdsStaging (s : State) (t : Team) : Bool :=
  match s.launch? t.launch with
  | some l => l.det && l.released ≤ l.ordinal t
  | none => false

/-- Teams that draw on a core. -/
def teamsOn (s : State) (c : Nat) : List Team := s.teams.filter fun t => t.core == c && (!t.done || holdsStaging s t)

def launchOfTeam (s : State) (t : Team) : Launch := (s.launch? t.launch).getD {}

/-- What the teams of a function draw on a core from an area, in bytes. -/
def drawn (s : State) (f c : Nat) (d : Draw) : Nat :=
  (((teamsOn s c).filter fun t => t.fn == f).map fun t =>
    let l := launchOfTeam s t
    match d with
    | .entries => 0
    | .rf => bif t.done then 0 else l.footprint * (t.waves.filter fun w => w.entry.isSome).length
    | .sp => (bif t.done then 0 else t.winSize) + bif holdsStaging s t then stagingSize else 0
    | .acc => bif t.done then 0 else l.accBytes
    | .swap => bif swapGran l.pool == 0 then 0 else l.swapRecord * (t.waves.filter fun w => !w.allEnded).length).sum

/-- Waves admitted to a slot, and the entries that a function may still give there. -/
def slotWaves (s : State) (c k : Nat) : List Wave :=
  (s.teams.filter fun t => t.core == c && !t.done).flatMap fun t => t.waves.filter fun w => w.slot == k && !w.allEnded
def freeEntries (s : State) (f c k : Nat) : List Nat :=
  let used := (slotWaves s c k).filterMap (·.entry)
  (ownUnits s f .entries 32).filter fun e => !used.contains e

/-- A core has room for a team of `n` live waves with a window of `win` bytes. -/
def roomOn (s : State) (l : Launch) (win n c : Nat) : Bool :=
  let p := l.pool
  let fits := fun (d : Draw) (need : Nat) => need == 0 || drawn s l.fn c d + need ≤ ownBytes s l.fn d p
  coreEnabled s c && ((teamsOn s c).isEmpty || (s.core c).part == p)
    && fits .acc l.accBytes
    && fits .sp (win + bif l.det then stagingSize else 0)
    && (bif swapGran p == 0 then
          fits .rf (n * l.footprint) && n ≤ ((List.range 4).map fun k => (freeEntries s l.fn c k).length).sum
        else
          fits .swap (n * l.swapRecord)
            && n ≤ ((List.range 4).map fun k => 64 - (slotWaves s c k).length).sum
            && l.footprint ≤ ownBytes s l.fn .rf p && !(ownUnits s l.fn .entries 32).isEmpty)

/-- The lowest free place of `size` bytes for a team slot, with a free entry of the table (R318). -/
def freeSlot (f : Fn) (size : Nat) : Option (Nat × Nat × Nat) :=
  let starts := 0x851000 :: f.slots.map fun x => (x.1 + x.2.1 + 4095) / 4096 * 4096
  let ok := fun o => 0x851000 ≤ o && o + size ≤ f.saveLen.toNat
    && f.slots.all fun x => o + size ≤ x.1 || x.1 + x.2.1 ≤ o
  match (starts.filter ok).min?, (List.range 504).find? fun k => f.slots.all fun x => x.2.2 != k with
  | some o, some k => some (o, size, k)
  | _, _ => none

/-- Reserve slots for `n` teams of a launch, if the function needs and has them. -/
def reserveSlots (f : Fn) (size : Nat) : Nat → Option (Fn × List (Option Nat))
  | 0 => some (f, [])
  | n + 1 =>
    if !f.preemptible then (reserveSlots f size n).map fun x => (x.1, none :: x.2) else
    match freeSlot f size with
    | none => none
    | some y => (reserveSlots { f with slots := f.slots ++ [y] } size n).map fun x => (x.1, some y.1 :: x.2)

/-- The cores that a task of the launch is admitted to when `core` is the lowest of them: one, or as many of the grove
as its gang has teams. -/
def admitCores (s : State) (l : Launch) (core : Nat) : Option (List Nat) :=
  let cs := ((List.range (16 - core % 16)).map (· + core)).filter (roomOn s l (windowBytes s l) l.tw)
  bif cs.head? == some core && l.teamsOf ≤ cs.length then some (cs.take l.teamsOf) else none

/-! ### Seating waves (R15, R38, R49) -/

/-- Admitted waves of a slot, with where they are. -/
def slotRefs (s : State) (c k : Nat) : List (WaveRef × Wave) :=
  (s.teams.filter fun t => t.core == c && !t.done).flatMap fun t =>
    (t.waves.zipIdx.filter fun x => x.1.slot == k && !x.1.allEnded).map fun x => (⟨t.id, x.2⟩, x.1)

/-- The waves of a slot that wait for an entry, oldest first; of those that became able to run in one cycle, in the order of
the teams and their waves (R38, log 109). -/
def swapInOrder (s : State) (c k : Nat) : List (WaveRef × Wave) :=
  ((slotRefs s c k).filter fun x => x.2.entry.isNone && x.2.ready != 0).mergeSort fun a b => a.2.ready ≤ b.2.ready

/-- The group has issued: its membership changes only as R15 says. One that has not is still being formed (log 84). -/
def groupRuns (s : State) (c k g : Nat) : Bool :=
  let x := s.group c k g
  !x.hist.isEmpty || x.lastOrd != 0 || x.lastTrap != 0 || x.lastSave != 0

/-- A wave of width `w` has room in an issue group at a lane offset: an own group, or one of its launch, which must not
have issued when the wave is newly admitted. -/
def groupPlaces (s : State) (c k launch w : Nat) (swapIn : Bool) : List (Nat × Nat) :=
  let ws := ((s.teams.filter fun t => t.core == c && t.launch == launch && !t.done).flatMap (·.waves)).filter fun x =>
    x.slot == k && x.entry.isSome
  (s.nextId, 0) :: (((ws.map (·.group)).dedup.filter fun g => swapIn || !groupRuns s c k g).flatMap fun g =>
    ((List.range (64 / w)).map (w * ·)).filterMap fun b =>
      bif (ws.filter fun x => x.group == g).any (fun x => b < x.base + x.lanes.length && x.base < b + w) then none
      else some (g, b))

/-- Give an entry to a wave in a slot, with a group. -/
def seat (s : State) (c k e launch : Nat) (swapIn : Bool) (w : Wave) : State × Wave :=
  let (g, b) := (pickOf s (groupPlaces s c k launch w.lanes.length swapIn)).getD (s.nextId, 0)
  -- a group of its own is formed now (R21)
  let s := bif g == s.nextId then s.modGroup c k g fun x => { x with born := s.turns } else s
  (s.fresh, { w with slot := k, entry := some e, group := g, base := b, held := s.cycle, ready := 0 })

/-- A lane can run, for the swap-in order (R38). -/
def Wave.able (w : Wave) : Bool := w.lanes.any Lane.runnable

/-- The moment from which the wave waits for an entry, plus 1; 0 while it does not. -/
def Wave.waits (cycle : Nat) (w : Wave) : Wave :=
  if w.entry.isNone && !w.allEnded && w.save != .saved then
    { w with ready := bif !w.able then 0 else bif w.ready == 0 then cycle + 1 else w.ready }
  else w

/-- Entries of a slot that a new wave of a function may take: free ones that no wave of the swap-in order could take
(R38). -/
def newEntries (s : State) (f c k : Nat) : List Nat :=
  (freeEntries s f c k).filter fun e => (swapInOrder s c k).all fun x => !(freeEntries s (s.fnOf x.1) c k).contains e

/-- Add a wave to a team on a core: with an entry where the function has one free and the register file holds it,
else, with a swap area, without one. -/
def addWave (s : State) (tid : Nat) (w : Wave) : State :=
  match s.team? tid with
  | none => s
  | some t =>
    let l := launchOfTeam s t
    let put := fun (s : State) (w : Wave) => s.modTeam tid fun x => { x with waves := x.waves ++ [w] }
    if w.allEnded then put s { w with entry := none } else
    let ps := (List.range 4).flatMap fun k =>
      bif (slotWaves s t.core k).length < 64 then (newEntries s t.fn t.core k).map fun e => (k, e) else []
    let room := drawn s t.fn t.core .rf + l.footprint ≤ ownBytes s t.fn .rf l.pool
    match (if room then pickOf s ps else none) with
    | some (k, e) =>
      let (s, w) := seat s t.core k e t.launch false w
      put s w
    | none =>
      let k := (pickOf s ((List.range 4).filter fun k => (slotWaves s t.core k).length < 64)).getD 0
      put s (Wave.waits s.cycle { w with entry := none, slot := k, ready := 0 })

/-! ### Admission (R11, R13, R14, R311) -/

/-- A wave at its kernel's first instruction, with the task's parameters. -/
def freshWave (l : Launch) (t : Task) (cycle : Nat) : Wave :=
  let r := t.params.zipIdx.foldl (fun (r : Regs) x => r.setS (2 + x.2) x.1) (Regs.init l.width l.v l.s)
  { regs := { r with wmV := 0, wmS := 0, wmP := 0 }
    lanes := List.replicate l.width { pc := l.entry, anchor := l.entry, blk := { liveV := 512, liveS := 128, liveP := 16 } }
    issued := cycle }

/-- A team as it is admitted, without its waves. -/
def freshTeam (s : State) (l : Launch) (t : Task) (core idx : Nat) (slot : Option Nat) : Team :=
  let f := s.fn l.fn
  { id := s.nextId, fn := l.fn, launch := l.id, task := t.index
    team := bif l.gt == 0 then t.index else idx, gang := bif l.gt == 0 then 0 else t.index
    core := core, winSize := windowBytes s l
    accs := (List.range l.a).map fun n => ({ e := List.replicate 256 0, g := (List.range 16).map (colSeed l.seed n) } : Acc)
    act := List.replicate 4 {}, queues := List.replicate l.aqn []
    ctx := { save := f.save.toNat, svs := f.svs.toNat, svr := f.svr.toNat, hdef := f.hdef.toNat, dmask := f.dmask
             aith := f.aith }
    saveSlot := slot }

/-- The copies of the task's tiles in a team's window (R34 step 3). -/
def copyTiles (s : State) (l : Launch) (t : Task) (team core : Nat) : State :=
  t.tiles.foldl (fun s b => match tileDst b with
    | none => s
    | some o =>
      let (a, n) := tileSpan b
      let s := chargeLines s l.fn core (rangeLocs s l.fn a n)
      let s := s.charge l.fn (coreDom core) 7 (linesOf o n)
      writeBytes s (.win team o) (readVa s l.fn a n)) s

/-- Put a team on a core, which adopts its partition word. -/
def placeTeam (s : State) (l : Launch) (tm : Team) (ws : List Wave) : State :=
  let s := bif (teamsOn s tm.core).isEmpty then s.modCore tm.core fun c => { c with part := l.pool } else s
  let s := { s with teams := s.teams ++ [tm] }
  ws.foldl (fun s w => addWave s tm.id w) s

def admitTeam (s : State) (l : Launch) (t : Task) (core idx : Nat) (slot : Option Nat) : State :=
  let tm := freshTeam s l t core idx slot
  copyTiles (placeTeam s.fresh l tm (List.replicate l.tw (freshWave l t s.cycle))) l t tm.id core

/-- The set's tasks do not start while a pre-emption takes teams of the function on the core's stand (R320 step 1). -/
def startable (s : State) (f core : Nat) : Bool :=
  dispatches s f && !(s.collects.any fun c => c.fn == f && c.mask.getLsbD (coreStand core))

/-- The ready task could be admitted at the core now, but for the choice between functions and tasks. -/
def canAdmit (s : State) (l : Launch) (t : Task) (core : Nat) : Bool :=
  t.phase == .ready && startable s l.fn core && (admitCores s l core).isSome
    && (reserveSlots (s.fn l.fn) (l.layout (windowBytes s l)).size l.teamsOf).isSome

/-- The task scheduler picks this task before the other: a higher level, an older launch, a lower index. -/
def picksBefore (a b : Launch × Task) : Bool :=
  b.1.level < a.1.level || (b.1.level == a.1.level && (a.1.id < b.1.id || (a.1.id == b.1.id && a.2.index < b.2.index)))

/-- The waves of a saved team that have not ended, and the teams of its gang that are saved with it. -/
def Team.liveWaves (t : Team) : Nat := (t.waves.filter fun w => !w.allEnded).length
def savedMates (s : State) (v : Saved) : List Saved :=
  (s.saved.filter fun x => x.team.launch == v.team.launch && x.team.task == v.team.task && !x.restoring).mergeSort
    fun a b => a.team.team ≤ b.team.team

/-- The cores that a saved team, or the saved teams of its gang, are admitted to when `core` is the lowest of them. -/
def restoreCores (s : State) (v : Saved) (core : Nat) : Option (List Nat) :=
  let l := launchOfTeam s v.team
  let ms := savedMates s v
  let n := (ms.map fun m => m.team.liveWaves).foldl max 0
  let cs := ((List.range (16 - core % 16)).map (· + core)).filter (roomOn s l v.team.winSize n)
  bif cs.head? == some core && ms.length ≤ cs.length && startable s v.team.fn core then some (cs.take ms.length) else none

/-- Functions that have a team waiting on a core (R311). -/
def waitingFns (s : State) (core : Nat) : List Nat :=
  ((s.launches.filter fun l => l.tasks.any fun t => canAdmit s l t core).map (·.fn)
    ++ (s.saved.filter fun v => !v.restoring && (restoreCores s v core).isSome).map (·.team.fn)).dedup

/-- The core scheduler admits a ready task as a team, or as a gang. -/
def execTeamAdmit (launch task core : Nat) (s : State) : Host.Outcome State Fault Refusal :=
  match s.launch? launch with
  | none => .next s
  | some l =>
    match l.task? task with
    | none => .next s
    | some t =>
      let ws := waitingFns s core
      let first := s.launches.all fun m => m.fn != l.fn || m.tasks.all fun u =>
        !picksBefore (m, u) (l, t) || !canAdmit s m u core
      if !canAdmit s l t core || !first || !(choosable s (.admission core) ws).contains l.fn then .next s else
      match admitCores s l core, reserveSlots (s.fn l.fn) (l.layout (windowBytes s l)).size l.teamsOf with
      | some cs, some (f, slots) =>
        let s := serve s (.admission core) ws l.fn
        let s := bif f.preemptible then s.modFn l.fn fun _ => { f with headerDue := true } else s
        let s := (cs.zip slots).zipIdx.foldl (fun s x => admitTeam s l t x.1.1 x.2 x.1.2) s
        .next (s.modLaunch l.id fun x => x.setTask { t with phase := .running })
      | _, _ => .next s

/-! ### Swapping (R38, R50, R51) -/

/-- R50's conditions on a resident wave. -/
def swappable (s : State) (r : WaveRef) (w : Wave) : Bool :=
  let c := s.coreOf r
  let l := ((s.team? r.team).map (launchOfTeam s)).getD {}
  let order := swapInOrder s c w.slot
  let head := order.head?.any fun x => Config.swapCycles + x.2.ready ≤ s.cycle + 1
  w.entry.isSome && swapGran l.pool != 0
    && (Config.swapCycles + w.issued ≤ s.cycle || (Config.swapCycles + w.held ≤ s.cycle && head))
    && w.ld.isEmpty && w.lanes.all (fun x => x.ended || x.mode != .trap) && w.replies.isEmpty
    && (((s.team? r.team).map (·.act)).getD []).all (fun a => a.shadow.all fun y => y.2.1 != r.wave)
    && !order.isEmpty

/-- The registers that a swap keeps: the live prefixes of the blocks where lanes stand, at a header that they have not
consumed too, and the write mask. Every other register reads zero after it. -/
def Wave.keepLive (s : State) (f : Nat) (w : Wave) : Wave :=
  let bs := (w.lanes.filter fun l => !l.ended).map (Lane.standing s f)
  let lv := (bs.map (·.liveV)).foldl max 0
  let ls := (bs.map (·.liveS)).foldl max 0
  let lp := (bs.map (·.liveP)).foldl max 0
  let r := w.regs
  { w with regs := { r with
    v := r.v.mapIdx fun n x => bif n < lv || r.wmV.getLsbD n then x else List.replicate r.width 0
    s := r.s.mapIdx fun n x => bif n < ls || r.wmS.getLsbD n then x else 0
    p := r.p.mapIdx fun n x => bif n < lp || r.wmP.getLsbD n then x else 0 } }

/-- Lines of the pool that a swap of a wave's record touches, at most its whole record. -/
def chargeSwap (s : State) (r : WaveRef) : State :=
  let l := ((s.team? r.team).map (launchOfTeam s)).getD {}
  s.charge (s.fnOf r) (coreDom (s.coreOf r)) 7 (linesOf 0 l.swapRecord)

/-- The core scheduler swaps out a wave: of those that qualify, the one that has held its entry longest. -/
def execSwapOut (r : WaveRef) (s : State) : Host.Outcome State Fault Refusal :=
  match s.wave? r with
  | none => .next s
  | some w =>
    let rivals := (slotRefs s (s.coreOf r) w.slot).filter fun x => swappable s x.1 x.2
    if !swappable s r w || rivals.any (fun x => x.2.held < w.held) then .next s else
    .next ((chargeSwap (dropLatch s r) r).modWave r fun w =>
      Wave.waits s.cycle { w.keepLive s (s.fnOf r) with entry := none, naps := [], ready := 0 })

/-- The first wave of a slot's swap-in order for which its function has a free entry gets it. -/
def execSwapIn (core slot : Nat) (s : State) : Host.Outcome State Fault Refusal :=
  let fit := (swapInOrder s core slot).findSome? fun x =>
    let f := s.fnOf x.1
    let l := ((s.team? x.1.team).map (launchOfTeam s)).getD {}
    bif drawn s f core .rf + l.footprint ≤ ownBytes s f .rf l.pool then
      (freeEntries s f core slot).head?.map fun e => (x.1, x.2, e, l.id)
    else none
  match fit with
  | none => .next s
  | some (r, w, e, l) =>
    let (s, w) := seat (chargeSwap s r) core slot e l true w
    .next (s.modWave r fun _ => w)

/-! ### The ring units (R159, R299, R325) -/

/-- Report a staged item that fails when its team is released, with the team's task, the wave and the anchor. -/
def ringErr (s : State) (t : Team) (wave : Nat) (anchor : Word) (cause : Nat) (lane : Nat) (det : Nat) : State :=
  let b : Issuer := { fn := t.fn, launch := t.launch, team := t.id, wave := wave, task := t.task, teamNo := t.team, anchor := anchor }
  countErr (pushErr s t.fn { issuerErr s b cause 5 det 0 with lane := BitVec.ofNat 32 lane }) t.launch

/-- Perform a staged store at `.dev`; a write to the capacity tier or to host memory may fail (R137, log 113). -/
def releaseStore (s : State) (t : Team) (wave : Nat) (anchor : Word) (lane op : Nat) (e : StElem) : State :=
  let whole := t.staged.filterMap fun x => match x with
    | .store w _ _ o y => bif w == wave && o == op then some y else none
    | .put .. => none
  if e.fails s whole || (e.loc.mayFail && Config.writeFails s.turns e.loc.addr) then ringErr s t wave anchor 0x10 lane e.loc.addr
  else performPiece (chargeLines s t.fn t.core [e.loc]) e

/-- Pass a staged put to its placement unit. -/
def releasePut (s : State) (t : Team) (wave : Nat) (anchor handle : Word) (recs : List (Word × List Byte)) : State :=
  match findBag s t.fn handle with
  | none => ringErr s t wave anchor 8 0xFFFFFFFF handle.toNat
  | some b =>
    if b.sealed || !b.room recs.length then
      ringErr s t wave anchor (9 + 65536 * b.sealed.toNat) 0xFFFFFFFF handle.toNat
    else recs.foldl (fun s x => placeIn s t.fn handle x.1 x.2) s

/-- A team is released: its stores in staging order, and its puts by wave and then in issue order. -/
def releaseTeam (s : State) (t : Team) : State :=
  let s := t.staged.foldl (fun s x => match x with
    | .store w a l o e => releaseStore s t w a l o e
    | .put .. => s) s
  let s := (List.range t.waves.length).foldl (fun s w => t.staged.foldl (fun s x => match x with
    | .put v a h rs => bif v == w then releasePut s t v a h rs else s
    | .store .. => s) s) s
  s.modTeam t.id fun x => { x with staged := [], stagedBytes := 0 }

/-- The next team of a deterministic launch in order: released once it is done and its commands have staged their
writes; one that a staging overflow ended, and a task that ran no team, are passed over. -/
def execRingUnitRelease (launch : Nat) (s : State) : Host.Outcome State Fault Refusal :=
  match s.launch? launch with
  | none => .next s
  | some l =>
    if !l.det || (s.fn l.fn).frozen then .next s else
    let task := l.released / l.teamsOf
    let done := (l.task? task).any fun t => t.phase == .done
    let on := fun (s : State) => s.modLaunch launch fun x => { x with released := x.released + 1 }
    match s.teams.find? fun t => t.launch == launch && l.ordinal t == l.released with
    | none => .next (bif done && !(s.saved.any fun v => v.team.launch == launch && v.team.task == task) then on s else s)
    | some t =>
      -- a put waits while a drain of its bag is copying (R161)
      let held := t.staged.any fun x => match x with
        | .put _ _ h _ => draining s t.fn h
        | .store .. => false
      if !t.done || held || !noWork s (fun b => b.team == t.id) then .next s else
      let s := endFailed (flushTeam s t)
      match s.team? t.id with
      | some t => .next (on (bif t.failed then s else releaseTeam s t))
      | none => .next s

/-! ### Launch completion (R37, R316) -/

/-- Every task is done, nothing of the launch is outstanding on any core, and a deterministic launch's teams are
released. -/
def launchDone (s : State) (l : Launch) : Bool :=
  (l.tasks.filter fun t => t.phase == .done).length == l.nt + l.posted
    && (s.teams.filter fun t => t.launch == l.id).all (fun t => t.waves.all fun w =>
        w.st.isEmpty && w.cp.isEmpty && w.tl.isEmpty)
    && noWork s (fun b => b.launch == l.id)
    && (!l.det || (l.nt + l.posted) * l.teamsOf ≤ l.released)

def execLaunchComplete (launch : Nat) (s : State) : Host.Outcome State Fault Refusal :=
  match s.launch? launch with
  | none => .next s
  | some l =>
    if !launchDone s l || (s.fn l.fn).state == .reset then .next s else
    let s := (s.teams.filter fun t => t.launch == launch).foldl flushTeam s
    let l := (s.launch? launch).getD l
    let s := postAll { s with teams := s.teams.filter fun t => t.launch != launch
                              launches := s.launches.filter fun x => x.id != launch }
    .next (complete s l.fn { launch := l.number, status := bif l.records == 0 then 0 else 1, count := min l.records 65535 })

end Sys2Proof.Machine
end

