-- ==== Sys2Proof/Machine/Service.lean ====
section
/-! DEFINITION. Functions coming and going, resets, attestation, stack retraining, retired frames, row disturbance and
the thermal shutdown (21 R322, R323; 22 R339 to R344; 10 R170; 16 R251, R254). -/
namespace Sys2Proof.Machine

/-! ### Functions -/

/-- A virtual function is created: its registers, accumulators and crown slots are as at reset (R251, R254, R171). -/
def execFunctionCreation (fn : Nat) (s : State) : Host.Outcome State Fault Refusal :=
  if s.recovery || s.hasFn fn || fn = 0 || 63 < fn then .next s else
  .next { s with fns := (s.fns.filter fun f => f.id < fn) ++ [{ id := fn }] ++ s.fns.filter fun f => fn < f.id
                 crown := s.crown.filter fun x => x.1.1 != fn }

/-- A virtual function's context is destroyed, with its bags and all its work (R170). -/
def execContextDestruction (fn : Nat) (s : State) : Host.Outcome State Fault Refusal :=
  outside s (bif fn == 0 || !s.hasFn fn then s else
    { resetFunction s fn with fns := s.fns.filter fun f => f.id != fn })

/-- A function-level reset that the host asks for (R322). -/
def execFunctionLevelReset (fn : Nat) (s : State) : Host.Outcome State Fault Refusal :=
  outside s (bif s.hasFn fn then beginReset s fn else s)

/-! ### Module reset (R339) -/

/-- What outlives a reset: the part's fuses and flash, what is attached to it, and the host's memory. -/
def resetState (s : State) : State :=
  { State.reset with
    turns := s.turns, agenda := s.agenda, hostMem := s.hostMem, standMask := s.standMask, stackMask := s.stackMask
    coreMasks := s.coreMasks, cxl := s.cxl, wear := s.wear, retired := s.retired, rollback := s.rollback }

/-- The boot ROM verifies the firmware image: one whose signature fails, or that is older than the fused counter, is
not run, and the module stays in recovery, where nothing but another reset has an effect: what the recovery mailbox does is
not laid down (log 95). -/
def execModuleReset (s : State) : Host.Outcome State Fault Refusal :=
  let n := Config.imageRollback s.turns
  .next (bif Config.imageVerifies s.turns && s.rollback.toNat ≤ n.toNat then { resetState s with rollback := n }
    else { resetState s with recovery := true })

/-! ### What the part has (R7, R8, R332) -/

/-- Enabled cores, and groves with an enabled core. -/
def enabledCores (s : State) : Nat := (List.range 4096).countP (coreEnabled s)
def enabledGroves (s : State) : Nat :=
  (List.range 256).countP fun g => s.standMask.getLsbD (g / 16) && s.coreMasks.getD g 0 != 0

/-- `%wmax`, as MINFO reports it. -/
def waveMax : Nat := 64

/-- MINFO. -/
def minfo (s : State) : DWord :=
  BitVec.ofNat 64 (s.rlFull.toNat * 2 ^ 62 + waveMax * 2 ^ 54 + enabledCores s * 2 ^ 41 + enabledGroves s * 2 ^ 32
    + s.stackMask.toNat * 2 ^ 16 + s.standMask.toNat)

/-- At 115 °C all work stops, every function is reset and a fatal error is reported over AER (R344). -/
def execThermalShutdown (s : State) : Host.Outcome State Fault Refusal :=
  outside s { s.fns.foldl (fun s f => beginReset s f.id) s with aerFatal := true }

/-! ### Attestation (R333, R340) -/

/-- The report over the nonce. -/
def attestation (s : State) : List Byte :=
  let a := s.mailbox.nonce.flatMap (fun x => leBytes 8 x.toNat) ++ leBytes 8 Config.firmwareVersion.toNat
    ++ leBytes 4 s.rollback.toNat ++ leBytes 4 (minfo s).toNat
    ++ sliceB Config.firmwareDigest 0 48 ++ sliceB Config.fuseDigest 0 48
  a ++ sliceB (Config.reportSignature a) 0 96

/-- A write of CMD starts an operation, unless one is under way. -/
def startMailbox (s : State) (cmd : DWord) (next : List Byte) : State :=
  bif s.recovery || s.mailbox.sts == 1 then s
  else { s with mailbox := { s.mailbox with cmd := cmd, sts := 1, next := next } }

def execAttestReport (s : State) : Host.Outcome State Fault Refusal := .next (startMailbox s 1 (attestation s))
def execAttestCertChain (s : State) : Host.Outcome State Fault Refusal :=
  .next (startMailbox s 2 (Config.certificateChain.take 4096))

/-- The operation ends: its data is ready, or it ends in error. -/
def execAttestDataReady (ok : Bool) (s : State) : Host.Outcome State Fault Refusal :=
  let m := s.mailbox
  outside s (if m.sts ≠ 1 then s
    else bif ok then { s with mailbox := { m with sts := 2, len := BitVec.ofNat 64 m.next.length, data := m.next, next := [] } }
    else { s with mailbox := { m with sts := 3, next := [] } })

/-! ### Stack retraining (R333, R341) -/

/-- Rates that SRATE takes: 3,200 to 12,800 Mb/s in steps of 800. -/
def rateAllowed (x : BitVec 16) : Bool := 3200 ≤ x.toNat && x.toNat ≤ 12800 && x.toNat % 800 == 0

/-- Deadlines of the saves that are writing to a stack. -/
def deadlines (s : State) (k : Nat) : List Nat :=
  (s.collects.filter fun c => c.begun && savesOn s c.fn c.pins k).map fun c => c.since + Config.forceCycles

/-- A change of a stack's rate is asked for; its retraining waits for the deadlines of the saves that are writing to the
stack. While the stack retrains, the change waits for a retraining of its own. -/
def requestRate (s : State) (k : Nat) (x : BitVec 16) : State :=
  let r := s.rates.getD k {}
  if !rateAllowed x || ((r.next.or r.want).getD r.mbps) = x then s else
  let ds := deadlines s k
  let r' : Rate := bif r.st == 2 then { r with next := some x, hold := ds.foldl max r.hold }
    else { r with want := some x, hold := ds.foldl max r.hold, st := bif ds.isEmpty && r.st == 0 then 0 else 1 }
  { s with rates := s.rates.set k r' }

def execSrateWrite (stack : Nat) (v : DWord) (s : State) : Host.Outcome State Fault Refusal :=
  outside s (requestRate s stack (v.setWidth 16))

def execThermalControllerRequest (stack : Nat) (rate : BitVec 16) (s : State) : Host.Outcome State Fault Refusal :=
  outside s (requestRate s stack rate)

/-- The retraining starts, once every deadline that holds it back has passed; it parks the stack's accesses, which
changes latency alone. -/
def execStackRetrain (stack : Nat) (s : State) : Host.Outcome State Fault Refusal :=
  let r := s.rates.getD stack {}
  if r.want.isNone ∨ r.st = 2 then .next s else
  let s := s.passTo (bif r.st == 1 then r.hold else 0)
  .next { s with rates := s.rates.modify stack fun x => { x with st := 2, hold := 0 } }

/-- The retraining ends, and accesses go on at the new rate; a change that was asked for meanwhile is now the one that
waits. -/
def execStackRetrainingEnd (stack : Nat) (s : State) : Host.Outcome State Fault Refusal :=
  let r := s.rates.getD stack {}
  let r' : Rate := { mbps := r.want.getD r.mbps, want := r.next, hold := r.hold, st := bif r.hold != 0 then 1 else 0 }
  .next (bif r.st == 2 then { s with rates := s.rates.set stack r' } else s)

/-! ### Row disturbance (R323) -/

/-- A row's activations for a function cross the threshold: the neighbouring rows are refreshed at its charge, and the
physical function gets a record, once per function and stack in a period. The delay changes timing alone. -/
def execRowDisturbance (ch bank row : Nat) (s : State) : Host.Outcome State Fault Refusal :=
  match s.rowCounts.find? fun x => x.1.1 == ch && x.1.2.1 == bank && x.1.2.2.1 == row && Config.rowThreshold < x.2 with
  | none => .next s
  | some ((_, _, _, f), _) =>
    let k := ch / 64
    let s := { s with rowCounts := s.rowCounts.filter fun (x : (Nat × Nat × Nat × Nat) × Nat) => x.1 != (ch, bank, row, f) }
    let s := s.charge f (stackDom k) 9 2
    .next (bif s.rowRecords.contains (f, k) then s else
      let s := { s with rowRecords := s.rowRecords ++ [(f, k)] }
      pushErr s 0 { cause := 0x16, unit := BitVec.ofNat 32 (256 * ch), aux := BitVec.ofNat 32 bank })

/-! ### Retired frames (R342) -/

/-- The pages of a function whose leaves name a frame. -/
def pagesOfFrame (s : State) (f frame : Nat) : List Nat :=
  ((mappedPages s f).filter fun x => x.2 / 65536 == frame).map (·.1)

/-- The pages, with their functions, that a frame holds. -/
def frameUsers (s : State) (frame : Nat) : List (Nat × Nat) :=
  s.fns.flatMap fun f => (pagesOfFrame s f.id frame).map fun p => (f.id, p)

/-- The page may be moved away from its frame: it is not pinned (R301, R342). -/
def unpinned (s : State) (u : Nat × Nat) : Bool := !s.pinned.contains u && !(s.fn u.1).tracked.contains u.2

/-- Move the pages that use a frame to frames of their owners' pools, where a migration can move them (R301, R342). -/
def moveAway (s : State) (frame : Nat) : State :=
  ((frameUsers s frame).filter (unpinned s)).foldl (fun s u => match walk s u.1 u.2 with
    | some (_, x) => bif leafSz x then s else startMigration s (schedulerStand s) u.1 u.2 (leafResident x)
    | none => s) s

/-- A frame that has met the condition, and that no pinned page uses, is retired: it leaves its pool, its pages move, and
a record is written. -/
def execFrameRetirement (s : State) : Host.Outcome State Fault Refusal :=
  match s.toRetire.find? fun n => (frameUsers s n).all (unpinned s) with
  | none => .next s
  | some n => .next (moveAway (listRetired s n) n)

/-- A line returns an error, an uncorrectable one or a corrected one, with its time. A frame that meets the condition is
to be retired; a retired one that still holds a page is tried again (R342). -/
def lineError (s : State) (n : Nat) (corrected : Bool) : State :=
  let frame := n / 1024
  let s := if corrected then { s with corrected := s.corrected ++ [(frame, s.cycle)] }
    else bif s.badLines.contains n then s else { s with badLines := s.badLines ++ [n] }
  if (s.retired ++ s.volatileRetired).contains frame then moveAway s frame
  else if retires (!corrected) s.cycle ((s.corrected.filter fun x => x.1 == frame).map (·.2)) && !s.toRetire.contains frame then
    { s with toRetire := s.toRetire ++ [frame] }
  else s

/-- The errors that reads of the turn have returned are counted. -/
def countErrors (s : State) : State := s.errLines.foldl (fun s n => lineError s n false) { s with errLines := [] }

/-- A line of a bag's rows returns an error; the rows are retired when they are freed (R342). -/
def rowError (s : State) (f slot share line : Nat) (corrected : Bool) : State :=
  let e : RowErr := { fn := f, slot := slot, share := share, line := line, corrected := corrected, cycle := s.cycle }
  bif (((s.fn f).entry slot).bag.any fun b => share < b.shares.length) then { s with rowErrs := s.rowErrs ++ [e] } else s

end Sys2Proof.Machine
end

