-- ==== Sys2Proof/Machine/HostLinks.lean ====
section
/-! DEFINITION. The host's registers and apertures, the capacity tier's ports and the Brusko links
(00 R3, R6; 16 R254; 21 R306, R310, R317; 22 R329 to R337). -/
namespace Sys2Proof.Machine

/-! ### Registers (R3, R6, R329, R333) -/

/-- A write of a register stores the fields that software may write; a register of the quota block acts for virtual
functions alone. -/
def Fn.write (f : Fn) (r : PlainReg) (v : DWord) : Fn :=
  let q := fun (k : BitVec 3) (g : Ring → Ring) => { f with queues := f.queues.modify k.toNat g }
  match r with
  | .queueBase k => q k fun x => { x with base := v }
  | .queueSize k => q k fun x => { x with size := v }
  | .complBase => { f with compl := { f.compl with base := v } }
  | .complSize => { f with compl := { f.compl with size := v } }
  | .errBase => { f with err := { f.err with base := v } }
  | .errSize => { f with err := { f.err with size := v } }
  | .errConsumer => { f with err := { f.err with cons := v.setWidth 32 } }
  | .hwBase => { f with hwBase := v }
  | .hwSize => { f with hwSize := v }
  | .tenancy0 => { f with sten0 := v &&& 0xFFFFFFFFFFF807FF }
  | .tenancy1 => { f with sten1 := v &&& 0x00000FFFFFFFFFFF }
  | .troot => { f with troot := v }
  | .save => { f with save := v }
  | .saveLen => { f with saveLen := v }
  | .svs => { f with svs := v }
  | .svr => { f with svr := v }
  | .hdef => { f with hdef := v }
  | .dmask => { f with dmask := v.setWidth 32 }
  | .aith => { f with aith := v.setWidth 16 }
  | .srf => bif f.id == 0 then f else { f with refill := v.setWidth 32 }
  | .scap => bif f.id == 0 then f else { f with cap := v.setWidth 63 }
  | .calIdx | .nonce _ => f

def execRegisterWrite (fn : Nat) (r : PlainReg) (v : DWord) (s : State) : Host.Outcome State Fault Refusal :=
  outside s (match r with
    | .calIdx => { s with calIdx := v &&& 0x03FF003F }
    | .nonce i => { s with mailbox := { s.mailbox with nonce := s.mailbox.nonce.set i.toNat v } }
    | _ => s.modFn fn fun f => f.write r v)

/-- A producer index: new records are available (R331). -/
def execQueueProducerWrite (fn : Nat) (level : BitVec 3) (v : Word) (s : State) : Host.Outcome State Fault Refusal :=
  outside s (s.modFn fn fun f =>
    let old := (f.queues.getD level.toNat {}).prod
    { f with queues := f.queues.modify level.toNat fun x => { x with prod := v }
             posted := f.posted.modify level.toNat fun n => n + (v - old) })

/-- Write held completion entries in order while the ring has room (R330). -/
def writeHeld (s : State) (f : Nat) : List Compl → State
  | [] => s
  | c :: rest =>
    if (s.fn f).compl.full then s
    else writeHeld (writeCompl (s.modFn f fun x => { x with heldCompl := rest }) f c) f rest

def execCompletionConsumerWrite (fn : Nat) (v : Word) (s : State) : Host.Outcome State Fault Refusal :=
  let t := s.modFn fn fun f => { f with compl := { f.compl with cons := v } }
  outside s (writeHeld t fn (t.fn fn).heldCompl)

/-- PCAP: a cap from 1,000 to 4,800 W; other values leave it as it is (R333). -/
def execPcapWrite (v : DWord) (s : State) : Host.Outcome State Fault Refusal :=
  let cap : BitVec 13 := v.setWidth 13
  outside s (bif 1000 ≤ cap.toNat && cap.toNat ≤ 4800 then { s with pcap := cap } else s)

/-- MWSEL: REG 0 or 1; another value leaves REG as it is (R333). -/
def execMwselWrite (v : DWord) (s : State) : Host.Outcome State Fault Refusal :=
  let reg := bits v.toNat 15 12
  let reg := bif reg ≤ 1 then reg else bits s.mwsel.toNat 15 12
  outside s { s with mwsel := BitVec.ofNat 16 (4096 * reg + bits v.toNat 11 0) }

/-! ### BAR2 (R331, R333) -/

/-- The device address of an aperture offset. -/
def bar2Pa (s : State) (o : Nat) : Nat := bits s.mwsel.toNat 15 12 * 2 ^ 48 + bits s.mwsel.toNat 11 0 * 2 ^ 36 + o

/-- Every byte of an access lies in an enabled frame that can be reached. -/
def bar2Ok (s : State) (o n : Nat) : Bool :=
  o + n ≤ 2 ^ 36 && (List.range n).all fun i => Loc.reachable s (.dev (bar2Pa s (o + i)))

/-- A host read of eight bytes, or a write, through the aperture; elsewhere it does nothing, and is reported as a
completer abort. -/
def execBar2Access (a : Nat) (wr : Option (List Byte)) (s : State) : Host.Outcome State Fault Refusal :=
  if s.recovery then .next s else
  let n := (wr.map List.length).getD 8
  let l : Loc := .dev (bar2Pa s a)
  if bar2Ok s a n then
    let s := (s.charge 0 304 17 (linesOf a n)).charge 0 (locDom l) (locCls l) (linesOf (bar2Pa s a) n)
    .next (match wr with
      | some b => writeBytes s l b
      | none => { s with lastBar2 := readBytes s l 8 })
  else
    .next { s with aerAborts := s.aerAborts + 1
                   lastBar2 := bif wr.isNone then List.replicate 8 0xFF else s.lastBar2 }

/-! ### The capacity tier (R334) -/

def execCxlPortDown (n : Nat) (s : State) : Host.Outcome State Fault Refusal :=
  .next { s with cxlDown := s.cxlDown.set n true }

/-! ### Brusko links (R335 to R338) -/

def State.link (s : State) (n : Nat) : Link := s.links.getD n {}
def State.modLink (s : State) (n : Nat) (f : Link → Link) : State := { s with links := s.links.modify n f }

/-- The meter domain of a link's port. -/
def linkDom (n : Nat) : Nat := 288 + n

/-- LCAP as an edition-1 end advertises it. -/
def ownLcap : DWord := 0x0101

/-- CTIME within 220 cycles of another module's. -/
def timesMeet (a b : DWord) : Bool := a.toNat ≤ b.toNat + 220 && b.toNat ≤ a.toNat + 220

/-- CTIME when a link comes up: one of the two modules adopts the other's, unless they agree (R338, log 93). -/
def alignTime (s : State) (n : Nat) : State :=
  let (t, adopts) := Config.peerTime s.turns n
  { s with ctime := bif adopts && !timesMeet s.ctime t then t else s.ctime }

/-- Training ends: the link runs at the lower of the two highest versions, or is down on a mismatch (R335). -/
def execLinkUp (n : Nat) (lcap : DWord) (s : State) : Host.Outcome State Fault Refusal :=
  let st := (s.link n).st
  let ver := min (bits ownLcap.toNat 7 0) (bits lcap.toNat 7 0)
  let low := max (bits ownLcap.toNat 15 8) (bits lcap.toNat 15 8)
  outside s (if st = 1 ∨ st = 2 then s
    else if ver < low then s.modLink n fun _ => { st := 3, peer := lcap }
    else (alignTime s n).modLink n fun _ => { st := 2, ver := ver, peer := lcap })

/-! #### Flits (R336) -/

/-- CRC-64 with the polynomial of ECMA-182, the highest bit of a byte first (log 96). -/
def crcBits : List Bool → Nat → Nat
  | [], c => c
  | x :: xs, c => bif (c / 2 ^ 63 % 2 == 1) != x then crcBits xs ((2 * c % 2 ^ 64) ^^^ 0x42F0E1EBA9EA3693)
      else crcBits xs (2 * c % 2 ^ 64)

def crc64 (b : List Byte) : Nat :=
  crcBits (b.flatMap fun x => [7, 6, 5, 4, 3, 2, 1, 0].map fun k => x.getLsbD k) 0

/-- Bytes 0 to 247 of a flit: its header and its payload. -/
def flitBody (f : Flit) : List Byte :=
  leBytes 8 (f.ctx.toNat * 2 ^ 28 + f.kind.toNat * 2 ^ 24 + f.ack.toNat * 2 ^ 12 + f.seq.toNat)
    ++ (f.payload ++ List.replicate 240 0).take 240

/-- The 256 bytes of a flit on the wire. -/
def flitBytes (f : Flit) : List Byte := flitBody f ++ leBytes 8 (crc64 (flitBody f))

/-- A flit as it is read from the wire; bits [63:34] of its header, which are zero, are not looked at (log 96). -/
def flitOf (b : List Byte) : Flit :=
  let h := fieldB b 0 8
  { ctx := BitVec.ofNat 6 (bits h 33 28), kind := BitVec.ofNat 4 (bits h 27 24), ack := BitVec.ofNat 12 (bits h 23 12)
    seq := BitVec.ofNat 12 (bits h 11 0), payload := sliceB b 8 240 }

/-- What arrived is 256 bytes with a right CRC. -/
def crcOk (b : List Byte) : Bool := b.length == 256 && crc64 (b.take 248) == fieldB b 248 8

/-! #### The sender (R337) -/

/-- A flit that is no command, with the SEQ last sent and the SEQ that this end expects. -/
def Link.plain (l : Link) (kind : BitVec 4) : Flit :=
  { ctx := 0, kind := kind, ack := BitVec.ofNat 12 l.expect, seq := BitVec.ofNat 12 l.seq, payload := List.replicate 240 0 }

/-- Give flits to the wire; they are charged to a function. -/
def sendFlits (s : State) (n f : Nat) (xs : List Flit) : State :=
  (s.modLink n fun l => { l with out := l.out ++ xs }).charge f (linkDom n) 15 xs.length

/-- Flits that a sender holds unacknowledged, at most. -/
def replayMax : Nat := 512

/-- Send flits that wait, while the replay buffer has room: each takes the next SEQ and is charged to its function. -/
def sendPending (n : Nat) : List (Flit × Nat) → State → State
  | [], s => s
  | x :: rest, s =>
    let l := s.link n
    if l.st ≠ 2 || replayMax ≤ l.replay.length then s else
    let q := (l.seq + 1) % 4096
    let f : Flit := { x.1 with seq := BitVec.ofNat 12 q, ack := BitVec.ofNat 12 l.expect }
    let s := s.modLink n fun l => { l with seq := q, replay := l.replay ++ [(f, x.2)], pend := rest }
    sendPending n rest (sendFlits s n x.2 [f])

def pumpLink (s : State) (n : Nat) : State := sendPending n (s.link n).pend s

/-- TYPE of the flit with index `i` of a command of `k` flits. -/
def flitKind (k i : Nat) : BitVec 4 := if k ≤ 1 then 4 else if i = 0 then 1 else if i + 1 = k then 3 else 2

/-- A function gives a command to a link, which sends its flits in order; a link that is down takes none (log 97). -/
def sendCommand (s : State) (n f : Nat) (ctx : BitVec 6) (ps : List (List Byte)) : State :=
  let st := (s.link n).st
  if st ≠ 1 ∧ st ≠ 2 then s else
  let xs := ps.zipIdx.map fun p => (({ ctx := ctx, kind := flitKind ps.length p.2, ack := 0, seq := 0, payload := p.1 } : Flit), f)
  pumpLink (s.modLink n fun l => { l with pend := l.pend ++ xs }) n

/-- Flits before a SEQ are acknowledged: at most 512 are held, so those that lie behind it are gone; where some are, NAKs
no longer follow one another. -/
def Link.acknowledge (l : Link) (seq : Nat) : Link :=
  let r := l.replay.filter fun x => (x.1.seq.toNat + 4096 - seq) % 4096 < 2048
  { l with replay := r, nakRun := bif r.length == l.replay.length then l.nakRun else (0, 0) }

/-- A NAK names the SEQ that the peer expects: the flits from there on are sent again, in order, with the SEQ that this end
expects now (R336). -/
def takeNak (s : State) (n seq : Nat) : State :=
  let s := s.modLink n fun l =>
    let l := l.acknowledge seq
    { l with nak := min 65535 (l.nak + 1), nakRun := (seq, bif l.nakRun.1 == seq then l.nakRun.2 + 1 else 1) }
  let s := s.modLink n fun l => { l with replay := l.replay.map fun x => ({ x.1 with ack := BitVec.ofNat 12 l.expect }, x.2) }
  pumpLink (sendFlits s n 0 ((s.link n).replay.map (·.1))) n

def execBruskoNakReceive (n seq : Nat) (s : State) : Host.Outcome State Fault Refusal :=
  outside s (bif (s.link n).st == 2 then takeNak s n (seq % 4096) else s)

/-! #### The receiver (R337) -/

/-- Accept a flit of a command; the last one executes it. -/
def Link.accept (l : Link) (f : Flit) : Link :=
  let l := { l with expect := (l.expect + 1) % 4096 }
  if f.kind = 1 then { l with part_ := [f] }
  else if f.kind = 2 then { l with part_ := l.part_ ++ [f] }
  else { l with part_ := [], executed := l.executed + 1 }

/-- A flit with a right CRC: idle and NAK flits and those of commands acknowledge; one of a command is accepted when it
has the SEQ expected, and otherwise discarded and acknowledged; one of TYPE 6 to 15 is discarded. -/
def takeFlit (s : State) (n : Nat) (f : Flit) : State :=
  if 6 ≤ f.kind.toNat then s.charge 0 (linkDom n) 15 1 else
  let s := s.modLink n fun l => l.acknowledge f.ack.toNat
  if f.kind = 5 then takeNak (s.charge 0 (linkDom n) 15 1) n f.ack.toNat
  else if f.kind = 0 then pumpLink (s.charge 0 (linkDom n) 15 1) n
  else if f.seq.toNat ≠ (s.link n).expect then
    pumpLink (sendFlits (s.charge 0 (linkDom n) 15 1) n 0 [(s.link n).plain 0]) n
  else
    let s := (s.charge f.ctx.toNat (linkDom n) 15 1).modLink n fun l => l.accept f
    pumpLink (sendFlits s n 0 [(s.link n).plain 0]) n

/-- A flit arrives: with a wrong CRC it is discarded and a NAK names the SEQ expected. -/
def execBruskoFlitReceive (n : Nat) (b : List Byte) (s : State) : Host.Outcome State Fault Refusal :=
  outside s (if (s.link n).st ≠ 2 then s
    else if crcOk b then takeFlit s n (flitOf b)
    else sendFlits (s.charge 0 (linkDom n) 15 1) n 0 [(s.link n).plain 5])

/-! #### Retraining (R337) -/

/-- Ten NAKs in a row for one SEQ start a retraining. -/
def execLinkRetrain (n : Nat) (s : State) : Host.Outcome State Fault Refusal :=
  let l := s.link n
  outside s (bif l.st == 2 && 10 ≤ l.nakRun.2 then
    s.modLink n fun l => { l with st := 1, rtr := min 255 (l.rtr + 1), nakRun := (0, 0) } else s)

/-- Report every command that has not been acknowledged on its function's ring. -/
def reportLost (s : State) (n : Nat) : State :=
  (((s.link n).replay ++ (s.link n).pend).filter fun x => x.1.kind == 3 || x.1.kind == 4).foldl (fun s x =>
    pushErr s x.2 { cause := 0x10, unit := BitVec.ofNat 32 (8 + 256 * n), flg := flgImprecise }) s

/-- A retraining ends: the link is up with its replay buffer, or it has failed; after three failures it is down. -/
def execLinkRetrainingEnd (n : Nat) (ok : Bool) (s : State) : Host.Outcome State Fault Refusal :=
  let l := s.link n
  outside s (if l.st ≠ 1 then s
    else if ok then pumpLink (s.modLink n fun l => { l with st := 2, fails := 0 }) n
    else if l.fails + 1 < 3 then s.modLink n fun l => { l with fails := l.fails + 1, rtr := min 255 (l.rtr + 1) }
    else (reportLost s n).modLink n fun l => { l with st := 4, ver := 0, fails := 0, replay := [], pend := [], part_ := [] })

/-! ### The calibration table (R250, R333) -/

/-- The entry that CALIDX names. -/
def calData (dom cls : Nat) : DWord :=
  let v := dom < 306 && (weighed dom cls || cls == 63)
  let w := if cls = 63 then (Config.calVnom dom).toNat
    else if cls = 18 ∨ cls = 19 then (Config.calPower dom cls).toNat else baseWeight dom cls
  bif v then BitVec.ofNat 24 w ++ (bif cls == 63 then 0 else Config.calKt dom cls)
      ++ (bif cls == 63 then 0 else Config.calKv dom cls) ++ (1 : Byte)
  else 0

def calDat (s : State) : DWord := calData (bits s.calIdx.toNat 25 16) (bits s.calIdx.toNat 5 0)

/-! ### BAR0 (R254, R310, R317, R329, R332, R333)

Registers of 64 bits at offsets that are multiples of 8; the rings' registers stand in the order in which R329 names them
(log 98). -/

def Ring.reg (r : Ring) (k : Nat) : DWord :=
  match k with
  | 0 => r.base | 1 => r.size | 2 => r.prod.setWidth 64 | 3 => r.cons.setWidth 64 | _ => 0

/-- A register of the function's own region. -/
def ownRead (f : Fn) (o : Nat) : DWord :=
  if o < 0x200 then (f.queues.getD (o / 64) {}).reg (o % 64 / 8)
  else if o < 0x240 then f.compl.reg ((o - 0x200) / 8)
  else if o = 0x260 then f.lost.setWidth 64
  else if o < 0x280 then f.err.reg ((o - 0x240) / 8)
  else if o = 0x280 then f.hwBase
  else if o = 0x288 then f.hwSize
  else 0

def FnState.code : FnState → Nat
  | .run => 0 | .halt => 1 | .stopping => 2 | .stopped => 3 | .reset => 4

/-- A register of a function's context record. -/
def contextRead (f : Fn) (k : Nat) : DWord :=
  match k with
  | 0 => f.troot | 1 => f.save | 2 => f.saveLen | 3 => f.svs | 4 => f.svr | 5 => f.hdef
  | 6 => BitVec.ofNat 16 f.state.code ++ f.aith ++ f.dmask
  | _ => BitVec.ofNat 32 f.slow.length ++ BitVec.ofNat 32 f.fast.length

/-- A register of a function's quota block. -/
def quotaRead (f : Fn) (k : Nat) : DWord :=
  match k with
  | 0 => f.q | 1 => f.refill.setWidth 64 | 2 => f.cap.setWidth 64
  | _ => BitVec.ofNat 64 (f.en.toNat + 2 * f.exh.toNat + 4 * f.irq.toNat + 8 * f.rls.toNat)

def Rate.reg (r : Rate) : DWord := BitVec.ofNat 64 (r.st.toNat * 2 ^ 16 + r.mbps.toNat)
def Link.stat (l : Link) : DWord := BitVec.ofNat 64 (l.nak * 2 ^ 32 + l.ver * 2 ^ 24 + l.rtr * 2 ^ 16 + l.st)

/-- A register of the attestation mailbox. -/
def mailboxRead (m : Mailbox) (o : Nat) : DWord :=
  if o < 0x20 then m.nonce.getD (o / 8) 0
  else if o = 0x20 then m.cmd
  else if o = 0x28 then m.sts.setWidth 64
  else if o = 0x30 then m.len
  else if 0x100 ≤ o ∧ o < 0x1100 then BitVec.ofNat 64 (fieldB m.data (o - 0x100) 8)
  else 0

/-- A service register. -/
def serviceRead (s : State) (o : Nat) : DWord :=
  let k := o % 0x80 / 8
  if o = 0x18000 then s.pcap.setWidth 64
  else if o = 0x18008 then s.pstat
  else if 0x18100 ≤ o ∧ o < 0x18180 then (s.rates.getD k {}).reg
  else if 0x18200 ≤ o ∧ o < 0x18260 then (s.link k).stat
  else if 0x18280 ≤ o ∧ o < 0x182E0 then ownLcap
  else if 0x18300 ≤ o ∧ o < 0x18360 then (s.link k).peer
  else if 0x18400 ≤ o ∧ o < 0x18480 then s.wear.getD k 0
  else if 0x18480 ≤ o ∧ o < 0x18500 then s.wear.getD (16 + k) 0
  else if o = 0x18500 then s.ctime
  else if o = 0x1C000 then s.mwsel.setWidth 64
  else if 0x1C100 ≤ o then mailboxRead s.mailbox (o - 0x1C100)
  else 0

/-- A register of the physical function's regions. -/
def physicalRead (s : State) (o : Nat) : DWord :=
  if o < 0x11000 then contextRead (s.fn ((o - 0x10000) / 64)) (o % 64 / 8)
  else if o < 0x12000 then
    let f := s.fn ((o - 0x11000) / 16)
    bif o - 0x11000 < 1024 then (bif o % 16 == 0 then f.sten0 else f.sten1) else 0
  else if o < 0x13000 then bif o - 0x12000 < 2048 then quotaRead (s.fn ((o - 0x12000) / 32)) (o % 32 / 8) else 0
  else if o = 0x13000 then minfo s
  else if o < 0x13208 then
    BitVec.ofNat 64 (leNat ((List.range 4).flatMap fun i => leBytes 2 (s.coreMasks.getD ((o - 0x13008) / 2 + i) 0).toNat))
  else if o = 0x14000 then s.calIdx
  else if o = 0x14008 then calDat s
  else serviceRead s o

/-- The register at an offset of a function's BAR0. -/
def regRead (s : State) (fn o : Nat) : DWord :=
  if o < 0x10000 then ownRead (s.fn fn) o else if fn = 0 then physicalRead s o else 0

/-- The registers of a ring that the host writes: base, size and the index that is the host's. -/
noncomputable def ringWrite (k : Nat) (base size index : Option Instr) (own : Nat) : List Instr :=
  (if k = 0 then base else if k = 1 then size else if k = own then index else none).toList

/-- What a write to a register of the function's own region does. -/
noncomputable def ownWrite (fn o : Nat) (v : DWord) : List Instr :=
  if o < 0x200 then
    let l := BitVec.ofNat 3 (o / 64)
    ringWrite (o % 64 / 8) (some (.registerWrite fn (.queueBase l) v)) (some (.registerWrite fn (.queueSize l) v))
      (some (.queueProducerWrite fn l (v.setWidth 32))) 2
  else if o < 0x240 then
    ringWrite ((o - 0x200) / 8) (some (.registerWrite fn .complBase v)) (some (.registerWrite fn .complSize v))
      (some (.completionConsumerWrite fn (v.setWidth 32))) 3
  else if o < 0x280 then
    ringWrite ((o - 0x240) / 8) (some (.registerWrite fn .errBase v)) (some (.registerWrite fn .errSize v))
      (some (.registerWrite fn .errConsumer v)) 3
  else if o = 0x280 then [.registerWrite fn .hwBase v]
  else if o = 0x288 then [.registerWrite fn .hwSize v]
  else []

noncomputable def contextWrite (f k : Nat) (v : DWord) : List Instr :=
  match k with
  | 0 => [.registerWrite f .troot v] | 1 => [.registerWrite f .save v] | 2 => [.registerWrite f .saveLen v]
  | 3 => [.registerWrite f .svs v] | 4 => [.registerWrite f .svr v] | 5 => [.registerWrite f .hdef v]
  | 6 => [.registerWrite f .dmask v, .registerWrite f .aith (v >>> 32)]
  | _ => []

noncomputable def quotaWrite (f k : Nat) (v : DWord) : List Instr :=
  match k with
  | 0 => [.sqWrite f v] | 1 => [.registerWrite f .srf v] | 2 => [.registerWrite f .scap v] | 3 => [.sctlWrite f v] | _ => []

/-- What a write to a register of the physical function's regions does; `low` says that the write covers bits [31:0]. -/
noncomputable def physicalWrite (o : Nat) (low : Bool) (v : DWord) : List Instr :=
  if o < 0x11000 then contextWrite ((o - 0x10000) / 64) (o % 64 / 8) v
  else if o < 0x11400 then [.registerWrite ((o - 0x11000) / 16) (bif o % 16 == 0 then .tenancy0 else .tenancy1) v]
  else if 0x12000 ≤ o ∧ o < 0x12800 then quotaWrite ((o - 0x12000) / 32) (o % 32 / 8) v
  else if o = 0x14000 then [.registerWrite 0 .calIdx v]
  else if o = 0x18000 then [.pcapWrite v]
  else if 0x18100 ≤ o ∧ o < 0x18180 then bif low then [.srateWrite (o % 0x80 / 8) v] else []
  else if o = 0x1C000 then [.mwselWrite v]
  else if 0x1C100 ≤ o ∧ o < 0x1C120 then [.registerWrite 0 (.nonce (BitVec.ofNat 2 ((o - 0x1C100) / 8))) v]
  else if o = 0x1C120 then bif !low then [] else bif v == 1 then [.attestReport] else bif v == 2 then [.attestCertChain] else []
  else []

noncomputable def regWrite (fn o : Nat) (low : Bool) (v : DWord) : List Instr :=
  if o < 0x10000 then ownWrite fn o v else if fn = 0 then physicalWrite o low v else []

/-- What a write of half a register leaves in the other half: of a quota, the value that its next update brings (R253). -/
def regHeld (s : State) (fn o : Nat) : DWord :=
  let f := s.fn ((o - 0x12000) / 32)
  if fn = 0 ∧ 0x12000 ≤ o ∧ o < 0x12800 ∧ o % 32 = 0 then f.qWrite.getD f.q else regRead s fn o

/-- A host access to a function's BAR0, of 32 or 64 bits, charged to it as one PCI Express transfer (log 120): a read
returns the register, or its half; a write of a half leaves the other as it is. What a write does follows in the next turns. -/
noncomputable def bar0Access (s : State) (fn off : Nat) (wide : Bool) (wr : Option DWord) : State :=
  if s.recovery || !s.hasFn fn || off % (bif wide then 8 else 4) != 0 then s else
  let o := off / 8 * 8
  let hi := off % 8 == 4
  let s := s.charge fn 304 17 1
  let x := bif wr.isNone then regRead s fn o else regHeld s fn o
  match wr with
  | none => { s with lastBar0 := bif wide then x else bif hi then x >>> 32 else x &&& 0xFFFFFFFF }
  | some v =>
    let y : DWord := bif wide then v else bif hi then v.setWidth 32 ++ x.setWidth 32 else x.extractLsb' 32 32 ++ v.setWidth 32
    { s with agenda := (regWrite fn o (wide || !hi) y).map Turn.event ++ s.agenda }

end Sys2Proof.Machine
end

