-- ==== Sys2Proof/Machine/Lanes.lean ====
section
/-! DEFINITION. Values moved between elements, votes, reductions and scans (06_isa_vector_integer_and_lanes R110
to R113). Sources are read as they stand, active or not (R100). -/
namespace Sys2Proof.Machine

/-! ### Movement (R111) -/

/-- X[f]: zero at or beyond vl. -/
def Ctx.source (c : Ctx) (sa : VReg) (f : Nat) : Word := if f < c.vl then c.r.elem sa.toNat f else 0

def execLrot (h : Head) (o : LMove) (s : State) :=
  runVec h o.dst (fun c e => c.source o.sa (((e : Int) + o.k.signed c.r) % c.vl).toNat) s
def execLsh (h : Head) (o : LMove) (s : State) :=
  runVec h o.dst (fun c e =>
    let f := (e : Int) + o.k.signed c.r
    if f < 0 then 0 else c.source o.sa f.toNat) s
def execBcast (h : Head) (o : LMove) (s : State) :=
  runVec h o.dst (fun c _ => c.source o.sa (o.k.index c.r)) s
def execPerm (h : Head) (o : V3R) (s : State) :=
  runVec h o.dst (fun c e => c.source o.sa (c.r.elem o.sb.toNat e).toNat) s
def execLext (h : Head) (o : LextOp) (s : State) :=
  runRegs h noTrap (onceE fun c r => r.setS o.dst.toNat (c.source o.sa (o.k.index r))) s
def execLins (h : Head) (o : LinsOp) (s : State) :=
  runRegs h noTrap (fun c =>
    let j := o.k.index c.r
    bif decide (j < c.vl) && c.active j then c.r.setV (o.dst.toNat + j / c.w) (j % c.w) (c.r.getS o.sa.toNat)
    else c.r) s

/-! ### Votes (R112) -/

/-- The active elements at which a predicate operand is true. -/
def Ctx.trueActives (c : Ctx) (p : PReg) : List Nat := c.actives.filter (c.predElem p)

/-- A uniform result over the active elements. -/
def runVote (h : Head) (dst : UReg) (f : Ctx → Word) : State → Host.Outcome State Fault Refusal :=
  runRegs h noTrap (onceE fun c r => r.setS dst.toNat (f c))

def boolW (b : Bool) : Word := bif b then 1 else 0

def execVoteAny (h : Head) (o : UFromP) (s : State) := runVote h o.dst (fun c => boolW (c.actives.any (c.predElem o.a))) s
def execVoteAll (h : Head) (o : UFromP) (s : State) := runVote h o.dst (fun c => boolW (c.actives.all (c.predElem o.a))) s
def execVoteCnt (h : Head) (o : UFromP) (s : State) :=
  runVote h o.dst (fun c => BitVec.ofNat 32 (c.trueActives o.a).length) s
def execVoteMsk (h : Head) (o : UFromP) (s : State) :=
  runRegs h noTrap (onceE fun c r =>
    r.setPair o.dst.toNat (BitVec.ofNat 64 ((c.trueActives o.a).map (2 ^ ·)).sum)) s
def execVoteEq (h : Head) (o : UFromV) (s : State) :=
  runVote h o.dst (fun c =>
    let xs := c.actives.map (c.r.elem o.sa.toNat)
    boolW (xs.all fun x => some x == xs.head?)) s
def execElect (h : Head) (pd : PReg) (s : State) :=
  runVPred h pd (fun c e => c.actives.head? == some e) s

/-! ### Reductions and scans (R113) -/

/-- The least power of two that is at least vl, as an exponent. -/
def ceilLog (n : Nat) : Nat := if n ≤ 1 then 0 else Nat.log2 (n - 1) + 1

/-- The inputs of the tree: the active elements below n, and the identity elsewhere. -/
def redInputs (op : RedOp) (t : Ty) (sa : VReg) (c : Ctx) : List Word :=
  (List.range (2 ^ ceilLog c.vl)).map fun e => bif c.active e then c.r.elem sa.toNat e else redId op t

/-- One level of the tree. -/
def pairUp (f : Word → Word → Word) : List Word → List Word
  | a :: b :: xs => f a b :: pairUp f xs
  | xs => xs

/-- The tree's root. -/
def redTree (f : Word → Word → Word) : Nat → List Word → Word
  | 0, xs => xs.headD 0
  | n + 1, xs => redTree f n (pairUp f xs)

def redVal (o : RedArg) (c : Ctx) : Word :=
  redTree (redFn o.op o.ty) (ceilLog c.vl) (redInputs o.op o.ty o.sa c)

def execRed (h : Head) (o : RedArg) (s : State) :=
  runRegs h noTrap (fun c => match o.dst with
    | .vec d => c.putV c.r d.toNat fun _ => redVal o c
    | .uni d => onceE (fun c r => r.setS d.toNat (redVal o c)) c) s

/-- One step of a scan: every element at or above `d` takes the old value `d` places below it. -/
def scanStep (f : Word → Word → Word) (xs : List Word) (d : Nat) : List Word :=
  xs.mapIdx fun e x => if d ≤ e then f (xs.getD (e - d) 0) x else x

def scanVals (o : ScanArg) (c : Ctx) : List Word :=
  (List.range (ceilLog c.vl)).foldl (fun xs k => scanStep (redFn o.op o.ty) xs (2 ^ k)) (redInputs o.op o.ty o.sa c)

def execScan (h : Head) (o : ScanArg) (s : State) :=
  runRegs h noTrap (fun c =>
    let xs := scanVals o c
    c.putV c.r o.dst.toNat fun e => xs.getD e 0) s
def execScanx (h : Head) (o : ScanArg) (s : State) :=
  runRegs h noTrap (fun c =>
    let xs := scanVals o c
    c.putV c.r o.dst.toNat fun e => if e = 0 then redId o.op o.ty else xs.getD (e - 1) 0) s

end Sys2Proof.Machine
end

