-- ==== Sys2Proof/Machine/Preempt.lean ====
section
/-! DEFINITION. Pre-emption as it runs: the collector's request, waves entering save mode, engines stopping and
writing their records, the forced save, restoring a team, and copse slices
(05 R98; 11 R192; 15 R245; 20 R304; 21 R318 to R320, R326). -/
namespace Sys2Proof.Machine

/-! ### The request (R318, R320 steps 1 and 2) -/

/-- The collector makes the save area ready and sends the stop, for the function's first pre-emption that waits. -/
def execPreemptRequest (fn : Nat) (s : State) : Host.Outcome State Fault Refusal :=
  if s.collects.any fun c => c.fn == fn && c.begun then .next s else
  match s.collects.zipIdx.find? fun x => x.1.fn == fn with
  | none => .next s
  | some (c, k) =>
    match c.lost, c.wait with
    | true, some p => .next (saveFailure s fn p 0x0D)
    | false, some _ => .next s
    | _, none =>
      match areaOf s fn (saveRanges s c) with
      | .bad p => .next (saveFailure s fn p 8)
      | .away p =>
        let s := { s with collects := s.collects.set k { c with wait := some p } }
        .next (startMigration s (schedulerStand s) fn p true)
      | .ready ps => .next (beginCollect s k c ps)

/-! ### Save mode (R320 steps 4 to 6) -/

/-- The pre-emption under way that takes a team. -/
def collectOf (s : State) (team : Nat) : Option Collect := s.collects.find? fun c => c.begun && c.teams.contains team

/-- The lane at the header where it stands, which it has not consumed or after which it has issued nothing. -/
def Lane.back (l : Lane) : Lane :=
  match l.pos with
  | .fresh h a b => { l with pc := h, anchor := a, blk := b, pos := .atHeader }
  | _ => l

/-- A lane in save mode, at the save handler's or the restore handler's header. -/
def Lane.enterSave (pc : Nat) (l : Lane) : Lane :=
  bif l.ended then l else
    { pc := pc, anchor := pc, run := .runnable, mode := .save, teamArr := l.teamArr, gangArr := l.gangArr }

/-- The wave keeps what is to be saved, and its lanes start the save handler. -/
def Wave.enterSave (svs : Nat) (forced : Bool) (k : Latch) (w : Wave) : Wave :=
  { w with latch := k, save := .saving forced, lanes := w.lanes.map (Lane.enterSave svs), naps := [], allIssued := false }

/-- Nothing that the wave awaits is outstanding: no reply, no `fact`, no `act.ld`. -/
def settledWave (s : State) (r : WaveRef) (w : Wave) : Bool :=
  w.replies.isEmpty && w.facts.isEmpty
    && (((s.team? r.team).map (·.act)).getD []).all fun a => a.shadow.all fun y => y.2.1 != r.wave

/-- Every lane that has not exited stands at one legal header, out of trap mode and not parked, with one anchor
(R23): that header. -/
def reconverged (s : State) (f : Nat) (w : Wave) : Option BlockHdr :=
  let ls := (w.lanes.filter fun l => !l.ended).map Lane.back
  match ls.head? with
  | none => none
  | some l0 =>
    if !ls.all (fun l => l.pc == l0.pc && l.anchor == l0.anchor && l.pos == .atHeader && l.runnable && l.mode == .ordinary)
    then none
    else headerAt s f l0.pc

/-- A fully reconverged wave of the set enters save mode at its header, without consuming it. -/
def execSaveModeEntry (r : WaveRef) (s : State) : Host.Outcome State Fault Refusal :=
  match s.wave? r, s.team? r.team, collectOf s r.team with
  | some w, some t, some _ =>
    if w.save ≠ .no || !settledWave s r w then .next s else
    match reconverged s t.fn w with
    | none => .next s
    | some h =>
      let k : Latch := { regs := w.unpassed, lanes := w.lanes.map fun l => bif l.ended then l else l.back
                         lv := min (liveCount 512 h.liveV) w.regs.v.length, ls := min (liveCount 128 h.liveS) w.regs.s.length
                         lp := h.liveP }
      .next ((dropLatch s r).modWave r (Wave.enterSave t.ctx.svs false k))
  | _, _, _ => .next s

/-- A lane as a forced save finds it: out of its park with its PC unchanged, or at its anchor when it was parked on a
migration. -/
def Lane.unparkForced (l : Lane) : Lane :=
  match l.run with
  | .parked (.migration _ _) => { l with run := .runnable, pc := l.anchor, pos := .atHeader }
  | .parked _ => l.unpark
  | _ => l

/-- The wave is forced into save mode where it stands; what it awaits comes first. -/
def forceWave (s : State) (r : WaveRef) : State :=
  match s.wave? r, s.team? r.team with
  | some w, some t =>
    if w.save ≠ .no || w.allEnded || !settledWave s r w then s else
    let k : Latch := { regs := w.regs, lanes := w.lanes.map Lane.unparkForced
                       lv := w.regs.v.length, ls := w.regs.s.length, lp := 16 }
    let s := dropFe (dropLatch s r) fun q => q.1 == r.team && q.2.1 == r.wave
    s.modWave r fun w => { w.enterSave t.ctx.svs true k with misses := [], walked := [] }
  | _, _ => s

/-- 22,000 cycles after the request, every wave of the set that is not in save mode is forced. -/
def execForcedSaveTimeout (fn : Nat) (s : State) : Host.Outcome State Fault Refusal :=
  match s.collects.zipIdx.find? fun x => x.1.fn == fn && x.1.begun with
  | none => .next s
  | some (c, k) =>
    let s := s.passTo (c.since + Config.forceCycles)
    let s := { s with collects := s.collects.set k { c with forced := true } }
    .next ((c.live s).foldl (fun s t => (List.range t.waves.length).foldl (fun s i => forceWave s ⟨t.id, i⟩) s) s)

/-! ### Engines stop (R192, R245, R304, R320 step 3) -/

/-- Add a record to the team's block and to the pre-emption. -/
def recordWork (s : State) (k core team : Nat) (p : Progress) : State :=
  match s.team? team, s.collects[k]? with
  | some t, some c =>
    let prog := t.block + (teamLayout s t).prog
    let s := match p with
      | .matrix _ x =>
        let n := (recordedOf team true c.work).length
        saveBytes s t.fn (some core) (prog + 128 + 128 * n) x.record
      | .access _ x =>
        saveBytes s t.fn (some core) (prog + 16512 + 128 * (recordedOf team false c.work).length) x.record
    { s with collects := s.collects.set k { c with work := c.work ++ [p] } }
  | _, _ => s

/-- A matrix command of the set is recorded, its counts are released, and it leaves the engine. -/
def stopMx (s : State) (k core : Nat) (x : MxCmd) : State :=
  let s := bif x.row == 1 && (storeDesc x).aon && (x.opc == 0x381 || x.opc == 0x350) then unpinAon s x (storeDesc x) else s
  let s := recordWork s k core x.by_.team (.matrix core x.halt)
  let r : WaveRef := ⟨x.by_.team, x.by_.wave⟩
  let s := stopOp s r .tl x.id
  let s := bif x.stCnt then stopOp s r .st x.id else s
  s.modCore core fun c => { c with matrix := c.matrix.filter fun y => y.id != x.id }

def stopAp (s : State) (k core : Nat) (x : ApCmd) : State :=
  let s := recordWork s k core x.by_.team (.access core x.halt)
  let s := stopOp s ⟨x.by_.team, x.by_.wave⟩ .cp x.id
  s.modCore core fun c => { c with access := c.access.filter fun y => y.id != x.id }

/-- A record of the root region (R318). -/
def recordRoot (s : State) (f : Nat) (r : SavedRoot) : State :=
  let s := { s with savedRoots := s.savedRoots ++ [r] }
  bif r.begun then saveBytes s f none (rootRecordAt s f r.unit) r.record else s

/-- Invocations and entries of the set leave their unit; started ones, of which a unit runs at most one of a function,
are recorded. -/
def stopRoot (s : State) (q f : Nat) (p : Issuer → Bool) : State :=
  let u := s.unit q
  let is := u.invs.filter fun v => p v.by_
  let es := u.bmacs.filter fun e => p (cmdIssuer s e.cmd)
  let s := s.modUnit q fun u => { u with invs := u.invs.filter fun v => !p v.by_
                                         bmacs := u.bmacs.filter fun e => !p (cmdIssuer s e.cmd) }
  let rs := is.map (fun v => ({ unit := q, by_ := v.by_, inv := some v } : SavedRoot))
    ++ es.map fun e => ({ unit := q, by_ := cmdIssuer s e.cmd, bmac := some { e with wait := none } } : SavedRoot)
  rs.foldl (fun s r => recordRoot s f r) s

/-- The unit is within a block of the set's invocation. -/
def midBlock (s : State) (q : Nat) (p : Issuer → Bool) : Bool := (s.unit q).invs.any fun v => p v.by_ && v.started && v.bound

/-- The engine has acknowledged the stop. -/
def ackStop (s : State) (k : Nat) (e : EngineRef) : State :=
  { s with collects := s.collects.modify k fun c => { c with acks := c.acks.filter (· != e) } }

/-- Note the order in which the function's commands at an engine arrived. -/
def noteOrder (s : State) (k : Nat) (ids : List Nat) : State :=
  { s with collects := s.collects.modify k fun c => { c with order := c.order ++ ids.filter fun i => !c.order.contains i } }

/-- An engine that holds work of a pre-emption stops at its unit, writes its records into the team blocks, releases
their counts and acknowledges. Commands of teams that have ended stay with it. -/
def execEngineStopAck (e : EngineRef) (s : State) : Host.Outcome State Fault Refusal :=
  let ours := fun (c : Collect) (b : Issuer) => ((c.live s).map (·.id)).contains b.team
  let work := fun (c : Collect) => match e with
    | .matrix n => (s.core n).matrix.any fun x => ours c x.by_
    | .access n => (s.core n).access.any fun x => ours c x.by_
    | .root q => (s.unit q).holds s (inSetOf c.fn c.wide c.teams)
  match s.collects.zipIdx.find? fun x => x.1.begun && (x.1.acks.contains e || work x.1) with
  | none => .next s
  | some (c, k) =>
    match e with
    | .matrix n =>
      let xs := (s.core n).matrix.filter fun x => ours c x.by_
      if (s.core n).matrix.any fun x => x.midUnit && inSetOf c.fn c.wide c.teams x.by_ then .next s else
      let s := noteOrder s k (((s.core n).matrix.filter fun x => x.by_.fn == c.fn).map (·.id))
      .next (ackStop (xs.foldl (fun s x => stopMx s k n x) s) k e)
    | .access n =>
      let xs := (s.core n).access.filter fun x => ours c x.by_
      if (s.core n).access.any fun x => x.midUnit && inSetOf c.fn c.wide c.teams x.by_ then .next s else
      let s := noteOrder s k (((s.core n).access.filter fun x => x.by_.fn == c.fn).map (·.id))
      .next (ackStop (xs.foldl (fun s x => stopAp s k n x) s) k e)
    | .root q =>
      let p := inSetOf c.fn c.wide c.teams
      if midBlock s q p then .next s else .next (ackStop (stopRoot s q c.fn p) k e)

/-! ### Restoring a team (R304, R318, R320) -/

/-- The wave as a restore starts it: its lanes in save mode at the restore handler's header, its registers as those of
a wave that is admitted. -/
def Wave.startRestore (l : Launch) (svr cycle : Nat) (w : Wave) : Wave :=
  if w.allEnded then w else
    { w with regs := Regs.init l.width l.v l.s, save := .restoring, lanes := w.lanes.map (Lane.enterSave svr)
             entry := none, issued := cycle, allIssued := false, loads := [], stores := [] }

/-- The commands of a saved team as their records hold them. -/
def rereadWork (s : State) (v : Saved) : List Progress :=
  let t := v.team
  let prog := t.block + (teamLayout s t).prog
  let at_ := fun (base : Nat) (matrix : Bool) (p : Progress) =>
    readVa s t.fn (prog + base + 128 * ((recordedOf t.id matrix v.work).findIdx (· == p))) 128
  v.work.map fun p => match p with
    | .matrix k c => .matrix k (c.ofRecord (at_ 128 true p))
    | .access k c => .access k (c.ofRecord (at_ 16512 false p))

/-- Admit a saved team on a core; its waves issue from SVR, and its engine parts are read back. -/
def restoreTeam (s : State) (v : Saved) (core : Nat) (pins : List Nat) : State :=
  let l := launchOfTeam s v.team
  let t := restoreEngineParts s { v.team with core := core, stop := false, win := [], fe := [] }
  let s := chargeEngineParts s t (recordedOf t.id true v.work).length (recordedOf t.id false v.work).length
  let ws := v.team.waves.map (Wave.startRestore l t.ctx.svr s.cycle)
  let v' := { v with restoring := true, work := rereadWork s v, pins := pins, wait := none, lost := false }
  let s := { s with saved := s.saved.map fun x => bif x.team.id == v.team.id then v' else x
                    pinned := s.pinned ++ pins.map fun p => (v.team.fn, p) }
  placeTeam s l { t with waves := [] } ws

/-- The ranges of the save area that restoring some teams reads: their blocks, and the records of their root work. -/
def restoreRanges (s : State) (vs : List Saved) : List (Nat × Nat) :=
  (vs.map fun v => (v.team.block, (teamLayout s v.team).size))
    ++ (s.savedRoots.filter fun r => r.begun && vs.any fun v => v.team.id == r.by_.team).map fun r =>
        (rootRecordAt s r.by_.fn r.unit, 8512)

/-- The core scheduler admits a saved team again, with the teams of its gang that are saved with it, once their blocks
are resident. -/
def execTeamRestore (team core : Nat) (s : State) : Host.Outcome State Fault Refusal :=
  match s.saved.find? fun v => v.team.id == team && !v.restoring with
  | none => .next s
  | some v =>
    let f := v.team.fn
    let ms := savedMates s v
    let ws := waitingFns s core
    match v.lost, v.wait, restoreCores s v core with
    | true, some p, _ => .next (saveFailure s f p 0x0D)
    | false, some _, _ => .next s
    | _, none, none => .next s
    | _, none, some cs =>
      if !(choosable s (.admission core) ws).contains f then .next s else
      match areaOf s f (restoreRanges s ms) with
      | .bad p => .next (saveFailure s f p 8)
      | .away p =>
        let s := { s with saved := s.saved.map fun x => bif x.team.id == team then { x with wait := some p } else x }
        .next (startMigration s (coreStand core) f p true)
      | .ready _ =>
        let pins := fun (m : Saved) => (pagesOf m.team.block (teamLayout s m.team).size)
        .next ((ms.zip cs).foldl (fun s x => restoreTeam s x.1 x.2 (pins x.1)) (serve s (.admission core) ws f))

/-! ### Slices (R326) -/

/-- Copse time goes on to a moment, and the cycle count with it. -/
def State.passToTime (s : State) (t : Nat) : State := s.passTo (s.cycle + (t - s.ctime.toNat))

/-- START comes: every other function is pre-empted. -/
def execSliceStart (s : State) : Host.Outcome State Fault Refusal :=
  match s.slice with
  | none => .next s
  | some x =>
    if x.active then .next s else
    let s := s.passToTime x.start.toNat
    let s := { s with slice := some { x with active := true } }
    .next (s.fns.foldl (fun (s : State) (f : Fn) =>
      bif f.id != x.fn && f.preemptible then requestPreempt s f.id StopWhy.slice 0xFFFF else s) s)

/-- Every other function's pre-emption is complete and none of their teams runs: the function starts, with the delay
from START in LATE. -/
def startSlice (s : State) : State :=
  match s.slice with
  | none => s
  | some x =>
    let busy := s.collects.any (fun c => c.why == .slice && c.fn != x.fn) || s.teams.any fun t => t.fn != x.fn && !t.done
    if !x.active || x.started || busy then s else
    let s := chargeRange s 0 0 (x.at_ + 0x10) 8
    placeVa { s with slice := some { x with started := true } } 0 (x.at_ + 0x10) (leBytes 8 (s.ctime.toNat - x.start.toNat))

/-- START + LEN comes: the function's work is pre-empted, and the others' is restored. -/
def execSliceEnd (s : State) : Host.Outcome State Fault Refusal :=
  match s.slice with
  | none => .next s
  | some x =>
    if !x.active then .next s else
    let s := s.passToTime (x.start.toNat + x.len.toNat)
    let s := { s with slice := none, collects := s.collects.filter fun (c : Collect) => !(c.why == StopWhy.slice && !c.begun) }
    let s := s.fns.foldl (fun (s : State) (f : Fn) =>
      bif f.id != x.fn && f.state == FnState.run && !(s.collects.any fun c => c.fn == f.id && c.begun) then unfreeze s f.id else s) s
    .next (bif (s.fn x.fn).preemptible then requestPreempt s x.fn StopWhy.slice 0xFFFF else s)

end Sys2Proof.Machine
end

