-- ==== Sys2Proof/Machine/Uniform.lean ====
section
/-! DEFINITION. Uniform arithmetic, 64-bit pairs, moves, special registers and predicate logic
(05_isa_uniform_control_sync R78 to R85; 03 R41, R42). -/
namespace Sys2Proof.Machine

/-- A result written once to a uniform register (R78). -/
def runUni (h : Head) (dst : UReg) (f : Regs → Word) : State → Host.Outcome State Fault Refusal :=
  runRegs h noTrap (onceE fun _ r => r.setS dst.toNat (f r))

/-- A result written once, as a whole, to a pair (R83). -/
def runPair (h : Head) (dst : UReg) (f : Regs → DWord) : State → Host.Outcome State Fault Refusal :=
  runRegs h noTrap (onceE fun _ r => r.setPair dst.toNat (f r))

/-- A two-operand uniform form (R80). -/
def runUBin (h : Head) (o : UBin) (f : Word → Word → Word) : State → Host.Outcome State Fault Refusal :=
  runUni h o.dst fun r => f (r.getS o.sa.toNat) (o.b.val r)

/-! ### Two-operand forms (R80) -/

def execAddUniform (h : Head) (o : UBin) (s : State) := runUBin h o (· + ·) s
def execSubUniform (h : Head) (o : UBin) (s : State) := runUBin h o (· - ·) s
def execMulUniform (h : Head) (o : UBin) (s : State) := runUBin h o (mulLo o.ty h.acc) s
def execMulhUniform (h : Head) (o : UBin) (s : State) := runUBin h o (mulHi o.ty h.acc) s
def execMinUniform (h : Head) (o : UBin) (s : State) := runUBin h o (minTy o.ty) s
def execMaxUniform (h : Head) (o : UBin) (s : State) := runUBin h o (maxTy o.ty) s
def execAndUniform (h : Head) (o : UBin) (s : State) := runUBin h o (· &&& ·) s
def execOrUniform (h : Head) (o : UBin) (s : State) := runUBin h o (· ||| ·) s
def execXorUniform (h : Head) (o : UBin) (s : State) := runUBin h o (· ^^^ ·) s
def execAndnUniform (h : Head) (o : UBin) (s : State) := runUBin h o (fun a b => a &&& ~~~b) s
def execDivUniform (h : Head) (o : UBin) (s : State) := runUBin h o (divTy o.ty) s
def execRemUniform (h : Head) (o : UBin) (s : State) := runUBin h o (remTy o.ty) s
def execAddsUniform (h : Head) (o : UBin) (s : State) := runUBin h o (addSat o.ty) s
def execSubsUniform (h : Head) (o : UBin) (s : State) := runUBin h o (subSat o.ty) s

/-! ### Shifts and compares (R81, R82) -/

def execShlUniform (h : Head) (o : UBin) (s : State) :=
  runUni h o.dst (fun r => shlW (r.getS o.sa.toNat) (o.b.amount r 6)) s
def execShrUniform (h : Head) (o : UBin) (s : State) :=
  runUni h o.dst (fun r => shrTy o.ty (r.getS o.sa.toNat) (o.b.amount r 6)) s
def execSetCc (h : Head) (o : SetCc) (s : State) :=
  runUni h o.dst (fun r => bif condTy o.cc o.ty (r.getS o.sa.toNat) (o.b.val r) then 1 else 0) s

/-! ### Pairs (R83) -/

def execAdd64 (h : Head) (o : UBin) (s : State) :=
  runPair h o.dst (fun r => r.getPair o.sa.toNat + o.b.val64 r) s
def execSub64 (h : Head) (o : UBin) (s : State) :=
  runPair h o.dst (fun r => r.getPair o.sa.toNat - o.b.val64 r) s
def execMulw (h : Head) (o : UBin) (s : State) :=
  runPair h o.dst (fun r => prod64 o.ty h.acc (r.getS o.sa.toNat) (o.b.val r)) s
def execShl64 (h : Head) (o : UBin) (s : State) :=
  runPair h o.dst (fun r => r.getPair o.sa.toNat <<< o.b.amount r 7) s
def execShr64 (h : Head) (o : UBin) (s : State) :=
  runPair h o.dst (fun r => r.getPair o.sa.toNat >>> o.b.amount r 7) s
def execSar64 (h : Head) (o : UBin) (s : State) :=
  runPair h o.dst (fun r => (r.getPair o.sa.toNat).sshiftRight (o.b.amount r 7)) s

/-- The index of `lea`, extended by its type (R83). -/
def leaIndex (t : Ty) (x : Word) : DWord := bif t.signed then x.signExtend 64 else x.setWidth 64

def execLea (h : Head) (o : LeaOp) (s : State) :=
  runPair h o.dst (fun r => r.getPair o.sa.toNat + leaIndex o.ty (r.getS o.sb.toNat) * (1#64 <<< o.k.toNat)) s

/-! ### Moves (R84) -/

def execMovUniformImm (h : Head) (o : UImm) (s : State) := runUni h o.dst (fun _ => o.imm.val) s
def execMovUniformReg (h : Head) (o : U2) (s : State) := runUni h o.dst (fun r => r.getS o.sa.toNat) s
def execMov64 (h : Head) (o : U2) (s : State) := runPair h o.dst (fun r => r.getPair o.sa.toNat) s

/-! ### Special registers (R41, R42, R115) -/

/-- `%ctr` (R42). -/
def ctrWord (w : Wave) : Word :=
  BitVec.ofNat 32 (w.ctr .ld + 256 * w.ctr .st + 65536 * w.ctr .cp + 16777216 * w.ctr .tl)

/-- Special registers that hold a value for each lane. -/
def specPerLane (n : Nat) : Bool := [0x04, 0x0A, 0x0B, 0x0C].contains n

/-- The value of a special register for lane `l` of an instruction's part: the PC is the instruction's own
address outside trap mode, and the recorded one in trap mode (R41, R115). -/
def specVal (s : State) (i : Issue) (c : Ctx) (n l : Nat) : DWord :=
  let w : Wave := match c.ref with
    | some r => (s.wave? r).getD {}
    | none => {}
  let t : Team := match c.ref with
    | some r => (s.team? r.team).getD {}
    | none => {}
  let la := (s.launch? t.launch).getD {}
  let lane := w.lanes.getD l {}
  let off := fun a => (offsetOf la.entry a).setWidth 64
  match n with
  | 0x00 => BitVec.ofNat 64 c.r.vl
  | 0x01 => c.r.vtype.setWidth 64
  | 0x02 => 64
  | 0x03 => BitVec.ofNat 64 c.w
  | 0x04 => BitVec.ofNat 64 l
  | 0x05 => BitVec.ofNat 64 ((c.ref.map (·.wave)).getD 0)
  | 0x06 => BitVec.ofNat 64 t.team
  | 0x07 => BitVec.ofNat 64 t.gang
  | 0x08 => BitVec.ofNat 64 t.task
  | 0x09 => la.number.setWidth 64
  | 0x0A => bif lane.mode == .trap then off lane.trap.tpc else off i.pc
  | 0x0B => bif lane.mode == .trap then off lane.trap.tanc else off lane.anchor
  | 0x0C => lane.tcause.setWidth 64
  | 0x0D => (ctrWord w).setWidth 64
  | 0x0E => c.r.frm.setWidth 64
  | 0x0F => c.r.fflags.setWidth 64
  | 0x10 => BitVec.ofNat 64 s.cycle
  | 0x11 => la.seed
  | 0x12 => t.ctx.aith.setWidth 64
  | 0x13 => BitVec.ofNat 64 t.fn
  | _ => 0

def execMovUniformFromSpecial (h : Head) (o : FromSpecial) (s : State) :=
  let n := o.spec.toNat
  runEach h
    (fun _ c => bif specPerLane n then inLanes c.e (illegal 11) else [])
    (fun i c s =>
      let x := specVal s i c n 0
      advance (putRegs s c (onceE (fun _ r =>
        bif o.pair then r.setPair o.dst.toNat x else r.setS o.dst.toNat (loW x)) c)) i c c.iss) s

def execMovVectorFromSpecial (h : Head) (o : VSpecial) (s : State) :=
  runEach h (fun _ _ => [])
    (fun i c s =>
      advance (putRegs s c (c.putV c.r o.dst.toNat fun e => loW (specVal s i c o.spec.toNat (e % c.w)))) i c c.iss) s

/-- `%frm` keeps its value for codes 110 and 111; `%fflags` takes its defined bits (R42, R84, R207). -/
def setSpecial (n : Nat) (x : Word) (r : Regs) : Regs :=
  if n = 0x0E then { r with frm := bif 6 ≤ (x.extractLsb' 0 3).toNat then r.frm else x.extractLsb' 0 3 }
  else { r with fflags := x &&& fflagsMask }

def execMovToSpecial (h : Head) (o : ToSpecial) (s : State) :=
  runRegs h noTrap (onceE fun _ r => setSpecial o.spec.toNat (r.getS o.sa.toNat) r) s

/-! ### Predicate logic (R85) -/

/-- Write the lanes of E of a predicate register. -/
def putPredE (c : Ctx) (d : PReg) (m : Mask) (r : Regs) : Regs :=
  r.setP d.toNat ((r.getP d.toNat &&& ~~~c.e) ||| (m &&& c.e))

/-- A predicate form on the lanes of E. -/
def runPred (h : Head) (d : PReg) (f : Regs → Mask) : State → Host.Outcome State Fault Refusal :=
  runRegs h noTrap (onceE fun c r => putPredE c d (f r) r)

def execPand (h : Head) (o : PBin) (s : State) :=
  runPred h o.d (fun r => r.getP o.a.toNat &&& r.getP o.b.toNat) s
def execPor (h : Head) (o : PBin) (s : State) :=
  runPred h o.d (fun r => r.getP o.a.toNat ||| r.getP o.b.toNat) s
def execPxor (h : Head) (o : PBin) (s : State) :=
  runPred h o.d (fun r => r.getP o.a.toNat ^^^ r.getP o.b.toNat) s
def execPandn (h : Head) (o : PBin) (s : State) :=
  runPred h o.d (fun r => r.getP o.a.toNat &&& ~~~r.getP o.b.toNat) s
def execPnot (h : Head) (o : PUn) (s : State) := runPred h o.d (fun r => ~~~r.getP o.a.toNat) s
def execPset (h : Head) (o : PFromU) (s : State) := runPred h o.d (fun r => r.getPair o.sa.toNat) s
def execPget (h : Head) (o : UFromP) (s : State) :=
  runRegs h noTrap (onceE fun c r => r.setPair o.dst.toNat (c.e &&& r.getP o.a.toNat)) s
def execPcnt (h : Head) (o : UFromP) (s : State) :=
  runRegs h noTrap (onceE fun c r => r.setS o.dst.toNat (BitVec.ofNat 32 (c.e &&& r.getP o.a.toNat).count)) s

end Sys2Proof.Machine
end

