-- ==== Sys2Proof/Machine/Dispatch.lean ====
section
/-! DEFINITION. One arm for every row of spec/opcode_table.json: the meaning of each instruction. -/
namespace Sys2Proof.Machine

def exec (i : Instr) (s : State) : Host.Outcome State Fault Refusal :=
  match i with
  | .addUniform h o => Sys2Proof.Machine.execAddUniform h o s
  | .subUniform h o => Sys2Proof.Machine.execSubUniform h o s
  | .mulUniform h o => Sys2Proof.Machine.execMulUniform h o s
  | .mulhUniform h o => Sys2Proof.Machine.execMulhUniform h o s
  | .minUniform h o => Sys2Proof.Machine.execMinUniform h o s
  | .maxUniform h o => Sys2Proof.Machine.execMaxUniform h o s
  | .andUniform h o => Sys2Proof.Machine.execAndUniform h o s
  | .orUniform h o => Sys2Proof.Machine.execOrUniform h o s
  | .xorUniform h o => Sys2Proof.Machine.execXorUniform h o s
  | .andnUniform h o => Sys2Proof.Machine.execAndnUniform h o s
  | .divUniform h o => Sys2Proof.Machine.execDivUniform h o s
  | .remUniform h o => Sys2Proof.Machine.execRemUniform h o s
  | .addsUniform h o => Sys2Proof.Machine.execAddsUniform h o s
  | .subsUniform h o => Sys2Proof.Machine.execSubsUniform h o s
  | .shlUniform h o => Sys2Proof.Machine.execShlUniform h o s
  | .shrUniform h o => Sys2Proof.Machine.execShrUniform h o s
  | .setCc h o => Sys2Proof.Machine.execSetCc h o s
  | .add64 h o => Sys2Proof.Machine.execAdd64 h o s
  | .sub64 h o => Sys2Proof.Machine.execSub64 h o s
  | .mulw h o => Sys2Proof.Machine.execMulw h o s
  | .shl64 h o => Sys2Proof.Machine.execShl64 h o s
  | .shr64 h o => Sys2Proof.Machine.execShr64 h o s
  | .sar64 h o => Sys2Proof.Machine.execSar64 h o s
  | .lea h o => Sys2Proof.Machine.execLea h o s
  | .movUniformImm h o => Sys2Proof.Machine.execMovUniformImm h o s
  | .movUniformReg h o => Sys2Proof.Machine.execMovUniformReg h o s
  | .mov64 h o => Sys2Proof.Machine.execMov64 h o s
  | .movUniformFromSpecial h o => Sys2Proof.Machine.execMovUniformFromSpecial h o s
  | .movVectorFromSpecial h o => Sys2Proof.Machine.execMovVectorFromSpecial h o s
  | .movToSpecial h o => Sys2Proof.Machine.execMovToSpecial h o s
  | .pand h o => Sys2Proof.Machine.execPand h o s
  | .por h o => Sys2Proof.Machine.execPor h o s
  | .pxor h o => Sys2Proof.Machine.execPxor h o s
  | .pandn h o => Sys2Proof.Machine.execPandn h o s
  | .pnot h o => Sys2Proof.Machine.execPnot h o s
  | .pset h o => Sys2Proof.Machine.execPset h o s
  | .pget h o => Sys2Proof.Machine.execPget h o s
  | .pcnt h o => Sys2Proof.Machine.execPcnt h o s
  | .brCc h o => Sys2Proof.Machine.execBrCc h o s
  | .brVote h o => Sys2Proof.Machine.execBrVote h o s
  | .jmpUniform h sa => Sys2Proof.Machine.execJmpUniform h sa s
  | .jmpVector h => Sys2Proof.Machine.execJmpVector h s
  | .callUniform h o => Sys2Proof.Machine.execCallUniform h o s
  | .callVector h off => Sys2Proof.Machine.execCallVector h off s
  | .exit h => Sys2Proof.Machine.execExit h s
  | .done h => Sys2Proof.Machine.execDone h s
  | .nap h n => Sys2Proof.Machine.execNap h n s
  | .napExpiry w => Sys2Proof.Machine.execNapExpiry w s
  | .setvl h o => Sys2Proof.Machine.execSetvl h o s
  | .setvtype h o => Sys2Proof.Machine.execSetvtype h o s
  | .wait h a => Sys2Proof.Machine.execWait h a s
  | .barTeam h => Sys2Proof.Machine.execBarTeam h s
  | .barGang h => Sys2Proof.Machine.execBarGang h s
  | .taskPost h o => Sys2Proof.Machine.execTaskPost h o s
  | .taskPostReply k => Sys2Proof.Machine.execTaskPostReply k s
  | .trap h n => Sys2Proof.Machine.execTrap h n s
  | .laggingWaveStep core slot grp => Sys2Proof.Machine.execLaggingWaveStep core slot grp s
  | .addVector h o => Sys2Proof.Machine.execAddVector h o s
  | .subVector h o => Sys2Proof.Machine.execSubVector h o s
  | .addsVector h o => Sys2Proof.Machine.execAddsVector h o s
  | .subsVector h o => Sys2Proof.Machine.execSubsVector h o s
  | .minVector h o => Sys2Proof.Machine.execMinVector h o s
  | .maxVector h o => Sys2Proof.Machine.execMaxVector h o s
  | .abs h o => Sys2Proof.Machine.execAbs h o s
  | .absd h o => Sys2Proof.Machine.execAbsd h o s
  | .mulVector h o => Sys2Proof.Machine.execMulVector h o s
  | .mulhVector h o => Sys2Proof.Machine.execMulhVector h o s
  | .mad h o => Sys2Proof.Machine.execMad h o s
  | .shlVector h o => Sys2Proof.Machine.execShlVector h o s
  | .shrVector h o => Sys2Proof.Machine.execShrVector h o s
  | .fshl h o => Sys2Proof.Machine.execFshl h o s
  | .fshr h o => Sys2Proof.Machine.execFshr h o s
  | .lut3 h o => Sys2Proof.Machine.execLut3 h o s
  | .andVector h o => Sys2Proof.Machine.execAndVector h o s
  | .orVector h o => Sys2Proof.Machine.execOrVector h o s
  | .xorVector h o => Sys2Proof.Machine.execXorVector h o s
  | .andnVector h o => Sys2Proof.Machine.execAndnVector h o s
  | .not h o => Sys2Proof.Machine.execNot h o s
  | .popc h o => Sys2Proof.Machine.execPopc h o s
  | .clz h o => Sys2Proof.Machine.execClz h o s
  | .ctz h o => Sys2Proof.Machine.execCtz h o s
  | .brev h o => Sys2Proof.Machine.execBrev h o s
  | .bfx h o => Sys2Proof.Machine.execBfx h o s
  | .bfi h o => Sys2Proof.Machine.execBfi h o s
  | .cmpEq h o => Sys2Proof.Machine.execCmpEq h o s
  | .cmpNe h o => Sys2Proof.Machine.execCmpNe h o s
  | .cmpLt h o => Sys2Proof.Machine.execCmpLt h o s
  | .cmpGe h o => Sys2Proof.Machine.execCmpGe h o s
  | .cmpLe h o => Sys2Proof.Machine.execCmpLe h o s
  | .cmpGt h o => Sys2Proof.Machine.execCmpGt h o s
  | .sel h o => Sys2Proof.Machine.execSel h o s
  | .padd h o => Sys2Proof.Machine.execPadd h o s
  | .psub h o => Sys2Proof.Machine.execPsub h o s
  | .padds h o => Sys2Proof.Machine.execPadds h o s
  | .psubs h o => Sys2Proof.Machine.execPsubs h o s
  | .pmin h o => Sys2Proof.Machine.execPmin h o s
  | .pmax h o => Sys2Proof.Machine.execPmax h o s
  | .pabsd h o => Sys2Proof.Machine.execPabsd h o s
  | .pdot h o => Sys2Proof.Machine.execPdot h o s
  | .pack h o => Sys2Proof.Machine.execPack h o s
  | .lrot h o => Sys2Proof.Machine.execLrot h o s
  | .lsh h o => Sys2Proof.Machine.execLsh h o s
  | .bcast h o => Sys2Proof.Machine.execBcast h o s
  | .perm h o => Sys2Proof.Machine.execPerm h o s
  | .lext h o => Sys2Proof.Machine.execLext h o s
  | .lins h o => Sys2Proof.Machine.execLins h o s
  | .voteAny h o => Sys2Proof.Machine.execVoteAny h o s
  | .voteAll h o => Sys2Proof.Machine.execVoteAll h o s
  | .voteCnt h o => Sys2Proof.Machine.execVoteCnt h o s
  | .voteMsk h o => Sys2Proof.Machine.execVoteMsk h o s
  | .voteEq h o => Sys2Proof.Machine.execVoteEq h o s
  | .elect h pd => Sys2Proof.Machine.execElect h pd s
  | .red h o => Sys2Proof.Machine.execRed h o s
  | .scan h o => Sys2Proof.Machine.execScan h o s
  | .scanx h o => Sys2Proof.Machine.execScanx h o s
  | .movVectorReg h o => Sys2Proof.Machine.execMovVectorReg h o s
  | .movVectorImm h o => Sys2Proof.Machine.execMovVectorImm h o s
  | .movVectorUniform h o => Sys2Proof.Machine.execMovVectorUniform h o s
  | .movIxRead h o => Sys2Proof.Machine.execMovIxRead h o s
  | .movIxWrite h o => Sys2Proof.Machine.execMovIxWrite h o s
  | .fadd h o => Sys2Proof.Machine.execFadd h o s
  | .fsub h o => Sys2Proof.Machine.execFsub h o s
  | .fmul h o => Sys2Proof.Machine.execFmul h o s
  | .fma h o => Sys2Proof.Machine.execFma h o s
  | .fms h o => Sys2Proof.Machine.execFms h o s
  | .fnma h o => Sys2Proof.Machine.execFnma h o s
  | .fnms h o => Sys2Proof.Machine.execFnms h o s
  | .fneg h o => Sys2Proof.Machine.execFneg h o s
  | .fabs h o => Sys2Proof.Machine.execFabs h o s
  | .fsgn h o => Sys2Proof.Machine.execFsgn h o s
  | .fmin h o => Sys2Proof.Machine.execFmin h o s
  | .fmax h o => Sys2Proof.Machine.execFmax h o s
  | .fcmp h o => Sys2Proof.Machine.execFcmp h o s
  | .fclass h o => Sys2Proof.Machine.execFclass h o s
  | .fdiv h o => Sys2Proof.Machine.execFdiv h o s
  | .fsqrt h o => Sys2Proof.Machine.execFsqrt h o s
  | .frcp h o => Sys2Proof.Machine.execFrcp h o s
  | .frsq h o => Sys2Proof.Machine.execFrsq h o s
  | .fsin h o => Sys2Proof.Machine.execFsin h o s
  | .fcos h o => Sys2Proof.Machine.execFcos h o s
  | .fexp2 h o => Sys2Proof.Machine.execFexp2 h o s
  | .flog2 h o => Sys2Proof.Machine.execFlog2 h o s
  | .cvtFloat h o => Sys2Proof.Machine.execCvtFloat h o s
  | .cvtIntFloat h o => Sys2Proof.Machine.execCvtIntFloat h o s
  | .frint h o => Sys2Proof.Machine.execFrint h o s
  | .bscale h o => Sys2Proof.Machine.execBscale h o s
  | .bq h o => Sys2Proof.Machine.execBq h o s
  | .bdq h o => Sys2Proof.Machine.execBdq h o s
  | .xaccClr h => Sys2Proof.Machine.execXaccClr h s
  | .xaccAdd h va => Sys2Proof.Machine.execXaccAdd h va s
  | .xaccMac h o => Sys2Proof.Machine.execXaccMac h o s
  | .xaccRd h sd => Sys2Proof.Machine.execXaccRd h sd s
  | .actLd h o => Sys2Proof.Machine.execActLd h o s
  | .actLdFlip team tb => Sys2Proof.Machine.execActLdFlip team tb s
  | .fact h o => Sys2Proof.Machine.execFact h o s
  | .factComplete w => Sys2Proof.Machine.execFactComplete w s
  | .rngInit h o => Sys2Proof.Machine.execRngInit h o s
  | .rngNext h o => Sys2Proof.Machine.execRngNext h o s
  | .rngJump h o => Sys2Proof.Machine.execRngJump h o s
  | .ldB32 h o => Sys2Proof.Machine.execLdB32 h o s
  | .ldI8 h o => Sys2Proof.Machine.execLdI8 h o s
  | .ldN8 h o => Sys2Proof.Machine.execLdN8 h o s
  | .ldF16 h o => Sys2Proof.Machine.execLdF16 h o s
  | .ldB4 h o => Sys2Proof.Machine.execLdB4 h o s
  | .ldW2 h o => Sys2Proof.Machine.execLdW2 h o s
  | .ldW4 h o => Sys2Proof.Machine.execLdW4 h o s
  | .ldFfB32 h o => Sys2Proof.Machine.execLdFfB32 h o s
  | .ldFfN8 h o => Sys2Proof.Machine.execLdFfN8 h o s
  | .ldsB32 h o => Sys2Proof.Machine.execLdsB32 h o s
  | .ldsW2 h o => Sys2Proof.Machine.execLdsW2 h o s
  | .ldSync h o => Sys2Proof.Machine.execLdSync h o s
  | .stB32 h o => Sys2Proof.Machine.execStB32 h o s
  | .stN8 h o => Sys2Proof.Machine.execStN8 h o s
  | .stF16 h o => Sys2Proof.Machine.execStF16 h o s
  | .stB4 h o => Sys2Proof.Machine.execStB4 h o s
  | .stW2 h o => Sys2Proof.Machine.execStW2 h o s
  | .stW4 h o => Sys2Proof.Machine.execStW4 h o s
  | .stsB32 h o => Sys2Proof.Machine.execStsB32 h o s
  | .stsW2 h o => Sys2Proof.Machine.execStsW2 h o s
  | .stSync h o => Sys2Proof.Machine.execStSync h o s
  | .stFill h o => Sys2Proof.Machine.execStFill h o s
  | .feClr h m => Sys2Proof.Machine.execFeClr h m s
  | .pf h o => Sys2Proof.Machine.execPf h o s
  | .loadComplete w k => Sys2Proof.Machine.execLoadComplete w k s
  | .storeRetire w failed => Sys2Proof.Machine.execStoreRetire w failed s
  | .pageWalkComplete k => Sys2Proof.Machine.execPageWalkComplete k s
  | .migrationComplete k failed => Sys2Proof.Machine.execMigrationComplete k failed s
  | .atomAdd h o => Sys2Proof.Machine.execAtomAdd h o s
  | .atomMinI32 h o => Sys2Proof.Machine.execAtomMinI32 h o s
  | .atomMinN32 h o => Sys2Proof.Machine.execAtomMinN32 h o s
  | .atomMaxI32 h o => Sys2Proof.Machine.execAtomMaxI32 h o s
  | .atomMaxN32 h o => Sys2Proof.Machine.execAtomMaxN32 h o s
  | .atomAnd h o => Sys2Proof.Machine.execAtomAnd h o s
  | .atomOr h o => Sys2Proof.Machine.execAtomOr h o s
  | .atomXor h o => Sys2Proof.Machine.execAtomXor h o s
  | .atomXchg h o => Sys2Proof.Machine.execAtomXchg h o s
  | .atomCas h o => Sys2Proof.Machine.execAtomCas h o s
  | .atomFadd h o => Sys2Proof.Machine.execAtomFadd h o s
  | .updAdd h o => Sys2Proof.Machine.execUpdAdd h o s
  | .updMinI32 h o => Sys2Proof.Machine.execUpdMinI32 h o s
  | .updMinN32 h o => Sys2Proof.Machine.execUpdMinN32 h o s
  | .updMaxI32 h o => Sys2Proof.Machine.execUpdMaxI32 h o s
  | .updMaxN32 h o => Sys2Proof.Machine.execUpdMaxN32 h o s
  | .updAnd h o => Sys2Proof.Machine.execUpdAnd h o s
  | .updOr h o => Sys2Proof.Machine.execUpdOr h o s
  | .updXor h o => Sys2Proof.Machine.execUpdXor h o s
  | .updFadd h o => Sys2Proof.Machine.execUpdFadd h o s
  | .remotePromotionRequest line => Sys2Proof.Machine.execRemotePromotionRequest line s
  | .fence h o => Sys2Proof.Machine.execFence h o s
  | .apGth h o => Sys2Proof.Machine.execApGth h o s
  | .apCpy h o => Sys2Proof.Machine.execApCpy h o s
  | .apCp2 h o => Sys2Proof.Machine.execApCp2 h o s
  | .apSct h o => Sys2Proof.Machine.execApSct h o s
  | .apGatherStep core => Sys2Proof.Machine.execApGatherStep core s
  | .apCopyRow core => Sys2Proof.Machine.execApCopyRow core s
  | .apScatterPosition core => Sys2Proof.Machine.execApScatterPosition core s
  | .apQueuePush core => Sys2Proof.Machine.execApQueuePush core s
  | .apQueueStall core => Sys2Proof.Machine.execApQueueStall core s
  | .aqPop h o => Sys2Proof.Machine.execAqPop h o s
  | .tst h o => Sys2Proof.Machine.execTst h o s
  | .tldV h o => Sys2Proof.Machine.execTldV h o s
  | .versionedTileRead core => Sys2Proof.Machine.execVersionedTileRead core s
  | .migUp h o => Sys2Proof.Machine.execMigUp h o s
  | .migDown h o => Sys2Proof.Machine.execMigDown h o s
  | .bagNew h o => Sys2Proof.Machine.execBagNew h o s
  | .bagPut h o => Sys2Proof.Machine.execBagPut h o s
  | .bagSnap h o => Sys2Proof.Machine.execBagSnap h o s
  | .bagEach h o => Sys2Proof.Machine.execBagEach h o s
  | .bagDrain h o => Sys2Proof.Machine.execBagDrain h o s
  | .bagCnt h o => Sys2Proof.Machine.execBagCnt h o s
  | .bagGrow h o => Sys2Proof.Machine.execBagGrow h o s
  | .bagSeal h o => Sys2Proof.Machine.execBagSeal h o s
  | .bagFree h o => Sys2Proof.Machine.execBagFree h o s
  | .bagNewTake k => Sys2Proof.Machine.execBagNewTake k s
  | .bagPutTake k => Sys2Proof.Machine.execBagPutTake k s
  | .bagSnapTake k => Sys2Proof.Machine.execBagSnapTake k s
  | .bagEachTake k => Sys2Proof.Machine.execBagEachTake k s
  | .bagDrainTake k => Sys2Proof.Machine.execBagDrainTake k s
  | .bagDrainComplete k => Sys2Proof.Machine.execBagDrainComplete k s
  | .bagCntTake k => Sys2Proof.Machine.execBagCntTake k s
  | .bagGrowTake k => Sys2Proof.Machine.execBagGrowTake k s
  | .bagSealTake k => Sys2Proof.Machine.execBagSealTake k s
  | .bagFreeTake k => Sys2Proof.Machine.execBagFreeTake k s
  | .bagAnswerArrival k => Sys2Proof.Machine.execBagAnswerArrival k s
  | .rootRun h o => Sys2Proof.Machine.execRootRun h o s
  | .rootRunTake k => Sys2Proof.Machine.execRootRunTake k s
  | .bmac h o => Sys2Proof.Machine.execBmac h o s
  | .bmacTake k => Sys2Proof.Machine.execBmacTake k s
  | .bmacRowGroup unit errs => Sys2Proof.Machine.execBmacRowGroup unit errs s
  | .crownSum h o => Sys2Proof.Machine.execCrownSum h o s
  | .crownSumTake k => Sys2Proof.Machine.execCrownSumTake k s
  | .crownClr h sco => Sys2Proof.Machine.execCrownClr h sco s
  | .crownClrTake k => Sys2Proof.Machine.execCrownClrTake k s
  | .rootInvocationStart k => Sys2Proof.Machine.execRootInvocationStart k s
  | .recLd h o => Sys2Proof.Machine.execRecLd h o s
  | .recSt h o => Sys2Proof.Machine.execRecSt h o s
  | .recIdx h vd => Sys2Proof.Machine.execRecIdx h vd s
  | .rld h o => Sys2Proof.Machine.execRld h o s
  | .rst h o => Sys2Proof.Machine.execRst h o s
  | .zskip h o => Sys2Proof.Machine.execZskip h o s
  | .crownPut h o => Sys2Proof.Machine.execCrownPut h o s
  | .rkNext h => Sys2Proof.Machine.execRkNext h s
  | .rootBlockLimit unit => Sys2Proof.Machine.execRootBlockLimit unit s
  | .mxMma h o => Sys2Proof.Machine.execMxMma h o s
  | .mxSt h o => Sys2Proof.Machine.execMxSt h o s
  | .mxLd h o => Sys2Proof.Machine.execMxLd h o s
  | .mxClr h o => Sys2Proof.Machine.execMxClr h o s
  | .mxRq h o => Sys2Proof.Machine.execMxRq h o s
  | .tdLd h o => Sys2Proof.Machine.execTdLd h o s
  | .tdSt h o => Sys2Proof.Machine.execTdSt h o s
  | .tdBase h o => Sys2Proof.Machine.execTdBase h o s
  | .matrixCommandTake core => Sys2Proof.Machine.execMatrixCommandTake core s
  | .matrixStep core => Sys2Proof.Machine.execMatrixStep core s
  | .matrixStoreRows core => Sys2Proof.Machine.execMatrixStoreRows core s
  | .aonStore core => Sys2Proof.Machine.execAonStore core s
  | .matrixLoadTile core => Sys2Proof.Machine.execMatrixLoadTile core s
  | .requantiseBlockColumn core => Sys2Proof.Machine.execRequantiseBlockColumn core s
  | .emeter h sd => Sys2Proof.Machine.execEmeter h sd s
  | .emeterShr h sd => Sys2Proof.Machine.execEmeterShr h sd s
  | .equota h sd => Sys2Proof.Machine.execEquota h sd s
  | .equotaFill h sd => Sys2Proof.Machine.execEquotaFill h sd s
  | .equotaCap h sd => Sys2Proof.Machine.execEquotaCap h sd s
  | .chargePost k => Sys2Proof.Machine.execChargePost k s
  | .periodEnd => Sys2Proof.Machine.execPeriodEnd s
  | .sqWrite fn v => Sys2Proof.Machine.execSqWrite fn v s
  | .sctlWrite fn v => Sys2Proof.Machine.execSctlWrite fn v s
  | .dirtySnap h o => Sys2Proof.Machine.execDirtySnap h o s
  | .dirtySnapFin h o => Sys2Proof.Machine.execDirtySnapFin h o s
  | .vfStop h o => Sys2Proof.Machine.execVfStop h o s
  | .tret h => Sys2Proof.Machine.execTret h s
  | .tretNext h => Sys2Proof.Machine.execTretNext h s
  | .tretAnc h => Sys2Proof.Machine.execTretAnc h s
  | .tretVector h va => Sys2Proof.Machine.execTretVector h va s
  | .tinfo h vd => Sys2Proof.Machine.execTinfo h vd s
  | .wentSt h sd => Sys2Proof.Machine.execWentSt h sd s
  | .wentLd h sd => Sys2Proof.Machine.execWentLd h sd s
  | .svEnd h => Sys2Proof.Machine.execSvEnd h s
  | .svEndRes h => Sys2Proof.Machine.execSvEndRes h s
  | .dtabLd h o => Sys2Proof.Machine.execDtabLd h o s
  | .tlbInv h o => Sys2Proof.Machine.execTlbInv h o s
  | .vfStart h o => Sys2Proof.Machine.execVfStart h o s
  | .vfPre h o => Sys2Proof.Machine.execVfPre h o s
  | .vfRst h sc => Sys2Proof.Machine.execVfRst h sc s
  | .sliceSet h o => Sys2Proof.Machine.execSliceSet h o s
  | .poolAdd h o => Sys2Proof.Machine.execPoolAdd h o s
  | .poolAddCap h o => Sys2Proof.Machine.execPoolAddCap h o s
  | .launchRecordTake fn => Sys2Proof.Machine.execLaunchRecordTake fn s
  | .taskStart launch task => Sys2Proof.Machine.execTaskStart launch task s
  | .teamAdmit launch task core => Sys2Proof.Machine.execTeamAdmit launch task core s
  | .swapOut w => Sys2Proof.Machine.execSwapOut w s
  | .swapIn core slot => Sys2Proof.Machine.execSwapIn core slot s
  | .launchComplete launch => Sys2Proof.Machine.execLaunchComplete launch s
  | .ringUnitRelease launch => Sys2Proof.Machine.execRingUnitRelease launch s
  | .preemptRequest fn => Sys2Proof.Machine.execPreemptRequest fn s
  | .saveModeEntry w => Sys2Proof.Machine.execSaveModeEntry w s
  | .engineStopAck e => Sys2Proof.Machine.execEngineStopAck e s
  | .forcedSaveTimeout fn => Sys2Proof.Machine.execForcedSaveTimeout fn s
  | .teamRestore team core => Sys2Proof.Machine.execTeamRestore team core s
  | .sliceStart => Sys2Proof.Machine.execSliceStart s
  | .sliceEnd => Sys2Proof.Machine.execSliceEnd s
  | .rowDisturbance ch bank row => Sys2Proof.Machine.execRowDisturbance ch bank row s
  | .functionLevelReset fn => Sys2Proof.Machine.execFunctionLevelReset fn s
  | .moduleReset => Sys2Proof.Machine.execModuleReset s
  | .queueProducerWrite fn level v => Sys2Proof.Machine.execQueueProducerWrite fn level v s
  | .completionConsumerWrite fn v => Sys2Proof.Machine.execCompletionConsumerWrite fn v s
  | .pcapWrite v => Sys2Proof.Machine.execPcapWrite v s
  | .srateWrite stack v => Sys2Proof.Machine.execSrateWrite stack v s
  | .stackRetrain stack => Sys2Proof.Machine.execStackRetrain stack s
  | .mwselWrite v => Sys2Proof.Machine.execMwselWrite v s
  | .bar2Access a wr => Sys2Proof.Machine.execBar2Access a wr s
  | .attestReport => Sys2Proof.Machine.execAttestReport s
  | .attestCertChain => Sys2Proof.Machine.execAttestCertChain s
  | .attestDataReady ok => Sys2Proof.Machine.execAttestDataReady ok s
  | .registerWrite fn r v => Sys2Proof.Machine.execRegisterWrite fn r v s
  | .linkUp n lcap => Sys2Proof.Machine.execLinkUp n lcap s
  | .bruskoFlitReceive n f => Sys2Proof.Machine.execBruskoFlitReceive n f s
  | .bruskoNakReceive n seq => Sys2Proof.Machine.execBruskoNakReceive n seq s
  | .linkRetrain n => Sys2Proof.Machine.execLinkRetrain n s
  | .cxlPortDown n => Sys2Proof.Machine.execCxlPortDown n s
  | .frameRetirement => Sys2Proof.Machine.execFrameRetirement s
  | .thermalShutdown => Sys2Proof.Machine.execThermalShutdown s
  | .functionCreation fn => Sys2Proof.Machine.execFunctionCreation fn s
  | .contextDestruction fn => Sys2Proof.Machine.execContextDestruction fn s
  | .linkRetrainingEnd n ok => Sys2Proof.Machine.execLinkRetrainingEnd n ok s
  | .stackRetrainingEnd stack => Sys2Proof.Machine.execStackRetrainingEnd stack s
  | .thermalControllerRequest stack rate => Sys2Proof.Machine.execThermalControllerRequest stack rate s

end Sys2Proof.Machine
end

