-- ==== Sys2Proof/Machine/Prepare.lean ====
section
/-! DEFINITION. A turn of the machine up to the instruction or event that it runs: fetching and checking the
instruction of a slot's group or of a root unit, its issue charge and operand latch, and the choice of turn
(R17 to R21, R48, R54, R75, R249; log 4). -/
namespace Sys2Proof.Machine

/-! ### Charges of an issue (R249, R226, R333) -/

def instrTy : Instr → Ty
  | .fadd _ o | .fsub _ o | .fmul _ o => o.ty
  | .fma _ o | .fms _ o | .fnma _ o | .fnms _ o => o.ty
  | .fdiv _ o | .fmin _ o | .fmax _ o => o.ty
  | .fsqrt _ o => o.ty
  | _ => .f32

/-- Values of an element: two of a 16-bit format (R116). -/
def valuesOf (t : Ty) : Nat := if t = .bf16 || t = .f16 then 2 else 1

/-- The class and the count for each active element of an instruction, beside its slot issue. -/
def elemPrice (i : Instr) (opc : Nat) (acc : Nat) : Option (Nat × Nat) :=
  let t := instrTy i
  let n := valuesOf t
  if [0x108, 0x109, 0x10A].contains opc then some (31 + acc, 1)
  else if opc = 0x167 then some (34 + acc, 4)
  else if opc = 0x033 || (0x040 ≤ opc && opc ≤ 0x047) || (0x100 ≤ opc && opc ≤ 0x1FF) || (0x207 ≤ opc && opc ≤ 0x209) || (0x2A0 ≤ opc && opc ≤ 0x2A2)
    then some (1, 1)
  else if opc = 0x200 || opc = 0x201 || (0x220 ≤ opc && opc ≤ 0x223) || (0x240 ≤ opc && opc ≤ 0x245) || opc = 0x261
    then some (2, n)
  else if 0x202 ≤ opc && opc ≤ 0x206 then some (bif n == 2 then 28 + acc else 25 + acc, n)
  else if 0x230 ≤ opc && opc ≤ 0x233 then some (bif n == 2 then 4 else 3, n)
  else if opc = 0x262 then some (28, 2)
  else if 0x280 ≤ opc && opc ≤ 0x283 then some (5, 1)
  else if opc = 0x291 then some (6, 1)
  else none

/-- The class of the one product of a uniform multiply. -/
def onePrice (opc acc : Nat) : Option Nat :=
  if opc = 0x002 || opc = 0x003 || opc = 0x025 then some (31 + acc) else none

/-- What an instruction works on: its active elements; for predicate logic, which knows none, the lanes of E (R85,
log 79). -/
def Ctx.worked (c : Ctx) (opc : Nat) : Nat :=
  if 0x040 ≤ opc && opc ≤ 0x047 then c.e.lanes.length else c.actives.length

/-- Queue the charges of an issue: the slot issue, then each part's elements and products. -/
def chargeIssue (s : State) (i : Instr) (sh : Shape) (f dom : Nat) (root : Bool) (cs : List Ctx) : State :=
  let acc := sh.head.acc.toNat
  let s := bif root then s else s.charge f dom 0 1
  cs.foldl (fun (s : State) (c : Ctx) =>
    let s := bif root then s.charge f dom 10 (c.worked sh.opc) else s
    let s := match elemPrice i sh.opc acc with
      | some (k, n) => bif root && k < 25 then s else s.charge f dom k (n * c.worked sh.opc)
      | none => s
    match onePrice sh.opc acc with
    | some k => bif c.e == 0 then s else s.charge f dom k 1
    | none => s) s

/-! ### The operand latch (R48) -/

/-- One issue of a wave counts against its entries, and HOLD loads entries: of a grouped source, the first register
alone, and in an issue of several waves those of the last wave in the order of entries (log 82). Entries whose register the
issue writes lapse when it is over (`endIssue`). -/
def latchIssue (latch : List (Option Latched)) (r : WaveRef) (sh : Shape) (c : Ctx) : List (Option Latched) :=
  let aged := latch.map fun e => e.bind fun y =>
    if y.wave = r then bif y.left ≤ 1 then none else some { y with left := y.left - 1 }
    else some y
  aged.mapIdx fun k e =>
    if sh.head.hold.getLsbD k then
      match sh.ops.find? fun o => o.pos == some k && o.cls == .vec && o.rd with
      | some o => some { wave := r, reg := o.num, val := c.r.v.getD o.num [], left := 2 }
      | none => e
    else e

/-- The latch of a slot after an issue: each wave of it counts the issue, whatever the instruction comes to (R48, R77). -/
def latchParts (s : State) (core slot : Nat) (sh : Shape) (cs : List Ctx) : State :=
  s.modCore core fun co => { co with slots := co.slots.modify slot fun x =>
    { x with latch := cs.foldl (fun la c => match c.ref with
        | some r => latchIssue la r sh c
        | none => la) x.latch } }

/-! ### Issues -/

/-- What a turn comes to: it is over, an instruction or event runs, or nothing could be issued. -/
inductive Prep where
  | done (s : State) | run (i : Instr) (s : State) | idle (s : State)

/-- The turn does something. -/
def Prep.acts : Prep → Bool
  | .idle _ => false
  | _ => true

/-- The parcels of the instruction at an address, as far as its class asks for them (R59, R70). -/
def fetchInstr (s : State) (f pc room : Nat) : Fetched × List Word :=
  match fetchParcel s f pc with
  | .word p0 =>
    let k := parcelCls p0
    -- the second parcel tells how long a prefixed instruction is
    let two := 2 ≤ room && (k == 0xC || (Cls.ofCode k).isSome)
    match (bif two then fetchParcel s f (pc + 4) else .word 0) with
    | .word p1 =>
      let n := min (itemLen p0 p1 room) room
      (List.range (n - 2)).foldl (fun a j =>
        match a.1 with
        | .word _ => match fetchParcel s f (pc + 8 + 4 * j) with
          | .word x => (.word x, a.2 ++ [x])
          | e => (e, a.2)
        | _ => a) (.word p0, [p0, p1])
    | e => (e, [p0])
  | e => (e, [])

/-- The decode context of a function (R72, R74). -/
def decCtx (s : State) (f : Nat) (root : Bool) : DecCtx := { table := (s.fn f).dtab, sup := f == 0, root := root }

/-- The operation and the head of parcels that begin an instruction. -/
def rawHead (c : DecCtx) (ps : List Word) : Nat × Head :=
  let (p0, pfx) := bif parcelCls (ps.getD 0 0) == 0xC then (ps.getD 1 0, some (prefixOf (ps.getD 0 0))) else (ps.getD 0 0, none)
  (((c.entry (opcOf p0)).map (·.op)).getD 0, headOf p0 pfx)

/-- Traps of every issuing lane of an issue. -/
def trapParts (s : State) (parts : List (WaveRef × Mask)) (t : TrapInfo) : State :=
  takeTraps s (parts.flatMap fun x => x.2.lanes.map fun l => (x.1, l, t))

/-- Record an issue in the group's history and the waves that issue (R18, R21, R50, R91). -/
def noteIssue (s : State) (core slot group : Nat) (k : SetKind) (parts : List (WaveRef × Mask)) : State :=
  let s := s.modGroup core slot group fun g => match k with
    | .save => { g with lastSave := s.turns }
    | .trap => { g with lastTrap := s.turns }
    | .ordinary => { g with lastOrd := s.turns, lag := none
                            hist := (parts :: g.hist).take 64 }
  parts.foldl (fun s x => s.modWave x.1 fun w =>
    { w with issued := s.cycle, regs := { w.regs with wrote := 0 }
             allIssued := w.live.all fun i => x.2.has i
             cleared := none
             lanes := w.lanes.mapIdx fun i l => bif x.2.has i then
               { l with pos := match l.pos with | .fresh .. => .inside | p => p } else l }) s

/-- Vector registers that an instruction reads or writes beside those that its fields name: the computed register of an
indexed move (R53), the record of a put (R164). -/
def hiddenVec (s : State) (i : Instr) (c : Ctx) : List Nat :=
  match i with
  | .movIxRead _ o | .movIxWrite _ o => (List.range c.g).map (ixNum o.a o.imm c.r + ·)
  | .bagPut _ o => match findBag s (ctxFn s c) (c.r.getS o.sb.toNat) with
    | some b => (List.range (b.z / 4)).map (o.va.toNat + 1 + ·)
    | none => []
  | _ => []

/-- The instruction can be issued for a part now: for its wave, and with none of those registers awaited (R138). -/
def partReady (s : State) (i : Instr) (sh : Shape) (c : Ctx) : Bool :=
  match c.ref with
  | none => true
  | some r => waveReady s i sh c r
      && (hiddenVec s i c).all fun n => !(((s.wave? r).map Wave.awaited).getD []).contains (.vec, n)

/-- A turn of a slot's group: its set's issuing lanes, their instruction, and every check before it executes. Lanes at
one address that stand in different overlapping blocks issue together, in the block of the lowest of them (log 83). -/
noncomputable def prepareIssue (s : State) (core slot group : Nat) (k : SetKind) : Prep :=
  let rs := members s core slot group
  let (s, traps) := rs.foldl (fun (a : State × List (WaveRef × Nat × TrapInfo)) r =>
    let x := settleWave a.1 r k
    (x.1, a.2 ++ x.2)) (s, [])
  if !traps.isEmpty then .done (takeTraps s traps) else
  let g := s.group core slot group
  let due := fun (r : WaveRef) => rs.contains r && (s.wave? r).any fun w => !(w.inSet .ordinary).isEmpty
  let alone := if k = .ordinary then (g.lag.filter due).or (lagging s rs g) else none
  match issueAt s (match alone with | some r => [r] | none => rs) k with
  | none => .done s -- every lane of the set parked
  | some (pc, parts) =>
    match parts with
    | [] => .idle s
    | (r0, m0) :: _ =>
      let f := s.fnOf r0
      let l0 := ((s.wave? r0).bind fun w => w.lanes[(m0.low).getD 0]?).getD {}
      -- passing headers goes on in the next turn, unless the wave waits for a reply
      if l0.pos == .atHeader then (bif (s.wave? r0).any Wave.blocked then .idle s else .done s) else
      -- a wave that owes something, or naps, issues nothing, not even an instruction that traps (R21, R91)
      if !(parts.all fun x => (s.wave? x.1).all fun w => w.free s.cycle x.2) then .idle s else
      let stop := l0.blk.stop
      let s := chargeWalks s f [pc / 65536]
      let room := (stop - pc) / 4
      -- an issue that traps before its instruction executes is an issue all the same (R75, R78)
      let issued := (noteIssue s core slot group k parts).charge f (coreDom core) 0 1
      match fetchInstr s f pc room with
      | (.bad, ps) => .done (trapParts s parts { cause := 8, det := pc + 4 * ps.length })
      | (.away p, _) =>
        .done (startMigration (parts.foldl (fun s x => s.onLanes x.1 x.2 (Lane.park (.migration f p))) s) (coreStand core) f p true)
      | (.word _, ps) =>
        match decodeAt (decCtx s f false) room ps with
        | .error (.illegal r) =>
          let (opc, h) := rawHead (decCtx s f false) ps
          let iss : Issue := { agent := .core core slot group parts, pc := pc, len := 0, stop := stop }
          .done (raiseAll issued ((contexts s iss h).map fun c => (c, inLanes c.iss (illegal (earlierReason opc h r c)))))
        | .error .overrun => .done (trapParts issued parts { cause := 4, det := stop })
        | .ok .pad => .done (parts.foldl (fun s x => s.onLanes x.1 x.2 (Lane.advance 4)) s)
        | .ok (.instr i n) =>
          match i.shape with
          | none => .done s
          | some sh =>
            let iss : Issue := { agent := .core core slot group parts, pc := pc, len := 4 * n, stop := stop }
            let cs := contexts s iss sh.head
            let bad := cs.map fun c => (c, preTraps i sh c)
            if bad.any fun x => !x.2.isEmpty then
              .done (raiseAll (cs.foldl (fun s c => match waveReason i sh c with
                | some _ => s
                | none => advance s iss c (c.iss &&& ~~~c.e)) (latchParts issued core slot sh cs)) bad)
            else if !(cs.all (partReady s i sh) && engineRoom s core i cs) then .idle s
            else
              let s := { noteIssue s core slot group k parts with issue := some iss }
              .run i (chargeIssue (latchParts s core slot sh cs) i sh f (coreDom core) false cs)

/-- Root code consumes a header, or takes root fault 1 at what is not a legal one (R173). -/
def settleInv (s : State) : Nat → Inv → Inv × Option (Nat ⊕ Nat)
  | 0, v => (v, none)
  | n + 1, v =>
    if v.head then
      match fetchParcel s v.fn v.pc, fetchParcel s v.fn (v.pc + 4) with
      | .word lo, .word hi =>
        let w := dword lo hi
        if v.pc % 8 = 0 && hdrLegal w then
          let h := hdrOf w
          settleInv s n { v with pc := v.pc + 8, head := h.len == 2, stop := v.pc + 4 * h.len }
        else (v, some (.inl 1))
      | .away p, _ | _, .away p => (v, some (.inr p))
      | _, _ => (v, some (.inl 2))
    else match fetchParcel s v.fn v.pc with
      | .word x => if x = 0xE then settleInv s n { v with pc := v.pc + 4, head := v.pc + 4 == v.stop } else (v, none)
      | _ => (v, none)

/-- A turn of a root unit that runs an invocation (R171 to R176). -/
noncomputable def prepareRoot (s : State) (q : Nat) : Prep :=
  match s.inv? q with
  | none => .done s
  | some v =>
    let put := fun (s : State) (v : Inv) => s.modUnit q fun u => { u with invs := u.invs.set 0 v }
    if v.started && v.lost then .done (rootFault s q 2 0)
    else if !v.started || v.wait.isSome then .done s
    else if !v.bound then .done (bif v.by_.held s then s else put s (v.bind v.block))
    else if Config.rootBlockLimit ≤ v.count then .run (.rootBlockLimit q) s else
    match settleInv s settleFuel v with
    | (v, some (.inl c)) => .done (rootFault (put s v) q c 0)
    | (v, some (.inr p)) => .done (startMigration (put s { v with wait := some p }) (q / 64) v.fn p true)
    | (v, none) =>
      if v.head then .done (put s v) else
      let s := put s v
      let s := chargeWalks s v.fn [v.pc / 65536]
      let room := (v.stop - v.pc) / 4
      match fetchInstr s v.fn v.pc room with
      | (.bad, _) => .done (rootFault s q 2 0)
      | (.away p, _) => .done (startMigration (put s { v with wait := some p }) (q / 64) v.fn p true)
      | (.word _, ps) =>
        match decodeAt (decCtx s v.fn true) room ps with
        | .error _ => .done (rootFault s q 1 0)
        | .ok .pad => .done (put s { v with pc := v.pc + 4, head := v.pc + 4 == v.stop })
        | .ok (.instr i n) =>
          match i.shape with
          | none => .done s
          | some sh =>
            let iss : Issue := { agent := .root q, pc := v.pc, len := 4 * n, stop := v.stop }
            let cs := contexts s iss sh.head
            if cs.any fun c => !(preTraps i sh c).isEmpty then
              .done (raiseAll s (cs.map fun c => (c, preTraps i sh c)))
            else
              let s := { put s { v with count := v.count + 1 } with issue := some iss }
              .run i (chargeIssue s i sh v.fn (stackDom (q / 64)) true cs)

end Sys2Proof.Machine
end

