-- ==== Sys2Proof/Machine/Turns.lean ====
section
/-! DEFINITION. Whose turn it is (log 4): the head of the agenda, or, when the agenda is empty, the turns that the
machine itself could take, in rotation. -/
namespace Sys2Proof.Machine

/-- A group's set of a kind is ready: it holds lanes, and a turn of it would issue, trap or pass padding. -/
noncomputable def setReady (s : State) (core slot group : Nat) (k : SetKind) : Bool :=
  ((members s core slot group).any fun r => match s.wave? r with
    | some w => !(w.inSet k).isEmpty
    | none => false) && (prepareIssue s core slot group k).acts

/-- The groups of a slot. -/
def slotGroups (s : State) (core slot : Nat) : List Nat :=
  ((s.teams.filter fun t => t.core == core).flatMap fun t =>
    (t.waves.filter fun w => w.entry.isSome && w.slot == slot).map (·.group)).dedup

/-- Since when a group has gone without an issue from a set of a kind: the turn of the latest one, or that at which the group
was formed. -/
def Group.last (g : Group) (k : SetKind) : Nat :=
  max g.born (match k with
    | .save => g.lastSave
    | .trap => g.lastTrap
    | .ordinary => g.lastOrd)

/-- The groups that R21 lets issue a set of a kind: of those whose set is ready, the ones that have gone longest without. -/
noncomputable def longest (s : State) (core slot : Nat) (k : SetKind) : List Nat :=
  let gs := (slotGroups s core slot).filter fun g => setReady s core slot g k
  gs.filter fun g => gs.all fun b => (s.group core slot g).last k ≤ (s.group core slot b).last k

/-- R21's choice for a slot: save-mode sets, then trap sets, then ordinary sets. -/
noncomputable def slotChoices (s : State) (core slot : Nat) : List (Nat × SetKind) :=
  match longest s core slot .save, longest s core slot .trap with
  | g :: gs, _ => (g :: gs).map (·, .save)
  | [], g :: gs => (g :: gs).map (·, .trap)
  | [], [] => (longest s core slot .ordinary).map (·, .ordinary)

/-- The issue turn of a slot. -/
noncomputable def slotTurn (s : State) (core slot : Nat) : Option Turn :=
  (slotChoices s core slot).head?.map fun x => .issue core slot x.1 x.2

/-- The waves of the admitted teams. -/
def allWaves (s : State) : List WaveRef :=
  s.teams.flatMap fun t => (List.range t.waves.length).map fun i => ⟨t.id, i⟩

/-- The event by which the matrix engine goes on with a command that it has taken (R230, R284). -/
noncomputable def matrixTurn (core : Nat) (c : MxCmd) : Instr :=
  let aon := bit (fieldB c.blk 0x10 16) 122
  if (c.opc = 0x381 ∨ c.opc = 0x350) ∧ aon then .aonStore core
  else if c.opc = 0x381 then .matrixStoreRows core
  else if c.opc = 0x382 then .matrixLoadTile core
  else if c.opc = 0x384 then .requantiseBlockColumn core
  else if c.opc = 0x350 then .matrixStoreRows core
  else if c.opc = 0x351 then .versionedTileRead core
  else .matrixStep core

/-- The matrix engine goes on with a command, or takes one. -/
noncomputable def matrixTurns (s : State) (core : Nat) : List Instr :=
  match mxHead s core with
  | some c => [matrixTurn core c]
  | none => bif (mxQueue s core).any fun c => !c.taken then [.matrixCommandTake core] else []

/-- The events by which the access processor goes on with its first command. -/
noncomputable def accessTurns (core : Nat) (c : ApCmd) : List Instr :=
  if c.opc = 0x332 then [.apGatherStep core]
  else if c.opc = 0x333 then [.apScatterPosition core]
  else [.apCopyRow core, .apQueuePush core]

/-- The event by which a placement unit takes a bag command. -/
noncomputable def bagTurn (c : BagCmd) : Instr :=
  match c.op with
  | .new _ => .bagNewTake c.id | .put .. => .bagPutTake c.id | .snap => .bagSnapTake c.id
  | .seal => .bagSealTake c.id | .free => .bagFreeTake c.id | .each .. => .bagEachTake c.id
  | .drain _ => .bagDrainTake c.id | .cnt .. => .bagCntTake c.id | .grow _ => .bagGrowTake c.id

/-- The event by which a root or crown command is taken. -/
noncomputable def rootTurn (c : RootCmd) : Option Instr :=
  match c.op with
  | .run .. => some (.rootRunTake c.id) | .bmac _ => some (.bmacTake c.id)
  | .sum .. => some (.crownSumTake c.id) | .clr => some (.crownClrTake c.id)
  | .each _ | .task .. => none

/-- The turns of the schedulers: records, tasks, admissions, swaps, releases and completions. -/
noncomputable def schedulerTurns (s : State) : List Instr :=
  let cores := (List.range 4096).filter (coreEnabled s)
  let on := s.cores.map (·.id)
  List.flatten [
    (s.fns.map fun f => .launchRecordTake f.id),
    (s.launches.flatMap fun l =>
      ((l.tasks.filter fun t => t.phase == .waiting).map fun t => .taskStart l.id t.index)
      ++ (((List.range l.nt).find? fun i => (l.task? i).isNone).map fun i => .taskStart l.id i).toList
      ++ ((l.tasks.filter fun t => t.phase == .ready).flatMap fun t =>
          ((cores.find? fun c => canAdmit s l t c).map fun c => .teamAdmit l.id t.index c).toList)
      ++ [.ringUnitRelease l.id, .launchComplete l.id]),
    ((s.saved.filter fun v => !v.restoring).flatMap fun v =>
      ((cores.find? fun c => (restoreCores s v c).isSome).map fun c => .teamRestore v.team.id c).toList),
    (on.flatMap fun c => (List.range 4).flatMap fun k =>
      (((slotRefs s c k).find? fun x => swappable s x.1 x.2).map fun x => .swapOut x.1).toList ++
        bif (swapInOrder s c k).isEmpty then [] else [.swapIn c k])]

/-- The turns of the collector, of waves and engines that stop for it, and those that the time has reached. -/
noncomputable def collectorTurns (s : State) : List Instr :=
  List.flatten [
    (s.collects.flatMap fun c =>
    bif !c.begun then [.preemptRequest c.fn] else
      (bif Config.forceCycles + c.since ≤ s.cycle then [.forcedSaveTimeout c.fn] else [])
      ++ ((c.live s).flatMap fun t => (List.range t.waves.length).map fun i => .saveModeEntry ⟨t.id, i⟩)
      ++ ((c.acks ++ enginesWith s (inSetOf c.fn c.wide c.teams)).dedup.map fun e => .engineStopAck e)),
    (match s.slice with
    | some x =>
      (bif !x.active && x.start.toNat ≤ s.ctime.toNat then [.sliceStart] else [])
        ++ (bif x.active && x.start.toNat + x.len.toNat ≤ s.ctime.toNat then [.sliceEnd] else [])
    | none => []),
    (bif (s.periods + 1) * Config.periodCycles ≤ s.cycle then [.periodEnd] else [])]

/-- The turns of engines and services that go on by themselves, each where it has something to do. -/
noncomputable def serviceTurns (s : State) : List Instr :=
  List.flatten [
    (s.fns.flatMap fun f => f.bags.flatMap fun e => match e.bag with
    | some b => (b.drain.toList.filter fun d => !d.stop).map fun d => .bagDrainComplete d.id
    | none => []),
    ((s.cores.filter fun c => match pushing s c.id with
      | some (m, g) => queueEntries ≤ queueLen s m.by_.team g.dst && m.since + Config.stallCycles ≤ s.cycle
      | none => false).map fun c => .apQueueStall c.id),
    ((s.rowCounts.filter fun x => Config.rowThreshold < x.2).map fun x => .rowDisturbance x.1.1 x.1.2.1 x.1.2.2.1),
    (bif s.toRetire.isEmpty then [] else [.frameRetirement]),
    (s.rates.zipIdx.flatMap fun x =>
      (bif x.1.want.isSome && x.1.st != 2 && (x.1.st != 1 || x.1.hold ≤ s.cycle) then [.stackRetrain x.2] else [])
        ++ (bif x.1.st == 2 then [.stackRetrainingEnd x.2] else [])),
    (bif s.mailbox.sts == 1 then [.attestDataReady true] else []),
    ((s.links.zipIdx.filter fun x => x.1.st == 2 && 10 ≤ x.1.nakRun.2).map fun x => .linkRetrain x.2)]

/-- The turns that the machine could take by itself. -/
noncomputable def ownTurns (s : State) : List Turn :=
  List.flatten [
    (s.teams.flatMap fun t => (List.range 4).filterMap fun k => slotTurn s t.core k).dedup,
    ((s.units.filter fun u => !u.invs.isEmpty).map fun u => Turn.root u.id),
    ((allWaves s).flatMap fun r => match s.wave? r with
      | none => []
      | some w => (w.loads.map fun p => Turn.event (.loadComplete r p.id))
        ++ (bif w.stores.isEmpty then [] else [Turn.event (.storeRetire r false)])
        ++ (bif w.facts.isEmpty then [] else [Turn.event (.factComplete r)])
        ++ (bif !w.naps.isEmpty then [Turn.event (.napExpiry r)] else [])),
    (s.teams.flatMap fun t => (t.act.zipIdx.filter fun a => a.1.shadow.isSome).map fun a =>
      Turn.event (.actLdFlip t.id (BitVec.ofNat 2 a.2))),
    ((List.range s.walks.length).map fun k => Turn.event (.pageWalkComplete k)),
    ((List.range s.migrations.length).map fun k => Turn.event (.migrationComplete k false)),
    (s.promotions.map fun n => Turn.event (.remotePromotionRequest n)),
    (s.posts.map fun p => Turn.event (.taskPostReply p.id)),
    (s.bagCmds.map fun c => Turn.event (bagTurn c)),
    (s.arrivals.map fun a => Turn.event (.bagAnswerArrival a.id)),
    ((s.rootCmds.filter fun c => !c.taken).filterMap fun c => (rootTurn c).map Turn.event),
    ((s.units.filter fun u => !(unitWaits s u.id).isEmpty).map fun u => Turn.event (.rootInvocationStart u.id)),
    ((s.units.filter fun u => !u.bmacs.isEmpty).map fun u => Turn.event (.bmacRowGroup u.id [])),
    (s.cores.flatMap fun c => (matrixTurns s c.id
      ++ ((apHead s c.id).map fun a => accessTurns c.id a).getD []).map Turn.event),
    ((List.range s.charges.length).take 1 |>.map fun k => Turn.event (.chargePost k)),
    ((schedulerTurns s ++ collectorTurns s ++ serviceTurns s).map Turn.event)]

/-- The turn taken when the agenda is empty: the machine's own turns in rotation; none when it is idle. -/
noncomputable def defaultTurn (s : State) : Option Turn :=
  let ts := ownTurns s
  ts[s.turns % ts.length]?

/-- Every turn takes some cycles of the arithmetic clock, and PSTAT shows what the sensors report then (R333, log 3). -/
def tick (s : State) : State :=
  let n := Config.cyclesOf s.turns
  let (tj, pw) := Config.pstatOf s.turns
  { s with turns := s.turns + 1, cycle := s.cycle + n, ctime := s.ctime + BitVec.ofNat 64 n, pstat := (0 : Word) ++ tj ++ pw }

/-- A row is activated for a function's access (R323). -/
def activate (s : State) (k : Nat × Nat × Nat × Nat) : State :=
  { s with rowCounts := alSet k ((alGet s.rowCounts k).getD 0 + 1) s.rowCounts }

/-- One turn. Instructions are issued by slots and units alone, so an agenda runs only the machine's own steps, and a
slot issues only for a group that R21 lets it choose. -/
noncomputable def runTurn (s : State) : Turn → Prep
  | .event i => if i.shape.isNone then .run i s else .done s
  | .issue c k g x => bif (slotChoices s c k).contains (g, x) then prepareIssue s c k g x else .done s
  | .root q => prepareRoot s q
  | .hostWrite a b => .done (writeBytes s (.host a) b)
  | .bar0 f o w x => .done (bar0Access s f o w x)
  | .sendCommand n f c ps => .done (sendCommand s n f c ps)
  | .lineError n c => .done (lineError s n c)
  | .rowError f k i n c => .done (rowError s f k i n c)
  | .activation k b r f => .done (activate s (k, b, r, f))

/-- A team that leaves, or counts that fall, let other things happen at once, before the next turn: a pre-emption
completes, held work goes back, replies are sent, restored teams resume, a free access processor chooses a command,
waves join the swap-in order, and a slice starts. Irreducible, so that comparing steps does not evaluate it. -/
@[irreducible] def settle (s : State) : State :=
  let s := flushHeaders (countErrors s)
  let s := finishSysOps (resumeDrains (returnRoots (countRootCmds (finishCollects (finishResets (endFailed s))))))
  let s := startSlice (resumeTeams s)
  let s := s.cores.foldl (fun s c => apChoose s c.id) s
  { s with teams := s.teams.map fun t => { t with waves := t.waves.map (Wave.waits s.cycle) } }

/-- What the next step runs. -/
noncomputable def prepare (s : State) : Prep :=
  let s := settle (tick s)
  match s.agenda with
  | t :: rest => runTurn { s with agenda := rest } t
  | [] => match defaultTurn s with
    | some t => runTurn s t
    | none => .done s

end Sys2Proof.Machine
end

