-- ==== Sys2Proof/Machine/Step.lean ====
section
/-! DEFINITION. One step of the machine: the turn that the state names, and the instruction or event it runs; and
the state in which a given instruction is the one the next step fetches. -/
namespace Sys2Proof.Machine

/-- One step (log 4). -/
noncomputable def step (s : State) : Host.Outcome State Fault Refusal :=
  match prepare s with
  | .done s' | .idle s' => .next s'
  | .run i s' => onNext (endIssue i) (exec i s')

/-- The supervisor's tables map virtual page 0 to frame 0x10000, executable and readable (R267 to R269). -/
def fetchTables : List (Nat × Nat) :=
  [(0, 2 ^ 63 + 0x2000), (0x2000, 2 ^ 63 + 0x4000), (0x4000, 2 ^ 63 + 0x6000),
   (0x6000, 2 ^ 63 + 2 ^ 60 + 2 ^ 58 + 0x10000)]

/-- Where the placed instruction stands. -/
def fetchPc : Nat := 0x100

/-- Memory with the tables and an instruction of at most four parcels. -/
def fetchMem (m : List Host.Cell) (w : Nat) : List Host.Cell :=
  writeCells (0x10000 + fetchPc) (leBytes 16 w)
    (fetchTables.foldl (fun m e => writeCells e.1 (leBytes 8 e.2) m) m)

/-- A launch, a team of one wave of width 8 with every register declared, and its lanes inside a block at the
instruction. -/
def fetchTeam (id core : Nat) : Team :=
  let l : Lane := { pc := fetchPc, anchor := fetchPc - 8, pos := .inside, blk := { stop := fetchPc + 32, liveV := 512, liveS := 128, liveP := 16 } }
  { id := id, launch := id, core := core, accs := List.replicate 4 { e := List.replicate 256 0, g := List.replicate 16 0 }
    act := List.replicate 4 {}
    waves := [{ regs := Regs.init 8 512 128, lanes := List.replicate 8 l, group := id, entry := some 0 }] }

/-- A core that holds no team: core 0 after reset. -/
def freeCore (s : State) : Nat := ((List.range (s.teams.length + 1)).find? fun c => s.teams.all fun t => t.core != c).getD 0

/-- `s` with an instruction placed where the next step fetches (log 4): the operations of root units alone run in
an invocation of unit 0, every other one in a wave of the supervisor on a core of its own. -/
def State.withFetchWord (s : State) (nbits w : Nat) : State :=
  let x := w % 2 ^ nbits
  let id := s.nextId
  let s := { s with mem := fetchMem s.mem x }
  let s := s.modFn 0 fun f => { f with troot := 0, dtab := none }
  let p0 := BitVec.ofNat 32 x
  let opc := bif parcelCls p0 == 0xC then opcOf (BitVec.ofNat 32 (x >>> 32)) else opcOf p0
  if 0x3A4 ≤ opc && opc ≤ 0x3AB then
    let v : Inv := { (Inv.start { kind := .task, nrec := 32, z := 64, pages := [(0x20000, true)] }) with
                     pc := fetchPc, head := false, stop := fetchPc + 32 }
    { s.modUnit 0 fun u => { u with invs := v :: u.invs } with agenda := .root 0 :: s.agenda }
  else
    { s with
      nextId := id + 1
      launches := { id := id, entry := fetchPc - 8, v := 512, s := 128 } :: s.launches
      teams := fetchTeam id (freeCore s) :: s.teams
      agenda := .issue (freeCore s) 0 id .ordinary :: s.agenda }

end Sys2Proof.Machine
end

