-- ==== Sys2Proof/Safety.lean ====
section
/-! DEFINITION. The terms in which claims speak of the machine: a safe step, the canonical form of memory, the issue
in progress, and what an instruction does in every part of it. -/
namespace Sys2Proof.Machine

/-- Device memory and host memory are in canonical form. -/
def State.MemWf (s : State) : Prop := Memory.wf s.mem = true ∧ Memory.wf s.hostMem = true

/-- A step is safe when it answers a next state. -/
def SafeStep (s : State) : Prop := ∃ t, step s = .next t

/-- No part of the issue `i` finds a trap by `chk`. -/
def NoTraps (chk : State → Ctx → List (Nat × TrapInfo)) (h : Head) (i : Issue) (s : State) : Prop :=
  ∀ c ∈ contexts s i h, chk s c = []

/-- Every part of the issue acts, in order (R78). -/
def partsEffect (act : Issue → Ctx → State → State) (h : Head) (i : Issue) (s : State) : State :=
  (contexts s i h).foldl (fun s c => act i c s) s

/-- Every part gets new registers, and its issuing lanes move to the next instruction (R77, R78). -/
def regEffect (f : Ctx → Regs) (h : Head) (i : Issue) (s : State) : State :=
  partsEffect (fun i c s => advance (putRegs s c (f c)) i c c.iss) h i s

/-- A uniform register written once, when E is not empty (R78). -/
def uniW (d : UReg) (f : Ctx → Word) (c : Ctx) : Regs := if c.e = 0 then c.r else c.r.setS d.toNat (f c)

/-- A uniform pair written once, when E is not empty (R78, R83). -/
def pairW (d : UReg) (f : Ctx → DWord) (c : Ctx) : Regs := if c.e = 0 then c.r else c.r.setPair d.toNat (f c)

/-- A vector register written element by element under R29. -/
def vecW (d : VReg) (f : Ctx → Nat → Word) (c : Ctx) : Regs := c.putV c.r d.toNat (f c)

/-- A predicate written element by element under R29. -/
def predW (d : PReg) (f : Ctx → Nat → Bool) (c : Ctx) : Regs := c.putP c.r d.toNat (f c)

/-- A predicate written in the lanes of E, when there are any; the write to `p0` is lost (R85). -/
def predE (d : PReg) (m : Ctx → Mask) (c : Ctx) : Regs :=
  if c.e = 0 then c.r else c.r.setP d.toNat ((c.r.getP d.toNat &&& ~~~c.e) ||| (m c &&& c.e))

/-- A vector register written with results that carry flags: the flags of the active elements are ORed into
`%fflags`, on a core alone (R116, R171, R208). -/
def floatW (d : VReg) (f : Ctx → Nat → Word × BitVec 6) (c : Ctx) : Regs :=
  addFlags c (allFlags c fun e => (f c e).2) (vecW d (fun c e => (f c e).1) c)

/-- No part has an enabled arithmetic exception among the flags of its active elements (R116, R312). -/
def NoFloatTraps (f : Ctx → Nat → BitVec 6) (h : Head) (i : Issue) (s : State) : Prop :=
  NoTraps (fun _ c => floatTraps f c) h i s

/-- The enabled flags that arose in each lane of E of a part on a core (R116, R312). -/
def enabledIn (f : Ctx → Nat → BitVec 6) (c : Ctx) : List (Nat × BitVec 6) :=
  if c.ref = none then [] else (c.e.lanes.map fun l => (l, laneFlags c (f c) l &&& c.r.fflags.extractLsb' 8 6)).filter fun x => x.2 ≠ 0

/-- An enabled exception in some lane of an issue stops it: every lane whose predicate is false moves on, those lanes trap
with cause 11 and their enabled flags as code, and nothing is written (R116). -/
def Suppressed (r : Host.Outcome State Fault Refusal) (f : Ctx → Nat → BitVec 6) (h : Head) (i : Issue) (s : State) : Prop :=
  ∀ c ∈ contexts s i h, enabledIn f c ≠ [] → r = .next (raiseAll
    ((contexts s i h).foldl (fun s c => bif c.ref.isSome then advance s i c (c.iss &&& ~~~c.e) else s) s)
    ((contexts s i h).map fun c => (c, (enabledIn f c).map fun x => (x.1, ({ cause := 11, code := x.2.toNat } : TrapInfo)))))

/-- The number that a finite value stands for; 0 for any other value. -/
def FVal.num (v : FVal) : ℚ :=
  match v with
  | .fin n m e => (if n then -1 else 1) * (m : ℚ) * (2 : ℚ) ^ e
  | _ => 0

/-- Numbers and infinities in their order: an infinity lies beyond every number of the formats. -/
def FVal.far (v : FVal) : ℚ :=
  match v with
  | .inf n => if n then -2 ^ 200 else 2 ^ 200
  | v => v.num

/-- The exact real `z` holds the positive solution `y` of `g y = x`, for a `g` that rises, and with 32 bits at least. -/
def Ex.Brackets (z : Ex) (g : ℚ → ℚ) (x : ℚ) : Prop :=
  let u : ℚ := (2 : ℚ) ^ z.e
  2 ^ 32 ≤ z.m ∧ if z.more then g (z.m * u) < x ∧ x < g ((z.m + 1) * u) else g (z.m * u) = x

/-- `z` is the integer that `x` is rounded to in a directed or nearest mode (R204). -/
def RoundsTo (rm : RMode) (x : ℚ) (z : ℤ) : Prop :=
  match rm with
  | .rtz => z = if x < 0 then ⌈x⌉ else ⌊x⌋
  | .rdn => z = ⌊x⌋
  | .rup => z = ⌈x⌉
  | .rne => |x - z| ≤ 1 / 2 ∧ (|x - z| = 1 / 2 → z % 2 = 0)
  | .rna => |x - z| ≤ 1 / 2 ∧ (|x - z| = 1 / 2 → |x| < |(z : ℚ)|)
  | .sto _ => False

/-- The value of code `c` of a 4-bit block type (R211). -/
def codeVal (ty c : Nat) : ℚ :=
  let half := fun (l : List ℚ) => if c < 8 then l.getD c 0 else -l.getD (c - 8) 0
  match ty with
  | 0 => if c < 8 then (c : ℚ) else (c : ℚ) - 16
  | 1 => half [0, 1 / 2, 1, 3 / 2, 2, 3, 4, 6]
  | 2 => if c = 8 then 0 else half [1 / 8, 1 / 4, 1 / 2, 1, 2, 4, 8, 16]
  | _ => half [0, 1, 2, 3, 4, 6, 8, 12]

/-- Operands of element `e`: `a`, `b` and `c` of a vector instruction. -/
def Ctx.at_ (c : Ctx) (v : VReg) (e : Nat) : Word := c.r.elem v.toNat e

/-- Every element that an access names is in the range, aligned, translated and resident (R136). -/
def AllReach (f : MemForm) (elems : Ctx → List Elem) (h : Head) (i : Issue) (s : State) : Prop :=
  ∀ c ∈ contexts s i h, ∀ r, c.ref = some r → ∀ x ∈ elems c, ∃ l p d, reach s r f x.a = .ok l p d

/-- Every taken lane's target stands in a page that can be fetched, and holds a header where the page is resident
(R86). -/
def TargetsHold (taken : Ctx → List (Nat × Int)) (h : Head) (i : Issue) (s : State) : Prop :=
  ∀ c ∈ contexts s i h, ∀ x ∈ taken c, targetAt s (ctxFn s c) x.2 ≠ .bad ∧ targetAt s (ctxFn s c) x.2 ≠ .noHeader

/-- Every part branches: its registers with the link, its taken lanes to their targets, the others on (R86, R89). -/
def branchEffect (taken : Ctx → List (Nat × Int)) (link : Ctx → Regs) (h : Head) (i : Issue) (s : State) : State :=
  (contexts s i h).foldl (fun s c => branchPart i (putRegs s c (link c)) c (taken c)) s

/-- The six forms of a branch, each with its taken lanes and their targets, and its registers after the link: a direct
target counts from the branch's address without its low three bits, an indirect one from the entry header, and the link
is the offset of the block's end (R67, R86 to R89). -/
def branchForms (h : Head) (o : BrCc) (v : BrVoteOp) (sa : UReg) (k : CallOp) (off : Off) (s : State) (i : Issue) :
    List (Instr × (Ctx → List (Nat × Int)) × (Ctx → Regs)) :=
  let near := fun (off : Off) => ((i.pc - i.pc % 8 : Nat) : Int) + off.bytes
  let all := fun (c : Ctx) (a : Nat → Int) => c.e.lanes.map fun l => (l, a l)
  let link := fun (c : Ctx) => offsetOf (ctxEntry s c) i.stop
  [(.brCc h o, (fun c =>
      let a := c.r.getS o.sa.toNat
      let b := c.r.getS o.sb.toNat
      if (match o.cnd with
        | .eq => decide (a = b)
        | .ne => decide (a ≠ b)
        | .lt => decide (a.toInt < b.toInt)
        | .ge => decide (b.toInt ≤ a.toInt)
        | .ltn => decide (a.toNat < b.toNat)
        | .gen => decide (b.toNat ≤ a.toNat)
        | .always => true) then all c fun _ => near o.off else []), (·.r)),
   (.brVote h v, (fun c =>
      let holds := fun (l : Nat) => (c.r.getP v.pa.toNat).getLsbD l
      -- in root code the lanes below `%vl` alone vote (R173)
      let voters := (List.range 64).filter fun l => c.e.getLsbD l && (c.ref.isSome || decide (l < c.r.vl))
      if (match v.cnd with
        | .any => voters.any holds
        | .all => voters.all holds
        | .none => !voters.any holds
        | .nall => !voters.all holds) then all c fun _ => near v.off else []), (·.r)),
   (.jmpUniform h sa, (fun c => all c fun _ => ctxEntry s c + (c.r.getS sa.toNat).toNat), (·.r)),
   (.jmpVector h, (fun c => all c fun l => ctxEntry s c + (c.r.getV h.v4 l).toNat), (·.r)),
   (.callUniform h k, (fun c => all c fun _ => near k.off), uniW k.sa link),
   (.callVector h off, (fun c => all c fun _ => near off), fun c => c.e.lanes.foldl (fun r l => r.setV h.v4 l (link c)) c.r)]

/-- The state changes nothing but teams: lanes, registers and what else a team holds. -/
def OnlyTeams (s t : State) : Prop := t = { s with teams := t.teams }

/-- Every element of a list is in the range, aligned, translated and resident, at the place given (R136). -/
def AllAt (s : State) (r : WaveRef) (f : MemForm) (xs : List Elem) (place : Elem → Loc) : Prop :=
  ∀ x ∈ xs, ∃ p d, reach s r f x.a = .ok (place x) p d

/-- What an access that can be performed does before it goes out: D is set in the pages it stores to (R270), and its
lines are charged (R146, R282); translations that walks had left for it are used up. -/
def accessStart (s : State) (r : WaveRef) (c : Ctx) (f : MemForm) (xs : List Elem) (place : Elem → Loc) : State :=
  let s1 := dropWalked s c
  let s2 := if f.wr then markDirty s1 (s.fnOf r) 0 (xs.map fun x => (x, reach s r f x.a)) else s1
  (if f.rd && f.wr then chargeEach else chargeIssueLines) s2 (s.fnOf r) (s.coreOf r)
    (xs.map fun x => chargedAt s2 r (f.wr && !f.rd) (place x))

/-- A form that accesses memory, as R136 sees it: what it asks of an address, whether it makes one access for the wave,
its elements, and the counter that it counts on. -/
structure AccessForm where
  instr : Instr
  form  : MemForm
  uni   : Bool
  elems : Ctx → List Elem
  ctr   : Ctr

/-- The loads, stores, uniform forms, atomics and updates (R140, R142, R281). -/
noncomputable def accessForms (h : Head) (o : VMem) (u : UMem) (a : AtomOp) : List AccessForm :=
  let vec := fun (c : Ctr) (x : Instr × Nat × Bool) =>
    ({ instr := x.1, form := { sp := o.m.sp, size := x.2.1, nib := x.2.2, rd := c == .ld, wr := c == .st }, uni := false
       elems := memElems o.m x.2.2, ctr := c } : AccessForm)
  let one := fun (c : Ctr) (x : Instr × Nat) =>
    ({ instr := x.1, form := { sp := u.m.sp, size := x.2, rd := c == .ld, wr := c == .st }, uni := true
       elems := uniElems u.m, ctr := c } : AccessForm)
  let atom := fun (c : Ctr) (x : Instr) =>
    ({ instr := x, form := { sp := a.sp, size := 4, rd := true, wr := true }, uni := false
       elems := memElems { sp := a.sp, ix := a.ix, sb := a.sb, disp := match a.disp with | none => .short 0 | some d => .long d } false
       ctr := c } : AccessForm)
  [(.ldB32 h o, 4, false), (.ldI8 h o, 1, false), (.ldN8 h o, 1, false), (.ldF16 h o, 2, false), (.ldB4 h o, 1, true),
    (.ldW2 h o, 8, false), (.ldW4 h o, 16, false)].map (vec .ld)
  ++ [(.stB32 h o, 4, false), (.stN8 h o, 1, false), (.stF16 h o, 2, false), (.stB4 h o, 1, true), (.stW2 h o, 8, false),
    (.stW4 h o, 16, false)].map (vec .st)
  ++ [(.ldsB32 h u, 4), (.ldsW2 h u, 8)].map (one .ld) ++ [(.stsB32 h u, 4), (.stsW2 h u, 8)].map (one .st)
  ++ [.atomAdd h a, .atomMinI32 h a, .atomMinN32 h a, .atomMaxI32 h a, .atomMaxN32 h a, .atomAnd h a, .atomOr h a, .atomXor h a,
    .atomXchg h a, .atomCas h a, .atomFadd h a].map (atom .ld)
  ++ [.updAdd h a, .updMinI32 h a, .updMinN32 h a, .updMaxI32 h a, .updMaxN32 h a, .updAnd h a, .updOr h a, .updXor h a,
    .updFadd h a].map (atom .st)

/-- The full/empty forms, which count on nothing (R144). -/
noncomputable def wordForms (h : Head) (o : VMem) : List AccessForm :=
  [.ldSync h o, .stSync h o, .stFill h o, .feClr h o.m].map fun x =>
    { instr := x, form := { sp := o.m.sp, size := 4, rd := false, wr := false }, uni := false, elems := memElems o.m false, ctr := .ld }

/-- What the destination of element `e` gets, in `words` registers: its data, zero, or nothing (R29, R138). -/
def elemData (c : Ctx) (rd words e : Nat) (src : Nat → LdSrc) : List LdElem :=
  let dst := fun j => LdDst.v (rd + j + e / c.w) (e % c.w)
  match c.kind e with
  | .active => (List.range words).map fun j => { dst := dst j, src := src j }
  | .zeroed => (List.range words).map fun j => { dst := dst j, src := .known 0 }
  | .untouched => []

/-- The error ring of a function has room for a record (R315). -/
def RingRoom (s : State) (f : Nat) : Prop :=
  s.hasFn f = true ∧ ((s.fn f).err.prod - (s.fn f).err.cons).toNat < (s.fn f).err.size.toNat

/-- Between two states one record has been written to a function's error ring, in host memory at the producer index, with
the ring's next SEQ, and vector 1 is signalled (R315, R329). -/
def Recorded (s t : State) (f : Nat) (e : ErrRec) : Prop :=
  let r := (s.fn f).err
  (t.fn f).err.prod = r.prod + 1 ∧ (t.fn f).seq = (s.fn f).seq + 1 ∧ (t.fn f).msix1 = true
    ∧ readBytes t (.host ((r.base.toNat + 64 * (r.prod.toNat % r.size.toNat)) % 2 ^ 64)) 64 = e.bytes (s.fn f).seq

/-- The record of a fault of work that the wave `w` has issued: imprecise, and EXITED when the wave has ended (R316). -/
def workRec (b : Issuer) (w : Wave) (ln : Launch) (cause unit detail aux : Nat) : ErrRec :=
  { cause := BitVec.ofNat 32 cause, flg := if ∀ l ∈ w.lanes, l.run = .ended then 9 else 8, launch := ln.number
    task := BitVec.ofNat 32 b.task, wave := BitVec.ofNat 32 (b.wave % 16 + 16 * (b.teamNo % 2 ^ 24)), anchor := b.anchor
    unit := BitVec.ofNat 32 unit, detail := BitVec.ofNat 64 detail, aux := BitVec.ofNat 32 aux }

/-- The issue under way is made for the lanes `m` of one wave of a core. -/
def OnePart (s : State) (i : Issue) (r : WaveRef) (m : Mask) (w : Wave) (tm : Team) : Prop :=
  s.issue = some i ∧ (∃ core slot group, i.agent = .core core slot group [(r, m)]) ∧ s.wave? r = some w
    ∧ s.team? r.team = some tm

/-- The lanes of the parts that issue in a set that is not the ordinary one, `m`, or the ordinary one (R19). -/
def AllInMode (m : LaneMode) (h : Head) (i : Issue) (s : State) : Prop := ∀ c ∈ contexts s i h, ctxMode s c = m

end Sys2Proof.Machine
end

