-- ==== Sys2Proof/Certificates/Slice0/Obligations.lean ====
section
/-! DEFINITION. What is claimed of the model, for the provers: first each claim, whose docstring names the rules that it
formalises, or says that a clause is the model's own choice, with its log entry; then the obligations, each of which
states one or more of the claims whole. -/
namespace Sys2Proof

open Machine
/-! ### Uniform instructions (05_isa_uniform_control_sync) -/

/-- R80: the two-operand uniform forms complete for every operand, each part's result written once. `a` and `b` are
read as signed for `.i32` and as unsigned otherwise; P is the product of the class that ACC names, and the exact
class gives the product itself. -/
def Claim.UniformArithmetic : Prop :=
  ∀ (h : Head) (o : UBin) (s : State) (i : Issue), s.issue = some i →
    let a := fun (c : Ctx) => c.r.getS o.sa.toNat
    let b := fun (c : Ctx) => o.b.val c.r
    let A := fun c => tyVal o.ty (a c)
    let B := fun c => tyVal o.ty (b c)
    let P := fun c => mulInt 32 h.acc (A c) (B c)
    let writes := fun (f : Ctx → Word) => Host.Outcome.next (regEffect (uniW o.dst f) h i s)
    exec (.addUniform h o) s = writes (fun c => a c + b c)
    ∧ exec (.subUniform h o) s = writes (fun c => a c - b c)
    ∧ exec (.mulUniform h o) s = writes (fun c => BitVec.ofInt 32 (P c))
    ∧ exec (.mulhUniform h o) s = writes (fun c => BitVec.ofInt 32 (P c / 2 ^ 32))
    ∧ (h.acc = 0 → ∀ c, P c = A c * B c)
    ∧ exec (.minUniform h o) s = writes (fun c => if A c ≤ B c then a c else b c)
    ∧ exec (.maxUniform h o) s = writes (fun c => if A c ≤ B c then b c else a c)
    ∧ exec (.andUniform h o) s = writes (fun c => a c &&& b c)
    ∧ exec (.orUniform h o) s = writes (fun c => a c ||| b c)
    ∧ exec (.xorUniform h o) s = writes (fun c => a c ^^^ b c)
    ∧ exec (.andnUniform h o) s = writes (fun c => a c &&& ~~~b c)
    ∧ exec (.divUniform h o) s = writes (fun c => if b c = 0 then 0xFFFFFFFF else BitVec.ofInt 32 (Int.tdiv (A c) (B c)))
    ∧ exec (.remUniform h o) s = writes (fun c => if b c = 0 then a c
        else BitVec.ofInt 32 (A c - B c * Int.tdiv (A c) (B c)))
    ∧ (o.ty = .i32 →
        exec (.addsUniform h o) s = writes (fun c => BitVec.ofInt 32 (max (-2 ^ 31) (min (2 ^ 31 - 1) (A c + B c))))
        ∧ exec (.subsUniform h o) s = writes (fun c => BitVec.ofInt 32 (max (-2 ^ 31) (min (2 ^ 31 - 1) (A c - B c)))))
    ∧ (o.ty = .n32 →
        exec (.addsUniform h o) s = writes (fun c => BitVec.ofInt 32 (max 0 (min (2 ^ 32 - 1) (A c + B c))))
        ∧ exec (.subsUniform h o) s = writes (fun c => BitVec.ofInt 32 (max 0 (min (2 ^ 32 - 1) (A c - B c)))))

/-- R81 and R82: shifts by amounts of 0 to 63 and the compare, written once. `shr` shifts in copies of bit 31 for
`.i32`, and zeros otherwise. -/
def Claim.UniformShiftsAndCompare : Prop :=
  ∀ (h : Head) (o : UBin) (q : SetCc) (s : State) (i : Issue), s.issue = some i →
    let a := fun (c : Ctx) => c.r.getS o.sa.toNat
    let k := fun (c : Ctx) => match o.b with
      | .reg n => (c.r.getS n.toNat).toNat % 64
      | .imm x => x.toNat
      | .long x => x.toNat
    exec (.shlUniform h o) s = .next (regEffect (uniW o.dst fun c => BitVec.ofNat 32 ((a c).toNat * 2 ^ k c)) h i s)
    ∧ (o.ty = .i32 → exec (.shrUniform h o) s =
        .next (regEffect (uniW o.dst fun c => BitVec.ofInt 32 ((a c).toInt / 2 ^ k c)) h i s))
    ∧ (o.ty = .n32 → exec (.shrUniform h o) s =
        .next (regEffect (uniW o.dst fun c => BitVec.ofNat 32 ((a c).toNat / 2 ^ k c)) h i s))
    ∧ exec (.setCc h q) s = .next (regEffect (uniW q.dst fun c =>
        let x := tyVal q.ty (c.r.getS q.sa.toNat)
        let y := tyVal q.ty (q.b.val c.r)
        if (match q.cc with
          | .eq => decide (c.r.getS q.sa.toNat = q.b.val c.r)
          | .ne => decide (c.r.getS q.sa.toNat ≠ q.b.val c.r)
          | .lt => decide (x < y)
          | .ge => decide (y ≤ x)
          | .le => decide (x ≤ y)
          | .gt => decide (y < x)) then 1 else 0) h i s)

/-- R83: the pair forms, modulo 2^64, written as a whole; `ext` of `lea` is sign extension for `.i32` and zero
extension for `.n32`. -/
def Claim.PairArithmetic : Prop :=
  ∀ (h : Head) (o : UBin) (q : LeaOp) (s : State) (i : Issue), s.issue = some i →
    let a := fun (c : Ctx) => c.r.getPair o.sa.toNat
    let b := fun (c : Ctx) => o.b.val64 c.r
    let k := fun (c : Ctx) => match o.b with
      | .reg n => (c.r.getS n.toNat).toNat % 128
      | .imm x => x.toNat
      | .long x => x.toNat
    let writes := fun (f : Ctx → DWord) => Host.Outcome.next (regEffect (pairW o.dst f) h i s)
    exec (.add64 h o) s = writes (fun c => a c + b c)
    ∧ exec (.sub64 h o) s = writes (fun c => a c - b c)
    ∧ exec (.mulw h o) s = writes (fun c =>
        BitVec.ofInt 64 (mulInt 32 h.acc (tyVal o.ty (c.r.getS o.sa.toNat)) (tyVal o.ty (o.b.val c.r))))
    ∧ exec (.shl64 h o) s = writes (fun c => BitVec.ofNat 64 ((a c).toNat * 2 ^ k c))
    ∧ exec (.shr64 h o) s = writes (fun c => BitVec.ofNat 64 ((a c).toNat / 2 ^ k c))
    ∧ exec (.sar64 h o) s = writes (fun c => BitVec.ofInt 64 ((a c).toInt / 2 ^ k c))
    ∧ exec (.lea h q) s = .next (regEffect (pairW q.dst fun c =>
        let x := c.r.getS q.sb.toNat
        c.r.getPair q.sa.toNat + (if q.ty = .i32 ∨ q.ty = .i8 then x.signExtend 64 else x.setWidth 64)
          * BitVec.ofNat 64 (2 ^ q.k.toNat)) h i s)

/-- R84 and R42: moves, and moves to and from the special registers. A move to `%frm` keeps its value for codes 110 and
111, and one to `%fflags` takes the defined bits alone. A per-wave special register is read once; one that holds a
value for each lane gives lane `e mod w` to element `e`. -/
def Claim.UniformMoves : Prop :=
  ∀ (h : Head) (o : UImm) (u : U2) (q : FromSpecial) (v : VSpecial) (p : ToSpecial) (s : State) (i : Issue),
    s.issue = some i →
    exec (.movUniformImm h o) s = .next (regEffect (uniW o.dst fun _ => match o.imm with
        | .short x => x.signExtend 32
        | .long x => x) h i s)
    ∧ exec (.movUniformReg h u) s = .next (regEffect (uniW u.dst fun c => c.r.getS u.sa.toNat) h i s)
    ∧ exec (.mov64 h u) s = .next (regEffect (pairW u.dst fun c => c.r.getPair u.sa.toNat) h i s)
    ∧ (q.spec ∉ [0x04, 0x0A, 0x0B, 0x0C] → exec (.movUniformFromSpecial h q) s = .next (partsEffect (fun i c s =>
        let x := specVal s i c q.spec.toNat 0
        advance (putRegs s c (if q.pair then pairW q.dst (fun _ => x) c else uniW q.dst (fun _ => x.setWidth 32) c))
          i c c.iss) h i s))
    ∧ exec (.movVectorFromSpecial h v) s = .next (partsEffect (fun i c s =>
        advance (putRegs s c (vecW v.dst (fun c e => (specVal s i c v.spec.toNat (e % c.w)).setWidth 32) c)) i c c.iss) h i s)
    ∧ (p.spec = 0x0E → exec (.movToSpecial h p) s = .next (regEffect (fun c =>
        let x := (c.r.getS p.sa.toNat).setWidth 3
        if c.e = 0 ∨ x = 6 ∨ x = 7 then c.r else { c.r with frm := x }) h i s))
    ∧ (p.spec = 0x0F → exec (.movToSpecial h p) s = .next (regEffect (fun c =>
        if c.e = 0 then c.r else { c.r with fflags := c.r.getS p.sa.toNat &&& 0x00003F3F }) h i s))

/-- R41, R42: what each special register reads as, for lane `l` of an issue of wave `r`. Outside trap mode `%vpc` is the issued
instruction's own offset. A per-lane register with a uniform destination is illegal, reason 11, in each lane of E. -/
def Claim.SpecialValues : Prop :=
  (∀ (s : State) (i : Issue) (c : Ctx) (r : WaveRef) (w : Wave) (tm : Team) (ln : Launch) (l : Nat) (y : Lane),
    c.ref = some r → s.wave? r = some w → s.team? r.team = some tm → s.launch? tm.launch = some ln → w.lanes[l]? = some y →
    let v := fun (n : Nat) => specVal s i c n l
    let off := fun (a : Nat) => (BitVec.ofInt 32 ((a : Int) - ln.entry)).setWidth 64
    v 0x00 = BitVec.ofNat 64 c.r.vl ∧ v 0x01 = c.r.vtype.setWidth 64 ∧ v 0x02 = 64 ∧ v 0x03 = BitVec.ofNat 64 c.w
    ∧ v 0x04 = BitVec.ofNat 64 l ∧ v 0x05 = BitVec.ofNat 64 r.wave ∧ v 0x06 = BitVec.ofNat 64 tm.team
    ∧ v 0x07 = BitVec.ofNat 64 tm.gang ∧ v 0x08 = BitVec.ofNat 64 tm.task ∧ v 0x09 = ln.number.setWidth 64
    ∧ v 0x0A = off (if y.mode = .trap then y.trap.tpc else i.pc) ∧ v 0x0B = off (if y.mode = .trap then y.trap.tanc else y.anchor)
    ∧ v 0x0C = y.tcause.setWidth 64 ∧ v 0x0E = c.r.frm.setWidth 64 ∧ v 0x0F = c.r.fflags.setWidth 64
    ∧ v 0x10 = BitVec.ofNat 64 s.cycle ∧ v 0x11 = ln.seed ∧ v 0x12 = tm.ctx.aith.setWidth 64 ∧ v 0x13 = BitVec.ofNat 64 tm.fn
    ∧ ((∀ k, w.ctr k < 64) →
        let x := (v 0x0D).toNat
        bits x 5 0 = w.ctr .ld ∧ bits x 13 8 = w.ctr .st ∧ bits x 21 16 = w.ctr .cp ∧ bits x 29 24 = w.ctr .tl
          ∧ bits x 7 6 = 0 ∧ bits x 15 14 = 0 ∧ bits x 23 22 = 0 ∧ bits x 63 30 = 0))
  ∧ ∀ (h : Head) (q : FromSpecial) (s : State) (i : Issue) (core slot group : Nat) (r : WaveRef) (m : Mask) (w : Wave),
    s.issue = some i → i.agent = .core core slot group [(r, m)] → s.wave? r = some w →
    let c := mkCtx (some r) 0 w.regs m h
    c.e ≠ 0 → q.spec ∈ [0x04, 0x0A, 0x0B, 0x0C] → exec (.movUniformFromSpecial h q) s = .next (raiseAll
      (advance s i c (m &&& ~~~c.e)) [(c, inLanes c.e { cause := 1, rsn := 11 })])

/-- R85: predicate logic acts on the lanes of E alone, and its uniform results are written once. -/
def Claim.PredicateLogic : Prop :=
  ∀ (h : Head) (o : PBin) (u : PUn) (q : PFromU) (v : UFromP) (s : State) (i : Issue), s.issue = some i →
    let a := fun (c : Ctx) => c.r.getP o.a.toNat
    let b := fun (c : Ctx) => c.r.getP o.b.toNat
    let lanes := fun (c : Ctx) => (List.range 64).filter fun l => (c.e &&& c.r.getP v.a.toNat).getLsbD l
    exec (.pand h o) s = .next (regEffect (predE o.d fun c => a c &&& b c) h i s)
    ∧ exec (.por h o) s = .next (regEffect (predE o.d fun c => a c ||| b c) h i s)
    ∧ exec (.pxor h o) s = .next (regEffect (predE o.d fun c => a c ^^^ b c) h i s)
    ∧ exec (.pandn h o) s = .next (regEffect (predE o.d fun c => a c &&& ~~~b c) h i s)
    ∧ exec (.pnot h u) s = .next (regEffect (predE u.d fun c => ~~~c.r.getP u.a.toNat) h i s)
    ∧ exec (.pset h q) s = .next (regEffect (predE q.d fun c => c.r.getPair q.sa.toNat) h i s)
    ∧ exec (.pget h v) s = .next (regEffect (pairW v.dst fun c => c.e &&& c.r.getP v.a.toNat) h i s)
    ∧ exec (.pcnt h v) s = .next (regEffect (uniW v.dst fun c => BitVec.ofNat 32 (lanes c).length) h i s)

/-! ### Vector integer instructions and lanes (06_isa_vector_integer_and_lanes) -/

/-- R102: the arithmetic of active elements. -/
def Claim.VectorArithmetic : Prop :=
  ∀ (h : Head) (o : VBin) (u : VUnTy) (t : VTri) (s : State) (i : Issue), s.issue = some i →
    let a := fun (c : Ctx) e => c.at_ o.sa e
    let b := fun (c : Ctx) e => o.b.elem c e
    let A := fun c e => tyVal o.ty (a c e)
    let B := fun c e => tyVal o.ty (b c e)
    let P := fun c e => mulInt 32 h.acc (A c e) (B c e)
    let puts := fun (f : Ctx → Nat → Word) => Host.Outcome.next (regEffect (vecW o.dst f) h i s)
    exec (.addVector h o) s = puts (fun c e => a c e + b c e)
    ∧ exec (.subVector h o) s = puts (fun c e => a c e - b c e)
    ∧ exec (.minVector h o) s = puts (fun c e => if A c e ≤ B c e then a c e else b c e)
    ∧ exec (.maxVector h o) s = puts (fun c e => if A c e ≤ B c e then b c e else a c e)
    ∧ exec (.abs h u) s = .next (regEffect (vecW u.dst fun c e => BitVec.ofInt 32 |(c.at_ u.sa e).toInt|) h i s)
    ∧ exec (.absd h o) s = puts (fun c e => BitVec.ofInt 32 |A c e - B c e|)
    ∧ exec (.mulVector h o) s = puts (fun c e => BitVec.ofInt 32 (P c e))
    ∧ exec (.mulhVector h o) s = puts (fun c e => BitVec.ofInt 32 (P c e / 2 ^ 32))
    ∧ exec (.mad h t) s = .next (regEffect (vecW t.dst fun c e => BitVec.ofInt 32
        (mulInt 32 h.acc (tyVal t.ty (c.at_ t.sa e)) (tyVal t.ty (c.at_ t.sb e))) + c.at_ t.sc e) h i s)
    ∧ (o.ty = .i32 →
        exec (.addsVector h o) s = puts (fun c e => BitVec.ofInt 32 (max (-2 ^ 31) (min (2 ^ 31 - 1) (A c e + B c e))))
        ∧ exec (.subsVector h o) s = puts (fun c e => BitVec.ofInt 32 (max (-2 ^ 31) (min (2 ^ 31 - 1) (A c e - B c e)))))
    ∧ (o.ty = .n32 →
        exec (.addsVector h o) s = puts (fun c e => BitVec.ofInt 32 (max 0 (min (2 ^ 32 - 1) (A c e + B c e))))
        ∧ exec (.subsVector h o) s = puts (fun c e => BitVec.ofInt 32 (max 0 (min (2 ^ 32 - 1) (A c e - B c e)))))

/-- R103: shifts by the low six bits of the B operand or by the immediate, and funnel shifts of the 64 bits a·2^32 + b. -/
def Claim.VectorShifts : Prop :=
  ∀ (h : Head) (o : VBin) (q : Funnel) (s : State) (i : Issue), s.issue = some i →
    let a := fun (c : Ctx) e => c.at_ o.sa e
    let k := fun (c : Ctx) e => match o.b with
      | .imm x => x.toNat
      | _ => (o.b.elem c e).toNat % 64
    let x := fun (c : Ctx) e => (c.at_ q.sa e).toNat * 2 ^ 32 + (c.at_ q.sb e).toNat
    let n := fun (c : Ctx) e => if q.va then (c.r.elem h.v4 e).toNat % 32 else q.n.toNat
    exec (.shlVector h o) s = .next (regEffect (vecW o.dst fun c e => BitVec.ofNat 32 ((a c e).toNat * 2 ^ k c e)) h i s)
    ∧ (o.ty = .i32 → exec (.shrVector h o) s =
        .next (regEffect (vecW o.dst fun c e => BitVec.ofInt 32 ((a c e).toInt / 2 ^ k c e)) h i s))
    ∧ (o.ty = .n32 → exec (.shrVector h o) s =
        .next (regEffect (vecW o.dst fun c e => BitVec.ofNat 32 ((a c e).toNat / 2 ^ k c e)) h i s))
    ∧ exec (.fshl h q) s = .next (regEffect (vecW q.dst fun c e => BitVec.ofNat 32 (x c e * 2 ^ n c e / 2 ^ 32)) h i s)
    ∧ exec (.fshr h q) s = .next (regEffect (vecW q.dst fun c e => BitVec.ofNat 32 (x c e / 2 ^ n c e)) h i s)

/-- R104 to R106: logic, the three-input table, bit counts and bit fields. A field of L bits from `pos` on is extracted
with sign extension for `.i32`, and `bfi` replaces the bits of its destination from `pos` on. -/
def Claim.VectorLogicAndFields : Prop :=
  ∀ (h : Head) (o : VBin) (u : VUn) (t : Lut3Op) (q : BField) (s : State) (i : Issue), s.issue = some i →
    let a := fun (c : Ctx) e => c.at_ o.sa e
    let b := fun (c : Ctx) e => o.b.elem c e
    let puts := fun (f : Ctx → Nat → Word) => Host.Outcome.next (regEffect (vecW o.dst f) h i s)
    let each := fun (f : Word → Word) => Host.Outcome.next (regEffect (vecW u.dst fun c e => f (c.at_ u.sa e)) h i s)
    let pos := fun (c : Ctx) => match q.f with
      | .imm p _ => p.toNat
      | .uni n => (c.r.getS n.toNat).toNat % 32
    let L := fun (c : Ctx) => min (32 - pos c) (match q.f with
      | .imm _ l => l.toNat
      | .uni n => (c.r.getS n.toNat).toNat / 256 % 64)
    exec (.andVector h o) s = puts (fun c e => a c e &&& b c e)
    ∧ exec (.orVector h o) s = puts (fun c e => a c e ||| b c e)
    ∧ exec (.xorVector h o) s = puts (fun c e => a c e ^^^ b c e)
    ∧ exec (.andnVector h o) s = puts (fun c e => a c e &&& ~~~b c e)
    ∧ exec (.not h u) s = each (fun x => ~~~x)
    ∧ (∃ f, exec (.lut3 h t) s = .next (regEffect (vecW t.dst f) h i s) ∧ ∀ c e k, k < 32 →
        (f c e).getLsbD k = t.table.getLsbD (4 * ((c.at_ t.sa e).getLsbD k).toNat
          + 2 * ((c.at_ t.sb e).getLsbD k).toNat + ((c.at_ t.sc e).getLsbD k).toNat))
    ∧ exec (.popc h u) s = each (fun x => BitVec.ofNat 32 ((List.range 32).filter fun k => x.getLsbD k).length)
    ∧ exec (.clz h u) s = each (fun x => BitVec.ofNat 32 ((List.range 32).takeWhile fun k => !x.getLsbD (31 - k)).length)
    ∧ exec (.ctz h u) s = each (fun x => BitVec.ofNat 32 ((List.range 32).takeWhile fun k => !x.getLsbD k).length)
    ∧ (∃ f, exec (.brev h u) s = each f ∧ ∀ x k, k < 32 → (f x).getLsbD k = x.getLsbD (31 - k))
    ∧ (q.ty = .n32 → exec (.bfx h q) s = .next (regEffect (vecW q.dst fun c e =>
        ((c.at_ q.sa e >>> pos c).setWidth (L c)).setWidth 32) h i s))
    ∧ (q.ty = .i32 → exec (.bfx h q) s = .next (regEffect (vecW q.dst fun c e =>
        ((c.at_ q.sa e >>> pos c).setWidth (L c)).signExtend 32) h i s))
    ∧ (∃ f, exec (.bfi h q) s = .next (regEffect (vecW q.dst f) h i s) ∧ ∀ c e k, k < 32 →
        (f c e).getLsbD k = if pos c ≤ k ∧ k < pos c + L c then (c.at_ q.sa e).getLsbD (k - pos c)
          else (c.at_ q.dst e).getLsbD k)

/-- R107 and R108: compares write a predicate, and `sel` chooses by one. That `p0` as a selector is true at every
element of a group is the model's reading (log 11). -/
def Claim.CompareAndSelect : Prop :=
  ∀ (h : Head) (o : VCmp) (q : SelOp) (s : State) (i : Issue), s.issue = some i →
    let a := fun (c : Ctx) e => c.at_ o.sa e
    let b := fun (c : Ctx) e => o.b.elem c e
    let A := fun c e => tyVal o.ty (a c e)
    let B := fun c e => tyVal o.ty (b c e)
    let puts := fun (f : Ctx → Nat → Bool) => Host.Outcome.next (regEffect (predW o.pd f) h i s)
    exec (.cmpEq h o) s = puts (fun c e => decide (a c e = b c e))
    ∧ exec (.cmpNe h o) s = puts (fun c e => decide (a c e ≠ b c e))
    ∧ exec (.cmpLt h o) s = puts (fun c e => decide (A c e < B c e))
    ∧ exec (.cmpGe h o) s = puts (fun c e => decide (B c e ≤ A c e))
    ∧ exec (.cmpLe h o) s = puts (fun c e => decide (A c e ≤ B c e))
    ∧ exec (.cmpGt h o) s = puts (fun c e => decide (B c e < A c e))
    ∧ exec (.sel h q) s = .next (regEffect (vecW q.dst fun c e =>
        if q.selp = 0 ∨ (c.r.getP (q.selp.toNat + e / c.w)).getLsbD (e % c.w) = true then c.at_ q.sa e
        else q.b.elem c e) h i s)

/-- R109: packed bytes, signed for `.i8` and unsigned for `.n8`; byte `j` of an element is bits [8j+7:8j]. -/
def Claim.PackedBytes : Prop :=
  ∀ (h : Head) (o : VBin) (t : VTri) (q : PackOp) (s : State) (i : Issue), s.issue = some i →
    o.ty = .i8 ∨ o.ty = .n8 → q.ty = .i8 ∨ q.ty = .n8 →
    let num := fun (ty : Ty) (x : Word) j =>
      if ty = .i8 then (x.extractLsb' (8 * j) 8).toInt else ((x.extractLsb' (8 * j) 8).toNat : Int)
    let lo : Int := if o.ty = .i8 then -128 else 0
    let hi : Int := if o.ty = .i8 then 127 else 255
    let bytes := fun (r : Host.Outcome State Fault Refusal) (g : Int → Int → Int) =>
      ∃ f, r = .next (regEffect (vecW o.dst f) h i s) ∧ ∀ c e j, j < 4 →
        (f c e).extractLsb' (8 * j) 8 = BitVec.ofInt 8 (g (num o.ty (c.at_ o.sa e) j) (num o.ty (o.b.elem c e) j))
    bytes (exec (.padd h o) s) (fun a b => a + b)
    ∧ bytes (exec (.psub h o) s) (fun a b => a - b)
    ∧ bytes (exec (.padds h o) s) (fun a b => max lo (min hi (a + b)))
    ∧ bytes (exec (.psubs h o) s) (fun a b => max lo (min hi (a - b)))
    ∧ bytes (exec (.pmin h o) s) (fun a b => min a b)
    ∧ bytes (exec (.pmax h o) s) (fun a b => max a b)
    ∧ bytes (exec (.pabsd h o) s) (fun a b => |a - b|)
    ∧ exec (.pdot h t) s = .next (regEffect (vecW t.dst fun c e =>
        let p := fun j => mulInt 8 h.acc (byteI t.ty (c.at_ t.sa e) j) (byteI t.ty (c.at_ t.sb e) j)
        BitVec.ofInt 32 ((c.at_ t.sc e).toNat + p 0 + p 1 + p 2 + p 3)) h i s)
    ∧ (∃ f, exec (.pack h q) s = .next (regEffect (vecW q.dst f) h i s) ∧ ∀ c e j, j < 4 →
        let clamp := fun (x : Word) => BitVec.ofInt 8 (if q.ty = .i8 then max (-128) (min 127 x.toInt)
          else min 255 (x.toNat : Int))
        (f c e).extractLsb' (8 * j) 8 = if j = 2 * q.h.toNat then clamp (c.at_ q.sa e)
          else if j = 2 * q.h.toNat + 1 then clamp (q.b.elem c e)
          else (c.at_ q.dst e).extractLsb' (8 * j) 8)

/-- R111: values moved between elements; a source at or beyond `%vl` reads zero, and a rotation is modulo `%vl`. -/
def Claim.LaneMovement : Prop :=
  ∀ (h : Head) (o : LMove) (t : V3R) (u : LextOp) (q : LinsOp) (s : State) (i : Issue), s.issue = some i →
    let src := fun (c : Ctx) (v : VReg) (f : Int) => if 0 ≤ f ∧ f < c.vl then c.at_ v f.toNat else 0
    let k := fun (c : Ctx) (x : LaneArg) => match x with
      | .imm n => n.toInt
      | .uni n => (c.r.getS n.toNat).toInt
    let j := fun (c : Ctx) (x : LaneArg) => (match x with
      | .imm n => n.toNat
      | .uni n => (c.r.getS n.toNat).toNat : Nat)
    let puts := fun (f : Ctx → Nat → Word) => Host.Outcome.next (regEffect (vecW o.dst f) h i s)
    (∃ f, exec (.lrot h o) s = puts f ∧ ∀ c e, 0 < c.vl → f c e = src c o.sa ((e + k c o.k) % c.vl))
    ∧ exec (.lsh h o) s = puts (fun c e => src c o.sa (e + k c o.k))
    ∧ exec (.bcast h o) s = puts (fun c _ => src c o.sa (j c o.k))
    ∧ exec (.perm h t) s = .next (regEffect (vecW t.dst fun c e => src c t.sa ((c.at_ t.sb e).toNat : Int)) h i s)
    ∧ exec (.lext h u) s = .next (regEffect (uniW u.dst fun c => src c u.sa (j c u.k)) h i s)
    ∧ exec (.lins h q) s = .next (regEffect (fun c =>
        if j c q.k < c.vl ∧ c.kind (j c q.k) = .active then
          c.r.setV (q.dst.toNat + j c q.k / c.w) (j c q.k % c.w) (c.r.getS q.sa.toNat)
        else c.r) h i s)

/-- R112: votes and elections over the active elements, written once. The element masks of `vote.msk` fit 64 bits. -/
def Claim.Votes : Prop :=
  ∀ (h : Head) (o : UFromP) (q : UFromV) (pd : PReg) (s : State) (i : Issue), s.issue = some i →
    let true_ := fun (c : Ctx) e => o.a = 0 ∨ (c.r.getP (o.a.toNat + e / c.w)).getLsbD (e % c.w) = true
    let act := fun (c : Ctx) e => e < c.w * c.g ∧ c.kind e = .active
    (∃ f, exec (.voteAny h o) s = .next (regEffect (uniW o.dst f) h i s)
      ∧ ∀ c, (f c = 1 ∨ f c = 0) ∧ (f c = 1 ↔ ∃ e, act c e ∧ true_ c e))
    ∧ (∃ f, exec (.voteAll h o) s = .next (regEffect (uniW o.dst f) h i s)
      ∧ ∀ c, (f c = 1 ∨ f c = 0) ∧ (f c = 1 ↔ ∀ e, act c e → true_ c e))
    ∧ (∃ f, exec (.voteCnt h o) s = .next (regEffect (uniW o.dst f) h i s)
      ∧ ∀ c, f c = BitVec.ofNat 32 ((List.range (c.w * c.g)).countP fun e => decide (act c e ∧ true_ c e)))
    ∧ (∃ f, exec (.voteMsk h o) s = .next (regEffect (pairW o.dst f) h i s)
      ∧ ∀ c, c.w * c.g ≤ 64 → ∀ e, e < 64 → ((f c).getLsbD e = true ↔ act c e ∧ true_ c e))
    ∧ (∃ f, exec (.voteEq h q) s = .next (regEffect (uniW q.dst f) h i s)
      ∧ ∀ c, (f c = 1 ∨ f c = 0) ∧ (f c = 1 ↔ ∀ e e', act c e → act c e' → c.at_ q.sa e = c.at_ q.sa e'))
    ∧ (∃ f, exec (.elect h pd) s = .next (regEffect (predW pd f) h i s)
      ∧ ∀ c e, f c e = true ↔ act c e ∧ ∀ e' < e, ¬ act c e')

/-- R113: reductions and scans over the elements below `%vl`, with the identity where an element is not active, by the
rule's own tree: a level of distance `s` combines elements `e` and `e + s`, or `e − s` and `e`. The operations are those
of R102 and R104, each with its identity; for addition, `and`, `or` and `xor` every tree gives the exact fold. -/
def Claim.Reductions : Prop :=
  ∀ (h : Head) (o : RedArg) (q : ScanArg) (s : State) (i : Issue), s.issue = some i →
    let input := fun (op : RedOp) (ty : Ty) (v : VReg) (c : Ctx) (e : Nat) =>
      if c.kind e = .active then c.at_ v e else redId op ty
    let levels := fun (c : Ctx) (k : Nat) => c.vl ≤ 2 ^ k ∧ (k = 0 ∨ 2 ^ (k - 1) < c.vl) ∧ c.vl ≤ c.w * c.g
    let tree := fun (op : RedOp) (ty : Ty) (v : VReg) (c : Ctx) (k : Nat) =>
      (List.range k).foldl (fun (x : Nat → Word) j e => if e % 2 ^ (j + 1) = 0 then redFn op ty (x e) (x (e + 2 ^ j)) else x e)
        (fun e => if e < c.vl then input op ty v c e else redId op ty)
    let scan := fun (ty : Ty) (c : Ctx) (k : Nat) =>
      (List.range k).foldl (fun (x : Nat → Word) j e => if 2 ^ j ≤ e then redFn q.op ty (x (e - 2 ^ j)) (x e) else x e)
        (fun e => if e < c.vl then input q.op ty q.sa c e else redId q.op ty)
    let simple := fun (op : RedOp) => op = .add ∨ op = .and ∨ op = .or ∨ op = .xor
    let fold := fun (op : RedOp) (ty : Ty) (v : VReg) (c : Ctx) (n : Nat) =>
      (List.range n).foldl (fun a e => redFn op ty a (input op ty v c e)) (redId op ty)
    (∃ f, exec (.red h o) s = .next (regEffect (fun c => match o.dst with
        | .vec d => vecW d (fun c _ => f c) c
        | .uni d => uniW d f c) h i s)
      ∧ (∀ c k, levels c k → f c = tree o.op o.ty o.sa c k 0)
      ∧ (simple o.op → ∀ c, c.vl ≤ c.w * c.g → f c = fold o.op o.ty o.sa c c.vl))
    ∧ (∃ f, exec (.scan h q) s = .next (regEffect (vecW q.dst f) h i s)
      ∧ (∀ c k, levels c k → ∀ e < c.vl, f c e = scan q.ty c k e)
      ∧ (simple q.op → ∀ c e, e < c.vl → c.vl ≤ c.w * c.g → f c e = fold q.op q.ty q.sa c (e + 1)))
    ∧ (∃ f, exec (.scanx h q) s = .next (regEffect (vecW q.dst f) h i s)
      ∧ (∀ c k, levels c k → ∀ e < c.vl, f c e = if e = 0 then redId q.op q.ty else scan q.ty c k (e - 1))
      ∧ (simple q.op → ∀ c e, e < c.vl → c.vl ≤ c.w * c.g → f c e = fold q.op q.ty q.sa c e))
    ∧ ∀ (ty : Ty) (a b : Word), ty = .i32 ∨ ty = .n32 →
      redFn .min ty a b = (if tyVal ty a ≤ tyVal ty b then a else b)
      ∧ redFn .max ty a b = (if tyVal ty a ≤ tyVal ty b then b else a)
      ∧ redFn .adds ty a b = BitVec.ofInt 32 (if ty = .i32 then max (-2 ^ 31) (min (2 ^ 31 - 1) (a.toInt + b.toInt))
          else max 0 (min (2 ^ 32 - 1) ((a.toNat : Int) + b.toNat)))
      ∧ redFn .add ty a b = a + b ∧ redFn .and ty a b = a &&& b ∧ redFn .or ty a b = a ||| b ∧ redFn .xor ty a b = a ^^^ b
      ∧ ∀ op, redFn op ty (redId op ty) a = a ∧ redFn op ty a (redId op ty) = a

/-- R114 and R53: vector moves, and the indexed moves, which trap with a register-range fault when the computed
number is not a multiple of the group or names an undeclared register. -/
def Claim.VectorMoves : Prop :=
  ∀ (h : Head) (o : VUn) (u : VImm) (q : VFromU) (x : IxRead) (y : IxWrite) (s : State) (i : Issue),
    s.issue = some i →
    let num := fun (a : UReg) (imm : BitVec 9) (c : Ctx) => (c.r.getS a.toNat).toNat + imm.toNat
    let good := fun (a : UReg) (imm : BitVec 9) (c : Ctx) =>
      num a imm c % c.g = 0 ∧ num a imm c + c.g - 1 < c.r.v.length
    exec (.movVectorReg h o) s = .next (regEffect (vecW o.dst fun c e => c.at_ o.sa e) h i s)
    ∧ exec (.movVectorImm h u) s = .next (regEffect (vecW u.dst fun _ _ => match u.imm with
        | .short x => x.signExtend 32
        | .long x => x) h i s)
    ∧ exec (.movVectorUniform h q) s = .next (regEffect (vecW q.dst fun c _ => c.r.getS q.sa.toNat) h i s)
    ∧ ((∀ c ∈ contexts s i h, good x.a x.imm c) → exec (.movIxRead h x) s =
        .next (regEffect (vecW x.dst fun c e => c.r.elem (num x.a x.imm c) e) h i s))
    ∧ ((∀ c ∈ contexts s i h, good y.a y.imm c) → exec (.movIxWrite h y) s =
        .next (regEffect (fun c => c.putV c.r (num y.a y.imm c) fun e => c.at_ y.sb e) h i s))
    ∧ (∀ c ∈ contexts s i h, c.e ≠ 0 → ¬ good x.a x.imm c → exec (.movIxRead h x) s = .next (raiseAll
        ((contexts s i h).foldl (fun s c => bif c.ref.isSome then advance s i c (c.iss &&& ~~~c.e) else s) s)
        ((contexts s i h).map fun c => (c, if good x.a x.imm c then []
          else inLanes c.e { cause := 5, det := num x.a x.imm c }))))

/-! ### Floating point (07_isa_vector_float_and_functions, 13_number_formats) -/

/-- R116 to R123: with no enabled exception among its flags, a floating-point instruction puts the result of each
active element, once for a 32-bit type and on both halves for a 16-bit one, and ORs the flags into `%fflags`. -/
def Claim.FloatArithmetic : Prop :=
  ∀ (h : Head) (o : VBin) (t : VTri) (u : VUnTy) (v : VUn) (s : State) (i : Issue), s.issue = some i →
    let F := fmtOf o.ty
    let two := fun (r : Host.Outcome State Fault Refusal) (f : RMode → Nat → Nat → Nat × BitVec 6) =>
      let g := fun (c : Ctx) e => onHalves o.ty (fun xs => f c.mode (xs.getD 0 0) (xs.getD 1 0)) [c.at_ o.sa e, o.b.elem c e]
      NoFloatTraps (fun c e => (g c e).2) h i s → r = .next (regEffect (floatW o.dst g) h i s)
    let three := fun (r : Host.Outcome State Fault Refusal) (f : RMode → Nat → Nat → Nat → Nat × BitVec 6) =>
      let g := fun (c : Ctx) e => onHalves t.ty (fun xs => f c.mode (xs.getD 0 0) (xs.getD 1 0) (xs.getD 2 0))
        [c.at_ t.sa e, c.at_ t.sb e, c.at_ t.sc e]
      NoFloatTraps (fun c e => (g c e).2) h i s → r = .next (regEffect (floatW t.dst g) h i s)
    let one := fun (r : Host.Outcome State Fault Refusal) (f : RMode → Nat → Nat × BitVec 6) =>
      let g := fun (c : Ctx) e => onHalves u.ty (fun xs => f c.mode (xs.getD 0 0)) [c.at_ u.sa e]
      NoFloatTraps (fun c e => (g c e).2) h i s → r = .next (regEffect (floatW u.dst g) h i s)
    let sole := fun (r : Host.Outcome State Fault Refusal) (f : RMode → Nat → Nat × BitVec 6) =>
      let g := fun (c : Ctx) e => let x := f c.mode (c.at_ v.sa e).toNat; (BitVec.ofNat 32 x.1, x.2)
      NoFloatTraps (fun c e => (g c e).2) h i s → r = .next (regEffect (floatW v.dst g) h i s)
    two (exec (.fadd h o) s) (fun rm a b => fsum F rm (F.val a) (F.val b))
    ∧ two (exec (.fsub h o) s) (fun rm a b => fsum F rm (F.val a) (F.val b).flip)
    ∧ two (exec (.fmul h o) s) (fmulV F h.acc)
    ∧ two (exec (.fdiv h o) s) (fdivV F)
    ∧ two (exec (.fmin h o) s) (fun _ => fminmaxV F false)
    ∧ two (exec (.fmax h o) s) (fun _ => fminmaxV F true)
    ∧ two (exec (.fsgn h o) s) (fun _ a b => (a % F.signBit + b / F.signBit * F.signBit, 0))
    ∧ three (exec (.fma h t) s) (fmaV (fmtOf t.ty) h.acc false false)
    ∧ three (exec (.fms h t) s) (fmaV (fmtOf t.ty) h.acc false true)
    ∧ three (exec (.fnma h t) s) (fmaV (fmtOf t.ty) h.acc true true)
    ∧ three (exec (.fnms h t) s) (fmaV (fmtOf t.ty) h.acc true false)
    ∧ one (exec (.fneg h u) s) (fun _ a => (a ^^^ (fmtOf u.ty).signBit, 0))
    ∧ one (exec (.fabs h u) s) (fun _ a => (a % (fmtOf u.ty).signBit, 0))
    ∧ one (exec (.fsqrt h u) s) (fsqrtV (fmtOf u.ty))
    ∧ sole (exec (.frcp h v) s) (fun rm a => fdivV f32 rm 0x3F800000 a)
    ∧ sole (exec (.frsq h v) s) frsqV
    ∧ sole (exec (.fsin h v) s) (ftrigV false)
    ∧ sole (exec (.fcos h v) s) (ftrigV true)
    ∧ sole (exec (.fexp2 h v) s) fexp2V
    ∧ sole (exec (.flog2 h v) s) flog2V
    ∧ sole (exec (.frint h v) s) frintV
    ∧ exec (.fclass h v) s = .next (regEffect (vecW v.dst fun c e => fclassV (c.at_ v.sa e).toNat) h i s)

/-- R118, R201 and R204: in the exact class a product, a fused multiply-add and a sum of finite numbers, when it is not
zero, is the exact real result rounded once. `num` is the real number that an encoding stands for. -/
def Claim.ExactThenRounded : Prop :=
  ∀ f ∈ [f32, f16, bf16], ∀ (rm : RMode) (a b c : Nat),
    let num := fun (v : FVal) => match v with
      | .fin n m e => (if n then -1 else 1) * (m : ℚ) * (2 : ℚ) ^ e
      | _ => 0
    let finite := fun (x : Nat) => ∃ n m e, f.val x = .fin n m e
    let rounds := fun (r : Nat × BitVec 6) (x : ℚ) => ∃ n m e,
      num (.fin n m e) = x ∧ r = roundEx f rm { neg := n, m := m, e := e }
    finite a → finite b →
      rounds (fmulV f 0 rm a b) (num (f.val a) * num (f.val b))
      ∧ (num (f.val a) + num (f.val b) ≠ 0 → rounds (faddV f rm a b) (num (f.val a) + num (f.val b)))
      ∧ (num (f.val a) - num (f.val b) ≠ 0 → rounds (fsubV f rm a b) (num (f.val a) - num (f.val b)))
      ∧ (finite c → ∀ negP negC,
          let x := (if negP then -1 else 1) * (num (f.val a) * num (f.val b)) + (if negC then -1 else 1) * num (f.val c)
          x ≠ 0 → rounds (fmaV f 0 negP negC rm a b c) x)

/-- R120, R121, R123: minimum and maximum order −0 below +0, prefer a number to a NaN, and raise invalid for a signalling NaN
alone; `fclass` sets the bit of its operand's class; `frint` gives the integer that the mode rounds to, with its operand's sign, and is
never inexact. -/
def Claim.FloatSelections : Prop :=
  (∀ f ∈ [f32, f16, bf16], ∀ (max : Bool) (a b : Nat), a < 2 ^ f.width → b < 2 ^ f.width →
    let x := f.val a
    let y := f.val b
    let pick := fun (m : Bool) (a b : Nat) => (fminmaxV f m a b).1
    (fminmaxV f max a b).2 = (if x = .nan true ∨ y = .nan true then flagNV else 0)
    ∧ (x.isNan = true → y.isNan = true → pick max a b = f.nan)
    ∧ (x.isNan = true → y.isNan = false → pick max a b = b ∧ pick max b a = b)
    ∧ (x.isNan = false → pick max a a = a)
    ∧ (x.isNan = false → y.isNan = false → (x.far < y.far ∨ (x.far = y.far ∧ x.neg = true ∧ y.neg = false)) →
        pick false a b = a ∧ pick false b a = a ∧ pick true a b = b ∧ pick true b a = b))
  ∧ (∀ a : Nat, a < 2 ^ 32 →
      let n := 2 ^ 31 ≤ a
      let e := a / 2 ^ 23 % 256
      let fr := a % 2 ^ 23
      fclassV a = BitVec.ofNat 32 (2 ^ (if e = 255 then (if fr = 0 then (if n then 0 else 7) else if fr < 2 ^ 22 then 8 else 9)
        else if e = 0 then (if fr = 0 then (if n then 3 else 4) else if n then 2 else 5) else if n then 1 else 6)))
  ∧ ∀ (a : Nat), a < 2 ^ 32 → ∀ rm ∈ [RMode.rne, .rtz, .rdn, .rup, .rna],
      let x := f32.val a
      let r := frintV rm a
      (x.isNan = true → r = (f32.nan, snanFlag [x])) ∧ (∀ n, x = .inf n → r = (a, 0))
      ∧ (x.isNan = false → (∀ n, x ≠ .inf n) → r.2 = 0 ∧ (2 ^ 31 ≤ r.1 ↔ 2 ^ 31 ≤ a)
          ∧ ∃ z : ℤ, (f32.val r.1).num = z ∧ RoundsTo rm x.num z)

/-- R122: quotients, square roots and reciprocal roots of finite numbers are the exact real value, rounded once; and their special
operands. `frcp` is the quotient of 1. -/
def Claim.QuotientsAndRoots : Prop :=
  (∀ f ∈ [f32, f16, bf16], ∀ (rm : RMode) (a b : Nat),
    let x := f.val a
    let y := f.val b
    let n := x.neg != y.neg
    let q := fdivV f rm a b
    let r := fsqrtV f rm a
    ((x.isNan = true ∨ y.isNan = true) → q = (f.nan, snanFlag [x, y]))
    ∧ (∀ i j, (x = .inf i ∧ y = .inf j) ∨ (x = .zero i ∧ y = .zero j) → q = (f.nan, flagNV))
    ∧ (∀ i, x = .inf i → y.isNan = false → (∀ j, y ≠ .inf j) → q = (f.inf n, 0))
    ∧ (∀ j, y = .inf j → x.isNan = false → (∀ i, x ≠ .inf i) → q = (f.withSign n 0, 0))
    ∧ (∀ i k m e, x = .zero i → y = .fin k m e → q = (f.withSign n 0, 0))
    ∧ (∀ i m e j, x = .fin i m e → y = .zero j → q = (f.inf n, flagDZ))
    ∧ (∀ i m e j k d, x = .fin i m e → y = .fin j k d →
        ∃ z : Ex, q = roundEx f rm z ∧ z.neg = n ∧ z.Brackets (fun t => t * |y.num|) |x.num|)
    ∧ (x.isNan = true → r = (f.nan, snanFlag [x])) ∧ (∀ i, x = .zero i → r = (f.withSign i 0, 0))
    ∧ (x = .inf false → r = (f.inf false, 0)) ∧ ((x = .inf true ∨ ∃ m e, x = .fin true m e) → r = (f.nan, flagNV))
    ∧ (∀ m e, x = .fin false m e → ∃ z : Ex, r = roundEx f rm z ∧ z.neg = false ∧ z.Brackets (fun t => t * t) x.num))
  ∧ ∀ (rm : RMode) (a : Nat),
    let x := f32.val a
    let r := frsqV rm a
    (x.isNan = true → r = (f32.nan, snanFlag [x])) ∧ (∀ i, x = .zero i → r = (f32.inf i, flagDZ))
    ∧ (x = .inf false → r = (0, 0)) ∧ ((x = .inf true ∨ ∃ m e, x = .fin true m e) → r = (f32.nan, flagNV))
    ∧ ∀ m e, x = .fin false m e → ∃ z : Ex, r = roundEx f32 rm z ∧ z.neg = false ∧ z.Brackets (fun t => t * t * x.num) 1

/-- R123: the special operands of sine, cosine, exp2 and log2, and the operands for which they are exact. That `flog2` of 1 is +0
in every mode, and that an exact power of two of 2^30 or more is exact too, is the model's reading (log 112). -/
def Claim.FunctionTables : Prop :=
  ∀ (rm : RMode) (a : Nat),
    let x := f32.val a
    let finite := x.isNan = false ∧ ∀ n, x ≠ .inf n
    let exp2 := fexp2V rm a
    let log2 := flog2V rm a
    let gives := fun (r : Nat × BitVec 6) (y : ℚ) => (f32.val r.1).num = y ∧ r.2 = 0
    (x.isNan = true → let r := (f32.nan, snanFlag [x])
      ftrigV false rm a = r ∧ ftrigV true rm a = r ∧ exp2 = r ∧ log2 = r)
    ∧ (∀ c, ((∃ n, x = .inf n) ∨ 2 ^ 30 ≤ |x.num|) → ftrigV c rm a = (f32.nan, flagRG))
    ∧ (∀ n, x = .zero n → ftrigV false rm a = (f32.withSign n 0, 0) ∧ ftrigV true rm a = (0x3F800000, 0)
        ∧ log2 = (f32.inf true, flagDZ))
    ∧ (x = .inf true → exp2 = (0, 0)) ∧ (x = .inf false → exp2 = (f32.inf false, 0) ∧ log2 = (f32.inf false, 0))
    ∧ ((x = .inf true ∨ ∃ m e, x = .fin true m e) → log2 = (f32.nan, flagNV))
    ∧ (∀ k : ℤ, finite → x.num = k → (-149 ≤ k → k ≤ 127 → gives exp2 ((2 : ℚ) ^ k))
        ∧ (127 < k → exp2.2 = flagOF ||| flagNX) ∧ (k < -149 → exp2.2 = flagUF ||| flagNX))
    ∧ (∀ k : ℤ, x.num = (2 : ℚ) ^ k → gives log2 k ∧ (k = 0 → log2 = (0, 0)))

/-- R123: sine, cosine, exp2 and log2 of a finite operand are a real number within 2^-28 of the function's value (for exp2, of
that part of it), rounded once. That the number lies where correct rounding needs it is log 12. -/
def Claim.FunctionsOfReals : Prop :=
  ∀ (rm : RMode) (a m : Nat) (n : Bool) (e : Int), f32.val a = .fin n m e →
    let x : ℝ := ((f32.val a).num : ℝ)
    let eps : ℝ := 1 / 2 ^ 28
    let near := fun (r : Nat × BitVec 6) (y err : ℝ) =>
      ∃ z : Ex, r = roundEx f32 rm z ∧ |(((if z.neg then -1 else 1) * (z.m : ℚ) * (2 : ℚ) ^ z.e : ℚ) : ℝ) - y| ≤ err
    (|x| < 2 ^ 30 → near (ftrigV false rm a) (Real.sin x) eps ∧ near (ftrigV true rm a) (Real.cos x) eps)
    ∧ (|x| < 2 ^ 10 → near (fexp2V rm a) ((2 : ℝ) ^ x) (eps * (2 : ℝ) ^ x))
    ∧ (n = false → x ≠ 1 → near (flog2V rm a) (Real.logb 2 x) eps)

/-- R116 and R312: an enabled flag that arises in an active element traps in its lane, and nothing is written, for every
instruction that raises flags; `xacc.rd` traps in every lane of E. That the trap's code is the enabled flags alone is log 34,
and that `bscale`, `bq`, `xacc.add` and `xacc.mac` raise invalid for a signalling NaN is log 35. -/
def Claim.FloatTrapsSuppress : Prop :=
  ∀ (h : Head) (o : VBin) (t : VTri) (u : VUnTy) (v : VUn) (p : FCmpOp) (n : CvtOp) (b : BScale) (q : BQuant) (m : XMac)
    (k : FactOp) (va : VReg) (sd : UReg) (s : State) (i : Issue), s.issue = some i →
    let two := fun (r : Host.Outcome State Fault Refusal) (f : RMode → Nat → Nat → Nat × BitVec 6) =>
      Suppressed r (fun c e => (onHalves o.ty (fun xs => f c.mode (xs.getD 0 0) (xs.getD 1 0)) [c.at_ o.sa e, o.b.elem c e]).2) h i s
    let three := fun (r : Host.Outcome State Fault Refusal) (f : RMode → Nat → Nat → Nat → Nat × BitVec 6) =>
      Suppressed r (fun c e => (onHalves t.ty (fun xs => f c.mode (xs.getD 0 0) (xs.getD 1 0) (xs.getD 2 0))
        [c.at_ t.sa e, c.at_ t.sb e, c.at_ t.sc e]).2) h i s
    let sole := fun (r : Host.Outcome State Fault Refusal) (f : RMode → Nat → Nat × BitVec 6) =>
      Suppressed r (fun c e => (f c.mode (c.at_ v.sa e).toNat).2) h i s
    let macs := fun (c : Ctx) e => (List.zipWith (fun a b => (mulF (fmtOf m.ty).prec 0 a b).2)
      (halfVals m.ty (c.at_ m.sa e)) (halfVals m.ty (c.at_ m.sb e))).foldl (· ||| ·) 0
    two (exec (.fadd h o) s) (faddV (fmtOf o.ty)) ∧ two (exec (.fsub h o) s) (fsubV (fmtOf o.ty))
    ∧ two (exec (.fmul h o) s) (fmulV (fmtOf o.ty) h.acc) ∧ two (exec (.fdiv h o) s) (fdivV (fmtOf o.ty))
    ∧ two (exec (.fmin h o) s) (fun _ => fminmaxV (fmtOf o.ty) false)
    ∧ two (exec (.fmax h o) s) (fun _ => fminmaxV (fmtOf o.ty) true)
    ∧ three (exec (.fma h t) s) (fmaV (fmtOf t.ty) h.acc false false)
    ∧ three (exec (.fms h t) s) (fmaV (fmtOf t.ty) h.acc false true)
    ∧ three (exec (.fnma h t) s) (fmaV (fmtOf t.ty) h.acc true true)
    ∧ three (exec (.fnms h t) s) (fmaV (fmtOf t.ty) h.acc true false)
    ∧ Suppressed (exec (.fsqrt h u) s) (fun c e => (onHalves u.ty (fun xs => fsqrtV (fmtOf u.ty) c.mode (xs.getD 0 0))
        [c.at_ u.sa e]).2) h i s
    ∧ sole (exec (.frcp h v) s) (fun rm a => fdivV f32 rm 0x3F800000 a) ∧ sole (exec (.frsq h v) s) frsqV
    ∧ sole (exec (.fsin h v) s) (ftrigV false) ∧ sole (exec (.fcos h v) s) (ftrigV true)
    ∧ sole (exec (.fexp2 h v) s) fexp2V ∧ sole (exec (.flog2 h v) s) flog2V ∧ sole (exec (.frint h v) s) frintV
    ∧ Suppressed (exec (.fcmp h p) s) (fun c e => (frelV p.rel (c.at_ p.sa e).toNat (p.b.elem c e).toNat).2) h i s
    ∧ Suppressed (exec (.cvtFloat h n) s) (fun c e => (cvtAt h n c e).2) h i s
    ∧ Suppressed (exec (.cvtIntFloat h n) s) (fun c e => (cvtIntAt n c e).2) h i s
    ∧ Suppressed (exec (.bscale h b) s) (fun c e => (bscaleAt b c e).2) h i s
    ∧ Suppressed (exec (.bq h q) s) (fun c e => (bqAt h q c e).2) h i s
    ∧ Suppressed (exec (.xaccAdd h va) s) (fun c e => snanFlag [f32.val (c.at_ va e).toNat]) h i s
    ∧ Suppressed (exec (.xaccMac h m) s) macs h i s
    ∧ Suppressed (exec (.fact h k) s) (fun c e => (factVal (factTable s c k) c.mode (c.at_ k.sa e)).2) h i s
    ∧ (let due := fun (c : Ctx) => if c.ref = none then 0 else (c.r.x.read c.mode).2 &&& c.r.fflags.extractLsb' 8 6
       (∃ c ∈ contexts s i h, c.e ≠ 0 ∧ due c ≠ 0) → exec (.xaccRd h sd) s = .next (raiseAll
        ((contexts s i h).foldl (fun s c => bif c.ref.isSome then advance s i c (c.iss &&& ~~~c.e) else s) s)
        ((contexts s i h).map fun c => (c, if due c = 0 then [] else
          inLanes c.e { cause := 11, code := (due c).toNat }))))

/-- R204: rounding a value that the format represents gives its own encoding, in every mode, and raises nothing. -/
def Claim.RoundingKeepsRepresentable : Prop :=
  ∀ f ∈ [f32, f16, bf16, e5m2, e4m3], ∀ (rm : RMode) (neg : Bool) (x : Nat), 0 < x → x ≤ f.maxCode →
    ∃ m e, f.val (f.withSign neg x) = .fin neg m e ∧ roundEx f rm { neg := neg, m := m, e := e } = (f.withSign neg x, 0)

/-- R205: what overflow gives, by mode and sign, with OF and NX; in E4M3 an infinite result is 0x7F instead, and the
saturating narrowing gives the largest finite value. A value of at least 2^(bias + 2) overflows. -/
def Claim.RoundingOverflow : Prop :=
  ∀ f ∈ [f32, f16, bf16, e5m2, e4m3], ∀ (rm : RMode) (x : Ex),
    let inf := fun neg => if f.e4m3 then 0x7F else f.withSign neg f.infCode
    let r := roundEx f rm x
    (r.2 &&& flagOF ≠ 0 → r.2 = flagOF ||| flagNX ∧ r.1 = match rm, x.neg with
      | .rtz, n => f.withSign n f.maxCode
      | .rup, true => f.withSign true f.maxCode
      | .rdn, false => f.withSign false f.maxCode
      | _, n => inf n)
    ∧ (r.2 &&& flagOF ≠ 0 → roundSat f rm true x = (f.withSign x.neg f.maxCode, flagOF ||| flagNX))
    ∧ (x.m ≠ 0 → f.bias + 1 < (Nat.log2 x.m : Int) + x.e → r.2 &&& flagOF ≠ 0)

/-- R122, R127 to R130, R132 and R133: comparisons, conversions, blocks and generators. With no enabled exception the
results are put with their flags; a stochastic rounding draws on the generator of each active element's lane and
advances it one step. -/
def Claim.ConversionsAndGenerators : Prop :=
  ∀ (h : Head) (p : FCmpOp) (o : CvtOp) (b : BScale) (q : BQuant) (g : VFromU) (u : VUn) (s : State) (i : Issue),
    s.issue = some i →
    let stoch := fun (d : VReg) (f : Ctx → Nat → Word × BitVec 6) (c : Ctx) =>
      if c.rm = 5 then mapGens c h.v4 (fun _ x => x.step) (floatW d f c) else floatW d f c
    (NoFloatTraps (fun c e => (frelV p.rel (c.at_ p.sa e).toNat (p.b.elem c e).toNat).2) h i s →
      exec (.fcmp h p) s = .next (regEffect (fun c =>
        addFlags c (allFlags c fun e => (frelV p.rel (c.at_ p.sa e).toNat (p.b.elem c e).toNat).2)
          (predW p.pd (fun c e => (frelV p.rel (c.at_ p.sa e).toNat (p.b.elem c e).toNat).1) c)) h i s))
    ∧ (NoFloatTraps (fun c e => (cvtAt h o c e).2) h i s →
      exec (.cvtFloat h o) s = .next (regEffect (stoch o.dst (cvtAt h o)) h i s))
    ∧ (NoFloatTraps (fun c e => (cvtIntAt o c e).2) h i s →
      exec (.cvtIntFloat h o) s = .next (regEffect (floatW o.dst (cvtIntAt o)) h i s))
    ∧ (NoFloatTraps (fun c e => (bscaleAt b c e).2) h i s →
      exec (.bscale h b) s = .next (regEffect (floatW b.dst (bscaleAt b)) h i s))
    ∧ (NoFloatTraps (fun c e => (bqAt h q c e).2) h i s →
      exec (.bq h q) s = .next (regEffect (stoch q.dst (bqAt h q)) h i s))
    ∧ exec (.bdq h q) s = .next (regEffect (vecW q.dst fun c e => BitVec.ofNat 32
        (dequantV ((q.b.elem c e).toNat % 256) ((c.at_ q.sa e).toNat / 16 ^ q.pos.toNat % 16))) h i s)
    ∧ exec (.rngInit h g) s = .next (partsEffect (fun i c s =>
        let task := ((c.ref.bind fun r => s.team? r.team).map (·.task)).getD 0
        advance (putRegs s c (mapGens c g.dst.toNat (fun l _ => (Gen.base (ctxLaunch s c).seed).jump
          (task * 2 ^ 22 + (c.r.getS g.sa.toNat).toNat % 2 ^ 16 * 64 + l)) c.r)) i c c.iss) h i s)
    ∧ exec (.rngNext h u) s = .next (regEffect (fun c => mapGens c u.sa.toNat (fun _ x => x.step)
        (vecW u.dst (fun c e => (c.r.gen u.sa.toNat (e % c.w)).output) c)) h i s)
    ∧ exec (.rngJump h g) s = .next (regEffect (fun c =>
        mapGens c g.dst.toNat (fun _ x => x.jump ((c.r.getS g.sa.toNat).toNat % 2 ^ 16)) c.r) h i s)

/-- R121, R127 to R130, R132, R206, R210 to R212: what comparisons, conversions, block codes and generators give. A comparison
with a NaN is true for ne and un alone, and invalid for the order relations or a signalling NaN; widening is exact; narrowing rounds once, into its
part alone; an integer rounds once, 0 to +0 in every mode (log 112); a float is rounded to an integer and clamped. `bscale`
finds the smallest scale; `bq` the nearest code, or the stochastic choice. That `bscale` and `bq` raise invalid is log 35. -/
def Claim.ConversionValues : Prop :=
  let numeric := fun (v : FVal) => v.isNan = false ∧ ∀ n, v ≠ .inf n
  (∀ (rel : FRel) (a b : Nat), a < 2 ^ 32 → b < 2 ^ 32 →
    let x := f32.val a
    let y := f32.val b
    let r := frelV rel a b
    (x.isNan = true ∨ y.isNan = true → r.1 = decide (rel = .ne ∨ rel = .un)
      ∧ r.2 = if rel ∈ [.lt, .le, .gt, .ge] then flagNV else snanFlag [x, y])
    ∧ (x.isNan = false → y.isNan = false → r.2 = 0 ∧ r.1 = match rel with
        | .eq => decide (x.far = y.far)
        | .ne => decide (x.far ≠ y.far)
        | .lt => decide (x.far < y.far)
        | .le => decide (x.far ≤ y.far)
        | .gt => decide (y.far < x.far)
        | .ge => decide (y.far ≤ x.far)
        | .un => false
        | .ord => true))
  ∧ (∀ f ∈ [bf16, f16, e4m3, e5m2], ∀ (rm : RMode) (sat : Bool) (a : Nat),
      let x := f.val a
      let w := widenV f a
      let y := f32.val a
      let t := narrowV f rm sat a
      (x.isNan = true → w = (f32.nan, snanFlag [x])) ∧ (∀ n, x = .inf n → w = (f32.inf n, 0)) ∧ (∀ n, x = .zero n → w = (f32.withSign n 0, 0))
      ∧ (numeric x → (f32.val w.1).num = x.num ∧ w.2 = 0)
      ∧ (y.isNan = true → t = (f.nan, snanFlag [y])) ∧ (∀ n, y = .zero n → t = (f.withSign n 0, 0))
      ∧ (∀ n, y = .inf n → t = (f.inf n, if f = e4m3 then flagNV else 0))
      ∧ ∀ n m e, y = .fin n m e → t = roundSat f rm sat { neg := n, m := m, e := e })
  ∧ (∀ (h : Head) (o : CvtOp) (c : Ctx) (e : Nat),
      let n := fun (t : Ty) => if t = .bf16 ∨ t = .f16 then 16 else 8
      let a := (c.at_ o.sa e).toNat
      let r := cvtAt h o c e
      (o.dty = .f32 → r = (BitVec.ofNat 32 (widenV (fmtOf o.src) (a / 2 ^ (n o.src * o.pos.toNat) % 2 ^ n o.src)).1,
        (widenV (fmtOf o.src) (a / 2 ^ (n o.src * o.pos.toNat) % 2 ^ n o.src)).2))
      ∧ (o.dty ∈ [.bf16, .f16, .e4m3, .e5m2] → n o.dty * (o.pos.toNat + 1) ≤ 32 →
        let t := narrowV (fmtOf o.dty) (c.modeAt h e) o.sat a
        r.2 = t.2 ∧ r.1.extractLsb' (n o.dty * o.pos.toNat) (n o.dty) = BitVec.ofNat (n o.dty) t.1
        ∧ ∀ k, (k < n o.dty * o.pos.toNat ∨ n o.dty * (o.pos.toNat + 1) ≤ k) → r.1.getLsbD k = (c.at_ o.dst e).getLsbD k)
      ∧ c.modeAt h e = if c.rm = 5 then .sto ((c.r.gen h.v4 (e % c.w)).output.toNat / 65536) else c.mode)
  ∧ (∀ (rm : RMode) (x : Int), intToF rm 0 = (0, 0)
      ∧ (x ≠ 0 → intToF rm x = roundEx f32 rm { neg := decide (x < 0), m := x.natAbs, e := 0 }))
  ∧ (∀ t ∈ [Ty.i32, .n32], ∀ rm ∈ [RMode.rne, .rtz, .rdn, .rup, .rna], ∀ (a : Nat),
      let x := f32.val a
      let r := fToInt t rm a
      let lo : ℤ := if t = .i32 then -2 ^ 31 else 0
      let hi : ℤ := if t = .i32 then 2 ^ 31 - 1 else 2 ^ 32 - 1
      (x.isNan = true → r = (0, flagNV)) ∧ (∀ n, x = .inf n → r = (BitVec.ofInt 32 (if n then lo else hi), flagNV))
      ∧ (numeric x → ∃ z : ℤ, RoundsTo rm x.num z ∧ r.1 = BitVec.ofInt 32 (max lo (min hi z))
          ∧ r.2 = if z < lo ∨ hi < z then flagNV else if (z : ℚ) = x.num then 0 else flagNX))
  ∧ (∀ (ty : Nat) (xs : List Nat), ty < 4 →
      let top : ℚ := [7, 6, 16, 12].getD ty 0
      ((∃ x ∈ xs, ¬ numeric (f32.val x)) → scaleByte ty xs = 64 * ty + 63)
      ∧ ((∀ x ∈ xs, numeric (f32.val x)) → ∃ e : Nat, scaleByte ty xs = 64 * ty + e ∧ e ≤ 62
          ∧ (∀ k : Nat, k < e → ∃ x ∈ xs, top * 2 ^ ((k : ℤ) - 32) < |(f32.val x).num|)
          ∧ (e < 62 → ∀ x ∈ xs, |(f32.val x).num| ≤ top * 2 ^ ((e : ℤ) - 32))))
  ∧ (∀ (o : BScale) (c : Ctx) (e : Nat), bscaleAt o c e =
      (BitVec.ofNat 32 (scaleByte o.bt.toNat ((((List.range 32).map (· + e / 32 * 32)).filter c.active).map fun k => (c.at_ o.sa k).toNat)),
        snanFlag [f32.val (c.at_ o.sa e).toNat]))
  ∧ (∀ (rm : RMode) (ty ex a : Nat), ty < 4 → ex < 64 →
      let x := f32.val a
      let r := quantV rm (64 * ty + ex) a
      let v := codeVal ty
      let y : ℚ := x.num / 2 ^ ((ex : ℤ) - 32)
      let top : ℚ := [7, 6, 16, 12].getD ty 0
      let bot : ℚ := if ty = 0 then -8 else -top
      ((ex = 63 ∨ x.isNan = true) → r = (if ty = 2 then 8 else 0, snanFlag [x]))
      ∧ (ex < 63 → (∀ n, x = .zero n → r = (if ty = 2 then 8 else 0, 0))
        ∧ (∀ n, x = .inf n → v r.1 = (if n then bot else top) ∧ r.2 = flagOF)
        ∧ ∀ n m e, x = .fin n m e → r.1 < 16
          ∧ (y < bot → v r.1 = bot ∧ r.2 = flagOF) ∧ (top < y → v r.1 = top ∧ r.2 = flagOF)
          ∧ (bot ≤ y → y ≤ top → r.2 = 0)
          ∧ (v r.1 = 0 → r.1 = if ty = 2 ∨ (ty ≠ 0 ∧ n = true) then 8 else 0)
          ∧ (rm = .rne → bot ≤ y → y ≤ top → ∀ c < 16, |v r.1 - y| ≤ |v c - y|
            ∧ (v c ≠ v r.1 → |v c - y| = |v r.1 - y| → r.1 % 2 = 0))
          ∧ (∀ q lo hi, rm = .sto q → lo < 16 → hi < 16 → 0 ≤ v lo * y → 0 ≤ v hi * y → |v lo| ≤ |y| → |y| < |v hi| →
            (∀ c < 16, 0 ≤ v c * y → |v c| ≤ |v lo| ∨ |v hi| ≤ |v c|) →
            |v r.1| = if (q : ℚ) < 2 ^ 16 * ((|y| - |v lo|) / (|v hi| - |v lo|)) then |v hi| else |v lo|)))
  ∧ (∀ (h : Head) (o : BQuant) (c : Ctx) (e : Nat),
      let t := quantV (c.modeAt h e) ((o.b.elem c e).toNat % 256) (c.at_ o.sa e).toNat
      let r := bqAt h o c e
      r.2 = t.2 ∧ r.1.extractLsb' (4 * o.pos.toNat) 4 = BitVec.ofNat 4 t.1
      ∧ ∀ k, (k < 4 * o.pos.toNat ∨ 4 * o.pos.toNat + 4 ≤ k) → r.1.getLsbD k = (c.at_ o.dst e).getLsbD k)
  ∧ (∀ ty ex c : Nat, ty < 4 → ex < 64 → c < 16 →
      let r := dequantV (64 * ty + ex) c
      (ex = 63 → r = f32.nan)
      ∧ (ex < 63 → (f32.val r).num = codeVal ty c * 2 ^ ((ex : ℤ) - 32)
        ∧ (codeVal ty c = 0 → r = if c = 8 ∧ (ty = 1 ∨ ty = 3) then 0x80000000 else 0)))
  ∧ ∀ (g : Gen) (n : Nat) (seed : DWord),
      let x := g.word 0
      let w := g.word 3
      let t := x ^^^ (x <<< 11)
      (g.step.word 0 = g.word 1 ∧ g.step.word 1 = g.word 2 ∧ g.step.word 2 = w
        ∧ g.step.word 3 = w ^^^ (w >>> 19) ^^^ t ^^^ (t >>> 8) ∧ g.output = g.step.word 3)
      ∧ (n < 2 ^ 64 → g.jump n = Gen.step^[n * 2 ^ 64] g)
      ∧ ((Gen.base seed).word 0 = seed.setWidth 32 ∧ (Gen.base seed).word 1 = (seed >>> 32).setWidth 32
        ∧ (Gen.base seed).word 2 = 0x9E3779B1 ∧ (Gen.base seed).word 3 = 0x6A09E667)

/-- R131, R216, R244, R92 and R256: the exact accumulator, descriptor bases, the vector length and type, and the
meters of the issuing context. That a signalling NaN raises invalid at `xacc.add` and `xacc.mac` is the model's reading
(log 35). -/
def Claim.WaveStateInstructions : Prop :=
  ∀ (h : Head) (va : VReg) (m : XMac) (sd : UReg) (t : TdOp) (l : SetVl) (v : SetVtype) (s : State) (i : Issue),
    s.issue = some i →
    let once := fun (f : Ctx → Regs) => regEffect (fun c => if c.e = 0 then c.r else f c) h i s
    let nan := fun (x : Word) => snanFlag [f32.val x.toNat]
    let prods := fun (c : Ctx) e => List.zipWith (fun a b => (mulF (fmtOf m.ty).prec 0 a b).1)
      (halfVals m.ty (c.at_ m.sa e)) (halfVals m.ty (c.at_ m.sb e))
    -- a product raises NV for a signalling NaN and for infinity times zero
    let macNan := fun (c : Ctx) e => (List.zipWith (fun a b => (mulF (fmtOf m.ty).prec 0 a b).2)
      (halfVals m.ty (c.at_ m.sa e)) (halfVals m.ty (c.at_ m.sb e))).foldl (· ||| ·) 0
    exec (.xaccClr h) s = .next (once fun c => { c.r with x := {} })
    ∧ (NoFloatTraps (fun c e => nan (c.at_ va e)) h i s → exec (.xaccAdd h va) s = .next (regEffect (fun c =>
        addFlags c (allFlags c fun e => nan (c.at_ va e))
          { c.r with x := c.actives.foldl (fun x e => x.addVal (f32.val (c.at_ va e).toNat)) c.r.x }) h i s))
    ∧ (NoFloatTraps macNan h i s → exec (.xaccMac h m) s = .next (regEffect (fun c =>
        addFlags c (allFlags c (macNan c))
          { c.r with x := c.actives.foldl (fun x e => (prods c e).foldl Xacc.addVal x) c.r.x }) h i s))
    ∧ ((∀ c ∈ contexts s i h, (c.r.x.read c.mode).2 &&& c.r.fflags.extractLsb' 8 6 = 0) →
        exec (.xaccRd h sd) s = .next (once fun c =>
          addFlags c (c.r.x.read c.mode).2 (c.r.setS sd.toNat (BitVec.ofNat 32 (c.r.x.read c.mode).1))))
    ∧ exec (.tdBase h t) s = .next (once fun c =>
        c.r.setT t.t.toNat (((c.r.getT t.t.toNat).extractLsb' 64 64) ++ c.r.getPair t.sb.toNat))
    ∧ exec (.setvl h l) s = .next (once fun c =>
        let vl := (min ((c.r.getS l.sa.toNat).toNat + l.imm.toInt) (c.w * c.g)).toNat
        ({ c.r with vl := vl } : Regs).setS l.dst.toNat (BitVec.ofNat 32 vl))
    ∧ ((∀ c ∈ contexts s i h, (c.r.getS v.sa.toNat + v.imm.signExtend 32).toNat < 16) →
        exec (.setvtype h v) s = .next (once fun c =>
          let x := (c.r.getS v.sa.toNat + v.imm.signExtend 32).setWidth 4
          { c.r with vtype := x, vl := min c.r.vl (c.w * 2 ^ (x.toNat % 4)) }))
    ∧ exec (.emeter h sd) s = .next (regEffect (pairW sd fun c =>
        BitVec.ofNat 64 ((s.fn (ctxFn s c)).events / 1000000)) h i s)
    ∧ exec (.emeterShr h sd) s = .next (regEffect (pairW sd fun c =>
        BitVec.ofNat 64 ((s.fn (ctxFn s c)).shares / 1000000)) h i s)
    ∧ exec (.equota h sd) s = .next (regEffect (pairW sd fun c =>
        if (s.fn (ctxFn s c)).id = 0 then 0x7FFFFFFFFFFFFFFF else (s.fn (ctxFn s c)).q) h i s)
    ∧ exec (.equotaFill h sd) s = .next (regEffect (pairW sd fun c =>
        if (s.fn (ctxFn s c)).id = 0 then 0 else (s.fn (ctxFn s c)).refill.setWidth 64) h i s)
    ∧ exec (.equotaCap h sd) s = .next (regEffect (pairW sd fun c =>
        if (s.fn (ctxFn s c)).id = 0 then 0 else (s.fn (ctxFn s c)).cap.setWidth 64) h i s)

/-! ### What an instruction changes, and what it leaves alone -/

/-- The instructions named in the statements above change registers alone. On a core, every part's wave gets its new
registers, its issuing lanes move to the next instruction, and its other lanes, every other wave and everything else
in the machine stay as they were (R77, R78): memory, windows, counters, accumulators, meters and every other piece. -/
def Claim.RegisterEffectOnCore : Prop :=
  ∀ (f : Ctx → Regs) (h : Head) (s : State) (i : Issue) (core slot group : Nat) (parts : List (WaveRef × Mask)),
    i.agent = .core core slot group parts → (parts.map (·.1)).Nodup →
    let t := regEffect f h i s
    (∀ r m w, (r, m) ∈ parts → s.wave? r = some w →
      t.wave? r = some { w with
        regs := f (mkCtx (some r) 0 w.regs m h)
        lanes := w.lanes.mapIdx fun k l => if m.getLsbD k then l.advance i.len else l })
    ∧ (∀ r, r ∉ parts.map (·.1) → t.wave? r = s.wave? r)
    ∧ (∀ id, (t.team? id).map (fun x => { x with waves := [] }) = (s.team? id).map fun x => { x with waves := [] })
    ∧ t = { s with teams := t.teams }

/-- In root code the unit's invocation gets the new registers and moves on, and nothing else changes (R171, R172). -/
def Claim.RegisterEffectOnUnit : Prop :=
  ∀ (f : Ctx → Regs) (h : Head) (s : State) (i : Issue) (q : Nat) (v : Inv),
    i.agent = .root q → s.inv? q = some v →
    let t := regEffect f h i s
    t.inv? q = some { v with regs := f (mkCtx none q v.regs (Mask.full 32) h)
                             pc := v.pc + i.len, head := v.pc + i.len == v.stop }
    ∧ (t.unit q).invs.drop 1 = (s.unit q).invs.drop 1 ∧ (t.unit q).bmacs = (s.unit q).bmacs
    ∧ (∀ p, p ≠ q → t.unit p = s.unit p)
    ∧ t = { s with units := t.units }

/-- R28, R29 and R39: an element that is active takes its value, one that a policy zeroes takes zero, and every other
element and register stays, in a vector and in a predicate alike; a pair takes both halves; `s0` and `p0` are never
written. -/
def Claim.RegisterWrites : Prop :=
  (∀ (c : Ctx) (d : VReg) (f : Ctx → Nat → Word) (n l : Nat), 0 < c.w → l < c.w →
    (∀ row ∈ c.r.v, row.length = c.w) → d.toNat + c.g ≤ c.r.v.length →
    (vecW d f c).getV n l =
      if d.toNat ≤ n ∧ n < d.toNat + c.g then
        (match c.kind ((n - d.toNat) * c.w + l) with
          | .active => f c ((n - d.toNat) * c.w + l)
          | .zeroed => 0
          | .untouched => c.r.getV n l)
      else c.r.getV n l)
  ∧ (∀ (c : Ctx) (d : VReg) (f : Ctx → Nat → Word), (vecW d f c).s = c.r.s ∧ (vecW d f c).p = c.r.p
      ∧ (vecW d f c).t = c.r.t ∧ (vecW d f c).x = c.r.x ∧ (vecW d f c).vl = c.r.vl ∧ (vecW d f c).fflags = c.r.fflags)
  ∧ (∀ (c : Ctx) (d : UReg) (f : Ctx → Word) (n : Nat), d.toNat < c.r.s.length →
      (uniW d f c).getS n = if n = d.toNat ∧ n ≠ 0 ∧ c.e ≠ 0 then f c else c.r.getS n)
  ∧ (∀ (c : Ctx) (d : UReg) (f : Ctx → Word), (uniW d f c).v = c.r.v ∧ (uniW d f c).p = c.r.p
      ∧ (uniW d f c).t = c.r.t ∧ (uniW d f c).x = c.r.x ∧ (uniW d f c).vl = c.r.vl ∧ (uniW d f c).fflags = c.r.fflags)
  ∧ (∀ (c : Ctx) (d : UReg) (f : Ctx → DWord) (n : Nat), d.toNat + 1 < c.r.s.length →
      (pairW d f c).getS n = if c.e ≠ 0 ∧ n = d.toNat ∧ n ≠ 0 then (f c).setWidth 32
        else if c.e ≠ 0 ∧ n = d.toNat + 1 then ((f c) >>> 32).setWidth 32 else c.r.getS n)
  ∧ (∀ (c : Ctx) (d : UReg) (f : Ctx → DWord), (pairW d f c).v = c.r.v ∧ (pairW d f c).p = c.r.p
      ∧ (pairW d f c).t = c.r.t ∧ (pairW d f c).x = c.r.x ∧ (pairW d f c).vl = c.r.vl ∧ (pairW d f c).fflags = c.r.fflags)
  ∧ (∀ (c : Ctx) (d : PReg) (f : Ctx → Nat → Bool) (n l : Nat), c.w = c.r.width → c.w ≤ 64 → l < c.w →
      d.toNat + c.g ≤ c.r.p.length →
      ((predW d f c).getP n).getLsbD l =
        if d.toNat ≤ n ∧ n < d.toNat + c.g ∧ n ≠ 0 then
          (match c.kind ((n - d.toNat) * c.w + l) with
            | .active => f c ((n - d.toNat) * c.w + l)
            | .zeroed => false
            | .untouched => (c.r.getP n).getLsbD l)
        else (c.r.getP n).getLsbD l)
  ∧ (∀ (c : Ctx) (d : PReg) (f : Ctx → Nat → Bool), (predW d f c).v = c.r.v ∧ (predW d f c).s = c.r.s
      ∧ (predW d f c).t = c.r.t ∧ (predW d f c).x = c.r.x ∧ (predW d f c).vl = c.r.vl ∧ (predW d f c).fflags = c.r.fflags)
  ∧ (∀ (c : Ctx) (f : Ctx → Word), uniW 0 f c = c.r)
  ∧ (∀ (c : Ctx) (m : Ctx → Mask), predE 0 m c = c.r)
  ∧ (∀ (c : Ctx) (d : PReg) (m : Ctx → Mask) (n l : Nat), d.toNat < c.r.p.length → l < c.r.width → c.r.width ≤ 64 →
      ((predE d m c).getP n).getLsbD l =
        if n = d.toNat ∧ n ≠ 0 ∧ c.e.getLsbD l then (m c).getLsbD l else (c.r.getP n).getLsbD l)

/-- Every instruction completes, is trapped or parks: with an issue in progress no instruction and no event of the
machine stops it (the model's choice where the manual leaves a value open is a free value: log 5, 9, 10, 13 to 17). -/
def Claim.NoInstructionStops : Prop :=
  ∀ (x : Instr) (s : State), s.issue ≠ none → ∃ t, exec x s = .next t

/-- A step of the machine always answers a next state. -/
def Claim.StepsAreSafe : Prop := ∀ s : State, SafeStep s

/-! ### From a turn to an instruction -/

/-- R17, R18, R54, R59, R75: on its turn, which R21 lets it have, a group whose lanes have settled without a trap fetches at
its lowest PC, or at that of the wave that lags, and when the parcels there decode to an instruction whose checks on the
waves pass and which is ready, the step is the execution of exactly that instruction, with the issue recorded (R18, R21),
its charge queued (R249) and its operand latch updated (R48); then the lanes that have reached a header consume it (R57). -/
def Claim.StepRunsDecodedInstruction : Prop :=
  ∀ (s s0 s1 : State) (core slot group n pc : Nat) (k : SetKind) (rest : List Turn) (r0 : WaveRef) (m0 : Mask)
    (more : List (WaveRef × Mask)) (p : Word) (ps : List Word) (x : Instr) (sh : Shape),
    (settle (tick s)).agenda = .issue core slot group k :: rest → s0 = { settle (tick s) with agenda := rest } →
    (group, k) ∈ slotChoices s0 core slot →
    let rs := members s0 core slot group
    rs.foldl (fun (a : State × List (WaveRef × Nat × TrapInfo)) r =>
      ((settleWave a.1 r k).1, a.2 ++ (settleWave a.1 r k).2)) (s0, []) = (s1, []) →
    let g := s1.group core slot group
    let due := fun (r : WaveRef) => rs.contains r && (s1.wave? r).any fun w => !(w.inSet .ordinary).isEmpty
    let alone := if k = .ordinary then (g.lag.filter due).or (lagging s1 rs g) else none
    issueAt s1 (match alone with | some r => [r] | none => rs) k = some (pc, (r0, m0) :: more) →
    let l0 := ((s1.wave? r0).bind fun w => w.lanes[(m0.low).getD 0]?).getD {}
    l0.pos ≠ .atHeader →
    let room := (l0.blk.stop - pc) / 4
    fetchInstr s1 (s1.fnOf r0) pc room = (.word p, ps) →
    decodeAt (decCtx s1 (s1.fnOf r0) false) room ps = .ok (.instr x n) → x.shape = some sh →
    let i : Issue := { agent := .core core slot group ((r0, m0) :: more), pc := pc, len := 4 * n, stop := l0.blk.stop }
    (∀ c ∈ contexts s1 i sh.head, preTraps x sh c = [] ∧ partReady s1 x sh c = true) →
    engineRoom s1 core x (contexts s1 i sh.head) = true →
    ∃ t, step s = onNext (endIssue x) (exec x t) ∧ t.issue = some i ∧ t.mem = s1.mem ∧ t.hostMem = s1.hostMem ∧ t.fns = s1.fns
      ∧ t.launches = s1.launches ∧ t.units = s1.units
      ∧ ∀ r, (t.wave? r).map (fun w => { w.regs with wrote := 0 }) = (s1.wave? r).map fun w => { w.regs with wrote := 0 }

/-- R173 to R176: on its turn a root unit fetches at its invocation's PC, and when the parcels decode to an instruction
of root code whose checks pass, the step is the execution of exactly that instruction, counted in its block. -/
def Claim.StepRunsRootInstruction : Prop :=
  ∀ (s s0 : State) (q n : Nat) (rest : List Turn) (v v' : Inv) (p : Word) (ps : List Word) (x : Instr) (sh : Shape),
    (settle (tick s)).agenda = .root q :: rest → s0 = { settle (tick s) with agenda := rest } →
    s0.inv? q = some v → v.started = true → v.lost = false → v.wait = none → v.bound = true → v.count < Config.rootBlockLimit →
    settleInv s0 settleFuel v = (v', none) → v'.head = false →
    let s1 := s0.modUnit q fun u => { u with invs := u.invs.set 0 v' }
    let room := (v'.stop - v'.pc) / 4
    fetchInstr s1 v'.fn v'.pc room = (.word p, ps) →
    decodeAt (decCtx s1 v'.fn true) room ps = .ok (.instr x n) → x.shape = some sh →
    let i : Issue := { agent := .root q, pc := v'.pc, len := 4 * n, stop := v'.stop }
    (∀ c ∈ contexts s1 i sh.head, preTraps x sh c = []) →
    ∃ t, step s = onNext (endIssue x) (exec x t) ∧ t.issue = some i ∧ t.mem = s1.mem ∧ t.hostMem = s1.hostMem ∧ t.fns = s1.fns
      ∧ t.teams = s1.teams ∧ t.inv? q = some { v' with count := v'.count + 1 }

/-- The agenda, a field of the model's own, names whose turn it is (log 4): an event of the machine at its head is what
the step runs, an encoded instruction there is not, and the host's writes reach its own memory. -/
def Claim.StepRunsAgendaEvent : Prop :=
  ∀ (s : State) (x : Instr) (rest : List Turn) (a : Nat) (b : List Byte),
    let turn := (settle (tick s)).agenda
    let s0 := { settle (tick s) with agenda := rest }
    (turn = .event x :: rest → x.shape = none → step s = onNext (endIssue x) (exec x s0))
    ∧ (turn = .event x :: rest → x.shape ≠ none → step s = .next s0)
    ∧ (turn = .hostWrite a b :: rest → step s = .next (writeBytes s0 (.host a) b))


/-! ### Control flow, ends and barriers -/

/-- R67, R86 to R89: when every taken lane's target can be fetched and holds a header where it is resident, a branch
completes: the lanes that its form takes go to their targets, and the others move on. A call writes the offset of the
end of its block: once, or in the lanes of E. -/
def Claim.Branches : Prop :=
  ∀ (h : Head) (o : BrCc) (v : BrVoteOp) (sa : UReg) (k : CallOp) (off : Off) (s : State) (i : Issue),
    s.issue = some i → ∀ x ∈ branchForms h o v sa k off s i,
      TargetsHold x.2.1 h i s → exec x.1 s = .next (branchEffect x.2.1 x.2.2 h i s)

/-- R86 step 3, lane by lane, when the targets are resident: a taken lane's PC is its target, where it will consume the
header, an issuing lane that is not taken moves to the next instruction, and everything else of the wave and of the
machine stays, the link apart. In root code the whole unit moves (R173). -/
def Claim.BranchEffect : Prop :=
  ∀ (taken : Ctx → List (Nat × Int)) (lk : Ctx → Regs) (h : Head) (s : State) (i : Issue),
    (∀ c ∈ contexts s i h, ∀ x ∈ taken c, targetAt s (ctxFn s c) x.2 = .header) →
    let t := branchEffect taken lk h i s
    (∀ core slot group parts, i.agent = .core core slot group parts → (parts.map (·.1)).Nodup →
      OnlyTeams s t
      ∧ (∀ r, r ∉ parts.map (·.1) → t.wave? r = s.wave? r)
      ∧ ∀ r m w, (r, m) ∈ parts → s.wave? r = some w →
        let c := mkCtx (some r) 0 w.regs m h
        ((taken c).map (·.1)).Nodup → (∀ x ∈ taken c, x.1 < 64) →
        t.wave? r = some { w with
          regs := lk c
          lanes := w.lanes.mapIdx fun k l => match (taken c).find? fun x => x.1 == k with
            | some x => { l with pc := x.2.toNat, pos := .atHeader }
            | none => if m.getLsbD k then l.advance i.len else l })
    ∧ (∀ q v, i.agent = .root q → s.inv? q = some v →
      let c := mkCtx none q v.regs (Mask.full 32) h
      t = { s with units := t.units } ∧ (∀ p, p ≠ q → t.unit p = s.unit p)
      ∧ t.inv? q = some (match taken c with
        | [] => { v with regs := lk c, pc := v.pc + i.len, head := v.pc + i.len == v.stop }
        | x :: _ => { v with regs := lk c, pc := x.2.toNat, head := true }))

/-- R86 step 3, R16 and R271: a taken lane whose target's page is away parks on it, at the branch, and the page's
migration starts. -/
def Claim.BranchParks : Prop :=
  ∀ (taken : Ctx → List (Nat × Int)) (lk : Ctx → Regs) (h : Head) (s : State) (i : Issue) (core slot group : Nat)
    (r : WaveRef) (m : Mask) (w : Wave) (l : Lane) (k p : Nat) (a : Int),
    i.agent = .core core slot group [(r, m)] → s.wave? r = some w → w.lanes[k]? = some l → k < 64 →
    let c := mkCtx (some r) 0 w.regs m h
    taken c = [(k, a)] → targetAt s (s.fnOf r) a = .away p →
    let only := Mask.put 0 k true
    let parked := ((advance (putRegs s c (lk c)) i c (m &&& ~~~only)).onLanes r only (Lane.park (.migration (s.fnOf r) p)))
    branchEffect taken lk h i s = startMigration parked (s.standOf r) (s.fnOf r) p true
    ∧ ∃ w', (branchEffect taken lk h i s).wave? r = some w'
      ∧ w'.lanes[k]? = some { l with run := .parked (.migration (s.fnOf r) p) }

/-- R86 step 2, R54 and R58, of every form: when some taken lane's target lies in a page that cannot be fetched, each such
lane traps with cause 8, and otherwise when some resident target holds no header, each such lane traps with cause 3; the
detail is the target. Lanes whose predicate is false move on, no other lane moves, and no link is written. -/
def Claim.BranchTraps : Prop :=
  ∀ (h : Head) (o : BrCc) (v : BrVoteOp) (sa : UReg) (n : CallOp) (off : Off) (s : State) (i : Issue), s.issue = some i →
    ∀ x ∈ branchForms h o v sa n off s i,
    let cs := contexts s i h
    let found := fun (k : Target) => ∃ c ∈ cs, ∃ y ∈ x.2.1 c, targetAt s (ctxFn s c) y.2 = k
    let trapped := fun (k : Target) (cause : Nat) => Host.Outcome.next (raiseAll
      (cs.foldl (fun s c => bif c.ref.isSome then advance s i c (c.iss &&& ~~~c.e) else s) s)
      (cs.map fun c => (c, ((x.2.1 c).filter fun y => targetAt s (ctxFn s c) y.2 = k).map fun y =>
        (y.1, ({ cause := cause, det := (y.2 % 2 ^ 64).toNat } : TrapInfo)))))
    (found .bad → exec x.1 s = trapped .bad 8)
    ∧ (¬ found .bad → found .noHeader → exec x.1 s = trapped .noHeader 3)

/-- R26, R90, R91: `exit` ends the lanes of E, and `done` every lane of a wave with a lane in E, with no register
changed by it; `nap` holds the group's issue of the lanes of E back for n cycles and changes nothing else. -/
def Claim.EndsAndNaps : Prop :=
  ∀ (h : Head) (n : BitVec 12) (s : State) (i : Issue) (core slot group : Nat) (parts : List (WaveRef × Mask)),
    s.issue = some i → i.agent = .core core slot group parts →
    (∃ t, exec (.exit h) s = .next t ∧ ∀ r m w, (r, m) ∈ parts → s.wave? r = some w →
      ∃ w', t.wave? r = some w' ∧ w'.regs = w.regs ∧
        ∀ k l, w.lanes[k]? = some l → (m &&& predLanes w.regs h).getLsbD k = true → ∃ l', w'.lanes[k]? = some l' ∧ l'.run = .ended)
    ∧ (∃ t, exec (.done h) s = .next t ∧ ∀ r m w, (r, m) ∈ parts → s.wave? r = some w → w.lanes.length ≤ 64 →
      w.regs.width = w.lanes.length → m &&& predLanes w.regs h ≠ 0 →
      ∃ w', t.wave? r = some w' ∧ w'.regs = w.regs ∧ w'.lanes.length = w.lanes.length ∧ ∀ l ∈ w'.lanes, l.run = .ended)
    ∧ ((parts.map (·.1)).Nodup → ∃ t, exec (.nap h n) s = .next t ∧ OnlyTeams s t ∧
      ∀ r m w, (r, m) ∈ parts → s.wave? r = some w →
        let e := m &&& predLanes w.regs h
        t.wave? r = some { w with
          lanes := w.lanes.mapIdx fun k l => if m.getLsbD k then l.advance i.len else l
          naps := if e = 0 then w.naps else w.naps ++ [(e, s.cycle + n.toNat)] })

/-- R185: `exit` in root code ends the invocation of its unit without a fault. -/
def Claim.RootExit : Prop :=
  ∀ (h : Head) (s : State) (i : Issue) (q : Nat) (v : Inv), s.issue = some i → i.agent = .root q → s.inv? q = some v →
    ∃ t, exec (.exit h) s = .next t ∧ (t.unit q).invs = (s.unit q).invs.drop 1
      ∧ (∀ p, p ≠ q → (t.unit p).invs = (s.unit p).invs) ∧ t.fns.map (·.err) = s.fns.map (·.err)

/-- R93: the lanes of E park at the `wait` until LD, ST, CP and TL are at or below its bounds; when they are already,
the lanes move on at once. Lanes of the wave that another cause no longer parks go on too. Outside save mode an operation
that a stop has taken off its counter still counts here (the model's reading of R33, log 108). -/
def Claim.WaitParks : Prop :=
  ∀ (h : Head) (a : WaitArg) (s : State) (i : Issue) (core slot group : Nat) (parts : List (WaveRef × Mask)),
    s.issue = some i → i.agent = .core core slot group parts → (parts.map (·.1)).Nodup →
    let (ld, st, cp, tl) := match a with
      | .zero z => ((if z.getLsbD 0 then 0 else 63), (if z.getLsbD 1 then 0 else 63),
          (if z.getLsbD 2 then 0 else 63), if z.getLsbD 3 then 0 else 63)
      | .bounds b => ((b.extractLsb' 0 6).toNat, (b.extractLsb' 8 6).toNat, (b.extractLsb' 16 6).toNat,
          (b.extractLsb' 24 6).toNat)
    ∃ t, exec (.wait h a) s = .next t ∧ OnlyTeams s t
      ∧ (∀ r, r ∉ parts.map (·.1) → t.wave? r = s.wave? r)
      ∧ ∀ r m w, (r, m) ∈ parts → s.wave? r = some w →
        let e := m &&& predLanes w.regs h
        let held := fun (l : Lane) (c : Ctr) => if l.mode = .save then 0 else (w.stopped.filter fun x => x.1 == c).length
        let met := fun (l : Lane) => w.ld.length + held l .ld ≤ ld ∧ w.st.length + held l .st ≤ st
          ∧ w.cp.length + held l .cp ≤ cp ∧ w.tl.length + held l .tl ≤ tl
        ∃ w', t.wave? r = some w' ∧ w'.regs = w.regs ∧ w' = { w with lanes := w'.lanes } ∧
          ∀ k l, w.lanes[k]? = some l → e.getLsbD k = true →
            (met l → w'.lanes[k]? = some ({ l with run := .runnable }.goTo (i.pc + i.len)))
            ∧ (¬ met l → w'.lanes[k]? = some { l with run := .parked (.wait ld st cp tl (i.pc + i.len)) })

/-- The lanes of E of every part arrive at a barrier, and then a barrier at which every lane has arrived or ended releases
them (R27, R94). The loads that a wave has outstanding read before it arrives (R290). -/
def Claim.BarriersArrive : Prop :=
  ∀ (h : Head) (s : State) (i : Issue), s.issue = some i → NoTraps barTrap h i s →
    let arrive := fun (f : Lane → Lane) (i : Issue) (c : Ctx) (s : State) =>
      let s := advance s i c (c.iss &&& ~~~c.e)
      match c.ref with
      | some r => (if c.e = 0 then s else performLoads s r s.nextId).onLanes r c.e f
      | none => s
    let checks := fun (t : State) => Host.Outcome.next ((t.issueRefs.map (·.team)).dedup.foldl checkBarriers t)
    exec (.barTeam h) s = checks (partsEffect (arrive fun l =>
      { l with teamArr := true, run := .parked (.teamBar (i.pc + i.len)) }) h i s)
    ∧ exec (.barGang h) s = checks (partsEffect (arrive fun l =>
      { l with gangArr := true, run := .parked (.gangBar (i.pc + i.len)) }) h i s)

/-- R27: a team barrier, of a team that is not being saved or restored (log 75), releases when every lane of every wave
of the team has arrived or ended: then each lane that
is parked at it goes on at its next instruction and its arrival is forgotten. Until then nothing changes. A team
program's gang is its team. -/
def Claim.BarrierReleases : Prop :=
  ∀ (s : State) (x : Nat) (tm : Team), s.team? x = some tm →
    (∀ w ∈ tm.waves, ∀ l ∈ w.lanes, l.gangArr = false) → (∃ w ∈ tm.waves, ∃ l ∈ w.lanes, l.run ≠ .ended) →
    (∀ w ∈ tm.waves, w.save = .no) →
    let all := ∀ w ∈ tm.waves, ∀ l ∈ w.lanes, l.run = .ended ∨ l.teamArr = true
    (¬ all → checkBarriers s x = s)
    ∧ (all → OnlyTeams s (checkBarriers s x) ∧ (∀ y, y ≠ x → (checkBarriers s x).team? y = s.team? y)
      ∧ ∃ tm' : Team, (checkBarriers s x).team? x = some tm' ∧ tm'.waves.length = tm.waves.length
        ∧ ∀ (j : Nat) (w : Wave), tm.waves[j]? = some w → ∃ w' : Wave, tm'.waves[j]? = some w' ∧ w' = { w with lanes := w'.lanes }
          ∧ ∀ (k : Nat) (l : Lane) (n : Nat), w.lanes[k]? = some l → l.run = .parked (.teamBar n) →
            w'.lanes[k]? = some ({ l with teamArr := false, run := .runnable }.goTo n))

/-- R13 and R27: a gang barrier, of teams that are not being saved or restored (log 75), releases when every lane of every
team of the gang has arrived or ended: then each lane that is parked at it goes on and its arrival is forgotten; until
then nothing changes. The gang of a team program is its team. -/
def Claim.GangBarrierReleases : Prop :=
  ∀ (s : State) (x : Nat) (tm : Team) (ln : Launch), s.team? x = some tm → s.launch? tm.launch = some ln →
    (s.teams.map (·.id)).Nodup →
    let mates := s.teams.filter fun t => t.launch == tm.launch && t.task == tm.task
    mates.length = max 1 ln.gt → (∀ t ∈ mates, ∀ w ∈ t.waves, w.save = .no ∧ ∀ l ∈ w.lanes, l.teamArr = false) →
    let all := ∀ t ∈ mates, ∀ w ∈ t.waves, ∀ l ∈ w.lanes, l.run = .ended ∨ l.gangArr = true
    (¬ all → checkBarriers s x = s)
    ∧ (all → OnlyTeams s (checkBarriers s x)
      ∧ (∀ y, (∀ t ∈ mates, t.id ≠ y) → (checkBarriers s x).team? y = s.team? y)
      ∧ ∀ t ∈ mates, ∃ t' : Team, (checkBarriers s x).team? t.id = some t' ∧ t'.waves.length = t.waves.length
        ∧ ∀ (j : Nat) (w : Wave), t.waves[j]? = some w → ∃ w' : Wave, t'.waves[j]? = some w' ∧ w' = { w with lanes := w'.lanes }
          ∧ ∀ (k : Nat) (l : Lane) (n : Nat), w.lanes[k]? = some l → l.run = .parked (.gangBar n) →
            w'.lanes[k]? = some ({ l with gangArr := false, run := .runnable }.goTo n))

/-- R20: a barrier in trap mode does not arrive; it raises an illegal-instruction trap of reason 10 in the lanes of E,
and as these lanes are in trap mode already, they end. -/
def Claim.BarrierInTrapMode : Prop :=
  ∀ (h : Head) (s : State) (i : Issue) (core slot group : Nat) (r : WaveRef) (m : Mask) (w : Wave),
    s.issue = some i → i.agent = .core core slot group [(r, m)] → s.wave? r = some w →
    let e := m &&& predLanes w.regs h
    e ≠ 0 → e.toNat < 2 ^ w.lanes.length → (∀ k l, w.lanes[k]? = some l → e.getLsbD k = true → l.mode = .trap ∧ l.teamArr = false ∧ l.gangArr = false) →
    ∀ x ∈ [Instr.barTeam h, Instr.barGang h], ∃ t, exec x s = .next t
      ∧ t = takeTraps (advance s i (mkCtx (some r) 0 w.regs m h) (m &&& ~~~e))
          (e.lanes.map fun l => (r, l, { cause := 1, rsn := 10 }))
      ∧ ∃ w', t.wave? r = some w' ∧ ∀ k l, w.lanes[k]? = some l → e.getLsbD k = true →
          ∃ l', w'.lanes[k]? = some l' ∧ l'.run = .ended ∧ l'.teamArr = false ∧ l'.gangArr = false

/-! ### Traps (21_scheduling_preemption_tenancy) -/

/-- R313: a lane in ordinary mode whose trap is not delegated enters trap mode when the kernel or the context names a
handler: TPC, TANC, TDET and `%tcause` are recorded, and the PC is the entry header plus HB, or else HDEF. No other
wave changes, and no record is written. -/
def Claim.TrapEntry : Prop :=
  ∀ (s : State) (r : WaveRef) (k : Nat) (t : TrapInfo) (tm : Team) (ln : Launch) (w : Wave) (l : Lane),
    s.team? r.team = some tm → s.launch? tm.launch = some ln → s.wave? r = some w → w.lanes[k]? = some l → k < 64 →
    l.mode = .ordinary → tm.ctx.dmask.getLsbD t.cause = false → (ln.hb ≠ 0 ∨ tm.ctx.hdef ≠ 0) →
    let s' := takeTraps s [(r, k, t)]
    s'.wave? r = some { w with lanes := w.lanes.set k { l with
      trap := { tpc := l.pc, tanc := l.anchor, tdet := BitVec.ofNat 64 t.det, pos := l.pos, blk := l.blk }
      tcause := BitVec.ofNat 32 (t.cause % 256 + 256 * (t.rsn % 256) + 65536 * (t.code % 4096))
      mode := .trap, run := .runnable
      pc := if ln.hb ≠ 0 then ln.entry + ln.hb else tm.ctx.hdef
      pos := .atHeader, blk := {} } }
    ∧ (∀ q, q ≠ r → s'.wave? q = s.wave? q) ∧ s' = { s with teams := s'.teams, cores := s'.cores }

/-- R313: a trap that DMASK delegates ends the lane and gives a record with DELEG to the physical function's ring; one with
no handler ends it with a record on its own function's ring, and so does a trap of a lane that is in trap mode already,
with DOUBLE. A record that finds its ring full is dropped, and LOST counts it; otherwise the 64 bytes of R315 stand in host
memory at the ring's producer index. UNIT is the number of the wave's slot among the module's (log 76); that a full ring
drops the record, and how SEQ counts, is log 29. -/
def Claim.TrapEndsLane : Prop :=
  ∀ (s : State) (r : WaveRef) (k : Nat) (t : TrapInfo) (tm : Team) (ln : Launch) (w : Wave) (l : Lane),
    s.team? r.team = some tm → s.launch? tm.launch = some ln → s.wave? r = some w → w.lanes[k]? = some l → k < 64 →
    l.mode ≠ .ordinary ∨ tm.ctx.dmask.getLsbD t.cause = true ∨ (ln.hb = 0 ∧ tm.ctx.hdef = 0) →
    let s' := takeTraps s [(r, k, t)]
    let ring := if l.mode = .ordinary ∧ tm.ctx.dmask.getLsbD t.cause = true then 0 else tm.fn
    let old := s.fn ring
    let flg : Word := if l.mode ≠ .ordinary then 2 else if tm.ctx.dmask.getLsbD t.cause then 4 else 0
    let words : List Word := [old.seq, BitVec.ofNat 32 (t.cause % 256 + 256 * (t.rsn % 256) + 65536 * (t.code % 4096)), flg,
      ln.number, BitVec.ofNat 32 tm.task, BitVec.ofNat 32 (r.wave % 16 + 16 * (tm.team % 2 ^ 24)), BitVec.ofNat 32 k,
      BitVec.ofInt 32 ((l.anchor : Int) - ln.entry), BitVec.ofInt 32 ((l.pc : Int) - ln.entry),
      BitVec.ofNat 32 (256 * (4 * tm.core + w.slot))]
    let rec64 := words.flatMap (fun x => leBytes 4 x.toNat) ++ leBytes 8 (t.det % 2 ^ 64) ++ List.replicate 16 0
    s.hasFn ring = true →
    (∃ w' l', s'.wave? r = some w' ∧ w'.lanes[k]? = some l' ∧ l'.run = .ended)
    ∧ (old.err.size.toNat ≤ (old.err.prod - old.err.cons).toNat →
        (s'.fn ring).lost = old.lost + 1 ∧ (s'.fn ring).err = old.err)
    ∧ ((old.err.prod - old.err.cons).toNat < old.err.size.toNat →
        (s'.fn ring).err.prod = old.err.prod + 1 ∧ (s'.fn ring).seq = old.seq + 1 ∧ (s'.fn ring).msix1 = true
        ∧ readBytes s' (.host ((old.err.base.toNat + 64 * (old.err.prod.toNat % old.err.size.toNat)) % 2 ^ 64)) 64 = rec64)

/-- R315 and R316: the 64 bytes of a record at the producer index, field by field, and the record of a fault of work that a
wave has issued: IMPRECISE, with EXITED when the wave has ended, the wave's place, its anchor and no PC. -/
def Claim.ErrorRecords : Prop :=
  (∀ (s : State) (f : Nat) (e : ErrRec), s.hasFn f = true →
    let old := s.fn f
    (old.err.prod - old.err.cons).toNat < old.err.size.toNat →
    let b := readBytes (pushErr s f e) (.host ((old.err.base.toNat + 64 * (old.err.prod.toNat % old.err.size.toNat)) % 2 ^ 64)) 64
    ([old.seq, e.cause, e.flg, e.launch, e.task, e.wave, e.lane, e.anchor, e.pc, e.unit].zipIdx.all fun x =>
        fieldB b (4 * x.2) 4 = x.1.toNat)
      ∧ fieldB b 0x28 8 = e.detail.toNat ∧ fieldB b 0x30 4 = e.aux.toNat ∧ fieldB b 0x34 4 = e.codeoff.toNat
      ∧ fieldB b 0x38 8 = 0)
  ∧ ∀ (s : State) (b : Issuer) (cause unit detail aux : Nat) (tm : Team) (w : Wave) (ln : Launch),
    s.team? b.team = some tm → tm.waves[b.wave]? = some w → s.launch? b.launch = some ln →
    let e := issuerErr s b cause unit detail aux
    e.cause = BitVec.ofNat 32 cause ∧ e.flg = (if ∀ l ∈ w.lanes, l.run = .ended then 9 else 8) ∧ e.launch = ln.number
      ∧ e.task = BitVec.ofNat 32 b.task ∧ e.wave = BitVec.ofNat 32 (b.wave % 16 + 16 * (b.teamNo % 2 ^ 24))
      ∧ e.lane = 0xFFFFFFFF ∧ e.anchor = b.anchor ∧ e.pc = 0xFFFFFFFF ∧ e.unit = BitVec.ofNat 32 unit
      ∧ e.detail = BitVec.ofNat 64 detail ∧ e.aux = BitVec.ofNat 32 aux ∧ e.codeoff = 0

/-- R97: `trap n` raises its trap in every lane of E, with cause 12 and n as the code, at its own address: with a
handler the lanes of E are in trap mode with TPC at the `trap`, and the other issuing lanes have moved on. -/
def Claim.SoftwareTrap : Prop :=
  ∀ (h : Head) (n : BitVec 12) (s : State) (i : Issue) (core slot group : Nat) (r : WaveRef) (m : Mask) (w : Wave)
    (tm : Team) (ln : Launch), s.issue = some i → i.agent = .core core slot group [(r, m)] → s.wave? r = some w →
    s.team? r.team = some tm → s.launch? tm.launch = some ln → ln.hb ≠ 0 → tm.ctx.dmask.getLsbD 12 = false →
    let e := m &&& predLanes w.regs h
    (∀ k l, w.lanes[k]? = some l → m.getLsbD k = true → l.mode = .ordinary) → e.toNat < 2 ^ w.lanes.length → w.lanes.length ≤ 64 →
    ∃ t w', exec (.trap h n) s = .next t ∧ t.wave? r = some w' ∧ w' = { w with lanes := w'.lanes }
      ∧ ∀ k l, w.lanes[k]? = some l →
        (e.getLsbD k = true → ∃ l', w'.lanes[k]? = some l' ∧ l'.mode = .trap ∧ l'.trap.tpc = l.pc ∧ l'.trap.tanc = l.anchor
          ∧ l'.tcause = BitVec.ofNat 32 (12 + 65536 * n.toNat) ∧ l'.pc = ln.entry + ln.hb ∧ l'.run = .runnable)
        ∧ (e.getLsbD k = false → w'.lanes[k]? = some (if m.getLsbD k then l.advance i.len else l))

/-- R314: in trap mode `tret` resumes each lane of E at TPC, `tret.next` after the item there, which never passes the
block end and does not consume a header, `tret.anc` at TANC, and `tret va` at its own header; the lane is in ordinary
mode and its trap record is clear. `tinfo` gives TDET, low word first. Outside trap mode they raise reason 15. -/
def Claim.TrapReturn : Prop :=
  ∀ (h : Head) (va : VReg) (s : State) (i : Issue), s.issue = some i →
    let back := fun (f : State → WaveRef → Lane → Lane) => Host.Outcome.next (partsEffect (fun i c s => match c.ref with
      | some r => (advance s i c (c.iss &&& ~~~c.e)).onLanes r c.e (f s r)
      | none => advance s i c c.iss) h i s)
    let left := fun (l : Lane) (pc : Nat) (pos : LanePos) (blk : Blk) =>
      ({ l with pc := pc, pos := pos, blk := blk, mode := .ordinary, trap := {} } : Lane)
    (AllInMode .trap h i s →
      exec (.tret h) s = back (fun _ _ l => left l l.trap.tpc
        (match l.trap.pos with | .fresh .. => .inside | p => p) l.trap.blk)
      ∧ exec (.tretNext h) s = back (fun s r l =>
        if l.trap.pos = .atHeader then
          left l (l.trap.tpc + 8) .atHeader { l.trap.blk with stop := l.trap.tpc + 8 }
        else
          let pc := min (l.trap.tpc + itemBytes s (s.fnOf r) l) l.trap.blk.stop
          left l pc (if pc = l.trap.blk.stop then .atHeader else .inside) l.trap.blk)
      ∧ exec (.tretAnc h) s = back (fun _ _ l => left l l.trap.tanc .atHeader l.trap.blk)
      ∧ ((∀ c ∈ contexts s i h, ∀ l ∈ c.e.lanes,
            returnHeader s (ctxFn s c) (ctxEntry s c + (c.r.getV va.toNat l).toNat) = true) →
          (∀ c ∈ contexts s i h, ∀ l ∈ c.e.lanes, ∀ p,
            targetAt s (ctxFn s c) (ctxEntry s c + (c.r.getV va.toNat l).toNat) ≠ .away p) →
          ∃ t, exec (.tretVector h va) s = .next t ∧ ∀ core slot group r m w, i.agent = .core core slot group [(r, m)] →
            s.wave? r = some w →
            let e := m &&& predLanes w.regs h
            let go := fun (k : Nat) (l : Lane) =>
              if e.getLsbD k = true then left l (s.entryOf r + (w.regs.getV va.toNat k).toNat) .atHeader l.trap.blk
              else if m.getLsbD k = true then l.advance i.len else l
            t.wave? r = some { w with lanes := w.lanes.mapIdx go })
      ∧ ∃ t, exec (.tinfo h va) s = .next t ∧ ∀ core slot group r m w, i.agent = .core core slot group [(r, m)] →
          s.wave? r = some w → ∃ w', t.wave? r = some w' ∧
            w'.regs = (m &&& predLanes w.regs h).lanes.foldl (fun (x : Regs) l =>
              let d := ((w.lanes[l]?).getD {}).trap.tdet
              (x.setV va.toNat l (d.setWidth 32)).setV (va.toNat + 1) l ((d >>> 32).setWidth 32)) w.regs)
    ∧ ∀ x ∈ [Instr.tret h, .tretNext h, .tretAnc h, .tretVector h va, .tinfo h va],
        ∀ core slot group r m w, i.agent = .core core slot group [(r, m)] → s.wave? r = some w →
        (m &&& predLanes w.regs h) ≠ 0 → ctxMode s (mkCtx (some r) 0 w.regs m h) ≠ .trap →
        exec x s = .next (takeTraps (advance s i (mkCtx (some r) 0 w.regs m h) (m &&& ~~~(m &&& predLanes w.regs h)))
          ((m &&& predLanes w.regs h).lanes.map fun l => (r, l, { cause := 1, rsn := 15 })))

/-- R91, R18: a wave's earliest nap ends when its cycles have passed, which a turn of the model may bring about by letting time pass
(log 3); and the slot makes a group's next issue for the wave that lags by 64 issues. -/
def Claim.NapsEndAndLaggardsIssue : Prop :=
  ∀ (s : State) (r : WaveRef) (w : Wave) (m : Mask) (n core slot group : Nat), s.wave? r = some w →
    ((m, n) ∈ w.naps → (∀ x ∈ w.naps, n ≤ x.2) → ∃ t, exec (.napExpiry r) s = .next t
      ∧ t.wave? r = some { w with naps := w.naps.filter fun x => n < x.2 }
      ∧ t.cycle = max s.cycle n ∧ t.mem = s.mem ∧ ∀ q, q ≠ r → t.wave? q = s.wave? q)
    ∧ (lagging s (members s core slot group) (s.group core slot group) = some r →
      ∃ t, exec (.laggingWaveStep core slot group) s = .next t ∧ t.teams = s.teams ∧ t.mem = s.mem
        ∧ (slot < (s.core core).slots.length → (t.group core slot group).lag = some r))

/-! ### Loads, stores and atomics (08_isa_loads_and_stores, 18_memory_movement_and_tiers) -/

/-- R135: an element's address is the base, zero for the global base field 0 and for a window, plus its index scaled,
plus the displacement, exact; a 4-bit form counts nibbles. -/
def Claim.AccessAddress : Prop :=
  ∀ (c : Ctx) (m : MemOp) (nib : Bool) (e : Nat),
    let d : Int := match m.disp with | .short x => x.toInt | .long x => x.toInt
    let ix : Int := match m.ix with | some (v, k) => (c.r.elem v.toNat e).toNat * 2 ^ k.toNat | none => 0
    let base : Int := (c.r.getPair m.sb.toNat).toNat
    (m.sp = .global → m.sb ≠ 0 → memAddr c m nib e = (if nib then 2 * base else base) + ix + d)
    ∧ (m.sp = .global → m.sb = 0 → memAddr c m nib e = ix + d)
    ∧ (m.sp ≠ .global → memAddr c m nib e = ix + d)

/-- R135, R136 step 1: an access whose byte address is below 0 or whose bytes pass 2^56 is out of range, and then one that is
not a multiple of its size is misaligned; the byte of a nibble address is half of it. A window access is bounded by the window
of its team; one through the gang window by that of the team that its offset names, where the gang has it. In a team program
the gang is the team. -/
def Claim.AccessChecks : Prop :=
  ∀ (s : State) (r : WaveRef) (f : MemForm) (a : Int) (t : Team), s.team? r.team = some t →
    let b := if f.nib then a / 2 else a
    let bad := fun (cause : Nat) => some ({ cause := cause, det := (a % 2 ^ 64).toNat } : TrapInfo)
    let within := fun (o top : Int) => if o < 0 ∨ top < o + f.size then bad 8 else if b % f.size = 0 then none else bad 7
    let gt := ((s.launch? t.launch).map (·.gt)).getD 0
    (f.sp = .global → stepOne s r f a = within b (2 ^ 56))
    ∧ (f.sp = .sp → stepOne s r f a = within b t.winSize)
    ∧ (f.sp = .gw → (b < 0 ∨ 2 ^ 32 ≤ b → stepOne s r f a = bad 8)
      ∧ (0 ≤ b → b < 2 ^ 32 → let u := gangTeam s r (b / 2 ^ 24).toNat
          (u = none → stepOne s r f a = bad 8) ∧ ∀ x, u = some x → stepOne s r f a = within (b % 2 ^ 24) x.winSize))
    ∧ (∀ k, (gt = 0 → gangTeam s r k = if k = 0 then some t else none)
      ∧ (gt ≠ 0 → (∀ x, gangTeam s r k = some x → x ∈ s.teams ∧ x.launch = t.launch ∧ x.task = t.task ∧ x.team = k)
        ∧ (gangTeam s r k = none → ∀ x ∈ s.teams, x.launch = t.launch → x.task = t.task → x.team ≠ k)))

/-- R138, R140: with every active element's access permitted and resident, and LD below 63, a vector load goes out:
counted, its elements to receive their data, and every issuing lane moved on. The forms differ in the size of their
access, in their words and in how bytes become a word. -/
def Claim.VectorLoadsGoOut : Prop :=
  ∀ (h : Head) (o : VMem) (s : State) (i : Issue) (core slot group : Nat) (r : WaveRef) (m : Mask) (w : Wave)
    (place : Elem → Loc), s.issue = some i → i.agent = .core core slot group [(r, m)] → s.wave? r = some w →
    w.ld.length < 63 →
    let c := mkCtx (some r) 0 w.regs m h
    let odd := fun (x : Elem) => decide (x.a % 2 = 1)
    let goes := fun (x : Instr) (size words : Nat) (nib : Bool) (cv : Elem → Conv) =>
      let f : MemForm := { sp := o.m.sp, size := size, nib := nib, rd := true, wr := false }
      let xs := c.actives.map fun e => ({ e := e, l := e % c.w, a := memAddr c o.m nib e } : Elem)
      AllAt s r f xs place →
      (xs ≠ [] → exec x s = .next (advance (sendLoad (accessStart s r c f xs place) r
        { id := 0, elems := c.elems.flatMap fun e =>
            let y : Elem := { e := e, l := e % c.w, a := memAddr c o.m nib e }
            elemData c o.rd.toNat words e fun j => .mem ((place y).add (4 * j)) (cv y) }) i c m))
      ∧ (xs = [] → ∃ t, exec x s = .next t ∧ t.mem = s.mem ∧ t.hostMem = s.hostMem
          ∧ ∃ w', t.wave? r = some w' ∧ w'.ld = w.ld ∧ w'.loads = w.loads ∧ w'.regs.s = w.regs.s
            ∧ w'.lanes = w.lanes.mapIdx fun k l => if m.getLsbD k then l.advance i.len else l)
    goes (.ldB32 h o) 4 1 false (fun _ => .word)
    ∧ goes (.ldI8 h o) 1 1 false (fun _ => .sext8)
    ∧ goes (.ldN8 h o) 1 1 false (fun _ => .zext8)
    ∧ goes (.ldF16 h o) 2 1 false (fun _ => .zext16)
    ∧ goes (.ldB4 h o) 1 1 true (fun x => .nibble (odd x))
    ∧ goes (.ldW2 h o) 8 2 false (fun _ => .word)
    ∧ goes (.ldW4 h o) 16 4 false (fun _ => .word)

/-- R138, R140: likewise a vector store goes out, counted on ST, with the bytes of the active elements as they are in
the registers at issue; one with no active element only moves its lanes on. -/
def Claim.VectorStoresGoOut : Prop :=
  ∀ (h : Head) (o : VMem) (s : State) (i : Issue) (core slot group : Nat) (r : WaveRef) (m : Mask) (w : Wave)
    (place : Elem → Loc), s.issue = some i → i.agent = .core core slot group [(r, m)] → s.wave? r = some w →
    w.st.length < 63 →
    let c := mkCtx (some r) 0 w.regs m h
    let reg := fun (j e : Nat) => w.regs.elem (o.rd.toNat + j) e
    let goes := fun (x : Instr) (size : Nat) (nib : Bool) (val : Elem → StVal) =>
      let f : MemForm := { sp := o.m.sp, size := size, nib := nib, rd := false, wr := true }
      let xs := c.actives.map fun e => ({ e := e, l := e % c.w, a := memAddr c o.m nib e } : Elem)
      AllAt s r f xs place →
      (xs ≠ [] → exec x s = .next (advance (sendStore (accessStart s r c f xs place) r (((xs.map (·.l)).min?).getD 0) false
        (xs.map fun y => { loc := place y, val := val y })) i c m))
      ∧ (xs = [] → ∃ t, exec x s = .next t ∧ t = { s with teams := t.teams }
          ∧ t.wave? r = some { w with walked := [], lanes := w.lanes.mapIdx fun k l => if m.getLsbD k then l.advance i.len else l })
    goes (.stB32 h o) 4 false (fun y => .bytes (leBytes 4 (reg 0 y.e).toNat))
    ∧ goes (.stN8 h o) 1 false (fun y => .bytes (leBytes 1 (reg 0 y.e).toNat))
    ∧ goes (.stF16 h o) 2 false (fun y => .bytes (leBytes 2 (reg 0 y.e).toNat))
    ∧ goes (.stB4 h o) 1 true (fun y => .nibble (decide (y.a % 2 = 1)) ((reg 0 y.e).setWidth 4))
    ∧ goes (.stW2 h o) 8 false (fun y => .bytes (leBytes 4 (reg 0 y.e).toNat ++ leBytes 4 (reg 1 y.e).toNat))
    ∧ goes (.stW4 h o) 16 false (fun y => .bytes (leBytes 4 (reg 0 y.e).toNat ++ leBytes 4 (reg 1 y.e).toNat
        ++ leBytes 4 (reg 2 y.e).toNat ++ leBytes 4 (reg 3 y.e).toNat))

/-- R142: the uniform forms make one access for the wave, with uniform registers as data. -/
def Claim.UniformAccessesGoOut : Prop :=
  ∀ (h : Head) (o : UMem) (s : State) (i : Issue) (core slot group : Nat) (r : WaveRef) (m : Mask) (w : Wave)
    (l : Loc), s.issue = some i → i.agent = .core core slot group [(r, m)] → s.wave? r = some w →
    let c := mkCtx (some r) 0 w.regs m h
    let x : Elem := { e := 0, l := (c.e.low).getD 0, a := memAddr c o.m false 0 }
    let ld := fun (k : Nat) => ({ sp := o.m.sp, size := k, rd := true, wr := false } : MemForm)
    let st := fun (k : Nat) => ({ sp := o.m.sp, size := k, rd := false, wr := true } : MemForm)
    let get := fun (j : Nat) => ({ dst := .s (o.rd.toNat + j), src := .mem (l.add (4 * j)) .word } : LdElem)
    let word := fun (j : Nat) => leBytes 4 (w.regs.getS (o.rd.toNat + j)).toNat
    c.e ≠ 0 →
    (w.ld.length < 63 →
      (AllAt s r (ld 4) [x] (fun _ => l) → exec (.ldsB32 h o) s = .next (advance
        (sendLoad (accessStart s r c (ld 4) [x] fun _ => l) r { id := 0, elems := [get 0] }) i c m))
      ∧ (AllAt s r (ld 8) [x] (fun _ => l) → exec (.ldsW2 h o) s = .next (advance
        (sendLoad (accessStart s r c (ld 8) [x] fun _ => l) r { id := 0, elems := [get 0, get 1] }) i c m)))
    ∧ (w.st.length < 63 →
      (AllAt s r (st 4) [x] (fun _ => l) → exec (.stsB32 h o) s = .next (advance
        (sendStore (accessStart s r c (st 4) [x] fun _ => l) r x.l false [{ loc := l, val := .bytes (word 0) }]) i c m))
      ∧ (AllAt s r (st 8) [x] (fun _ => l) → exec (.stsW2 h o) s = .next (advance
        (sendStore (accessStart s r c (st 8) [x] fun _ => l) r x.l false
          [{ loc := l, val := .bytes (word 0 ++ word 1) }]) i c m)))

/-- R281, R282: an atomic that returns a value goes out as a load of what was there, counted on LD, and an update as a
store, counted on ST. A release first performs the wave's earlier accesses; an acquire holds back its later ones; RMT asks
other cores for the lines that they have released. That a release performs them at its own turn is the model's choice (log
8). -/
def Claim.AtomicsGoOut : Prop :=
  ∀ (h : Head) (o : AtomOp) (s : State) (i : Issue) (core slot group : Nat) (r : WaveRef) (m : Mask) (w : Wave)
    (place : Elem → Loc), s.issue = some i → i.agent = .core core slot group [(r, m)] → s.wave? r = some w →
    let c := mkCtx (some r) 0 w.regs m h
    let f : MemForm := { sp := o.sp, size := 4, rd := true, wr := true }
    let mem : MemOp := { sp := o.sp, ix := o.ix, sb := o.sb, disp := match o.disp with | none => .short 0 | some d => .long d }
    let el := fun (e : Nat) => ({ e := e, l := e % c.w, a := memAddr c mem false e } : Elem)
    let xs := c.actives.map el
    let acq := o.ord = .acquire ∨ o.ord = .acqRel
    let rel := o.ord = .release ∨ o.ord = .acqRel
    AllAt s r f xs place → xs ≠ [] →
    let s1 := accessStart s r c f xs place
    let s2 := if rel then performAll s1 r else s1
    let s3 := if o.rmt then requestPromotion s2 (s2.coreOf r) (xs.map fun x => (x, place x)) else s2
    let s4 := if acq then s3.modWave r fun w => { w with holdLd := w.holdLd ++ [s3.nextId] } else s3
    let atom := fun (x : Instr) (k : AtomKind) =>
      w.ld.length < 63 → (o.sco = .wave ∨ o.sco = .team ∨ (ctxLaunch s c).det = false) →
      exec x s = .next (advance (sendLoad s4 r
        { id := s3.nextId, rel := rel, rmt := o.rmt, team := o.sco == .team
          anchor := laneAnchor s r (((xs.map (·.l)).min?).getD 0), lane := ((xs.map (·.l)).min?).getD 0
          elems := c.elems.flatMap fun e => elemData c o.rd.toNat 1 e fun _ =>
            .atom (place (el e)) k (c.r.elem o.rd.toNat e) (if k = .cas then c.r.elem h.v4 e else 0) }) i c m)
    let upd := fun (x : Instr) (k : AtomKind) =>
      w.st.length < 63 →
      exec x s = .next (advance (sendStore s2 r (((xs.map (·.l)).min?).getD 0) (decide (rel ∧ o.sco = .team))
        (xs.map fun y => { loc := place y, val := .upd k (c.r.elem o.rd.toNat y.e) })) i c m)
    atom (.atomAdd h o) .add ∧ atom (.atomMinI32 h o) .minI ∧ atom (.atomMinN32 h o) .minN ∧ atom (.atomMaxI32 h o) .maxI
    ∧ atom (.atomMaxN32 h o) .maxN ∧ atom (.atomAnd h o) .and ∧ atom (.atomOr h o) .or ∧ atom (.atomXor h o) .xor
    ∧ atom (.atomXchg h o) .xchg ∧ atom (.atomCas h o) .cas ∧ atom (.atomFadd h o) .fadd
    ∧ upd (.updAdd h o) .add ∧ upd (.updMinI32 h o) .minI ∧ upd (.updMinN32 h o) .minN ∧ upd (.updMaxI32 h o) .maxI
    ∧ upd (.updMaxN32 h o) .maxN ∧ upd (.updAnd h o) .and ∧ upd (.updOr h o) .or ∧ upd (.updXor h o) .xor
    ∧ upd (.updFadd h o) .fadd

/-- The frame of an access at issue: it changes no byte of memory and no window, except that D is set in leaves of the
pages that a form which writes reaches (R270), and with D set in them already nothing is. In its wave the counter has
the access at its end, the access is listed, its lanes move on, and its registers stay (R77, R138). -/
def Claim.AccessFrame : Prop :=
  ∀ (s : State) (i : Issue) (r : WaveRef) (m : Mask) (w : Wave) (h : Head) (f : MemForm) (xs : List Elem)
    (place : Elem → Loc) (p : PendLoad) (lane : Nat) (rel : Bool) (es : List StElem),
    s.wave? r = some w → f.rd = false ∨ f.wr = false →
    (f.wr = true → ∀ x ∈ xs, ∃ q, reach s r f x.a = .ok (place x) q false) →
    let c := mkCtx (some r) 0 w.regs m h
    let s1 := accessStart s r c f xs place
    let t := advance (sendLoad s1 r p) i c m
    let u := advance (sendStore s1 r lane rel es) i c m
    let moved := w.lanes.mapIdx fun k l => if m.getLsbD k then l.advance i.len else l
    let p' : PendLoad := { p with id := s.nextId }
    let q : PendStore := {
      id := s.nextId, elems := es, lane := lane, teamRel := rel
      anchor := offsetOf (s.entryOf r) ((w.lanes[lane]?).getD {}).anchor
      direct := ((w.lanes[lane]?).getD {}).mode == .save }
    (∀ l, readLoc t l = readLoc s l) ∧ (∀ l, readLoc u l = readLoc s l)
    ∧ t = { s with teams := t.teams, charges := t.charges, issue := t.issue, nextId := s.nextId + 1 }
    ∧ u = { s with teams := u.teams, charges := u.charges, issue := u.issue, nextId := s.nextId + 1 }
    ∧ (∀ v ∈ [t, u], v.issue.map (fun j => { j with lines := [] }) = s.issue.map (fun j => { j with lines := [] }))
    ∧ (∀ x, x ≠ r → t.wave? x = s.wave? x ∧ u.wave? x = s.wave? x)
    ∧ t.wave? r = some { w with lanes := moved, walked := [], ld := w.ld ++ [(s.nextId, false)], loads := w.loads ++ [p'] }
    ∧ u.wave? r = some { w with lanes := moved, walked := [], st := w.st ++ [(s.nextId, false)], stores := w.stores ++ [q] }

/-- R143: a first-fault load whose lowest active element is in place loads the elements below the first that is not, which
traps nothing, and `%vl` becomes that element. With all in place it is a load. That each wave's part of an issue starts its
own migration is log 115. -/
def Claim.FirstFaultLoads : Prop :=
  ∀ (h : Head) (o : VMem) (s : State) (i : Issue) (core slot group : Nat) (r : WaveRef) (m : Mask) (w : Wave)
    (e0 : Nat) (es : List Nat), s.issue = some i → i.agent = .core core slot group [(r, m)] → s.wave? r = some w →
    w.ld.length < 63 →
    let c := mkCtx (some r) 0 w.regs m h
    c.actives = e0 :: es →
    let goes := fun (x : Instr) (size : Nat) (cv : Conv) =>
      let f : MemForm := { sp := o.m.sp, size := size, rd := true, wr := false }
      let at_ := fun e => reach s r f (memAddr c o.m false e)
      let okAt := fun e => match at_ e with | .ok .. => true | _ => false
      (∃ l p d, at_ e0 = .ok l p d) → (∀ e ∈ es, ∀ p, at_ e ≠ .miss p) →
      let vl := ((es.find? fun e => !okAt e).getD c.r.vl)
      let c' := { c with vl := min c.vl vl, r := { c.r with vl := vl } }
      let data := c.elems.flatMap fun e =>
        elemData c' o.rd.toNat 1 e fun _ => .mem (match at_ e with | .ok l _ _ => l | _ => .dev 0) cv
      ∃ t w', exec x s = .next t ∧ t.wave? r = some w' ∧ w'.regs = { w.regs with vl := vl }
        ∧ w'.ld = w.ld ++ [(s.nextId, false)] ∧ w'.lanes = (w.lanes.mapIdx fun k l => if m.getLsbD k then l.advance i.len else l)
        ∧ w'.loads = w.loads ++ [{ id := s.nextId, elems := data }]
    goes (.ldFfB32 h o) 4 .word ∧ goes (.ldFfN8 h o) 1 .zext8

/-- R138, R139, R140: a load's data may arrive before that of older loads. Each of its destinations gets what memory holds
then under the wave's own older stores, little-endian and extended as the form says, and LD falls past the loads at its
head that are complete, and past no other (R32). It changes no memory, and the other loads stay outstanding. -/
def Claim.LoadDelivers : Prop :=
  ∀ (s : State) (r : WaveRef) (w : Wave) (tm : Team) (p : PendLoad),
    s.team? r.team = some tm → s.wave? r = some w → tm.staged = [] → p ∈ w.loads → (w.loads.map (·.id)).Nodup → w.joint = [] →
    (∀ q ∈ w.loads, ∀ e ∈ q.elems, ∀ l k v x, e.src ≠ .atom l k v x) →
    (∀ e ∈ p.elems, ∀ l cv, e.src = .mem l cv → Loc.broken s l = false) →
    (∀ q ∈ w.stores, ∀ e ∈ q.elems, ∀ k v, e.val = .upd k v →
      e.loc.addr % 4 = 0 ∧ ∀ u ∈ w.loads, ∀ x ∈ u.spans, spansMeet e.span (wordSpan x) = false) →
    p.rmt = false → w.allEnded = false →
    let here := ((w.stores.filter fun q => q.id < p.id).flatMap (·.elems)).foldl performPiece s
    let value := fun (e : LdElem) => match e.src with
      | .known x => x
      | .mem l .word => BitVec.ofNat 32 (leNat (readBytes here l 4))
      | .mem l .zext16 => BitVec.ofNat 32 (leNat (readBytes here l 2))
      | .mem l .sext8 => (readLoc here l).signExtend 32
      | .mem l .zext8 => (readLoc here l).setWidth 32
      | .mem l (.nibble hi) => if hi then ((readLoc here l) >>> 4).setWidth 32 else ((readLoc here l) &&& 15).setWidth 32
      | .atom .. => 0
    ∃ t w', exec (.loadComplete r p.id) s = .next t ∧ t.wave? r = some w' ∧ t.mem = s.mem ∧ t.hostMem = s.hostMem
      ∧ w'.loads.map (·.id) = (w.loads.map (·.id)).filter (· ≠ p.id) ∧ w'.stores = w.stores ∧ w'.st = w.st
      ∧ w'.ld = ((w.ld.map fun x => if x.1 = p.id then (p.id, true) else x).dropWhile (·.2))
      ∧ w'.regs = p.elems.foldl (fun (g : Regs) e => match e.dst with
          | .v n l => g.setV n l (value e)
          | .s n => g.setS n (value e)) { w.regs with wrote := 0 }

/-- R139, R290, R292: a load of a word that an older update of its own wave has not yet written has the update performed first, and
its data is the updated word. -/
def Claim.LoadAfterUpdate : Prop :=
  ∀ (s : State) (r : WaveRef) (w : Wave) (tm : Team) (p : PendLoad) (q : PendStore) (a : Nat) (k : AtomKind) (v : Word) (n l : Nat),
    s.team? r.team = some tm → s.wave? r = some w → tm.staged = [] → w.stores = [q] → w.loads = [p] → s.MemWf → q.id < p.id →
    p.elems = [{ dst := .v n l, src := .mem (.dev a) .word }] → q.elems = [{ loc := .dev a, val := .upd k v }] → a % 4 = 0 →
    Loc.reachable s (.dev a) = true → a / 64 ∉ s.badLines → s.isDet tm = false → w.allEnded = false → p.rmt = false →
    let new := atomNew k (BitVec.ofNat 32 (leNat (readBytes s (.dev a) 4))) v 0
    ∃ t w', exec (.loadComplete r p.id) s = .next t ∧ t.wave? r = some w'
      ∧ w'.regs = ({ w.regs with wrote := 0 } : Regs).setV n l new ∧ w'.loads = [] ∧ w'.stores.map (·.elems) = [[]]
      ∧ readBytes t (.dev a) 4 = leBytes 4 new.toNat ∧ ∀ b, (b < a ∨ a + 4 ≤ b) → readCell t.mem b = readCell s.mem b

/-- R281: an atomic's data is what was there, and memory there has the new value, in one step. -/
def Claim.AtomicDelivers : Prop :=
  ∀ (s : State) (r : WaveRef) (w : Wave) (tm : Team) (p : PendLoad) (a : Nat) (k : AtomKind) (v c : Word) (n l : Nat),
    s.team? r.team = some tm → s.wave? r = some w → tm.staged = [] → w.stores = [] → w.loads = [p] → s.MemWf →
    p.elems = [{ dst := .v n l, src := .atom (.dev a) k v c }] → Loc.broken s (.dev a) = false → s.isDet tm = false →
    w.allEnded = false → p.rel = false → p.rmt = false →
    let old := BitVec.ofNat 32 (leNat (readBytes s (.dev a) 4))
    let new : Word := match k with
      | .add => old + v
      | .minI => if old.toInt < v.toInt then old else v
      | .minN => if old.toNat < v.toNat then old else v
      | .maxI => if old.toInt < v.toInt then v else old
      | .maxN => if old.toNat < v.toNat then v else old
      | .and => old &&& v
      | .or => old ||| v
      | .xor => old ^^^ v
      | .xchg => v
      | .cas => if old = c then v else old
      | .fadd => fadd32 old v
    ∃ t w', exec (.loadComplete r p.id) s = .next t ∧ t.wave? r = some w'
      ∧ w'.regs = ({ w.regs with wrote := 0 } : Regs).setV n l old
      ∧ readBytes t (.dev a) 4 = leBytes 4 new.toNat ∧ t.hostMem = s.hostMem
      ∧ ∀ b, (b < a ∨ a + 4 ≤ b) → readCell t.mem b = readCell s.mem b

/-- R32, R37, R137, R140: the oldest store of a wave retires: its pieces are in memory in their order, the bytes that they
do not store to are as they were, and ST falls. The address stored to is the one fixed at issue. A line with an
uncorrectable error takes a store that writes all of it. When a store fails because its line was lost before it is
performed, and with which cause, is log 32. -/
def Claim.StoreRetires : Prop :=
  ∀ (s : State) (r : WaveRef) (w : Wave) (tm : Team) (p : PendStore) (rest : List PendStore),
    s.team? r.team = some tm → s.wave? r = some w → w.stores = p :: rest → w.loads = [] → s.isDet tm = false → w.joint = [] →
    (∀ e ∈ p.elems, Loc.reachable s e.loc = true ∧
      ∀ pa, e.loc = .dev pa → pa / 64 ∈ s.badLines → ∀ k < 64, ∃ x ∈ p.elems, ∃ a b, x.loc = .dev a ∧ x.val = .bytes b
        ∧ a ≤ pa / 64 * 64 + k ∧ pa / 64 * 64 + k < a + b.length) →
    p.fail = none → (∀ x ∈ rest, x.id ≠ p.id) → p.teamRel = false →
    ∃ t w', exec (.storeRetire r false) s = .next t ∧ t.wave? r = some w' ∧ w'.stores = rest ∧ w'.regs = w.regs
      ∧ w'.st = ((w.st.map fun x => if x.1 = p.id then (p.id, true) else x).dropWhile (·.2))
      ∧ (∀ l, readLoc t l = readLoc (p.elems.foldl performPiece s) l)
      ∧ ∀ l, (∀ e ∈ p.elems, ∀ j < (match e.val with | .bytes b => b.length | .nibble _ _ => 1 | .upd _ _ => 4), e.loc.add j ≠ l) →
          readLoc t l = readLoc s l

/-- R37, R137, R315: with a write error, the pieces of the store that lie in the capacity tier, in host memory or in a line
that is lost are not performed, and the others are. A record of cause 0x10 goes to the function's ring, unless that is
full: imprecise, with the wave's task, its lane and the store's anchor, the address of the first such piece, and EXITED
when the wave has ended. That a line found lost gives this cause is log 32, the number of the slot as UNIT log 76, and the
place and the lane that the record names log 114. -/
def Claim.FailedStore : Prop :=
  ∀ (s : State) (r : WaveRef) (w : Wave) (tm : Team) (p : PendStore) (e : StElem) (ln : Launch),
    s.team? r.team = some tm → s.wave? r = some w → w.stores = [p] → w.loads = [] → w.joint = [] →
    s.isDet tm = false → p.fail = none → s.launch? tm.launch = some ln → RingRoom s tm.fn →
    let lost := fun (x : StElem) => x.fails s p.elems || (match x.loc with
      | .dev pa => decide (pa / 2 ^ 48 = 1)
      | .host _ => true
      | .win .. => false)
    p.elems.find? lost = some e →
    let ring := (s.fn tm.fn).err
    let slot := (ring.base.toNat + 64 * (ring.prod.toNat % ring.size.toNat)) % 2 ^ 64
    ∃ t w', exec (.storeRetire r true) s = .next t ∧ t.wave? r = some w' ∧ w'.stores = []
      ∧ (∀ l, (∀ j < 64, l ≠ .host (slot + j)) →
          readLoc t l = readLoc ((p.elems.filter fun x => !lost x).foldl performPiece s) l)
      ∧ (let by_ : Issuer := { fn := tm.fn, launch := tm.launch, team := r.team, wave := r.wave, task := tm.task
                               teamNo := tm.team, anchor := p.anchor }
         let x := workRec by_ w ln 0x10 (256 * (4 * tm.core + w.slot)) e.loc.addr 0
         Recorded s t tm.fn { x with lane := BitVec.ofNat 32 p.lane })
      ∧ t.launch? tm.launch = some { ln with records := ln.records + 1 }

/-- A byte of a memory in canonical form reads as it was last written, and the form is kept; the same holds of a team's
window, and memories do not touch one another. -/
def Claim.ReadAfterWrite : Prop :=
  (∀ (m : List Host.Cell) (a a' : Nat) (b : Byte), Memory.wf m = true →
    Memory.wf (writeCell a b m) = true ∧ readCell (writeCell a b m) a' = if a' = a then b else readCell m a')
  ∧ (∀ (s : State) (b : Byte) (l l' : Loc), s.MemWf → (∀ t ∈ s.teams, Memory.wf t.win = true) →
      (∀ k o, l = .win k o → (s.team? k).isSome) →
      readLoc (writeLoc s b l) l' = if l' = l then b else readLoc s l')
  ∧ ∀ (s : State) (bs : List Byte) (a : Nat), s.MemWf →
      readBytes (writeBytes s (.dev a) bs) (.dev a) bs.length = bs
      ∧ ∀ x, (x < a ∨ a + bs.length ≤ x) → readCell (writeBytes s (.dev a) bs).mem x = readCell s.mem x

/-- Two memories in canonical form that read alike at every address are the same list. -/
def Claim.MemoryIsCanonical : Prop :=
  ∀ m m' : List Host.Cell, Memory.wf m = true → Memory.wf m' = true → (∀ a, readCell m a = readCell m' a) → m = m'

/-- R144: a full/empty form whose one active lane meets a word on which no lane waits: `ld.sync` takes the data of a full
word and empties it, `st.sync` fills an empty one, `st.fill` writes and fills, `fe.clr` empties; a lane that meets the
other state parks on the word, first in its order, with its PC unchanged. -/
def Claim.FullEmptyForms : Prop :=
  ∀ (h : Head) (o : VMem) (s : State) (i : Issue) (core slot group : Nat) (r : WaveRef) (m : Mask) (w : Wave)
    (e off tid : Nat) (tw : Team) (l : Lane), s.issue = some i → i.agent = .core core slot group [(r, m)] →
    s.wave? r = some w → w.loads = [] → w.stores = [] →
    let c := mkCtx (some r) 0 w.regs m h
    let k := e % c.w
    c.actives = [e] → (c.elems.all fun x => c.kind x != .zeroed) = true → w.lanes[k]? = some l → k < 64 → c.w = w.lanes.length →
    reach s r { sp := o.m.sp, size := 4, rd := false, wr := false } (memAddr c o.m false e) = .ok (.win tid off) 0 false →
    s.team? tid = some tw → (tw.feWord off).queue = [] → (tw.feWord off).reserved = none → Memory.wf tw.win = true →
    let full := (tw.feWord off).full
    let fe := fun (t : State) => (t.team? tid).map fun x => (x.feWord off).full
    let word := fun (t : State) => readWord t (.win tid off)
    let lane := fun (t : State) => (t.wave? r).bind fun x => x.lanes[k]?
    let data := w.regs.elem o.rd.toNat e
    let parked := fun (t : State) (st : Bool) => lane t = some { l with run := .parked (.word tid off st) }
      ∧ ((t.team? tid).map fun x => (x.feWord off).queue) = some [(r.team, r.wave, k)] ∧ fe t = some full ∧ word t = word s
    (∃ t, exec (.ldSync h o) s = .next t ∧
      (full = true → fe t = some false ∧ word t = word s ∧ lane t = some (l.advance i.len)
        ∧ (t.wave? r).map (·.regs) = some (w.regs.setV o.rd.toNat k (word s)))
      ∧ (full = false → parked t true))
    ∧ (∃ t, exec (.stSync h o) s = .next t ∧
      (full = false → fe t = some true ∧ word t = data ∧ lane t = some (l.advance i.len))
      ∧ (full = true → parked t false))
    ∧ (∃ t, exec (.stFill h o) s = .next t ∧ fe t = some true ∧ word t = data ∧ lane t = some (l.advance i.len))
    ∧ (∃ t, exec (.feClr h o.m) s = .next t ∧ fe t = some false ∧ word t = word s ∧ lane t = some (l.advance i.len))

/-- R136: an issue none of whose elements has a translation to wait for, or one of whose elements fails step 1, traps in
every lane that has a failing element, with the trap of its lowest, and performs nothing; the lanes whose predicate is
false move on. An issue that lacks translations parks its lanes, at their PCs, and its pages are walked for. -/
def Claim.AccessTrapsAndMisses : Prop :=
  ∀ (h : Head) (o : VMem) (u : UMem) (a : AtomOp) (s : State) (i : Issue) (core slot group : Nat) (r : WaveRef) (m : Mask)
    (w : Wave) (x : AccessForm), x ∈ accessForms h o u a ++ wordForms h o → s.issue = some i →
    i.agent = .core core slot group [(r, m)] → s.wave? r = some w →
    let c := mkCtx (some r) 0 w.regs m h
    (a.sco = .wave ∨ a.sco = .team ∨ (ctxLaunch s c).det = false) →
    let xs := x.elems c
    let trap := fun (y : Elem) => match reach s r x.form y.a with | .trap t => some t | _ => none
    let pages := (xs.filterMap fun y => match reach s r x.form y.a with | .miss p => some p | _ => none).dedup
    let early : Prop := ∃ y ∈ xs, stepOne s r x.form y.a ≠ none
    let on := advance s i c (m &&& ~~~c.e)
    let lanes : List (Nat × TrapInfo) := if x.uni then match xs.findSome? trap with
        | some t => c.e.lanes.map fun l => (l, t)
        | none => []
      else (List.range 64).filterMap fun l => ((xs.filter fun y => y.l = l).findSome? trap).map fun t => (l, t)
    (early ∨ (pages = [] ∧ ∃ y ∈ xs, trap y ≠ none) → exec x.instr s = .next (raiseAll (dropWalked on c) [(c, lanes)]))
    ∧ (¬ early → pages ≠ [] → ∃ t, exec x.instr s = .next t ∧ t = { s with teams := t.teams, walks := t.walks }
        ∧ (∀ p ∈ pages, ({ core := s.coreOf r, fn := s.fnOf r, page := p } : Walk) ∈ t.walks)
        ∧ (let park : Nat → Lane → Lane := fun k l =>
             if c.e.getLsbD k then { l with run := .parked .miss } else if m.getLsbD k then l.advance i.len else l
           t.wave? r = some { w with misses := pages, lanes := w.lanes.mapIdx park }))

/-- R31, R136 step 4, R146: with its counter at 63 an access that could be performed parks its lanes on the counter at
their PCs. A lane whose lowest element that is away lies in a page parks on the migration of that page, which starts, at
its PC; a uniform access parks every lane of E. That a lane with elements on several such pages starts the migration of the
lowest element's alone is log 118. -/
def Claim.AccessParks : Prop :=
  ∀ (h : Head) (o : VMem) (u : UMem) (a : AtomOp) (s : State) (i : Issue) (core slot group : Nat) (r : WaveRef) (m : Mask)
    (w : Wave) (x : AccessForm), x ∈ accessForms h o u a → s.issue = some i →
    i.agent = .core core slot group [(r, m)] → s.wave? r = some w →
    let c := mkCtx (some r) 0 w.regs m h
    (a.sco = .wave ∨ a.sco = .team ∨ (ctxLaunch s c).det = false) →
    let xs := x.elems c
    (∀ place, AllAt s r x.form xs place → xs ≠ [] → 63 ≤ w.ctr x.ctr →
      exec x.instr s = .next (advance ((dropWalked s c).onLanes r c.e (Lane.park (.full x.ctr))) i c (m &&& ~~~c.e)))
    ∧ ∀ page, (∀ y ∈ xs, (∃ l p d, reach s r x.form y.a = .ok l p d) ∨ reach s r x.form y.a = .away page) →
        (∃ y ∈ xs, reach s r x.form y.a = .away page) →
        ∃ t w', exec x.instr s = .next t ∧ t.wave? r = some w'
          ∧ (∀ y ∈ xs, reach s r x.form y.a = .away page → ∀ k l, (if x.uni then c.e.getLsbD k = true else k = y.l) →
              w.lanes[k]? = some l → w'.lanes[k]? = some { l with run := .parked (.migration (s.fnOf r) page) })
          ∧ ∀ at_ leaf, walk s (s.fnOf r) page = some (at_, leaf) → leafMig leaf = false → ∃ g ∈ t.migrations,
              g.fn = s.fnOf r ∧ g.page = page ∧ g.leafAt = at_ ∧ g.leaf = setBit64 leaf 56 true ∧ g.up = true

/-- R25: a word that changes state is reserved for the lane that parked on it first among those that await the state,
and that lane alone becomes runnable. -/
def Claim.FullEmptyWakes : Prop :=
  ∀ (s : State) (x off k j : Nat) (full : Bool) (tm : Team) (rest : List (Nat × Nat × Nat)) (w : Wave) (l : Lane),
    s.team? x = some tm → tm.feWord off = { off := off, full := !full, queue := (x, k, j) :: rest, reserved := none } →
    s.wave? ⟨x, k⟩ = some w → w.lanes[j]? = some l → j < 64 → l.run = .parked (.word x off full) →
    let t := setFull s x off full
    (∃ w', t.wave? ⟨x, k⟩ = some w' ∧ w' = { w with lanes := w.lanes.set j { l with run := .runnable } })
    ∧ ((t.team? x).map fun y => ((y.feWord off).full, (y.feWord off).reserved)) = some (full, some (x, k, j))
    ∧ (∀ r, r ≠ ⟨x, k⟩ → t.wave? r = s.wave? r) ∧ OnlyTeams s t

/-- R145, R283, R295: a prefetch of level 1 starts the migration of a page that is valid and away, and else changes
nothing; a fence performs what its release covers and holds back what its acquire does; a promotion request makes the core
that released the line perform its pending releases. That a release performs at its own turn is the model's choice (log 8),
and what the work of promotion costs is left free (log 111). -/
def Claim.PrefetchAndFences : Prop :=
  ∀ (h : Head) (o : PfOp) (q : FenceOp) (s : State) (i : Issue) (core slot group : Nat) (r : WaveRef) (m : Mask) (w : Wave)
    (e : Nat), s.issue = some i → i.agent = .core core slot group [(r, m)] → s.wave? r = some w →
    let c := mkCtx (some r) 0 w.regs m h
    (o.lvl ≠ 1 → exec (.pf h o) s =
        .next (advance (chargeFresh s (s.fnOf r) directLine (pfLines s r (memElems o.m false c))) i c m))
    ∧ (o.lvl = 1 → c.actives = [e] →
        let a := memAddr c o.m false e
        0 ≤ a → a < 2 ^ 56 → ∀ p y x, findVa s (s.fnOf r) (a.toNat / 65536 * 65536) = .away p →
        walk s (s.fnOf r) (a.toNat / 65536) = some (y, x) → leafMig x = false →
        ∃ t mg, exec (.pf h o) s = .next t ∧ t.migrations = s.migrations ++ [mg] ∧ mg.fn = s.fnOf r
          ∧ mg.page = a.toNat / 65536 ∧ mg.up = true ∧ mg.leafAt = y)
    ∧ (c.e ≠ 0 →
        let acq := q.ord = .acquire ∨ q.ord = .acqRel
        let rel := q.ord = .release ∨ q.ord = .acqRel
        let s1 := if q.rmt then promoteAs s r (wavesOn s none (some (s.fnOf r))) else s
        let s2 := if rel then performAll s1 r else s1
        let s3 := if acq then s2.modWave r fun w => { w with holdLd := w.loads.map (·.id) } else s2
        exec (.fence h q) s = .next (advance s3 i c m))
    ∧ ∀ line p, line ∈ s.promotions → alGet s.lrel line = some p →
        exec (.remotePromotionRequest line) s =
          .next (promoteAs { s with promotions := s.promotions.filter (· != line) } (promoter s line) (wavesOn s (some p) none))

/-- R283, R288: after a release no store of the wave has a piece left to perform, and every load has its data. That they
are performed at once is the model's choice (log 8). -/
def Claim.ReleasePerforms : Prop :=
  ∀ (s : State) (r : WaveRef) (w : Wave), s.wave? r = some w → (∀ p ∈ w.loads, p.id < s.nextId) →
    ∃ w', (performAll s r).wave? r = some w' ∧ (∀ p ∈ w'.stores, p.elems = [])
      ∧ (∀ p ∈ w'.loads, ∀ e ∈ p.elems, ∃ x, e.src = .known x) ∧ w'.regs = w.regs ∧ w'.lanes = w.lanes

/-! ### Walks and migration -/

/-- R136, R236, R261, R270: a walk that finds a valid leaf gives the core's TLB, or its engine's, the translation, unless the
page is moving, and the waves of its function on the core, or the engine's commands, that await the page have the result;
a wave that awaits no other has its parked lanes runnable. A walk that finds none says so. -/
def Claim.WalksComplete : Prop :=
  ∀ (s : State) (k : Nat) (x : Walk) (tm : Team), s.walks[k]? = some x →
    (s.walks.take k).countP (fun y => y.core / 256 == x.core / 256) < 64 →
    ((alGet s.groveTlb (x.core / 16)).getD []).find? (fun y => y.hits x.fn x.page) = none →
    let held := fun (c : Core) => match x.for_ with | .lanes => c.tlb | .matrix => c.mxTlb | .access => c.apTlb
    let found := (walk s x.fn x.page).isSome
    ∃ t, exec (.pageWalkComplete k) s = .next t ∧ t.walks = s.walks.eraseIdx k ∧ t.mem = s.mem
      ∧ (∀ a leaf, walk s x.fn x.page = some (a, leaf) → leafMig leaf = false →
          { fn := x.fn, page := x.page, leaf := leaf } ∈ held (t.core x.core))
      ∧ (found = false → held (t.core x.core) = held (s.core x.core) ∧ t.groveTlb = s.groveTlb)
      ∧ (x.for_ = .lanes → s.team? tm.id = some tm → tm.core = x.core → tm.fn = x.fn → ∃ tm', t.team? tm.id = some tm' ∧
          ∀ (j : Nat) (w : Wave), tm.waves[j]? = some w → x.page ∈ w.misses → ∃ w' : Wave, tm'.waves[j]? = some w' ∧
            (∃ y, y.1.fn = x.fn ∧ y.2 = found ∧ w'.walked = w.walked ++ [y])
            ∧ ((∀ y ∈ w.misses, y = x.page) → ∀ (n : Nat) (l : Lane), w.lanes[n]? = some l → l.run = .parked .miss →
              w'.lanes[n]? = some { l with run := .runnable }))
      ∧ (x.for_ = .matrix → ∀ (j : Nat) (q : MxCmd), (s.core x.core).matrix[j]? = some q → q.by_.fn = x.fn → x.page ∈ q.misses →
          ∃ y, y.1.fn = x.fn ∧ y.2 = found ∧ (t.core x.core).matrix[j]? =
            some { q with misses := q.misses.filter (· ≠ x.page), walked := q.walked ++ [y] })
      ∧ (x.for_ = .access → ∀ (j : Nat) (q : ApCmd), (s.core x.core).access[j]? = some q → q.by_.fn = x.fn → x.page ∈ q.misses →
          ∃ y, y.1.fn = x.fn ∧ y.2 = found ∧ (t.core x.core).access[j]? =
            some { q with misses := q.misses.filter (· ≠ x.page), walked := q.walked ++ [y] })

/-- R271: a migration of a page that no access in flight uses, with a frame in the pool of the other tier, completes:
the page's bytes are in the new frame, the leaf names it with MIG clear, the frame has left its pool, and the lanes that
awaited the page resume at their anchors. -/
def Claim.MigrationCompletes : Prop :=
  ∀ (s : State) (k new : Nat) (g : Migration), s.migrations[k]? = some g → s.MemWf →
    let old := leafFrame g.leaf g.page
    frameBusy s old = false → new % 65536 = 0 → old % 65536 = 0 → new ≠ old →
    (if g.up then (s.fn g.fn).fast else (s.fn g.fn).slow) = [new] → s.hasFn g.fn = true →
    Loc.reachable s (.dev old) = true → Loc.reachable s (.dev new) = true →
    (∀ n ∈ s.badLines, n / 1024 ≠ old / 65536) → locOfPa s g.fn g.leafAt = some (.dev g.leafAt) →
    (∀ j < 8, (g.leafAt + j) / 65536 ≠ new / 65536 ∧ (g.leafAt + j) / 65536 ≠ old / 65536) →
    readEntry s g.fn g.leafAt = g.leaf → Loc.broken s (.dev g.leafAt) = false →
    ∃ t, exec (.migrationComplete k false) s = .next t
      ∧ (∀ o < 65536, readCell t.mem (new + o) = readCell s.mem (old + o))
      ∧ BitVec.ofNat 64 (leNat (readBytes t (.dev g.leafAt) 8)) = movedLeaf g.leaf new
      ∧ leafMig (movedLeaf g.leaf new) = false
      ∧ t.migrations = s.migrations.eraseIdx k
      ∧ new ∉ (if g.up then (t.fn g.fn).fast else (t.fn g.fn).slow)
      ∧ ∀ r w (n : Nat) (l : Lane), s.wave? r = some w → w.lanes[n]? = some l → l.run = .parked (.migration g.fn g.page) →
          ∃ w', t.wave? r = some w' ∧ w'.lanes[n]? = some { l with run := .runnable, pc := l.anchor, pos := .atHeader }

/-- R272: a migration that fails leaves the page where it was, with MIG clear. -/
def Claim.MigrationFails : Prop :=
  ∀ (s : State) (k : Nat) (g : Migration), s.migrations[k]? = some g → s.MemWf →
    frameBusy s (leafFrame g.leaf g.page) = false → locOfPa s g.fn g.leafAt = some (.dev g.leafAt) →
    Loc.broken s (.dev g.leafAt) = false →
    (∀ u ∈ s.units, ∀ v ∈ u.invs, v.wait = none ∧ v.lost = false) →
    (∀ x ∈ s.teams, ∀ w ∈ x.waves, ∀ l ∈ w.lanes, l.run ≠ .parked (.migration g.fn g.page)) →
    ∃ t, exec (.migrationComplete k true) s = .next t ∧ t.migrations = s.migrations.eraseIdx k
      ∧ BitVec.ofNat 64 (leNat (readBytes t (.dev g.leafAt) 8)) = setBit64 (readEntry s g.fn g.leafAt) 56 false
      ∧ ∀ a, (a < g.leafAt ∨ g.leafAt + 8 ≤ a) → readCell t.mem a = readCell s.mem a

/-! ### Commands to the engines, units and bags at issue -/

/-- R31, R33, R231, R259: a command whose checks pass and whose counters are below 63 goes out when its wave has a lane in
E: every earlier access of the wave is performed first, the command joins its engine with a copy of its block and with its
issuer's anchor, it counts on CP, on TL, or on TL and ST when its block names a global destination, and the issuing lanes
move on. That these are performed at the issue, which R33 only orders, is the model's choice (log 8). -/
def Claim.EngineCommands : Prop :=
  ∀ (h : Head) (o : AsyOp) (mm : MxMma) (ms : MxSt) (ml : MxLd) (mc : MxClr) (rr : Sys2Proof.RootCmd) (cs : CrownSum)
    (sco : Scope) (s : State) (i : Issue) (core slot group : Nat) (r : WaveRef) (m : Mask) (w : Wave),
    s.issue = some i → i.agent = .core core slot group [(r, m)] → s.wave? r = some w →
    let c := mkCtx (some r) 0 w.regs m h
    c.e ≠ 0 →
    let id := s.nextId
    let sent := fun (x : Instr) (chk : List (Nat × TrapInfo)) (ctrs : List Ctr) (go : State → State) =>
      chk = [] → (∀ k ∈ ctrs, w.ctr k < 63) →
        exec x s = .next (advance (go (ctrs.foldl (fun s k => countOp s r k id) (performAll s r).fresh)) i c m)
    let off := fun (sb : UReg) => (w.regs.getS sb.toNat).toNat
    let ap := fun (opc size : Nat) (s : State) =>
      let cmd : ApCmd := { id := id, by_ := issuerOf s c, opc := opc, sco := o.sco
                           blk := windowBlock s c (off o.sb) size, since := s.cycle }
      (s.charge (s.fnOf r) (coreDom (s.coreOf r)) 13 1).modCore (s.coreOf r) fun x => { x with access := x.access ++ [cmd] }
    let mx := fun (opc : Nat) (acc : BitVec 2) (sc : Scope) (fn : BitVec 14) (fw : Word) (blk : State → List Byte)
        (st : List Byte → Bool) (s : State) =>
      let cmd : MxCmd := { id := id, by_ := issuerOf s c, opc := opc, acc := acc, sco := sc, func := fn, fw := fw
                           blk := blk s, rm := w.regs.frm, stCnt := st (blk s) }
      (if opc = 0x383 then s else s.charge (s.fnOf r) (coreDom (s.coreOf r)) 7 1).modCore (s.coreOf r)
        fun x => { x with matrix := x.matrix ++ [cmd] }
    let root := fun (op : RootOp) (acc : BitVec 2) (sc : Scope) (s : State) =>
      let cmd : Machine.RootCmd := { id := id, by_ := issuerOf s c, op := op, acc := acc, sco := sc }
      { s with rootCmds := s.rootCmds ++ [cmd] }
    let img := fun (sb : UReg) (inds : List Nat) (s : State) => mxImage s c sb inds
    let glob := fun (d : Nat) (b : List Byte) => !(descAt b d).spc
    let ctrs := fun (g : Bool) => if g then [Ctr.tl, Ctr.st] else [Ctr.tl]
    let no := fun (_ : List Byte) => false
    sent (.apGth h o) (gthChecks o s c) [.cp] (ap 0x332 32)
    ∧ sent (.apSct h o) (gthChecks o s c) [.cp] (ap 0x333 32)
    ∧ sent (.apCpy h o) (cpyChecks false o s c) [.cp] (ap 0x330 64)
    ∧ sent (.apCp2 h o) (cpyChecks true o s c) [.cp] (ap 0x331 64)
    ∧ sent (.mxMma h mm) (mmaChecks h mm s c) [.tl]
        (mx 0x380 h.acc mm.sco 0 (w.regs.getV mm.va.toNat c.lead) (img mm.sb [0x10, 0x20]) no)
    ∧ sent (.mxSt h ms) (mxChecks 0 (fun _ => none) [0x10] (stFields ms.ty.code.toNat) stAccs ms.sb s c)
        (ctrs (glob 0x10 (img ms.sb [0x10] s)))
        (mx 0x381 0 ms.sco (BitVec.ofNat 14 ms.ty.code.toNat) 0 (img ms.sb [0x10]) (glob 0x10))
    ∧ sent (.mxLd h ml) (ldChecks ml s c) [.tl]
        (mx 0x382 0 ml.sco (BitVec.ofNat 14 (ml.ty.code.toNat + if ml.sto then 16 else 0)) 0 (img ml.sb [0x10]) no)
    ∧ sent (.mxClr h mc) (clrChecks mc s c) [.tl] (mx 0x383 0 mc.sco (if mc.sto then 1 else 0) 0
        (fun _ => leBytes 2 (off mc.sb) ++ leBytes 2 (off mc.sc) ++ List.replicate 60 0) no)
    ∧ sent (.mxRq h o) (mxChecks 0 (fun _ => none) [0x10, 0x20] rqFields noAccs o.sb s c) (ctrs (glob 0x20 (img o.sb [0x10, 0x20] s)))
        (mx 0x384 0 o.sco 0 0 (img o.sb [0x10, 0x20]) (glob 0x20))
    ∧ sent (.tst h o) (mxChecks 0 (fun _ => none) [0, 0x10] (copyFields false) noAccs o.sb s c) (ctrs (glob 0x10 (img o.sb [0, 0x10] s)))
        (mx 0x350 0 o.sco 0 0 (img o.sb [0, 0x10]) (glob 0x10))
    ∧ sent (.tldV h o) (mxChecks 0 (fun _ => none) [0, 0x10] (copyFields true) noAccs o.sb s c) [.tl]
        (mx 0x351 0 o.sco 0 0 (img o.sb [0, 0x10]) no)
    ∧ sent (.rootRun h rr) (runTraps rr s c) [.cp] (root (.run (off rr.sb) (w.regs.getS rr.sc.toNat) rr.tgt) 0 rr.sco)
    ∧ sent (.bmac h o) (bmacTraps o s c) [.cp] (root (.bmac (off o.sb)) h.acc o.sco)
    ∧ sent (.crownSum h cs) (crownTraps cs s c) [.cp] (root (.sum cs.clr cs.gw (off cs.sb)) 0 cs.sco)
    ∧ sent (.crownClr h sco) (detTrap s c) [.cp] (root .clr 0 sco)

/-- R31, R33: a command that finds a counter that it counts on at 63 parks the lanes of E on it, the first such of TL and
ST, and sends nothing. -/
def Claim.FullCounterParks : Prop :=
  ∀ (h : Head) (o : AsyOp) (mm : MxMma) (ms : MxSt) (ml : MxLd) (mc : MxClr) (rr e : Sys2Proof.RootCmd) (cs : CrownSum)
    (p : BagPut) (d : BagDrain) (s : State) (i : Issue) (core slot group : Nat) (r : WaveRef) (m : Mask) (w : Wave) (k : Ctr),
    s.issue = some i → i.agent = .core core slot group [(r, m)] → s.wave? r = some w →
    let c := mkCtx (some r) 0 w.regs m h
    c.e ≠ 0 →
    let parks := fun (x : Instr) (chk : List (Nat × TrapInfo)) (ctrs : List Ctr) =>
      chk = [] → (ctrs.find? fun y => decide (63 ≤ w.ctr y)) = some k → exec x s =
        .next (advance (s.onLanes r c.e fun l => { l with run := .parked (.full k) }) i c (m &&& ~~~c.e))
    let both := fun (sb : UReg) (at_ : Nat) (inds : List Nat) =>
      if (descAt (mxImage s c sb inds) at_).spc then [Ctr.tl] else [.tl, .st]
    parks (.apGth h o) (gthChecks o s c) [.cp] ∧ parks (.apSct h o) (gthChecks o s c) [.cp]
    ∧ parks (.apCpy h o) (cpyChecks false o s c) [.cp] ∧ parks (.apCp2 h o) (cpyChecks true o s c) [.cp]
    ∧ parks (.mxMma h mm) (mmaChecks h mm s c) [.tl]
    ∧ parks (.mxSt h ms) (mxChecks 0 (fun _ => none) [0x10] (stFields ms.ty.code.toNat) stAccs ms.sb s c) (both ms.sb 0x10 [0x10])
    ∧ parks (.mxLd h ml) (ldChecks ml s c) [.tl] ∧ parks (.mxClr h mc) (clrChecks mc s c) [.tl]
    ∧ parks (.mxRq h o) (mxChecks 0 (fun _ => none) [0x10, 0x20] rqFields noAccs o.sb s c) (both o.sb 0x20 [0x10, 0x20])
    ∧ parks (.tst h o) (mxChecks 0 (fun _ => none) [0, 0x10] (copyFields false) noAccs o.sb s c) (both o.sb 0x10 [0, 0x10])
    ∧ parks (.tldV h o) (mxChecks 0 (fun _ => none) [0, 0x10] (copyFields true) noAccs o.sb s c) [.tl]
    ∧ parks (.rootRun h rr) (runTraps rr s c) [.cp] ∧ parks (.bmac h o) (bmacTraps o s c) [.cp]
    ∧ parks (.crownSum h cs) (crownTraps cs s c) [.cp] ∧ parks (.crownClr h o.sco) (detTrap s c) [.cp]
    ∧ parks (.bagSnap h o) (bagChecks o.sb s c) [.cp] ∧ parks (.bagSeal h o) (bagChecks o.sb s c) [.cp]
    ∧ parks (.bagFree h o) (bagChecks o.sb s c) [.cp] ∧ parks (.bagEach h e) (bagChecks e.sb s c) [.cp]
    ∧ ((w.regs.getPair d.sc.toNat).toNat % 8 = 0 → parks (.bagDrain h d) (bagChecks d.sb s c) [.cp])
    ∧ (putRecords p s c ≠ [] → parks (.bagPut h p) (putChecks p s c) [.st])

/-- R152, R157, R159, R162 to R169: a bag command whose checks pass goes to its placement unit after the wave's earlier
accesses; the wave awaits its reply or its answer, which keeps the lanes of E as they stand. `put` sends the records of the
active elements and counts on ST; without one it sends nothing. That these are performed at the issue, which R157 only
orders, is the model's choice (log 8). -/
def Claim.BagCommands : Prop :=
  ∀ (h : Head) (o : AsyOp) (n : U2) (p : BagPut) (e : Sys2Proof.RootCmd) (d : BagDrain) (k : BagCnt) (g : U3)
    (s : State) (i : Issue) (core slot group : Nat) (r : WaveRef) (m : Mask) (w : Wave),
    s.issue = some i → i.agent = .core core slot group [(r, m)] → s.wave? r = some w →
    let c := mkCtx (some r) 0 w.regs m h
    c.e ≠ 0 →
    let id := s.nextId
    let reg := fun (x : UReg) => w.regs.getS x.toNat
    let sent := fun (x : Instr) (chk : List (Nat × TrapInfo)) (ctrs : List Ctr) (hd : Word) (sco : Scope) (op : BagOp)
        (kind : State → ReplyKind) =>
      chk = [] → (∀ k ∈ ctrs, w.ctr k < 63) →
        let s1 := ctrs.foldl (fun s k => countOp s r k id) (performAll s r).fresh
        let cmd : BagCmd := { id := id, by_ := issuerOf s1 c, handle := hd, op := op, sco := sco }
        let s2 := { s1 with bagCmds := s1.bagCmds ++ [cmd] }
        exec x s = .next (advance (s2.modWave r fun w =>
          { w with replies := w.replies ++ [({ id := id, kind := kind s2 } : Reply)] }) i c m)
    let reply := fun (x : UReg) (_ : State) => ReplyKind.reg x.toNat false false
    let answer := fun (s : State) => ReplyKind.answer (lanesOfE s r c) none
    let recs := putRecords p s c
    sent (.bagSnap h o) (bagChecks o.sb s c) [.cp] (reg o.sb) o.sco .snap answer
    ∧ sent (.bagSeal h o) (bagChecks o.sb s c) [.cp] (reg o.sb) o.sco .seal answer
    ∧ sent (.bagFree h o) (bagChecks o.sb s c) [.cp] (reg o.sb) o.sco .free answer
    ∧ sent (.bagEach h e) (bagChecks e.sb s c) [.cp] (reg e.sb) e.sco (.each (reg e.sc) e.tgt) answer
    ∧ (let a := (w.regs.getPair d.sc.toNat).toNat
       a % 8 = 0 → sent (.bagDrain h d) (bagChecks d.sb s c) [.cp] (reg d.sb) d.sco (.drain a) answer)
    ∧ (let a := (w.regs.getPair n.sa.toNat).toNat
       a % 32 = 0 → sent (.bagNew h n) (detTrap s c) [] 0 .dev (.new a) (reply n.dst))
    ∧ sent (.bagCnt h k) (bagChecks k.sa s c) [] (reg k.sa) .dev (.cnt k.sel (reg k.sb)) (reply k.dst)
    ∧ sent (.bagGrow h g) (bagChecks g.sa s c) [] (reg g.sa) .dev (.grow (reg g.sb)) (reply g.dst)
    ∧ (recs ≠ [] → isDetCtx s c = false → sent (.bagPut h p) (putChecks p s c) [.st] (reg p.sb) p.sco (.put p.nf recs)
        fun s => .answer (lanesOfE s r c) (putFp p c))
    ∧ (recs = [] → putChecks p s c = [] → exec (.bagPut h p) s = .next (advance s i c m))

/-- R159, R164, R299: in a deterministic launch every bag command but `put` is illegal with reason 12, and so is a put with `.nf`; a
put is staged with its records when the staging area has room, which retires it on ST. -/
def Claim.DeterministicBags : Prop :=
  ∀ (h : Head) (o : AsyOp) (n : U2) (p : BagPut) (e : Sys2Proof.RootCmd) (d : BagDrain) (k : BagCnt) (g : U3)
    (s : State) (i : Issue) (core slot group : Nat) (r : WaveRef) (m : Mask) (w : Wave) (tm : Team),
    s.issue = some i → i.agent = .core core slot group [(r, m)] → s.wave? r = some w → s.team? r.team = some tm →
    let c := mkCtx (some r) 0 w.regs m h
    c.e ≠ 0 → isDetCtx s c = true →
    let refused := fun (x : Instr) => exec x s = .next (raiseAll (advance s i c (m &&& ~~~c.e))
      [(c, inLanes c.e { cause := 1, rsn := 12 })])
    refused (.bagSnap h o) ∧ refused (.bagSeal h o) ∧ refused (.bagFree h o) ∧ refused (.bagEach h e) ∧ refused (.bagDrain h d)
    ∧ refused (.bagNew h n) ∧ refused (.bagCnt h k) ∧ refused (.bagGrow h g) ∧ (p.nf = true → refused (.bagPut h p))
    ∧ (let recs := putRecords p s c
       let cost := (recs.map fun x => 32 + x.2.2.length).sum
       p.nf = false → putChecks p s c = [] → recs ≠ [] → w.loads = [] → w.stores = [] → w.st = [] → w.joint = [] →
       tm.failed = false → tm.stagedBytes + cost ≤ stagingSize →
       ∃ t tm' w' a, exec (.bagPut h p) s = .next t ∧ t.bagCmds = s.bagCmds ∧ t.team? r.team = some tm' ∧ t.wave? r = some w'
         ∧ tm'.staged = tm.staged ++ [.put r.wave a (w.regs.getS p.sb.toNat) (recs.map (·.2))]
         ∧ tm'.stagedBytes = tm.stagedBytes + cost ∧ w'.st = [] ∧ w'.replies = w.replies)

/-- R95, R278, R285: `task.post` sends a copy of its record, as the wave sees it, and its register awaits the reply;
`aq.pop` takes the oldest entry of a queue into its elements, word by word; a migration hint asks for up to 1024 pages from
the named one on, those that may move. The accesses that a post follows are performed with it (log 8). -/
def Claim.PostsPopsAndHints : Prop :=
  ∀ (h : Head) (o : U2) (q : AqPop) (g : MigOp) (s : State) (i : Issue) (core slot group : Nat) (r : WaveRef) (m : Mask)
    (w : Wave) (tm : Team), s.issue = some i → i.agent = .core core slot group [(r, m)] → s.wave? r = some w →
    s.team? r.team = some tm →
    let c := mkCtx (some r) 0 w.regs m h
    c.e ≠ 0 →
    (let off := (w.regs.getS o.sa.toNat).toNat
     off % 64 = 0 → off + 256 ≤ tm.winSize →
     ∃ t w', exec (.taskPost h o) s = .next t ∧ t.wave? r = some w'
       ∧ w'.replies = w.replies ++ [{ id := s.nextId, kind := .reg o.dst.toNat false false }] ∧ w'.regs = w.regs
       ∧ ∃ b, b.fn = tm.fn ∧ b.team = r.team ∧ b.wave = r.wave ∧ b.launch = tm.launch ∧
         t.posts = s.posts ++ [{ id := s.nextId, by_ := b, rec_ := viewNow s r (.win r.team off) 256 }])
    ∧ (∀ x rest, tm.queues[q.q.toNat]? = some (x :: rest) →
        exec (.aqPop h q) s = .next (advance (putRegs
          (s.modTeam r.team fun t => { t with queues := t.queues.set q.q.toNat rest }) c
          ((List.range (c.w * c.g)).foldl (fun rg e =>
            rg.setV (q.vd.toNat + e / c.w) (e % c.w) (BitVec.ofNat 32 (fieldB x (4 * e) 4))) w.regs)) i c m))
    ∧ (let pages := (List.range (min (w.regs.getS g.sc.toNat).toNat 1024)).map fun k =>
         (w.regs.getPair g.sb.toNat).toNat / 65536 + k
       let ask := fun (up : Bool) (s : State) (p : Nat) =>
         let f := s.fnOf r
         match walk s f p with
         | some (_, x) =>
           if p < 2 ^ 40 ∧ pageFixed s f p x = false ∧ (x.extractLsb' 48 4).toNat = (if up then 1 else 0) then
             startMigration s (s.standOf r) f p up else s
         | none => s
       exec (.migUp h g) s = .next (advance (pages.foldl (ask true) s) i c m)
       ∧ exec (.migDown h g) s = .next (advance (pages.foldl (ask false) s) i c m))

/-- R95: the launch scheduler answers a post whose team is still there: a record with more than 8 tiles or a reserved
field not zero fails first, then one that names a later predecessor, then one beyond the limit of tasks; otherwise the
task joins its launch, and its index is the reply. -/
def Claim.PostReplies : Prop :=
  ∀ (s : State) (p : Post) (ln : Launch) (w : Wave) (dst : Nat), s.posts = [p] → s.launch? p.by_.launch = some ln →
    s.wave? ⟨p.by_.team, p.by_.wave⟩ = some w → w.replies = [{ id := p.id, kind := .reg dst false false }] →
    ∃ t w' x, exec (.taskPostReply p.id) s = .next t ∧ t.wave? ⟨p.by_.team, p.by_.wave⟩ = some w' ∧ t.posts = []
      ∧ w' = { w with regs := w.regs.setS dst x, replies := [] }
      ∧ (let n := ln.nt + ln.posted
         let bad := 8 < fieldB p.rec_ 0x30 4 ∨ fieldB p.rec_ 0x34 12 ≠ 0
           ∨ ∃ k < 8, fieldB p.rec_ (0x40 + 24 * k + 20) 4 ≠ 0
         let late := ∃ k < 4, fieldB p.rec_ (0x20 + 4 * k) 4 ≠ 0xFFFFFFFF ∧ n ≤ fieldB p.rec_ (0x20 + 4 * k) 4
         (bad → x = 0x80000003) ∧ (¬ bad → late → x = 0x80000002)
         ∧ (¬ bad → ¬ late → Config.maxTasks ≤ n → x = 0x80000001)
         ∧ (¬ bad → ¬ late → n < Config.maxTasks → x = BitVec.ofNat 32 n ∧ ∃ ln' tk, t.launch? p.by_.launch = some ln'
             ∧ ln'.posted = ln.posted + 1 ∧ tk ∈ ln'.tasks ∧ tk.index = n ∧ tk.phase = .waiting
             ∧ tk.params = (List.range 8).map fun k => BitVec.ofNat 32 (fieldB p.rec_ (4 * k) 4)))

/-! ### Descriptor registers, activation tables -/

/-- R139, R244: `td.ld` and `td.st` move 16 window bytes to and from a descriptor register, after the wave's earlier
accesses to them. That these are then performed at once, all of them before a `td.st`, is the model's choice (log 8). -/
def Claim.DescriptorRegisters : Prop :=
  ∀ (h : Head) (o : TdOp) (s : State) (i : Issue) (core slot group : Nat) (r : WaveRef) (m : Mask) (w : Wave) (tm : Team),
    s.issue = some i → i.agent = .core core slot group [(r, m)] → s.wave? r = some w → s.team? r.team = some tm →
    let c := mkCtx (some r) 0 w.regs m h
    c.e ≠ 0 →
    let off := (w.regs.getS o.sb.toNat).toNat
    off % 16 = 0 → off + 16 ≤ tm.winSize →
    (let s1 := performMeeting s r [(.win r.team off, 16)]
     exec (.tdLd h o) s = .next (advance (chargeSpad (putRegs s1 c (w.regs.setT o.t.toNat
        (BitVec.ofNat 128 (leNat (viewNow s1 r (.win r.team off) 16))))) r) i c m))
    ∧ exec (.tdSt h o) s = .next (advance (chargeSpad (writeBytes (performAll s r) (.win r.team off)
        (leBytes 16 (w.regs.getT o.t.toNat).toNat)) r) i c m)

/-- R126: `act.ld` of a valid image leaves it pending, and its wave waits; the image becomes the live table, with its
version one higher and 0 as the reply, once no `fact` of the table is in flight. An image that is not valid is
answered 1 at once. -/
def Claim.ActivationLoads : Prop :=
  ∀ (h : Head) (o : ActLd) (s : State) (i : Issue) (core slot group : Nat) (r : WaveRef) (m : Mask) (w : Wave) (tm : Team)
    (a : ActSlot), s.issue = some i → i.agent = .core core slot group [(r, m)] → s.wave? r = some w →
    s.team? r.team = some tm → tm.act[o.tb.toNat]? = some a → a.shadow = none →
    let c := mkCtx (some r) 0 w.regs m h
    c.e ≠ 0 →
    let off := (w.regs.getS o.sb.toNat).toNat
    off % 16 = 0 → off + 1040 ≤ tm.winSize →
    let b := readBytes s (.win r.team off) 1040
    (imageOk b = false → exec (.actLd h o) s = .next (putRegs (advance s i c m) c (w.regs.setS o.rd.toNat 1)))
    ∧ (imageOk b = true → ∃ t tm' w', exec (.actLd h o) s = .next t ∧ t.team? r.team = some tm'
        ∧ tm'.act = tm.act.set o.tb.toNat { a with shadow := some (tableOf b, r.wave, s.nextId) }
        ∧ t.wave? r = some w' ∧ w'.replies = w.replies ++ [{ id := s.nextId, kind := .reg o.rd.toNat false true }]
        ∧ w'.regs = w.regs ∧ w'.blocked = true)
    ∧ ∀ (team n id dst : Nat) (tb : BitVec 2) (x : Team) (y : ActTable) (k : ActSlot) (v : Wave),
        s.team? team = some x → x.act[tb.toNat]? = some k → k.shadow = some (y, n, id) →
        x.waves[n]? = some v → v.replies = [{ id := id, kind := .reg dst false true }] →
        (∀ u ∈ x.waves, ∀ f ∈ u.facts, f.table ≠ tb.toNat) →
        ∃ t x' v', exec (.actLdFlip team tb) s = .next t ∧ t.team? team = some x'
          ∧ x'.act = x.act.set tb.toNat { live := y, version := k.version + 1, shadow := none }
          ∧ x'.waves[n]? = some v' ∧ v' = { v with regs := v.regs.setS dst 0, replies := [] }

/-- R77, R116, R125, R208: `fact` latches its table's values and its flags at issue, and the lanes move on; when it
completes it writes its elements and ORs its flags into `%fflags`. An enabled exception among its flags traps at the issue.
That the trap's code is the enabled flags alone is log 34. -/
def Claim.FactsComplete : Prop :=
  ∀ (h : Head) (o : FactOp) (s : State) (i : Issue) (core slot group : Nat) (r : WaveRef) (m : Mask) (w : Wave) (tm : Team)
    (a : ActSlot) (f : PendFact) (rest : List PendFact), s.issue = some i → i.agent = .core core slot group [(r, m)] →
    s.wave? r = some w → s.team? r.team = some tm → tm.act[o.tb.toNat]? = some a →
    let c := mkCtx (some r) 0 w.regs m h
    let val := fun (c : Ctx) (e : Nat) => factVal a.live c.mode (c.r.elem o.sa.toNat e)
    let write := fun (p : PendFact) (g : Regs) => p.elems.foldl (fun (g : Regs) e => g.setV e.1 e.2.1 e.2.2) g
    Suppressed (exec (.fact h o) s) (fun c e => (val c e).2) h i s
    ∧ (c.e ≠ 0 → (∀ e ∈ c.actives, (val c e).2 &&& w.regs.fflags.extractLsb' 8 6 = 0) →
      ∃ t w' p, exec (.fact h o) s = .next t ∧ OnlyTeams s t ∧ t.wave? r = some w'
      ∧ w' = { w with lanes := w'.lanes, facts := w.facts ++ [p] }
      ∧ p.table = o.tb.toNat
      ∧ p.elems = c.elems.filterMap (fun e => match c.kind e with
          | .active => some (o.dst.toNat + e / c.w, e % c.w, (val c e).1)
          | .zeroed => some (o.dst.toNat + e / c.w, e % c.w, 0)
          | .untouched => none)
      ∧ p.flags = (c.actives.map fun e => (val c e).2).foldl (· ||| ·) 0)
    ∧ (w.facts = f :: rest → ∃ t, exec (.factComplete r) s = .next t ∧ t = { s with teams := t.teams, cores := t.cores } ∧
          t.wave? r = some { w with facts := rest, regs :=
            let g := write f { w.regs with wrote := 0 }
            { g with fflags := g.fflags ||| f.flags.setWidth 32 } })

/-! ### The access processor at work (17_program_row_gather, 18_memory_movement_and_tiers) -/

/-- R260: the one position of a gather of a single row: an index at or above NROWS gives a row of zeros and the OOB bit,
another the row's bytes, 16-byte chunk by chunk where the swizzle places them; the signal word has the index and the
status and is full, and the command leaves its processor. -/
def Claim.GatherRow : Prop :=
  ∀ (s : State) (core : Nat) (c : ApCmd) (tm : Team), (s.core core).access = [c] → c.by_.held s = false → c.wait = none →
    c.lost = false → c.misses = [] → c.opc = 0x332 → c.rowI = 0 → c.chunk = 0 → c.sts = 0 → c.buf = [] → s.team? c.by_.team = some tm →
    Memory.wf tm.win = true → tm.staged = [] →
    let g := gthBlk c.blk
    g.ni = 1 → g.rb % 16 = 0 → (g.swz = true → g.rb % 256 = 0) → g.sig ≠ 0xFFFFFFFF →
    (g.sig + 4 ≤ g.dst ∨ g.dst + g.rb ≤ g.sig) → (tm.feWord g.sig).queue = [] →
    let x := leNat (readBytes s (.win c.by_.team g.idx) 4)
    let row := fun (t : State) (ch : Nat) => readBytes t (.win c.by_.team (chunkAt g 0 ch)) 16
    let sig := fun (t : State) => readWord t (.win c.by_.team g.sig)
    let ended := fun (t : State) => (t.core core).access = []
      ∧ ((t.team? c.by_.team).map fun y => (y.feWord g.sig).full) = some true
    (g.nrows ≤ x → ∃ t, exec (.apGatherStep core) s = .next t ∧ ended t ∧ t.mem = s.mem
      ∧ sig t = BitVec.ofNat 32 (x % 2 ^ 24) ||| 0x01000000
      ∧ readBytes t (.win c.by_.team g.dst) g.rb = List.replicate g.rb 0)
    ∧ (x < g.nrows → (∀ ch < g.rb / 16, engineAccess s (apHas s core c) c.by_.fn (g.src + x * g.rb + 16 * ch) 16 false none false = .ok) →
      ∃ t, exec (.apGatherStep core) s = .next t ∧ ended t ∧ t.mem = s.mem ∧ sig t = BitVec.ofNat 32 (x % 2 ^ 24)
        ∧ ∀ ch < g.rb / 16, row t ch = readVa s c.by_.fn (g.src + x * g.rb + 16 * ch) 16)

/-- R276, R279: a scatter writes its row's chunks to the row that its index names and signals; a copy of one piece between
places that can be reached moves its bytes, signals the rows completed and leaves its processor. -/
def Claim.ScattersAndCopies : Prop :=
  ∀ (s : State) (core : Nat) (c : ApCmd) (tm : Team), (s.core core).access = [c] → c.by_.held s = false → c.wait = none →
    c.lost = false → c.misses = [] → c.rowI = 0 → c.sts = 0 → c.piece = 0 → c.buf = [] → c.trans = [] → c.cut = false → s.team? c.by_.team = some tm →
    Memory.wf tm.win = true → s.isDet tm = false →
    let team := c.by_.team
    let ended := fun (t : State) => (t.core core).access = []
    (c.opc = 0x333 →
      let g := gthBlk c.blk
      let x := leNat (readBytes s (.win team g.idx) 4)
      g.ni = 1 → g.sig = 0xFFFFFFFF →
      (g.nrows ≤ x → ∃ t, exec (.apScatterPosition core) s = .next t ∧ ended t ∧ t.mem = s.mem ∧ t.hostMem = s.hostMem)
      ∧ (x < g.nrows → engineAccess s (apHas s core c) c.by_.fn (g.src + x * g.rb) g.rb true none false = .ok →
        ∃ t, exec (.apScatterPosition core) s = .next t ∧ ended t ∧ ∀ a, readLoc t (.dev a) = readLoc (writeVa s c.by_.fn
          (g.src + x * g.rb) ((List.range (g.rb / 16)).flatMap fun ch => readBytes s (.win team (chunkAt g 0 ch)) 16)) (.dev a)))
    ∧ (c.opc = 0x330 →
      let g := cpyBlk c.blk
      g.ss = 1 → g.ds = 1 → 0 < g.rb → g.rb ≤ 4096 → g.sig ≠ 0xFFFFFFFF → (g.sig + 4 ≤ g.dst ∨ g.dst + g.rb ≤ g.sig) →
      (tm.feWord g.sig).queue = [] →
      ∃ t, exec (.apCopyRow core) s = .next t ∧ ended t ∧ t.mem = s.mem
        ∧ readBytes t (.win team g.dst) g.rb = readBytes s (.win team g.src) g.rb
        ∧ readWord t (.win team g.sig) = 1
        ∧ ((t.team? team).map fun y => (y.feWord g.sig).full) = some true)

/-- R274, R277: a queue copy with 256 bytes read, or with its last bytes, pushes one entry, padded with zeros, when the
queue has room; one that a full queue has held for 110,000 cycles ends, with ERR in its signal and a record of cause 0x13.
The model lets the time pass at that turn (log 3). The count of rows in the record of a stalled copy is log 80. -/
def Claim.QueuePushes : Prop :=
  ∀ (s : State) (core : Nat) (c : ApCmd) (g : CpyBlk) (tm : Team) (q : List (List Byte)), pushing s core = some (c, g) →
    s.team? c.by_.team = some tm → tm.queues[g.dst]? = some q →
    (q.length < 32 → ∃ t tm', exec (.apQueuePush core) s = .next t ∧ t.team? c.by_.team = some tm'
      ∧ tm'.queues = tm.queues.set g.dst (q ++ [c.buf.take 256 ++ List.replicate (256 - c.buf.length) 0]))
    ∧ (32 ≤ q.length → exec (.apQueuePush core) s = .next s
      ∧ ∀ (w : Wave) (ln : Launch), g.sig = 0xFFFFFFFF → RingRoom s c.by_.fn → tm.waves[c.by_.wave]? = some w →
        s.launch? c.by_.launch = some ln →
        ∃ t, exec (.apQueueStall core) s = .next t ∧ c.since + Config.stallCycles ≤ t.cycle
          ∧ (∀ x ∈ (t.core core).access, x.id ≠ c.id)
          ∧ Recorded s t c.by_.fn (workRec c.by_ w ln 0x13 (2 + 256 * core) g.dst c.rowI))

/-! ### The matrix engine at work (15_matrix_engine) -/

/-- R231, R234, R311: a free engine takes the one command that waits; an accumulating multiply that finds a tile of another
format performs nothing: it leaves with a record of cause 0x12. That the record names the tile in DETAIL and AUX, and has
no flag, is log 40. -/
def Claim.MatrixTakes : Prop :=
  ∀ (s : State) (core : Nat) (c : MxCmd), (s.core core).matrix = [c] → c.by_.held s = false → c.taken = false →
    let m := mmaBlk c.blk c.fw.toNat
    let f := if c.fw.extractLsb' 8 4 = 6 then AccFmt.sto else AccFmt.f32
    let tiles := (List.range (m.mt * m.nt)).map fun k => (getAcc s c.by_.team (m.acn + k)).fmt
    ((c.opc ≠ 0x380 ∨ m.mode ≠ 1 ∨ ∀ x ∈ tiles, x = f) →
      ∃ t, exec (.matrixCommandTake core) s = .next t ∧ (t.core core).matrix = [{ c with taken := true, state := .running }]
        ∧ t.teams = s.teams ∧ t.mem = s.mem)
    ∧ (∀ (k : Nat) (tm : Team) (w : Wave) (ln : Launch), c.opc = 0x380 → m.mode = 1 → k < m.mt * m.nt →
      (∀ j < k, tiles[j]? = some f) → tiles[k]? ≠ some f → RingRoom s c.by_.fn → s.team? c.by_.team = some tm →
      tm.waves[c.by_.wave]? = some w → s.launch? c.by_.launch = some ln →
      ∃ t, exec (.matrixCommandTake core) s = .next t ∧ (t.core core).matrix = []
        ∧ Recorded s t c.by_.fn { workRec c.by_ w ln 0x12 (1 + 256 * core) (m.acn + k) (m.acn + k) with flg := 0 }
        ∧ ∀ n, getAcc t c.by_.team n = getAcc s c.by_.team n)

/-- R234, R236: a step of a multiply whose rows can all be read updates its tile with the step's products, after setting
it to +0 first in overwrite mode; the command goes on to its next step, or leaves after the last. -/
def Claim.MatrixSteps : Prop :=
  ∀ (s : State) (core : Nat) (c : MxCmd) (tm : Team), (s.core core).matrix = [c] → c.by_.held s = false →
    c.taken = true → c.wait = none → c.misses = [] → c.opc = 0x380 → c.row = 0 → c.buf = [] → s.team? c.by_.team = some tm →
    let m := mmaBlk c.blk c.fw.toNat
    let tile := c.step / m.slices
    let sl := c.step % m.slices
    let n := m.acn + tile
    let row := fun (k : Nat) => stepRow m (tile / m.nt) (tile % m.nt) (16 * sl) k
    n < tm.accs.length →
    (∀ k < 32, piecesAccess s core c (row k).1 (fetchPieces (row k).1 (row k).2.1 (row k).2.2) false = .ok) →
    let buf := (List.range 32).flatMap fun k => fetchValues s c.by_ (row k).1 (row k).2.1 (row k).2.2
    let old := if sl = 0 ∧ m.mode = 0 then
        Acc.clear (if c.fw.extractLsb' 8 4 = 6 then .sto else .f32) (seedOf s c.by_) n (getAcc s c.by_.team n)
      else getAcc s c.by_.team n
    ∃ t, exec (.matrixStep core) s = .next t ∧ getAcc t c.by_.team n = applyStep m c.acc buf old
      ∧ (∀ k, k ≠ n → getAcc t c.by_.team k = getAcc s c.by_.team k) ∧ t.mem = s.mem
      ∧ (c.step + 1 < m.steps → ∃ c', (t.core core).matrix = [c'] ∧ c'.step = c.step + 1 ∧ c'.row = 0 ∧ c'.buf = [])
      ∧ (m.steps ≤ c.step + 1 → (t.core core).matrix = [])

/-- R118, R213 to R215, R221, R234: the update of a tile. In an FP32 tile each element is its old value plus the sixteen
products of the step, as an exact sum rounded once to nearest. In a stochastic BF16 tile the sum is rounded toward zero to
FP32, the draw of its column is added below the upper half, and the upper half is kept, an infinity at most; a column draws
row by row. In the exact class the product of finite values is their product, zeros and infinities are as in arithmetic,
and a NaN, or an infinity times a zero, is a NaN. -/
def Claim.TileUpdate : Prop :=
  (∀ (m : MmaBlk) (acc : BitVec 2) (buf : List Word) (a : Acc) (i j : Nat), a.e.length = 256 → a.g.length = 16 →
    i < 16 → j < 16 →
    let b := applyStep m acc buf a
    let sum := fun (f : Fmt) => sumVals (f.val (a.e.getD (16 * i + j) 0).toNat ::
        (List.range 16).map fun k => mxProduct m acc (bufA m buf i k) (bufB m buf k j))
    b.fmt = a.fmt ∧ b.e.length = 256
    ∧ (a.fmt = .f32 → b.g = a.g ∧ b.e.getD (16 * i + j) 0 = BitVec.ofNat 32 (roundVal f32 .rne (sum f32)).1)
    ∧ (a.fmt = .sto → b.g.getD j 0 = colStep^[16] (a.g.getD j 0)
        ∧ b.e.getD (16 * i + j) 0 = updSto ((colStep^[i + 1] (a.g.getD j 0)).toNat / 65536) (sum bf16)))
  ∧ (∀ (xs : List FVal), (∀ x ∈ xs, x.finite = true) → xs.any (fun x => match x with | .fin .. => true | _ => false) = true →
      let d := dySum (xs.map FVal.dy)
      sumVals xs = if d.1 = 0 then .zero false else .fin (d.1 < 0) d.1.natAbs d.2)
  ∧ (∀ (q m : Nat) (n : Bool) (e : Int), q < 65536 → 0 < m →
      (updSto q (.fin n m e)).toNat =
        (if n then 0x8000 else 0) + min 0x7F80 (((roundEx f32 .rtz { neg := false, m := m, e := e }).1 + q) / 65536)
      ∧ (updSto q (.zero n)).toNat = (if n then 0x8000 else 0) ∧ (updSto q (.inf n)).toNat = (if n then 0xFF80 else 0x7F80)
      ∧ updSto q (.nan n) = 0x7FC0)
  ∧ ∀ (m : MmaBlk) (acc : BitVec 2) (a b : Word),
      let x := (fetchFmt m.da.ty).val a.toNat
      let y := (fetchFmt m.db.ty).val b.toNat
      let z := mxProduct m acc a b
      (∀ n p e n' p' e', acc = 0 → x = .fin n p e → y = .fin n' p' e' → z = .fin (n != n') (p * p') (e + e'))
      ∧ (∀ n n', x = .zero n → y.finite = true → y.neg = n' → z = .zero (n != n'))
      ∧ (∀ n n', y = .zero n → x.finite = true → x.neg = n' → z = .zero (n != n'))
      ∧ (∀ n, x = .inf n → y.isNan = false → (∀ k, y ≠ .zero k) → z = .inf (n != y.neg))
      ∧ (∀ n, y = .inf n → x.isNan = false → (∀ k, x ≠ .zero k) → z = .inf (n != x.neg))
      ∧ (x.isNan = true ∨ y.isNan = true ∨ (∃ n k, x = .inf n ∧ y = .zero k) ∨ (∃ n k, x = .zero n ∧ y = .inf k) →
          z.isNan = true)

/-- R240: `mx.clr` sets the accumulators a(S(sb)) to a(S(sb) + S(sc) − 1) to +0, as FP32 tiles, or with STO as stochastic
BF16 tiles that are reseeded; no other tile changes, and the command leaves. How a tile's column generators are seeded is
log 42. -/
def Claim.MatrixClears : Prop :=
  ∀ (s : State) (core : Nat) (c : MxCmd) (tm : Team), (s.core core).matrix = [c] → c.by_.held s = false →
    c.taken = true → c.wait = none → c.misses = [] → c.opc = 0x383 → s.team? c.by_.team = some tm →
    let n := fieldB c.blk 0 2
    let k := fieldB c.blk 2 2
    n + k ≤ tm.accs.length →
    ∃ t, exec (.matrixStep core) s = .next t ∧ (t.core core).matrix = [] ∧ t.mem = s.mem
      ∧ ∀ x, (n ≤ x → x < n + k →
          (getAcc t c.by_.team x).e = List.replicate 256 0
          ∧ (c.func = 0 → (getAcc t c.by_.team x).fmt = .f32)
          ∧ (c.func = 1 → (getAcc t c.by_.team x).fmt = .sto
            ∧ (getAcc t c.by_.team x).g = (List.range 16).map (colSeed (seedOf s c.by_) x)))
        ∧ (x < n ∨ n + k ≤ x → getAcc t c.by_.team x = getAcc s c.by_.team x)

/-- R238, R239, R243: a group of sixteen rows of a store, one tile of a load, and one block column of a requantisation,
whose pages are all in place, are performed whole; the command goes on to the next, or leaves after the last. The sixteen
logical rows of a group are log 106, the generators of a requantisation log 42. -/
def Claim.MatrixUnits : Prop :=
  ∀ (s : State) (core : Nat) (c : MxCmd), (s.core core).matrix = [c] → c.by_.held s = false → c.taken = true →
    c.wait = none → c.misses = [] →
    let d := descAt c.blk 0x10
    let q := stBlk c.blk
    let rq := rqBlk c.blk
    let next := fun (s : State) (total : Nat) => nextUnit s core c total
    ((c.opc = 0x381 ∨ c.opc = 0x350) → d.aon = false →
      piecesAccess s core c d ((groupRows c c.step).flatMap (rowPieces d)) true = .ok →
      exec (.matrixStoreRows core) s = .next (next (storeGroup core c c.step s) ((d.lrows + 15) / 16)))
    ∧ (c.opc = 0x382 →
      let ps := (List.range 256).map fun n => elemPiece d (16 * (c.step / q.nt) + n / 16) (16 * (c.step % q.nt) + n % 16)
      piecesAccess s core c d ps false = .ok →
      exec (.matrixLoadTile core) s = .next (next (modAcc (chargePieces s c core d ps) c.by_.team (q.acn + c.step)
        (ldTile (c.func.getLsbD 4) (q.mode == 1) (seedOf s c.by_) (q.acn + c.step)
          (ps.map fun p => (fetchFmt d.ty).val (leNat (mxRead s c.by_ d p.1 p.2))))) (q.mt * q.nt)))
    ∧ (c.opc = 0x384 →
      let b := c.step
      let at_ := fun (r x : Nat) => rq.dst.at_ r (if x < 16 then 16 * b + x else rq.dst.cols / 2 + b)
      let src := (List.range 32).flatMap fun i => b4Pieces rq.src (32 * b + i) 0 rq.src.cols
      let dst := (List.range rq.dst.rows).flatMap fun r => b4Pieces rq.dst r (32 * b) 32
      let mode := fun (r i : Nat) => if (if rq.rmc = 6 then c.rm.toNat else rq.rmc) = 5 then
          RMode.sto ((colStep^[32 * b + i + 1] (seedWord (seedOf s c.by_) (4096 * rq.seed + r + 1))).toNat / 65536) else .rne
      let codes := fun (r : Nat) => runCodes rq.bt
        ((List.range 32).map fun i => ((b4Value s c.by_ rq.src (32 * b + i) r).toNat, mode r i))
      piecesAccess s core c rq.src src false = .ok → piecesAccess s core c rq.dst dst true = .ok →
      ∃ t, exec (.requantiseBlockColumn core) s = .next t
        ∧ (b + 1 < rq.src.rows / 32 → ∃ c', (t.core core).matrix = [c'] ∧ c'.step = b + 1)
        ∧ (rq.src.rows / 32 ≤ b + 1 → (t.core core).matrix = [])
        ∧ (∀ (tm : Team), rq.dst.spc = true → s.team? c.by_.team = some tm → Memory.wf tm.win = true →
            (∀ r < rq.dst.rows, ∀ r' < rq.dst.rows, ∀ x < 17, ∀ x' < 17, at_ r x = at_ r' x' → r = r' ∧ x = x') →
            t.mem = s.mem ∧ t.hostMem = s.hostMem ∧ ∀ r < rq.dst.rows,
              (∀ x < 16, (readLoc t (.win c.by_.team (at_ r x))).toNat =
                (codes r).1.getD (2 * x) 0 + 16 * (codes r).1.getD (2 * x + 1) 0)
              ∧ readLoc t (.win c.by_.team (at_ r 16)) = BitVec.ofNat 8 (codes r).2))

/-- R241: an all-or-nothing store into a window waits while its version word is odd, makes it odd, and when its rows are
written makes it even again and leaves. The phases at which it may be stopped are log 43. -/
def Claim.VersionedStores : Prop :=
  ∀ (s : State) (core : Nat) (c : MxCmd) (tm : Team), (s.core core).matrix = [c] → c.by_.held s = false → c.taken = true →
    c.wait = none → c.misses = [] → c.lost = false → (c.opc = 0x381 ∨ c.opc = 0x350) → s.team? c.by_.team = some tm → Memory.wf tm.win = true →
    let d := descAt c.blk 0x10
    d.aon = true → d.spc = true →
    let ver := fun (t : State) => readWord t (.win c.by_.team (d.base - 8))
    let goes := fun (c' : MxCmd) => ∃ t, exec (.aonStore core) s = .next t ∧ (t.core core).matrix = [c'] ∧ ver t = ver s
    (c.ver = none → c.row = 0 → goes { c.fresh with row := 1 })
    ∧ (c.ver = none → c.row = 1 → (ver s).getLsbD 0 = true → exec (.aonStore core) s = .next s)
    ∧ (c.ver = none → c.row = 1 → (ver s).getLsbD 0 = false → ∃ t, exec (.aonStore core) s = .next t
        ∧ ver t = ver s + 1 ∧ (t.core core).matrix = [{ c with ver := some (ver s + 1) }])
    ∧ (∀ v, c.ver = some v → c.step < (d.lrows + 15) / 16 → exec (.aonStore core) s =
        .next (setMx (storeGroup core c c.step s) core { c with step := c.step + 1 }))
    ∧ (∀ v, c.ver = some v → (d.lrows + 15) / 16 ≤ c.step → ∃ t, exec (.aonStore core) s = .next t ∧ ver t = v + 1
        ∧ (t.core core).matrix = [])

/-- R242, R284: a versioned load waits while V is odd, keeps the tile that it reads with an even V, and writes it to the
window, byte by byte in the order of its elements, when V reads the same again; otherwise it begins again, and nothing is
written. Only V and the rows are read. The phases at which it may be stopped are log 43. -/
def Claim.VersionedLoads : Prop :=
  ∀ (s : State) (core : Nat) (c : MxCmd), (s.core core).matrix = [c] → c.by_.held s = false → c.taken = true → c.wait = none →
    c.misses = [] →
    c.lost = false → c.opc = 0x351 →
    let x := descAt c.blk 0
    let y := descAt c.blk 0x10
    let rows := fun (d : Desc) => (List.range x.lrows).flatMap (rowPieces d)
    piecesAccess s core c x ((x.base - 8, 4) :: if c.ver = none then rows x else []) false = .ok →
    let v := BitVec.ofNat 32 (leNat (mxRead s c.by_ x (x.base - 8) 4))
    let goes := fun (c' : MxCmd) => ∃ t, exec (.versionedTileRead core) s = .next t ∧ (t.core core).matrix = [c']
      ∧ t.mem = s.mem ∧ t.teams = s.teams
    (c.ver = none → v.getLsbD 0 = true → goes c.fresh)
    ∧ (c.ver = none → v.getLsbD 0 = false → goes { c.fresh with ver := some v, buf :=
        ((List.range x.lrows).flatMap fun i => readPieces s c.by_ x (rowPieces x i)).map fun b => b.setWidth 32 })
    ∧ (∀ u, c.ver = some u → u ≠ v → goes { c.fresh with ver := none, buf := [] })
    ∧ (c.ver = some v → y.spc = true → ∃ t, exec (.versionedTileRead core) s = .next t ∧ (t.core core).matrix = []
        ∧ t.mem = s.mem ∧ t.hostMem = s.hostMem
        ∧ ∀ (tm : Team), s.team? c.by_.team = some tm → Memory.wf tm.win = true →
          let at_ := (rows y).flatMap fun p => (List.range p.2).map (p.1 + ·)
          at_.Nodup → ∀ (n a : Nat) (b : Word), at_[n]? = some a → c.buf[n]? = some b → readLoc t (.win c.by_.team a) = b.setWidth 8)

/-- R237, R261, R315, R316: an access that meets a fault ends a store's command, and a gather's position, with a record of
the fault's cause: the engine's unit and core, the address, and the command's step or the position. A store writes nothing,
and the position's row is zeros and its status has ERR. That such a record is IMPRECISE for the access processor too is log
28. -/
def Claim.EngineFaults : Prop :=
  ∀ (s : State) (core cause a : Nat) (tm : Team) (w : Wave) (ln : Launch),
    (∀ (c : MxCmd), (s.core core).matrix = [c] → c.by_.held s = false → c.taken = true → c.wait = none → c.misses = [] →
      s.team? c.by_.team = some tm → tm.waves[c.by_.wave]? = some w → s.launch? c.by_.launch = some ln → RingRoom s c.by_.fn →
      (c.opc = 0x381 ∨ c.opc = 0x350) →
      let d := descAt c.blk 0x10
      d.aon = false → piecesAccess s core c d ((groupRows c c.step).flatMap (rowPieces d)) true = .fault cause a →
      ∃ t, exec (.matrixStoreRows core) s = .next t ∧ (t.core core).matrix = [] ∧ t.mem = s.mem
        ∧ Recorded s t c.by_.fn (workRec c.by_ w ln cause (1 + 256 * core) a c.step))
    ∧ (∀ (c : ApCmd), (s.core core).access = [c] → c.by_.held s = false → c.wait = none → c.lost = false → c.misses = [] →
      s.team? c.by_.team = some tm → tm.waves[c.by_.wave]? = some w → s.launch? c.by_.launch = some ln → RingRoom s c.by_.fn →
      Memory.wf tm.win = true → tm.staged = [] → c.opc = 0x332 → c.rowI = 0 → c.chunk = 0 → c.sts = 0 → c.buf = [] →
      let g := gthBlk c.blk
      let x := leNat (readBytes s (.win c.by_.team g.idx) 4)
      g.ni = 1 → 16 ≤ g.rb → x < g.nrows → g.sig ≠ 0xFFFFFFFF → (g.sig + 4 ≤ g.dst ∨ g.dst + g.rb ≤ g.sig) →
      engineAccess s (apHas s core c) c.by_.fn (g.src + x * g.rb) 16 false none false = .fault cause a →
      ∃ t, exec (.apGatherStep core) s = .next t ∧ (t.core core).access = []
        ∧ readWord t (.win c.by_.team g.sig) = BitVec.ofNat 32 (x % 2 ^ 24) ||| 0x04000000
        ∧ readBytes t (.win c.by_.team g.dst) g.rb = List.replicate g.rb 0
        ∧ Recorded s t c.by_.fn (workRec c.by_ w ln cause (2 + 256 * core) a 0))

/-! ### Bags at their placement units (10_bags) -/

/-- R152, R153, R163 to R169: what the take of the one waiting command of a bag does. `new` gives a handle of a free
entry to a descriptor that passes its checks; `snap`, `seal`, `free` and `grow` change the bag; `cnt` reads it. -/
def Claim.BagTakes : Prop :=
  ∀ (s : State) (c : BagCmd) (b : Bag), s.bagCmds = [c] → c.wait = none → c.lost = false →
    findBag s c.by_.fn c.handle = some b → b.drain = none → s.hasFn c.by_.fn = true →
    let bag := fun (t : State) => findBag t c.by_.fn c.handle
    let answered := fun (t : State) (a : Answer) => t.bagCmds = [] ∧ t.mem = s.mem
      ∧ t.arrivals = s.arrivals ++ [{ id := c.id, team := c.by_.team, wave := c.by_.wave, ans := a }]
    (c.op = .snap → ∃ t, exec (.bagSnapTake c.id) s = .next t ∧ answered t (.accepted [])
        ∧ bag t = some { b with shares := b.shares.map fun x => { x with snap := x.c } })
    ∧ (c.op = .seal → ∃ t, exec (.bagSealTake c.id) s = .next t ∧ answered t (.accepted [])
        ∧ bag t = some { b with sealed := true })
    ∧ (c.op = .free → (∀ x ∈ b.shares, x.busy = false) → ∃ t, exec (.bagFreeTake c.id) s = .next t
        ∧ answered t (.accepted []) ∧ bag t = none)
    ∧ (c.op = .free → b.anyBusy = true → exec (.bagFreeTake c.id) s = .next (answerBag s c
        (.refused { cause := 10, code := b.lowBusy, det := c.handle.toNat })))
    ∧ (∀ sel i, c.op = .cnt sel i → ∃ t x, exec (.bagCntTake c.id) s = .next t ∧ answered t (.reply x) ∧ bag t = some b
        ∧ (sel = 0 → x = BitVec.ofNat 32 (b.shares.map (·.c)).sum)
        ∧ (sel = 3 → x = BitVec.ofNat 32 (b.shares.map (·.snap)).sum)
        ∧ (sel = 1 → ∀ h, b.shares[i.toNat]? = some h → x = BitVec.ofNat 32 h.c)
        ∧ (sel = 2 → ∀ h, b.shares[i.toNat]? = some h → x = BitVec.ofNat 32 h.snap)
        ∧ ((sel = 1 ∨ sel = 2) → b.shares.length ≤ i.toNat → x = 0xFFFFFFFF))
    ∧ (∀ cap, c.op = .grow cap → b.cap < cap.toNat → cap.toNat ≤ 2 ^ 20 →
        rowsFree s b.q0 b.shares.length (rowUnits cap.toNat b.z - rowUnits b.cap b.z) = true →
        ∃ t, exec (.bagGrowTake c.id) s = .next t ∧ answered t (.reply 0) ∧ bag t = some { b with cap := cap.toNat })
    ∧ (∀ cap, c.op = .grow cap → (cap.toNat < b.cap ∨ 2 ^ 20 < cap.toNat) →
        exec (.bagGrowTake c.id) s = .next (answerBag s c (.reply 0x80000001)))

/-- R152, R160, R164, R165, R168: a command that is accepted retires at its take, a put on ST and others on CP, an
iteration over empty snapshots and a drain of no record too; one that starts root code stays counted. A `put.nf` places the records that fit, one
after another, and its answer names the elements of the others. A grow to the same capacity answers 0 and changes nothing. A handle that
names no bag any more is refused with an access violation, or answered 0x80000006. -/
def Claim.BagRetires : Prop :=
  ∀ (s : State) (c : BagCmd) (w : Wave), s.bagCmds = [c] → c.wait = none → c.lost = false → s.hasFn c.by_.fn = true →
    s.wave? ⟨c.by_.team, c.by_.wave⟩ = some w → w.joint = [] →
    let answered := fun (t : State) (a : Answer) => t.bagCmds = []
      ∧ t.arrivals = s.arrivals ++ [{ id := c.id, team := c.by_.team, wave := c.by_.wave, ans := a }]
    let falls := fun (q : List (Nat × Bool)) => (q.map fun x => if x.1 = c.id then (c.id, true) else x).dropWhile (·.2)
    let wave := fun (t : State) (good : Wave → Prop) => ∃ w', t.wave? ⟨c.by_.team, c.by_.wave⟩ = some w' ∧ good w'
    let retires := fun (x : Instr) => ∃ t, exec x s = .next t ∧ answered t (.accepted [])
      ∧ wave t fun w' => w'.cp = falls w.cp ∧ w'.st = w.st
    let entry := ((s.launch? c.by_.launch).map (·.entry)).getD 0
    (∀ b, findBag s c.by_.fn c.handle = some b → b.drain = none →
      (c.op = .snap → retires (.bagSnapTake c.id)) ∧ (c.op = .seal → retires (.bagSealTake c.id))
      ∧ (c.op = .free → b.anyBusy = false → retires (.bagFreeTake c.id))
      ∧ (∀ param tgt, c.op = .each param tgt → rootTarget s c.by_.fn (entry + tgt.toNat) = .good → b.anyBusy = false →
          ((∀ x ∈ b.shares, x.snap = 0) → retires (.bagEachTake c.id) ∧ ∀ t, exec (.bagEachTake c.id) s = .next t →
            t.units = s.units ∧ t.rootCmds = s.rootCmds ∧ findBag t c.by_.fn c.handle = some b)
          ∧ ((∃ x ∈ b.shares, x.snap ≠ 0) → ∃ t, exec (.bagEachTake c.id) s = .next t ∧ t.wave? ⟨c.by_.team, c.by_.wave⟩ = some w))
      ∧ (∀ dst, c.op = .drain dst → b.total * b.z = 0 → b.anyBusy = false → retires (.bagDrainTake c.id))
      ∧ (∀ recs, c.op = .put false recs → b.sealed = false → b.total + recs.length ≤ b.cap * b.shares.length →
          ∃ t, exec (.bagPutTake c.id) s = .next t ∧ wave t fun w' => w'.st = falls w.st ∧ w'.cp = w.cp)
      ∧ (∀ recs, c.op = .put true recs →
          let go := recs.foldl (fun (a : Bag × List Nat) x =>
            if a.1.sealed = false ∧ a.1.total < a.1.cap * a.1.shares.length then (placeRecord a.1 x.2.1.toNat x.2.2, a.2)
            else (a.1, a.2 ++ [x.1])) (b, [])
          ∃ t, exec (.bagPutTake c.id) s = .next t ∧ answered t (.accepted go.2) ∧ findBag t c.by_.fn c.handle = some go.1
            ∧ t.mem = s.mem ∧ wave t fun w' => w'.st = falls w.st ∧ w'.cp = w.cp)
      ∧ (c.op = .grow (BitVec.ofNat 32 b.cap) → b.cap ≤ 2 ^ 20 → exec (.bagGrowTake c.id) s = .next (answerBag s c (.reply 0))))
    ∧ (findBag s c.by_.fn c.handle = none →
      let stale := Host.Outcome.next (answerBag s c (.refused { cause := 8, det := c.handle.toNat }))
      (c.op = .snap → exec (.bagSnapTake c.id) s = stale) ∧ (c.op = .seal → exec (.bagSealTake c.id) s = stale)
      ∧ (c.op = .free → exec (.bagFreeTake c.id) s = stale) ∧ (∀ nf recs, c.op = .put nf recs → exec (.bagPutTake c.id) s = stale)
      ∧ (∀ param tgt, c.op = .each param tgt → exec (.bagEachTake c.id) s = stale)
      ∧ (∀ dst, c.op = .drain dst → exec (.bagDrainTake c.id) s = stale)
      ∧ (∀ sel k, c.op = .cnt sel k → exec (.bagCntTake c.id) s = .next (answerBag s c (.reply 0x80000006)))
      ∧ (∀ cap, c.op = .grow cap → exec (.bagGrowTake c.id) s = .next (answerBag s c (.reply 0x80000006))))

/-- R163: a descriptor that passes its checks, whose stacks are enabled, gives, when an entry and rows are free, the handle of
a free entry, and the bag is there, empty. The entry is the model's free choice (log 9), and what space is free is open
(log 14). -/
def Claim.BagNewTake : Prop :=
  ∀ (s : State) (c : BagCmd) (a : Nat), s.bagCmds = [c] → c.wait = none → c.lost = false → c.op = .new a →
    s.hasFn c.by_.fn = true → checkRange s c.by_.fn a 32 false = .ok →
    let d := readVa s c.by_.fn a 32
    let b := bagOf d
    (bagDescOk d = false → exec (.bagNewTake c.id) s = .next (answerBag
        (chargeDirect (chargeWalks s c.by_.fn (pagesOf a 32)) c.by_.fn (lineLocs s c.by_.fn a 32)) c (.reply 0x80000001)))
    ∧ (bagDescOk d = true → (∀ i < b.shares.length, s.stackMask.getLsbD ((b.q0 + i) / 64) = true) →
        freeSlots (s.fn c.by_.fn) ≠ [] → rowsFree s b.q0 b.shares.length (rowUnits b.cap b.z) = true →
        ∃ t slot, exec (.bagNewTake c.id) s = .next t ∧ slot ∈ freeSlots (s.fn c.by_.fn) ∧ t.bagCmds = []
          ∧ ((t.fn c.by_.fn).entry slot).bag = some b ∧ (∀ x ∈ b.shares, x.c = 0 ∧ x.snap = 0 ∧ x.busy = false)
          ∧ t.arrivals = s.arrivals ++ [{ id := c.id, team := c.by_.team, wave := c.by_.wave
                                          ans := .reply (handleOf slot ((s.fn c.by_.fn).entry slot).gen) }])

/-- R154, R164: a put without `.nf` whose records all fit, into a bag that is not sealed, places them one after another by
the placement rule; into a sealed bag it is refused with cause 9 and code 1, and into one without room
with code 0, and nothing is placed. -/
def Claim.BagPutTake : Prop :=
  ∀ (s : State) (c : BagCmd) (b : Bag) (recs : List (Nat × Word × List Byte)), s.bagCmds = [c] → c.wait = none →
    findBag s c.by_.fn c.handle = some b → b.drain = none → s.hasFn c.by_.fn = true → c.op = .put false recs →
    (b.sealed = true → exec (.bagPutTake c.id) s = .next (answerBag s c
        (.refused { cause := 9, code := 1, det := c.handle.toNat })))
    ∧ (b.sealed = false → b.cap * b.shares.length < b.total + recs.length → exec (.bagPutTake c.id) s = .next (answerBag s c
        (.refused { cause := 9, code := 0, det := c.handle.toNat })))
    ∧ (b.sealed = false → b.total + recs.length ≤ b.cap * b.shares.length →
        ∃ t, exec (.bagPutTake c.id) s = .next t ∧ t.bagCmds = [] ∧ t.mem = s.mem
          ∧ findBag t c.by_.fn c.handle = some (recs.foldl (fun b x => placeRecord b x.2.1.toNat x.2.2) b)
          ∧ t.arrivals = s.arrivals ++ [{ id := c.id, team := c.by_.team, wave := c.by_.wave, ans := .accepted [] }])

/-- R154: the home share of a key is the top LOGSH bits of the product of its low KW bits with 0x9E3779B1. A record goes to
its home share while that holds fewer than SLACK records more than the emptiest, and otherwise to the first of the
emptiest; a home share that is full passes it on to the first that is not. A share's count then rises by one, no other
share changes, and a bag with room stays within its capacity. -/
def Claim.PlacementRule : Prop :=
  ∀ (b : Bag) (x : Nat) (r : List Byte), b.shares.length = 2 ^ b.lb → b.lb ≤ 10 → (∀ h ∈ b.shares, h.c ≤ b.cap) → b.total < b.cap * b.shares.length →
    let t := targetShare b x
    let home := homeShare b x
    let cs := b.shares.map (·.c)
    home = ((BitVec.ofNat 32 (x % 2 ^ b.kw) * 0x9E3779B1#32) >>> (32 - b.lb)).toNat
    ∧ t < b.shares.length ∧ cs.getD t 0 < b.cap
    ∧ (∀ m, m ∈ cs → (∀ y ∈ cs, m ≤ y) →
        (cs.getD home 0 < m + b.slack → cs.getD home 0 < b.cap → t = home)
        ∧ (cs.getD home 0 < m + b.slack → cs.getD home 0 = b.cap → ∀ k < t, cs.getD k 0 = b.cap)
        ∧ (m + b.slack ≤ cs.getD home 0 → cs.getD t 0 = m ∧ ∀ k < t, cs.getD k 0 ≠ m))
    ∧ (placeRecord b x r).shares.map (·.c) = cs.set t (cs.getD t 0 + 1)
    ∧ (placeRecord b x r).total = b.total + 1 ∧ (∀ h ∈ (placeRecord b x r).shares, h.c ≤ b.cap)

/-- R160, R167: an iteration over a bag that is not busy starts one invocation on the unit of each share whose snapshot is
not empty, and marks those shares. A drain whose destination is resident and writable
begins to copy the bag's records, in share order. -/
def Claim.BagEachAndDrain : Prop :=
  ∀ (s : State) (c : BagCmd) (b : Bag), s.bagCmds = [c] → c.wait = none → c.lost = false →
    findBag s c.by_.fn c.handle = some b → b.drain = none → (∀ x ∈ b.shares, x.busy = false) → s.hasFn c.by_.fn = true →
    let entry := ((s.launch? c.by_.launch).map (·.entry)).getD 0
    let accepted := fun (t : State) => t.bagCmds = []
      ∧ t.arrivals = s.arrivals ++ [{ id := c.id, team := c.by_.team, wave := c.by_.wave, ans := .accepted [] }]
    (∀ param tgt, c.op = .each param tgt → rootTarget s c.by_.fn (entry + tgt.toNat) = .good → (∃ x ∈ b.shares, x.snap ≠ 0) →
      ∃ t, exec (.bagEachTake c.id) s = .next t ∧ accepted t ∧ t.mem = s.mem
        ∧ findBag t c.by_.fn c.handle = some { b with shares := b.shares.map fun x => { x with busy := x.snap != 0 } }
        ∧ ∀ k h, b.shares[k]? = some h → h.snap ≠ 0 → ∃ v, (t.unit (b.q0 + k)).invs = (s.unit (b.q0 + k)).invs ++ [v]
            ∧ v.kind = .each ∧ v.nrec = h.snap ∧ v.z = b.z ∧ v.param = param ∧ v.idx = k ∧ v.started = false)
    ∧ (∀ dst, c.op = .drain dst → 0 < b.total * b.z → checkRange s c.by_.fn dst (b.total * b.z) true = .ok →
      ∃ t d, exec (.bagDrainTake c.id) s = .next t ∧ accepted t
        ∧ findBag t c.by_.fn c.handle = some { b with drain := some d } ∧ d.dst = dst ∧ d.id = c.id ∧ d.stop = false ∧ d.next = 0
        ∧ d.data = b.shares.flatMap fun h => readCells h.rows 0 (h.c * b.z))

/-- R167 steps 4 and 5: when a drain's copy ends the bag is empty, its snapshots are 0 and it is not sealed. -/
def Claim.BagDrainEnds : Prop :=
  ∀ (s : State) (f : Fn) (e : BagEntry) (b : Bag) (d : Drain), s.fns = [f] → f.bags = [e] → e.bag = some b → b.drain = some d →
    d.stop = false → e.slot < 4096 → e.gen < 2 ^ 19 →
    ∃ t, exec (.bagDrainComplete d.id) s = .next t
      ∧ findBag t f.id (handleOf e.slot e.gen) = some { b with
          sealed := false, drain := none, shares := b.shares.map fun x => { x with c := 0, snap := 0, rows := [] } }

/-- R148, R157: an answer or a reply reaches its wave: a reply writes its register; an acceptance lets the wave go on; a
refusal puts the lanes of E back as they stood at the command, takes it off its counter, and they take the trap. That a
refusal gives back the write mask that a header between has cleared is log 81. An answer to a put with `.nf` writes its
failure predicate. -/
def Claim.BagAnswers : Prop :=
  ∀ (s : State) (a : Arrival) (w : Wave) (tm : Team), s.arrivals = [a] → s.wave? ⟨a.team, a.wave⟩ = some w → s.team? a.team = some tm →
    let r : WaveRef := ⟨a.team, a.wave⟩
    (∀ x n, a.ans = .reply x → w.replies = [{ id := a.id, kind := .reg n false false }] →
      ∃ t, exec (.bagAnswerArrival a.id) s = .next t ∧ t.arrivals = []
        ∧ t.wave? r = some { w with regs := w.regs.setS n x, replies := [] })
    ∧ (∀ ls, a.ans = .accepted [] → w.replies = [{ id := a.id, kind := .answer ls none }] →
      ∃ t, exec (.bagAnswerArrival a.id) s = .next t ∧ t.arrivals = [] ∧ t.wave? r = some { w with replies := [] })
    ∧ (∀ fs ls p act zero e, a.ans = .accepted fs → w.replies = [{ id := a.id, kind := .answer ls (some (p, act, zero, e)) }] →
      ∃ t w', exec (.bagAnswerArrival a.id) s = .next t ∧ t.arrivals = [] ∧ t.wave? r = some w'
        ∧ w' = { w with replies := [], regs := w'.regs } ∧ w'.regs.v = w.regs.v ∧ w'.regs.s = w.regs.s
        ∧ (∀ n, n ≠ p → w'.regs.getP n = w.regs.getP n)
        ∧ (p ≠ 0 → p < w.regs.p.length → w.regs.width ≤ 64 → (act ≠ [] ∨ zero ≠ []) → ∀ l < w.regs.width,
          (w'.regs.getP p).getLsbD l =
            if l ∈ act then decide (l ∈ fs) else if l ∈ zero then false else (w.regs.getP p).getLsbD l))
    ∧ (∀ x ls, a.ans = .refused x → w.replies = [{ id := a.id, kind := .answer ls none }] →
      exec (.bagAnswerArrival a.id) s = .next (takeTraps
        (ls.foldl (fun s y => s.onLanes r (Mask.put 0 y.1 true) fun _ => y.2)
          (releaseOp (releaseOp ({ s with arrivals := [] }.modWave r fun w =>
            { w with replies := w.replies.filter (fun y => y.id != a.id), regs := w.unpassed, cleared := none })
            r .cp a.id) r .st a.id))
        (ls.map fun y => (r, y.1, x))))

/-! ### Root units and the crown (11_root_units_and_crown) -/

/-- R175, R180, R192: a free unit that keeps no started work of the function starts the invocation that waits for it, at its
first block: `s2` holds PARAM, `s3` the
index, `s4` the number of records, `s5` the block, and `%vl` the records of the block. -/
def Claim.RootStarts : Prop :=
  ∀ (s : State) (q : Nat) (v : Inv), (s.unit q).invs = [v] → (s.unit q).bmacs = [] → v.started = false → v.by_.held s = false →
    (∀ r ∈ s.savedRoots, r.unit = q → r.by_.fn = v.fn → r.begun = false) →
    ∃ t v', exec (.rootInvocationStart q) s = .next t ∧ (t.unit q).invs = [v'] ∧ v'.started = true ∧ v'.bound = true
      ∧ v'.pc = v.entry + v.code ∧ v'.block = 0 ∧ v'.count = 0 ∧ v'.regs.getS 2 = v.param ∧ v'.regs.getS 3 = BitVec.ofNat 32 v.idx
      ∧ v'.regs.getS 4 = BitVec.ofNat 32 v.nrec ∧ v'.regs.getS 5 = 0 ∧ v'.regs.vl = min 32 v.nrec ∧ v'.regs.width = 32
      ∧ t.mem = s.mem ∧ ∀ p, p ≠ q → t.unit p = s.unit p

/-- R173, R176: a block ends at `rk.next` or `exit`, and the invocation ends when its last block ends; a block that has
issued 2^20 instructions without ending is a root fault of cause 5. -/
def Claim.RootBlocks : Prop :=
  ∀ (h : Head) (s : State) (i : Issue) (q : Nat) (v : Inv), s.issue = some i → i.agent = .root q → s.inv? q = some v →
    (32 * (v.block + 1) < v.nrec → v.by_.held s = false → ∃ t v', exec (.rkNext h) s = .next t ∧ t.inv? q = some v'
      ∧ v'.block = v.block + 1 ∧ v'.bound = true ∧ v'.count = 0 ∧ v'.pc = v.entry + v.code ∧ v'.regs.vl = min 32 (v.nrec - 32 * (v.block + 1))
      ∧ v'.regs.getS 5 = (if 5 < v.regs.s.length then BitVec.ofNat 32 (v.block + 1) else v.regs.getS 5) ∧ t.mem = s.mem)
    ∧ (v.nrec ≤ 32 * (v.block + 1) → exec (.rkNext h) s = .next (endInv s q none))
    ∧ (exec (.exit h) s = .next (endInv s q none))
    ∧ ((endInv s q none).unit q).invs = (s.unit q).invs.drop 1
    ∧ (v.started = true → v.bound = true →
      (2 ^ 20 ≤ v.count → exec (.rootBlockLimit q) s = .next (rootFault s q 5 0))
      ∧ (v.count < 2 ^ 20 → exec (.rootBlockLimit q) s = .next s))

/-- R182 to R184: window loads and stores of root code move the words of active lanes, `rec.idx` gives the record's index,
and `zskip` finds the next set bit of a bitmap below its length. Which bytes of the bitmap `zskip` reads is log 116. -/
def Claim.RootWindowForms : Prop :=
  ∀ (h : Head) (l : RecLd) (st : RecSt) (o : VMem) (vd : VReg) (z : U3) (s : State) (i : Issue) (q : Nat) (v : Inv),
    s.issue = some i → i.agent = .root q → s.inv? q = some v →
    let c := mkCtx none q v.regs (Mask.full 32) h
    let word := fun (f : Nat → Int) (k : Nat) => (f k).toNat
    let inWin := fun (f : Nat → Int) (w : Bool) => ∀ k ∈ c.actives, windowFault v w (f k) = none
        ∧ (w = false → ∀ j < 4, v.badLine s ((f k).toNat + j) = false)
    let rec_ := fun (off k : Nat) => (((32 * v.block + k) * v.z + off : Nat) : Int)
    let held := fun (off : Nat) => off + 4 ≤ v.z ∧ ∀ k ∈ c.actives, 32 * v.block + k < v.nrec ∧ k < 32
    let load := fun (x : Instr) (d : VReg) (f : Nat → Int) => inWin f false →
      exec x s = .next (advance (putRegs (chargeWinLines s c (c.actives.map (word f))) c
        (vecW d (fun _ k => v.readWord s (word f k)) c)) i c (Mask.full 32))
    let store := fun (x : Instr) (a : VReg) (f : Nat → Int) => inWin f true →
      exec x s = .next (advance (c.actives.foldl (fun t k => v.write t (word f k) (v.regs.getV a.toNat k))
        (chargeWinLines s c (c.actives.map (word f)))) i c (Mask.full 32))
    (held l.off.toNat → load (.recLd h l) l.dst (rec_ l.off.toNat))
    ∧ (held st.off.toNat → store (.recSt h st) st.sa (rec_ st.off.toNat))
    ∧ load (.rld h o) o.rd (fun k => memAddr c o.m false k) ∧ store (.rst h o) o.rd (fun k => memAddr c o.m false k)
    ∧ exec (.recIdx h vd) s = .next (regEffect (vecW vd fun _ k => BitVec.ofNat 32 (32 * v.block + k)) h i s)
    ∧ (let base := (v.regs.getS z.sa.toNat).toNat
       let n := (v.regs.getS (z.sa.toNat + 1)).toNat
       let k := (v.regs.getS z.sb.toNat).toNat
       (c.e ≠ 0 → n ≤ k → exec (.zskip h z) s = .next (regEffect (uniW z.dst fun _ => BitVec.ofNat 32 n) h i s))
       ∧ (c.e ≠ 0 → k < n → base + (n + 7) / 8 ≤ v.size → (∀ o, v.badLine s o = false) →
          ∃ t j, exec (.zskip h z) s = .next t ∧ k ≤ j ∧ j ≤ n
            ∧ (∀ x, k ≤ x → x < j → (v.read s (base + x / 8)).getLsbD (x % 8) = false)
            ∧ (j < n → (v.read s (base + j / 8)).getLsbD (j % 8) = true)
            ∧ (t.inv? q).map (·.regs) = some (v.regs.setS z.dst.toNat (BitVec.ofNat 32 j)) ∧ t.mem = s.mem))

/-- R188 to R190: `crown.put` adds to or sets 32 elements of its unit's slot; `crown.sum` gives the sum over the slots, as a
binary tree over the slots in the order of their units, whose nodes are FP32 sums and keep the poison value, clears them when asked, and writes the 1 KiB to its window;
`crown.clr` clears; both retire on CP. -/
def Claim.Crown : Prop :=
  (∀ (h : Head) (o : CrownPut) (s : State) (i : Issue) (q : Nat) (v : Inv), s.issue = some i → i.agent = .root q → s.inv? q = some v →
    let c := mkCtx none q v.regs (Mask.full 32) h
    ∃ t, exec (.crownPut h o) s = .next t ∧ t.mem = s.mem ∧ (∀ f p, (f, p) ≠ (v.fn, q) → crownSlot t f p = crownSlot s f p)
      ∧ ∀ l ∈ c.actives, l < 32 → (crownSlot s v.fn q).length = 256 →
          let e := 32 * ((v.regs.getS o.sb.toNat).toNat % 8) + l
          let x := v.regs.getV o.sa.toNat l
          (crownSlot t v.fn q).getD e 0 = if o.ty = .f32 then crownNode ((crownSlot s v.fn q).getD e 0) x else x)
  ∧ (∀ a b : Word, crownNode a b = if a = 0x7FC00E0E ∨ b = 0x7FC00E0E then 0x7FC00E0E else fadd32 a b)
  ∧ (∀ (s : State) (f : Nat) (tree : Nat → Nat → Nat → Word), (∀ p, (crownSlot s f p).length = 256) →
      (∀ p e, tree 0 p e = (crownSlot s f p).getD e 0) →
      (∀ n p e, tree (n + 1) p e = crownNode (tree n (2 * p) e) (tree n (2 * p + 1) e)) →
      (crownSum s f).length = 256 ∧ ∀ e < 256, (crownSum s f).getD e 0 = tree 10 0 e)
  ∧ (∀ (s : State) (c : Machine.RootCmd) (w : Wave), s.rootCmds = [c] → s.wave? ⟨c.by_.team, c.by_.wave⟩ = some w → w.joint = [] →
      let retires := fun (t : State) => t.rootCmds = [] ∧ ∃ w', t.wave? ⟨c.by_.team, c.by_.wave⟩ = some w'
        ∧ w'.cp = (w.cp.map fun x => if x.1 = c.id then (c.id, true) else x).dropWhile (·.2)
      (c.op = .clr → ∃ t, exec (.crownClrTake c.id) s = .next t ∧ retires t ∧ ∀ p, crownSlot t c.by_.fn p = List.replicate 256 0)
      ∧ (∀ clr gw off at_ (u : Team), c.op = .sum clr gw off → (crownSum s c.by_.fn).length = 256 →
          s.team? u.id = some u → Memory.wf u.win = true →
          (if gw then off < 2 ^ 32 ∧ gangTeam s ⟨c.by_.team, c.by_.wave⟩ (off / 2 ^ 24) = some u ∧ at_ = off % 2 ^ 24
            else u.id = c.by_.team ∧ at_ = off) →
          ∃ t, exec (.crownSumTake c.id) s = .next t ∧ retires t ∧ t.mem = s.mem
            ∧ readBytes t (.win u.id at_) 1024 = (crownSum s c.by_.fn).flatMap (fun w => leBytes 4 w.toNat)
            ∧ (clr = true → ∀ p, crownSlot t c.by_.fn p = List.replicate 256 0)
            ∧ (clr = false → t.crown = s.crown)))

/-- R180, R186, R187: a `root.run` or `bmac` command is taken when none of its work is stopped. A run of no entry ends at
once; an entry that is refused has its reason in its status, and another joins the invocations of its unit. A `bmac` whose
block or whose entries fail a check ends at once with the reason in its status: 1, or the first that an entry has of 4, 3,
2 and 5. Otherwise it reads its vector, and its entries join those of their units. The order of the reasons is log 44, a run
of no entry log 85, and the pages between the rows of W log 117. -/
def Claim.RootCommandTakes : Prop :=
  ∀ (s : State) (c : Machine.RootCmd) (tm : Team), s.rootCmds = [c] → c.taken = false → c.by_.held s = false →
    s.team? c.by_.team = some tm → Memory.wf tm.win = true →
    (∀ off param tgt, c.op = .run off param tgt →
      let b := readBytes s (.win c.by_.team off) 16
      (fieldB b 0 2 = 0 → ∃ t, exec (.rootRunTake c.id) s = .next t ∧ t.rootCmds = [] ∧ t.mem = s.mem ∧ t.units = s.units)
      ∧ (fieldB b 0 2 = 1 →
        let e := readBytes s (.win c.by_.team (off + 16)) 12
        let va := fieldB e 0 8
        let len := fieldB e 8 4
        let z := fieldB b 2 1
        let bad := fieldB b 3 13 ≠ 0 ∨ 5 < z ∨ va % (4 * 2 ^ z) ≠ 0 ∨ len = 0 ∨ len % (4 * 2 ^ z) ≠ 0
        let refused := fun (why : Nat) => ∃ t, exec (.rootRunTake c.id) s = .next t ∧ t.rootCmds = []
          ∧ t.units = s.units ∧ readWord t (.win c.by_.team (off + 28)) = BitVec.ofNat 32 (2 + 4 * why)
        (bad → refused 18)
        ∧ (¬ bad → ∀ why, nearPages s c.by_.fn va len = .inl why → refused why)
        ∧ (¬ bad → ∀ q pages, nearPages s c.by_.fn va len = .inr (q, pages) → ∃ t v, exec (.rootRunTake c.id) s = .next t
          ∧ (t.unit q).invs = (s.unit q).invs ++ [v] ∧ v.kind = .run ∧ v.wbase = va ∧ v.nrec = len / (4 * 2 ^ z)
          ∧ v.param = param ∧ v.code = tgt.toNat ∧ v.started = false ∧ t.rootCmds = [{ c with taken := true, left := 1 }])))
    ∧ (∀ off, c.op = .bmac off →
      let b := readBytes s (.win c.by_.team off) (32 + 32 * fieldB (readBytes s (.win c.by_.team off) 32) 9 1)
      let nr := fieldB b 9 1
      let check := fun (j : Nat) => bmacCheck s c.by_.fn b j
      let refused := fun (why : Nat) => ∃ t, exec (.bmacTake c.id) s = .next t ∧ t.rootCmds = [] ∧ t.units = s.units
        ∧ readWord t (.win c.by_.team (off + 0x0C)) = BitVec.ofNat 32 (2 + 4 * why)
      (bmacFieldsOk b tm.winSize = false → refused 1)
      ∧ (bmacFieldsOk b tm.winSize = true → ∀ why ∈ [4, 3, 2, 5], (∃ j < nr, check j = .inl why) →
          (∀ x ∈ [4, 3, 2, 5].takeWhile (· ≠ why), ∀ j < nr, check j ≠ .inl x) → refused why)
      ∧ (bmacFieldsOk b tm.winSize = true → (∀ j < nr, ∃ x, check j = .inr x) → ∃ t, exec (.bmacTake c.id) s = .next t
          ∧ t.mem = s.mem ∧ t.rootCmds = [{ c with taken := true, left := nr, k := fieldB b 4 2, xf := fieldB b 6 1
                                                   wf := fieldB b 7 1, mode := fieldB b 8 1
                                                   x := (List.range (fieldB b 4 2)).map fun i =>
                                                     let z := if fieldB b 6 1 = 0 then 4 else 2
                                                     BitVec.ofNat 32 (leNat (readBytes s (.win c.by_.team (fieldB b 0 4 + i * z)) z)) }]
          ∧ ∀ q, (t.unit q).invs = (s.unit q).invs ∧ (t.unit q).bmacs = (s.unit q).bmacs ++ (List.range nr).filterMap fun j =>
              let o := 32 + 32 * j
              match check j with
              | .inr (p, frames) => if p = q then some { cmd := c.id, idx := j, off := off, wpages := frames, w := fieldB b o 8
                                                         rows := fieldB b (o + 8) 4, stride := fieldB b (o + 12) 4
                                                         y := fieldB b (o + 16) 8 } else none
              | .inl _ => none))

/-- R186, R187, R271, R272: a group of up to 32 rows of a unit's `bmac` entry, whose output pages do not move: each output is
the sum over k of the products, rounded to FP32 after each, from 0 or from its old value; a row that meets an uncorrectable
error is poisoned. Every row is read before an output is written (log 88), and one record names the first row of a group that
met an error, another the first output that could not be written (log 45). The entry moves on by its rows; after its last
rows it leaves its unit, and with the last entry the command retires on CP, with its status in its block: 0 when every
output is complete. -/
def Claim.BmacRows : Prop :=
  ∀ (s : State) (q off : Nat) (e : BmacEnt) (c : Machine.RootCmd) (errs : List Nat) (tm : Team) (w : Wave) (ln : Launch),
    s.rootCmds = [c] → (s.unit q).bmacs = [e] → (s.unit q).invs = [] → e.cmd = c.id → c.op = .bmac off → c.by_.held s = false →
    e.wait = none → (∀ x ∈ s.savedRoots, x.unit = q → x.by_.fn = c.by_.fn → x.begun = false) →
    s.team? c.by_.team = some tm → tm.waves[c.by_.wave]? = some w → s.launch? c.by_.launch = some ln → e.next < e.rows →
    let n := min 32 (e.rows - e.next)
    let va := fun (i : Nat) => e.y + 4 * i
    (∀ p ∈ pagesOf (va e.next) (4 * n), p ∉ e.lost → ∀ x, findVa s c.by_.fn (65536 * p) ≠ .away x) →
    let rows := (List.range n).map (e.next + ·)
    let bad := fun (i : Nat) => rowErrors s c e errs i
    let lost := fun (i : Nat) => outputFault s c.by_.fn e (va i)
    let last := e.rows ≤ e.next + 32
    ∃ t, exec (.bmacRowGroup q errs) s = .next t ∧ (∀ p, p ≠ q → t.unit p = s.unit p)
      ∧ (¬ last → (t.unit q).bmacs = [{ e with chosen := true, next := e.next + 32 }])
      ∧ (last → (t.unit q).bmacs = [])
      ∧ (last → 1 < c.left → ∃ c', t.rootCmds = [c'] ∧ c'.left = c.left - 1 ∧ c'.id = c.id)
      ∧ (last → c.left = 1 → t.rootCmds = [] ∧ (∃ w', t.wave? ⟨c.by_.team, c.by_.wave⟩ = some w'
            ∧ w'.cp = (w.cp.map fun x => if x.1 = c.id then (c.id, true) else x).dropWhile (·.2))
          ∧ (Memory.wf tm.win = true → (∀ i ∈ rows, bad i = [] ∧ ∀ d, lost i ≠ some (0x0D, d)) → c.fails = [] →
              c.partialRun = false → readWord t (.win c.by_.team (off + 0x0C)) = 0))
      ∧ (∀ l, readLoc t l = readLoc ((rows.filter fun i => (lost i).isNone).foldl (fun s' i =>
            outputWrite s' c.by_.fn (va i) (if bad i = [] then bmacRow s c e i else 0x7FC00E0E)) s) l
          ∨ (∃ a, l = .host a) ∨ ∃ j < 4, l = .win c.by_.team (off + 0x0C + j))
      ∧ (∀ i x, rows.find? (fun i => (bad i).any (·.2.1.isSome)) = some i → (bad i).find? (·.2.1.isSome) = some x →
          (∀ i ∈ rows, lost i = none) → RingRoom s c.by_.fn →
          Recorded s t c.by_.fn (workRec c.by_ w ln 0x10 (7 + 256 * q) x.1 i))
      ∧ (∀ i x, rows.find? (fun i => (lost i).isSome) = some i → lost i = some x → (∀ i ∈ rows, bad i = []) → RingRoom s c.by_.fn →
          Recorded s t c.by_.fn (workRec c.by_ w ln x.1 (7 + 256 * q) x.2 i))

/-- R186, R271: a group of rows whose outputs lie on a page that is valid and away waits for that page's migration, which it
starts for its unit when the page is not moving yet; nothing is read or written. -/
def Claim.BmacWaits : Prop :=
  ∀ (s : State) (q off p y : Nat) (leaf : DWord) (e : BmacEnt) (c : Machine.RootCmd) (errs : List Nat),
    s.rootCmds = [c] → (s.unit q).bmacs = [e] → (s.unit q).invs = [] → e.cmd = c.id → c.op = .bmac off → c.by_.held s = false →
    e.wait = none → (∀ x ∈ s.savedRoots, x.unit = q → x.by_.fn = c.by_.fn → x.begun = false) → e.next < e.rows →
    pagesOf (e.y + 4 * e.next) (4 * min 32 (e.rows - e.next)) = [p] → p ∉ e.lost → findVa s c.by_.fn (65536 * p) = .away p →
    walk s c.by_.fn p = some (y, leaf) → leafMig leaf = false →
    ∃ t mg, exec (.bmacRowGroup q errs) s = .next t ∧ (t.unit q).bmacs = [{ e with chosen := true, wait := some p }]
      ∧ t.migrations = s.migrations ++ [mg] ∧ mg.fn = c.by_.fn ∧ mg.page = p ∧ mg.up = true ∧ mg.leafAt = y
      ∧ t.teams = s.teams ∧ t.rootCmds = s.rootCmds

/-! ### Save mode and the system instructions (20_save_restore_and_live_migration, 21_faults_and_contexts) -/

/-- R318, R320, R328, for a wave in save mode whose block the function may write. `went.st` sends the wave's image, and
from wave 0 the team's parts too, out as one store counted on ST; `went.ld` reads the image back into what is held for the
wave, counted on LD, and from wave 0 the activation tables and full/empty bits; both write the address of the scratchpad
image. `sv.end` takes the wave off the core; `sv.end.res` ends its restore, or lets a wave that was being saved go on from
what was latched (the last is the model's reading, log 18). That `went.ld` only latches, and that a wave whose restore has
ended resumes with its team, is log 49; that a save's stores are written directly is log 50. -/
def Claim.SaveMode : Prop :=
  ∀ (h : Head) (sd : UReg) (s : State) (i : Issue) (r : WaveRef) (m : Mask) (w : Wave) (tm : Team),
    OnePart s i r m w tm → AllInMode .save h i s →
    let c := mkCtx (some r) 0 w.regs m h
    c.e ≠ 0 →
    let y := teamLayout s tm
    let sp := w.regs.setPair sd.toNat (BitVec.ofNat 64 (tm.block + y.sp))
    (firstUnmapped s tm.fn tm.block y.size true = none → w.st.length < 63 →
      let parts := wentParts s r tm w
      let s1 := parts.foldl (fun s x => (pagesOf x.1 x.2.length).foldl (fun s p => setDirty s tm.fn p) s) s
      ∃ t w' p, exec (.wentSt h sd) s = .next t ∧ t.wave? r = some w' ∧ w'.regs = sp
        ∧ w'.st = w.st ++ [(s.nextId, false)] ∧ w'.stores = w.stores ++ [p] ∧ p.id = s.nextId ∧ p.direct = true
        ∧ p.elems = piecesAt s1 tm.fn parts ∧ t.mem = s1.mem ∧ t.hostMem = s1.hostMem)
    ∧ (firstUnmapped s tm.fn tm.block y.size true = none → w.ld.length < 63 → w.loads = [] → w.stores = [] →
      ∃ t w' tm', exec (.wentLd h sd) s = .next t ∧ t.wave? r = some w' ∧ t.team? r.team = some tm' ∧ w'.regs = sp
        ∧ w'.ld = w.ld ++ [(s.nextId, false)]
        ∧ w'.latch = restoreLatch (s.entryOf r) (readVa s tm.fn (tm.block + y.wave r.wave) y.per) w.regs w.latch
        ∧ tm'.act = (if r.wave = 0 then (restoreParts s tm).act else tm.act)
        ∧ tm'.fe = (if r.wave = 0 then (restoreParts s tm).fe else tm.fe) ∧ t.mem = s.mem ∧ t.hostMem = s.hostMem)
    ∧ (∃ t w', exec (.svEnd h) s = .next t ∧ t.wave? r = some w' ∧ t.mem = s.mem
        ∧ w' = { w with lanes := w'.lanes, save := .saved, entry := none })
    ∧ (w.save = .restoring → ∃ t w', exec (.svEndRes h) s = .next t ∧ t.wave? r = some w'
        ∧ w' = { w with lanes := w'.lanes, save := .restored })
    ∧ (∀ b, w.save = .saving b → w.allEnded = false → ∃ t, exec (.svEndRes h) s = .next t
        ∧ t.wave? r = some { w with regs := w.latch.regs, lanes := w.latch.lanes, save := .no, latch := {} })

/-- R73, R301, R328, and R271's pools, at a function number the form takes. `dtab.ld` answers 0xC0000001 while the context
has work, 0xC0000002 for a map that cannot be read, 0x80000000 plus the lowest slot that is not legal, and else loads the
map; `tlb.inv` drops the translations and replies once the accesses that use them are performed; `dirty.snap` and its
closing form take the snapshot; `pool.add` adds the listed frames that may be added. The order of the answers of `dtab.ld`
is log 110, and that `tlb.inv` and the snapshots perform the function's accesses at once log 64. -/
def Claim.SystemTables : Prop :=
  ∀ (h : Head) (o : Sys3) (v : TlbInv) (g : PoolAdd) (s : State) (i : Issue) (r : WaveRef) (m : Mask) (w : Wave) (tm : Team),
    OnePart s i r m w tm →
    let c := mkCtx (some r) 0 w.regs m h
    c.e ≠ 0 →
    let a := (w.regs.getPair o.sb.toNat).toNat
    let f := (w.regs.getS o.sc.toNat).toNat
    let answers := fun (x : Instr) (d : UReg) (t : State) (n : Word) =>
      exec x s = .next (advance (putRegs t c (w.regs.setS d.toNat n)) i c m)
    let slot := fun (k : Nat) => BitVec.ofNat 64 (fieldB (peekVa s 0 a 8192) (8 * k) 8)
    (s.hasFn f = true → a % 8192 = 0 →
      (fnIdle s f = false → answers (.dtabLd h o) o.rd s 0xC0000001)
      ∧ (fnIdle s f = true → (2 ^ 56 < a + 8192 ∨ (unreadable s 0 a 8192).isSome = true) →
          answers (.dtabLd h o) o.rd s 0xC0000002)
      ∧ (fnIdle s f = true → a + 8192 ≤ 2 ^ 56 → unreadable s 0 a 8192 = none →
          let read := chargeRange s 0 0 a 8192
          (∀ k < 1024, entryLegal (slot k) = false → (∀ j < k, entryLegal (slot j) = true) →
            answers (.dtabLd h o) o.rd read (BitVec.ofNat 32 (0x80000000 + k)))
          ∧ ((∀ k < 1024, entryLegal (slot k) = true) →
            answers (.dtabLd h o) o.rd (read.modFn f fun x => { x with dtab := some ((List.range 1024).map slot) }) 0)))
    ∧ (let fv := (w.regs.getS v.sc.toNat).toNat
       let p := if v.n = 0 then 0 else (w.regs.getPair v.sb.toNat).toNat / 65536
       let n := if v.n = 0 then 2 ^ 40 else v.n.toNat
       let s1 := invalidate s fv p n
       s.hasFn fv = true → exec (.tlbInv h v) s = .next (advance (replyAfter s1 c r fv p n 0 false 0) i c m)
         ∧ (∀ k ∈ s1.cores, ∀ e ∈ k.tlb ++ k.mxTlb ++ k.apTlb, e.meets fv p n = false)
         ∧ (∀ k ∈ s1.groveTlb, ∀ e ∈ k.2, e.meets fv p n = false)
         ∧ s1.mem = s.mem ∧ s1.fns = s.fns)
    ∧ (s.hasFn f = true → f ≠ 0 → a % 65536 = 0 → a + 2 ^ 22 ≤ 2 ^ 56 → (∀ x, (s.fn f).armed = some x → x = a) →
        let snap := dirtySnapshot (performAll s r) f a
        let after := fun (k : Option Nat) (ps : List Nat) => advance (replyAfter (snap.1.modFn f fun x =>
          { x with armed := k, tracked := ps }) c r f (a / 65536) 64 o.rd.toNat true snap.2.1) i c m
        exec (.dirtySnap h o) s = .next (after (some a) snap.2.2) ∧ exec (.dirtySnapFin h o) s = .next (after none []))
    ∧ (let fp := (w.regs.getS g.sc.toNat).toNat
       let ap := (w.regs.getPair g.sb.toNat).toNat
       s.hasFn fp = true → ap + 8 * g.n.toNat ≤ 2 ^ 56 → unreadable s 0 ap (8 * g.n.toNat) = none →
       let read := chargeRange s 0 0 ap (8 * g.n.toNat)
       let pa := fieldB (peekVa s 0 ap (8 * g.n.toNat)) 0 8
       let adds := fun (x : Instr) (cap : Bool) =>
         let q := addFrames s fp ap g.n.toNat cap
         answers x g.rd q.1 q.2
         ∧ (g.n = 1 → poolable s cap pa = true → q = (read.modFn fp fun y =>
             if cap then { y with slow := y.slow ++ [pa] } else { y with fast := y.fast ++ [pa] }, 1))
         ∧ (g.n = 1 → poolable s cap pa = false → q = (read, 0))
       adds (.poolAdd h g) false ∧ adds (.poolAddCap h g) true)

/-- R302, R320, R321, R322, R326, R328, at a virtual function's number. `vf.stop` answers 0x80000004 where the function is
being reset (the model's order, log 89), 0x80000002 where it is stopped or stopping, then 0x80000003 where the record's
space cannot be written, then 0x80000005 where the function cannot be pre-empted; otherwise the function is stopping, its
pre-emption is asked for, and the reply is awaited. `vf.start` runs a stopped function; `vf.pre` asks for a pre-emption on
the stands of its mask; `vf.rst` begins the function's reset, and its wave waits for the end of it; `slice.set` takes a
slice where none waits. The answer for a function that is stopping, and the order of the checks of `slice.set`, are log 54. -/
def Claim.FunctionControl : Prop :=
  ∀ (h : Head) (o : VfStop) (u : U2) (v : VfPre) (sc : UReg) (s : State) (i : Issue) (r : WaveRef) (m : Mask) (w : Wave) (tm : Team),
    OnePart s i r m w tm →
    let c := mkCtx (some r) 0 w.regs m h
    c.e ≠ 0 →
    let fnOf := fun (x : UReg) => (w.regs.getS x.toNat).toNat
    let virtual := fun (f : Nat) => s.hasFn f = true ∧ f ≠ 0
    let answers := fun (x : Instr) (d : UReg) (t : State) (n : Word) =>
      exec x s = .next (advance (putRegs t c (w.regs.setS d.toNat n)) i c m)
    -- the wave awaits its reply, which is the pre-emption's to give
    let asked := fun (x : Instr) (d : UReg) (f : Nat) (mask : BitVec 16) (why : Issuer → StopWhy) (st : FnState) =>
      ∃ t w' b, exec x s = .next t ∧ b.team = r.team ∧ b.wave = r.wave ∧ b.fn = tm.fn ∧ t.wave? r = some w'
        ∧ w' = { w with lanes := w'.lanes, replies := w.replies ++ [{ id := s.nextId, kind := .reg d.toNat false true }] }
        ∧ (t.fn f).state = st ∧ t.mem = s.mem
        ∧ t.collects = s.collects ++ [{ fn := f, why := why b, mask := mask, since := s.cycle }]
    (let f := fnOf o.sc
     let a := (w.regs.getPair o.sb.toNat).toNat
     let stops := (s.fn f).state = .stopped ∨ (s.fn f).state = .stopping
     let noRoom := 2 ^ 56 < a + 65536 * o.nb.toNat ∨ (firstUnmapped s 0 a (65536 * o.nb.toNat) true).isSome = true
     virtual f → a % 256 = 0 →
      ((s.fn f).state = .reset → answers (.vfStop h o) o.rd s 0x80000004)
      ∧ (stops → answers (.vfStop h o) o.rd s 0x80000002)
      ∧ ((s.fn f).state ≠ .reset → ¬ stops → noRoom → answers (.vfStop h o) o.rd s 0x80000003)
      ∧ ((s.fn f).state ≠ .reset → ¬ stops → ¬ noRoom → (s.fn f).preemptible = false → answers (.vfStop h o) o.rd s 0x80000005)
      ∧ ((s.fn f).state ≠ .reset → ¬ stops → ¬ noRoom → (s.fn f).preemptible = true →
          asked (.vfStop h o) o.rd f 0xFFFF (fun b => .vfStop b s.nextId a o.nb.toNat) .stopping))
    ∧ (virtual (fnOf u.sa) →
        ((s.fn (fnOf u.sa)).state ≠ .stopped → answers (.vfStart h u) u.dst s 0x80000001)
        ∧ ((s.fn (fnOf u.sa)).state = .stopped → answers (.vfStart h u) u.dst
            (unfreeze (s.modFn (fnOf u.sa) fun x => { x with state := .run }) (fnOf u.sa)) 0))
    ∧ (let f := fnOf v.sc
       virtual f →
        ((∃ k ∈ s.collects, k.fn = f) → answers (.vfPre h v) v.rd s 0x80000001)
        ∧ ((∀ k ∈ s.collects, k.fn ≠ f) → (s.fn f).preemptible = false → answers (.vfPre h v) v.rd s 0x80000005)
        ∧ ((∀ k ∈ s.collects, k.fn ≠ f) → (s.fn f).preemptible = true →
            asked (.vfPre h v) v.rd f v.m (fun b => .vfPre b s.nextId) (s.fn f).state))
    ∧ (virtual (fnOf sc) → tm.fn ≠ fnOf sc → (∀ k ∈ s.collects, k.fn ≠ fnOf sc) → ∃ t w' o, exec (.vfRst h sc) s = .next t
        ∧ (t.fn (fnOf sc)).state = .reset ∧ t.wave? r = some w'
        ∧ w' = { w with lanes := w'.lanes, replies := w.replies ++ [{ id := s.nextId, kind := .reg 0 false true }] }
        ∧ o ∈ t.sysOps ∧ o.reply = s.nextId ∧ o.resets = some (fnOf sc) ∧ o.by_.team = r.team ∧ o.by_.wave = r.wave)
    ∧ (let a := (w.regs.getPair u.sa.toNat).toNat
       let b := peekVa s 0 a 32
       (s.slice ≠ none → answers (.sliceSet h u) u.dst s 0x80000001)
       ∧ (s.slice = none → a + 32 ≤ 2 ^ 56 → unreadable s 0 a 32 = none →
           let read := chargeRange s 0 0 a 32
           ((fieldB b 0 8 < s.ctime.toNat ∨ fieldB b 8 4 = 0) → answers (.sliceSet h u) u.dst read 0x80000002)
           ∧ (s.ctime.toNat ≤ fieldB b 0 8 → fieldB b 8 4 ≠ 0 → s.hasFn (fieldB b 12 1) = true → fieldB b 13 3 = 0 →
               fieldB b 24 8 = 0 → answers (.sliceSet h u) u.dst (let x : Slice := { start := BitVec.ofNat 64 (fieldB b 0 8), len := BitVec.ofNat 32 (fieldB b 8 4), fn := fieldB b 12 1, at_ := a }
                 { read with slice := some x }) 0)))

/-- R321, R322: a function-level reset begins with the function in RESET: its waves stand where they are and await nothing,
and of its work nothing is left but the units that its engines are within. Once there are none it ends: the function is in
RUN or STOPPED, and nothing of it is left but its records: no team, saved team, launch, command or pre-emption; every other
function's teams, launches and saved teams stay. What the reset keeps, and the state that it ends in, is log 53. -/
def Claim.FunctionReset : Prop :=
  ∀ (s : State) (f : Nat), s.hasFn f = true →
    (s.recovery = false → (s.fn f).state ≠ .reset →
      let t := beginReset s f
      exec (.functionLevelReset f) s = .next t ∧ (t.fn f).state = .reset
      ∧ (∀ x ∈ t.teams, x.fn = f → ∀ w ∈ x.waves, w.loads = [] ∧ w.stores = [] ∧ w.facts = [] ∧ w.replies = [] ∧ w.naps = [])
      ∧ (∀ x ∈ t.saved, x.team.fn ≠ f) ∧ (∀ x ∈ t.collects, x.fn ≠ f) ∧ (∀ x ∈ t.bagCmds, x.by_.fn ≠ f)
      ∧ (∀ x ∈ t.migrations, x.fn ≠ f) ∧ (∀ u ∈ t.units, ∀ v ∈ u.invs, v.fn = f → v.started = true ∧ v.bound = true)
      ∧ (∀ k ∈ t.cores, ∀ x ∈ k.matrix, x.by_.fn = f → x.midUnit = true)
      ∧ (∀ k ∈ t.cores, ∀ x ∈ k.access, x.by_.fn = f → x.midUnit = true)
      ∧ (∀ g, g ≠ f → t.fn g = s.fn g) ∧ t.fns.map (·.id) = s.fns.map (·.id))
    ∧ ((s.fn f).state = .reset → (s.fns.map (·.id)).Nodup → (∀ g, g ≠ f → (s.fn g).state ≠ .reset) →
      (∀ u ∈ s.units, ∀ v ∈ u.invs, v.fn = f → v.started = false ∨ v.bound = false ∨ v.wait.isSome = true) →
      (∀ k ∈ s.cores, (∀ x ∈ k.matrix, x.by_.fn = f → x.midUnit = false) ∧ ∀ x ∈ k.access, x.by_.fn = f → x.midUnit = false) →
      finishResets s = resetFunction s f)
    ∧ (let t := resetFunction s f
      (∀ x ∈ t.teams, x.fn ≠ f) ∧ (∀ x ∈ t.saved, x.team.fn ≠ f) ∧ (∀ x ∈ t.launches, x.fn ≠ f)
      ∧ (∀ x ∈ t.collects, x.fn ≠ f) ∧ (∀ x ∈ t.bagCmds, x.by_.fn ≠ f) ∧ (∀ x ∈ t.rootCmds, x.by_.fn ≠ f)
      ∧ (∀ x ∈ t.migrations, x.fn ≠ f) ∧ (∀ x ∈ t.charges, x.fn ≠ f)
      ∧ (∀ k ∈ t.cores, ∀ x ∈ k.tlb ++ k.mxTlb ++ k.apTlb, x.page < 2 ^ 40 → x.fn ≠ f)
      ∧ (t.fn f).bags = [] ∧ (t.fn f).dtab = none ∧ (t.fn f).events = 0 ∧ (t.fn f).troot = (s.fn f).troot
      ∧ ((t.fn f).state = .run ∨ (t.fn f).state = .stopped)
      ∧ (t.teams.map (·.id) = (s.teams.filter fun x => x.fn != f).map (·.id))
      ∧ t.launches = (s.launches.filter fun x => x.fn != f) ∧ t.fns.map (·.id) = s.fns.map (·.id))

/-! ### Launches, tasks and teams (02_launch_and_tasks, 03_registers_and_residency) -/

/-- R306 to R308, R330: the launch scheduler serves the functions in round robin, and takes from the one whose turn it is the
head record of the highest level that has one, as the function's next launch. A record that passes its checks becomes a launch; one that fails a check completes with status 2, by an entry on the
completion ring or held while the ring is full. While an entry is held, no record is taken. -/
def Claim.RecordTakes : Prop :=
  ∀ (s : State) (f k : Nat) (b : List Byte), launchTurn s = some f → k < 8 → headRecord s f k = some b →
    (∀ j, k < j → j < 8 → headRecord s f j = none) →
    let no := (s.fn f).launchNo
    let q := (s.fn f).compl
    ∃ t, exec (.launchRecordTake f) s = .next t
      ∧ (t.fn f).launchNo = no + 1 ∧ t.mem = s.mem ∧ t.served = some f
      ∧ (t.fn f).queues = (s.fn f).queues.modify k (fun x => { x with cons := x.cons + 1 })
      ∧ (∀ l, checkedLaunch s f k b = some l → t.launches = s.launches ++ [l] ∧ t.hostMem = s.hostMem
          ∧ l.number = no ∧ l.fn = f ∧ l.level = k ∧ l.tasks = [] ∧ l.nt = fieldB b 8 3)
      ∧ (checkedLaunch s f k b = none → t.launches = s.launches
          ∧ (q.full = true → (t.fn f).heldCompl = [{ launch := no, status := 2, count := 0 }] ∧ t.hostMem = s.hostMem)
          ∧ (q.full = false → (t.fn f).heldCompl = [] ∧ (t.fn f).compl = { q with prod := q.prod + 1 } ∧ (t.fn f).msix0 = true
              ∧ t.hostMem = (writeBytes s (.host (q.slot q.prod 16))
                  (leBytes 4 no.toNat ++ leBytes 2 2 ++ List.replicate 10 0)).hostMem))
      ∧ (∀ g n, s.served = some n → s.fns.map (·.id) = (s.fns.map (·.id)).mergeSort → n < g → g < f → s.hasFn g = true →
          nextRecord s g = none)
      ∧ ∀ (u : State), ((u.fn f).heldCompl ≠ [] ∨ launchTurn u ≠ some f) → exec (.launchRecordTake f) u = .next u

/-- R34, R96, R309: a task that has no tile declarations is ready once every predecessor is done, and the accesses that come
before its post are performed; until then it waits. An initial task of a launch without declarations has the launch's
parameters and no predecessors. A declared region that is not mapped, or whose migration has failed, ends the task before it
starts; one that is away is moved, and the task waits. -/
def Claim.TaskStarts : Prop :=
  ∀ (s : State) (l : Launch) (i : Nat), s.launch? l.id = some l → dispatches s l.fn = true →
    (l.task? i = none → i < l.nt → l.decl = 0 → ∃ t l', exec (.taskStart l.id i) s = .next t ∧ t.launch? l.id = some l'
      ∧ l'.task? i = some { index := i, params := l.params, phase := .ready } ∧ t.mem = s.mem ∧ t.teams = s.teams)
    ∧ ∀ tk : Task, l.task? i = some tk → tk.phase = .waiting →
      let ends := fun (x : Task) => ∃ t l', exec (.taskStart l.id i) s = .next t ∧ t.launch? l.id = some l' ∧ l'.task? i = some x
      let may := (∀ p ∈ tk.preds, predDone s l p = true) ∧ tk.after ≤ l.released
      (tk.wait = none → tk.lost = false → tk.tiles = [] → ((¬ may → ends tk) ∧ (may → ends { tk with phase := .ready, pinned := [] })))
      ∧ (may → tk.preds = [] → ∀ a, (tk.wait = none ∨ tk.lost = true) →
          ((tk.lost = true ∧ tk.wait = some a) ∨ (tk.lost = false ∧ tk.tiles.findSome? (tileFault s l) = some a)) →
          ends { tk with phase := .done, pinned := [], wait := none, lost := false })
      ∧ (may → tk.preds = [] → ∀ p, tk.wait = none → tk.lost = false → tk.tiles.findSome? (tileFault s l) = none →
          (taskPages tk).find? (fun p => match findVa s l.fn (65536 * p) with
            | .at_ .. => false
            | _ => true) = some p → ends { tk with wait := some p })

/-- R11 to R15, R34: a ready task that may be admitted, first of its function's and chosen among the functions that wait,
becomes teams on distinct cores of one grove from `core` up, of TW waves each at the kernel's entry, and runs. -/
def Claim.TeamAdmissions : Prop :=
  ∀ (s : State) (l : Launch) (tk : Task) (core : Nat), s.launch? l.id = some l → l.task? tk.index = some tk →
    canAdmit s l tk core = true →
    (∀ m ∈ s.launches, m.fn = l.fn → ∀ u ∈ m.tasks, picksBefore (m, u) (l, tk) = true → canAdmit s m u core = false) →
    l.fn ∈ choosable s (.admission core) (waitingFns s core) →
    ∃ t l' new cores, exec (.teamAdmit l.id tk.index core) s = .next t ∧ t.launch? l.id = some l'
      ∧ l'.task? tk.index = some { tk with phase := .running }
      ∧ admitCores s l core = some cores ∧ cores.head? = some core ∧ cores.Nodup ∧ (∀ k ∈ cores, k / 16 = core / 16)
      ∧ new = t.teams.drop s.teams.length ∧ new.length = l.teamsOf ∧ new.map (·.core) = cores
      ∧ ∀ x ∈ new, x.fn = l.fn ∧ x.launch = l.id ∧ x.task = tk.index ∧ x.done = false ∧ x.winSize = windowBytes s l
        ∧ x.waves.length = l.tw
        ∧ ∀ y ∈ x.waves, y.lanes = List.replicate l.width { pc := l.entry, anchor := l.entry } ∧ y.regs.width = l.width

/-- R38, R49 to R51: the wave that has held its entry longest, of those that R50 lets go, gives it up with the registers that
its headers declare live; the first wave that waits gets an entry when one is free and its registers fit. Of waves that
became able to run in one cycle, which is the first is log 109. -/
def Claim.Swapping : Prop :=
  ∀ (s : State) (r : WaveRef) (w : Wave), s.wave? r = some w →
    (swappable s r w = true →
      (∀ x ∈ slotRefs s (s.coreOf r) w.slot, swappable s x.1 x.2 = true → w.held ≤ x.2.held) →
      ∃ t w', exec (.swapOut r) s = .next t ∧ t.wave? r = some w' ∧ t.mem = s.mem
        ∧ w' = { w with regs := (w.keepLive s (s.fnOf r)).regs, entry := none, naps := [], ready := w'.ready }
        ∧ (∀ x ∈ w.lanes, x.ended = false → let b := x.standing s (s.fnOf r)
            (∀ n < b.liveV, w'.regs.v[n]? = w.regs.v[n]?) ∧ (∀ n < b.liveS, w'.regs.s[n]? = w.regs.s[n]?)
              ∧ ∀ n < b.liveP, w'.regs.p[n]? = w.regs.p[n]?)
        ∧ (∀ n, w.regs.wmS.getLsbD n = true → w'.regs.s[n]? = w.regs.s[n]?)
        ∧ ∀ n < w.regs.s.length, w.regs.wmS.getLsbD n = false →
            (∀ x ∈ w.lanes, x.ended = false → (x.standing s (s.fnOf r)).liveS ≤ n) → w'.regs.s[n]? = some 0)
    ∧ ∀ core slot rest e more, swapInOrder s core slot = (r, w) :: rest →
      let l := ((s.team? r.team).map (launchOfTeam s)).getD {}
      let f := s.fnOf r
      freeEntries s f core slot = e :: more → drawn s f core .rf + l.footprint ≤ ownBytes s f .rf l.pool →
      ∃ t w', exec (.swapIn core slot) s = .next t ∧ t.wave? r = some w' ∧ t.mem = s.mem
        ∧ w' = { w with slot := slot, entry := some e, group := w'.group, base := w'.base, held := s.cycle, ready := 0 }

/-- R37, R298, R316, R329: a launch whose tasks are done and of which nothing is outstanding but accesses that leave no effect
to await performs what its teams have left outstanding, and leaves the device, its teams with it; its completion entry has status 0 when it left no error record, 1 when it did, and their number. R299, R325: the teams of
a deterministic launch are released one after another in the order of their tasks. -/
def Claim.LaunchEnds : Prop :=
  ∀ (s : State) (l : Launch), s.launch? l.id = some l →
    (launchDone s l = true → s.hasFn l.fn = true → (s.fn l.fn).state ≠ .reset →
      let u := (s.teams.filter fun x => x.launch == l.id).foldl flushTeam s
      let q := (u.fn l.fn).compl
      let n := ((u.launch? l.id).map (·.records)).getD 0
      let c : Compl := { launch := l.number, status := if n = 0 then 0 else 1, count := min n 65535 }
      ∃ t, exec (.launchComplete l.id) s = .next t ∧ t.mem = u.mem ∧ (∀ x ∈ t.teams, x.launch ≠ l.id) ∧ (∀ x ∈ t.launches, x.id ≠ l.id)
        ∧ (∀ x, x.launch ≠ l.id → (x ∈ u.teams ↔ x ∈ t.teams))
        ∧ ((∀ x ∈ s.teams, x.launch = l.id → ∀ w ∈ x.waves, w.loads = [] ∧ w.stores = []) → u = s)
        ∧ (((u.fn l.fn).heldCompl ≠ [] ∨ q.full = true) →
            (t.fn l.fn).heldCompl = (u.fn l.fn).heldCompl ++ [c] ∧ t.hostMem = u.hostMem)
        ∧ ((u.fn l.fn).heldCompl = [] → q.full = false → (t.fn l.fn).compl = { q with prod := q.prod + 1 }
            ∧ (t.fn l.fn).msix0 = true ∧ t.hostMem = (writeBytes u (.host (q.slot q.prod 16)) c.bytes).hostMem))
    ∧ ∀ tm : Team, l.det = true → (s.fn l.fn).frozen = false →
      s.teams.find? (fun x => x.launch == l.id && l.ordinal x == l.released) = some tm → tm.done = true →
      noWork s (fun b => b.team == tm.id) = true →
      ∃ t l', exec (.ringUnitRelease l.id) s = .next t ∧ t.launch? l.id = some l' ∧ l'.released = l.released + 1
        ∧ (s.teams = [tm] → tm.waves = [] → tm.failed = false → ∀ v a n o loc b,
            tm.staged = [.store v a n o { loc := loc, val := .bytes b }] → StElem.fails s [{ loc := loc, val := .bytes b }] { loc := loc, val := .bytes b } = false →
            (loc.mayFail && Config.writeFails s.turns loc.addr) = false → t.mem = (writeBytes s loc b).mem ∧ t.hostMem = (writeBytes s loc b).hostMem)

/-! ### Meters and quotas (16_sapflow_metering) -/

/-- R251, R253, R254: a charge that is posted enters its function's accumulator; writes of Q and SCTL act as the registers'
fields say, and not for the physical function. -/
def Claim.MeterPosts : Prop :=
  ∀ (s : State) (k f : Nat) (c : Charge) (v : DWord),
    (s.charges[k]? = some c → s.hasFn c.fn = true → ∃ t, exec (.chargePost k) s = .next t
      ∧ t.charges = s.charges.eraseIdx k ∧ (t.fn c.fn).events = ((s.fn c.fn).events + c.fj) % (2 ^ 64 * 1000000)
      ∧ (t.fn c.fn).period = (s.fn c.fn).period + c.fj ∧ t.mem = s.mem ∧ t.teams = s.teams
      ∧ ∀ g, g ≠ c.fn → t.fn g = s.fn g)
    ∧ (exec (.sqWrite 0 v) s = .next s) ∧ (exec (.sctlWrite 0 v) s = .next s)
    ∧ (f ≠ 0 → s.hasFn f = true → s.recovery = false → ∃ t u, exec (.sqWrite f v) s = .next t ∧ exec (.sctlWrite f v) s = .next u
      ∧ t.fn f = { s.fn f with qWrite := some v }
      ∧ u.fn f = { s.fn f with en := v.getLsbD 0, irq := v.getLsbD 2, rls := if (s.fn f).exh then v.getLsbD 3 else (s.fn f).rls }
      ∧ ∀ g, g ≠ f → t.fn g = s.fn g ∧ u.fn g = s.fn g)

/-- R252, R253: at the end of a period a virtual function with metering enabled pays the whole microjoules that its events
and shares come to with its carry, and is refilled up to its cap; at or below zero it is exhausted, and RLS releases it
above. A written Q takes its place first. The physical function has no quota. R343: the life that a wear register shows as
consumed ends at 1,000, and its reserved bits are zero. The energy that a period splits is open (log 3), and so is the life
that it consumes (log 92). That a written Q takes effect at the next update while EN is 0 too is log 55. -/
def Claim.QuotaUpdates : Prop :=
  ∀ (s : State) (f : Nat), s.hasFn f = true →
    let x := s.fn f
    let share := shareOf (periodShares (s.passTo ((s.periods + 1) * Config.periodCycles))) f
    let q0 := x.qWrite.getD x.q
    let due := (if x.qWrite.isSome then 0 else x.carry) + x.period + share
    let q : Int := min x.cap.toNat (q0.toInt - (due / 10 ^ 9 : Nat) + x.refill.toNat)
    ∃ t, exec .periodEnd s = .next t ∧ t.periods = s.periods + 1 ∧ t.cycle = max s.cycle ((s.periods + 1) * Config.periodCycles)
      ∧ t.mem = s.mem ∧ (t.fn f).period = 0 ∧ (t.fn f).shares = (x.shares + share) % (2 ^ 64 * 1000000)
      ∧ (t.fn f).events = x.events ∧ (t.fn f).qWrite = none
      ∧ ((f = 0 ∨ x.en = false) → (t.fn f).q = q0 ∧ (t.fn f).exh = x.exh)
      ∧ (f ≠ 0 → x.en = true → (t.fn f).q = BitVec.ofInt 64 q ∧ (t.fn f).carry = due % 10 ^ 9
          ∧ (t.fn f).exh = (if q ≤ 0 then true else if x.rls then false else x.exh))
      ∧ t.wear.length = s.wear.length ∧ ∀ y ∈ t.wear, bits y.toNat 9 0 ≤ 1000 ∧ bits y.toNat 31 10 = 0

/-! ### Pre-emption (21_faults_and_contexts) -/

/-- R317 to R320: the collector begins a function's pre-emption when its save area can be written and is resident; where it
may not be written, the function is reset with cause 8. The teams that have a slot, on the pre-emption's stands, are
taken; a page of the area that is away is moved first. -/
def Claim.PreemptBegins : Prop :=
  ∀ (s : State) (c : Collect), s.collects = [c] → c.begun = false → c.lost = false → c.wait = none →
    (∀ ps, areaOf s c.fn (saveRanges s c) = .ready ps → s.hasFn c.fn = true → ∃ t c', exec (.preemptRequest c.fn) s = .next t
      ∧ t.collects = [c'] ∧ c'.begun = true ∧ c'.teams = (collectTeams s c).map (·.id) ∧ c'.pins = ps ∧ c'.since = c.since
      ∧ (c.wide = true → (t.fn c.fn).frozen = true) ∧ ∀ x ∈ t.teams, x.id ∈ c'.teams → x.stop = true)
    ∧ (∀ p, areaOf s c.fn (saveRanges s c) = .away p → ∃ t, exec (.preemptRequest c.fn) s = .next t
      ∧ t.collects = [{ c with wait := some p }] ∧ t.teams = s.teams)
    ∧ (∀ p, areaOf s c.fn (saveRanges s c) = .bad p → exec (.preemptRequest c.fn) s = .next (saveFailure s c.fn p 8))

/-- R23, R320: a reconverged wave of the set, with nothing awaited, enters save mode at SVS: its registers are held as they
stand, with the write mask that passing the header has cleared, for the header is not consumed, and its lanes that have not
ended are at the handler's header. 22,000 cycles after the request a wave is forced, wherever it stands. That a header just
passed counts as not consumed is log 81. -/
def Claim.SaveModeEntries : Prop :=
  ∀ (s : State) (r : WaveRef) (w : Wave) (tm : Team) (c : Collect), s.wave? r = some w → s.team? r.team = some tm →
    w.save = .no → settledWave s r w = true →
    let entered := fun (t : State) (b : Bool) => ∃ w', t.wave? r = some w' ∧ w'.save = .saving b ∧ w'.regs = w.regs
      ∧ w'.latch.regs = (if b then w.regs else match w.cleared with
        | some (v, u, p) => { w.regs with wmV := w.regs.wmV ||| v, wmS := w.regs.wmS ||| u, wmP := w.regs.wmP ||| p }
        | none => w.regs) ∧ w'.naps = [] ∧ w'.lanes.length = w.lanes.length
      ∧ ∀ (k : Nat) (l : Lane), w.lanes[k]? = some l → w'.lanes[k]? = some (if l.ended then l else
          ({ pc := tm.ctx.svs, anchor := tm.ctx.svs, run := .runnable, mode := .save, teamArr := l.teamArr, gangArr := l.gangArr } : Lane))
    (collectOf s r.team = some c → (reconverged s tm.fn w).isSome = true →
      ∃ t, exec (.saveModeEntry r) s = .next t ∧ entered t false ∧ t.mem = s.mem)
    ∧ (s.collects = [c] → c.begun = true → s.teams = [tm] → tm.done = false → tm.waves = [w] → r.wave = 0 → w.allEnded = false →
      c.teams = [tm.id] → ∃ t, exec (.forcedSaveTimeout c.fn) s = .next t ∧ entered t true ∧ t.mem = s.mem
        ∧ t.collects = [{ c with forced := true }] ∧ t.cycle = max s.cycle (c.since + Config.forceCycles))

/-- R192, R304, R320: an engine that holds no work of a pre-emption acknowledges its stop; an access processor that holds a
command of a team that is being saved records it, the command leaves, and its count on CP is released. -/
def Claim.EngineStops : Prop :=
  ∀ (s : State) (c : Collect) (e : EngineRef), s.collects = [c] → c.begun = true →
    (e ∈ c.acks → (∀ k ∈ s.cores, k.matrix = [] ∧ k.access = []) → s.units = [] →
      ∃ t, exec (.engineStopAck e) s = .next t ∧ t.mem = s.mem ∧ t.collects = [{ c with acks := c.acks.filter (· != e) }])
    ∧ ∀ (k : Core) (x : ApCmd) (tm : Team) (w : Wave), s.cores = [k] → k.access = [x] → s.teams = [tm] → tm.waves = [w] →
      tm.done = false → x.by_.team = tm.id → x.by_.wave = 0 → c.teams = [tm.id] → x.midUnit = false →
      ∃ t c' w', exec (.engineStopAck (.access k.id)) s = .next t ∧ t.collects = [c'] ∧ (t.core k.id).access = []
        ∧ c'.work = c.work ++ [.access k.id x.halt] ∧ c'.acks = c.acks.filter (· != .access k.id)
        ∧ t.wave? ⟨tm.id, 0⟩ = some w' ∧ ∀ y ∈ w'.cp, y.1 ≠ x.id

/-- R318, R320: a saved team that may be admitted again, and whose block is resident, stands on the core again, and its waves
that had not ended run the restore handler from SVR in save mode. -/
def Claim.TeamRestores : Prop :=
  ∀ (s : State) (v : Saved) (core : Nat) (ps : List Nat), s.saved = [v] → v.restoring = false → v.lost = false → v.wait = none →
    restoreCores s v core = some [core] → v.team.fn ∈ choosable s (.admission core) (waitingFns s core) →
    areaOf s v.team.fn (restoreRanges s [v]) = .ready ps → (∀ x ∈ s.teams, x.id ≠ v.team.id) →
    ∃ t tm, exec (.teamRestore v.team.id core) s = .next t ∧ t.mem = s.mem ∧ t.team? v.team.id = some tm ∧ tm.core = core
      ∧ tm.ctx = v.team.ctx ∧ tm.waves.length = v.team.waves.length ∧ (∀ x ∈ t.saved, x.restoring = true)
      ∧ ∀ (k : Nat) (w : Wave), v.team.waves[k]? = some w → w.allEnded = false → ∃ w' : Wave, tm.waves[k]? = some w' ∧ w'.save = .restoring
        ∧ w'.latch = w.latch ∧ w'.lanes = w.lanes.map fun l => if l.ended then l else
          ({ pc := v.team.ctx.svr, anchor := v.team.ctx.svr, run := .runnable, mode := .save, teamArr := l.teamArr
             gangArr := l.gangArr } : Lane)

/-- R326: at START every other function that can be pre-empted is asked to leave; at START + LEN the slice is over, and its
function is asked to leave. That the physical function is among those asked to leave is log 63. -/
def Claim.SliceTimes : Prop :=
  ∀ (s : State) (x : Slice), s.slice = some x →
    (x.active = false → ∃ t, exec .sliceStart s = .next t ∧ t.slice = some { x with active := true }
      ∧ t.ctime = (if s.ctime ≤ x.start then x.start else s.ctime) ∧ t.mem = s.mem ∧ t.teams = s.teams
      ∧ t.collects = s.collects ++ (s.fns.filter fun f => f.id != x.fn && f.preemptible).map fun f =>
          ({ fn := f.id, why := .slice, mask := 0xFFFF, since := t.cycle } : Collect))
    ∧ (x.active = true → ∃ t, exec .sliceEnd s = .next t ∧ t.slice = none ∧ t.mem = s.mem
      ∧ t.ctime = (if s.ctime.toNat ≤ x.start.toNat + x.len.toNat then x.start + x.len.setWidth 64 else s.ctime)
      ∧ ((s.fn x.fn).preemptible = true → ∃ c ∈ t.collects, c.fn = x.fn ∧ c.why = .slice ∧ c.since = t.cycle))

/-! ### The host's registers, links and services (22_host_links_and_service) -/

/-- R254, R306, R310, R317, R329, R333: a write of a register stores its writable fields and changes no other function; the
quota registers of the physical function take no write; CALIDX and the nonce are the module's. -/
def Claim.HostRegisters : Prop :=
  ∀ (s : State) (f : Nat) (v : DWord), s.hasFn f = true → s.recovery = false →
    let x := s.fn f
    let stores := fun (r : PlainReg) (y : Fn) => ∃ t, exec (.registerWrite f r v) s = .next t ∧ t.fn f = y ∧ t.mem = s.mem
      ∧ t.teams = s.teams ∧ ∀ g, g ≠ f → t.fn g = s.fn g
    let q := fun (k : BitVec 3) (g : Ring → Ring) => ({ x with queues := x.queues.modify k.toNat g } : Fn)
    (∀ k, stores (.queueBase k) (q k fun y => { y with base := v }) ∧ stores (.queueSize k) (q k fun y => { y with size := v }))
    ∧ stores .complBase { x with compl := { x.compl with base := v } } ∧ stores .complSize { x with compl := { x.compl with size := v } }
    ∧ stores .errBase { x with err := { x.err with base := v } } ∧ stores .errSize { x with err := { x.err with size := v } }
    ∧ stores .errConsumer { x with err := { x.err with cons := v.setWidth 32 } }
    ∧ stores .hwBase { x with hwBase := v } ∧ stores .hwSize { x with hwSize := v }
    ∧ stores .tenancy0 { x with sten0 := v &&& 0xFFFFFFFFFFF807FF } ∧ stores .tenancy1 { x with sten1 := v &&& 0x00000FFFFFFFFFFF }
    ∧ stores .troot { x with troot := v } ∧ stores .save { x with save := v } ∧ stores .saveLen { x with saveLen := v }
    ∧ stores .svs { x with svs := v } ∧ stores .svr { x with svr := v } ∧ stores .hdef { x with hdef := v }
    ∧ stores .dmask { x with dmask := v.setWidth 32 } ∧ stores .aith { x with aith := v.setWidth 16 }
    ∧ (f ≠ 0 → stores .srf { x with refill := v.setWidth 32 } ∧ stores .scap { x with cap := v.setWidth 63 })
    ∧ exec (.registerWrite f .calIdx v) s = .next { s with calIdx := v &&& 0x03FF003F }
    ∧ ∀ k, exec (.registerWrite f (.nonce k) v) s = .next { s with mailbox :=
        { s.mailbox with nonce := s.mailbox.nonce.set k.toNat v } }

/-- R250, R329, R332, R333: an aligned 64-bit read of BAR0 returns the register and a 32-bit read its half; a virtual
function's BAR0 is its own region alone. MINFO reports the enabled stacks, stands, groves and cores and `%wmax`. CALDAT is
zero for a class that the domain does not have, and Vnom alone for class 63; else W0 is within a tenth of the nominal
weight. A write of half a register leaves its other half: of a quota, what a write has left for its next update (R253). Each
access costs its function one PCI Express transfer (log 120). The order of the rings' registers is the model's (log 98), and
so are the classes that a domain has (log 94). -/
def Claim.HostAccesses : Prop :=
  ∀ (s : State) (f o : Nat), s.hasFn f = true → s.recovery = false → o % 8 = 0 →
    let u := s.charge f 304 17 1
    (bar0Access s f o true none = { u with lastBar0 := regRead u f o })
    ∧ (bar0Access s f o false none = { u with lastBar0 := regRead u f o &&& 0xFFFFFFFF })
    ∧ (bar0Access s f (o + 4) false none = { u with lastBar0 := regRead u f o >>> 32 })
    ∧ (∀ v, let half := regHeld u f o
       bar0Access s f o true (some v) = { u with agenda := (regWrite f o true v).map Turn.event ++ s.agenda }
       ∧ bar0Access s f o false (some v) = { u with agenda :=
          (regWrite f o true (half.extractLsb' 32 32 ++ v.setWidth 32)).map Turn.event ++ s.agenda }
       ∧ bar0Access s f (o + 4) false (some v) = { u with agenda :=
          (regWrite f o false (v.setWidth 32 ++ half.setWidth 32)).map Turn.event ++ s.agenda })
    ∧ (∀ g < 64, regHeld u 0 (0x12000 + 32 * g) = (s.fn g).qWrite.getD (s.fn g).q)
    ∧ (f ≠ 0 → 0x10000 ≤ o → regRead s f o = 0 ∧ ∀ low v, regWrite f o low v = [])
    ∧ (let m := minfo s
       regRead s 0 0x13000 = m ∧ bits m.toNat 15 0 = s.standMask.toNat ∧ bits m.toNat 31 16 = s.stackMask.toNat
        ∧ bits m.toNat 40 32 = enabledGroves s ∧ bits m.toNat 53 41 = enabledCores s ∧ bits m.toNat 61 54 = 64
        ∧ bits m.toNat 62 62 = s.rlFull.toNat)
    ∧ ∀ d c : Nat, (calDat s = calData (bits s.calIdx.toNat 25 16) (bits s.calIdx.toNat 5 0))
        ∧ (c ≠ 63 → weighed d c = false → calData d c = 0)
        ∧ (d < 306 → (calData d 63).extractLsb' 0 40 = (1 : BitVec 40) ∧ (calData d 63).extractLsb' 40 24 = BitVec.ofNat 24 (Config.calVnom d).toNat)
        ∧ (9 * nominalFj.getD c 0 ≤ 10 * baseWeight d c ∧ 10 * baseWeight d c ≤ 11 * nominalFj.getD c 0)

/-- R330, R331, R333: a producer index makes records available; a consumer index of the completion ring lets held entries be
written, oldest first; PCAP takes 1,000 to 4,800 W and MWSEL's REG 0 or 1, and other values leave them. -/
def Claim.HostIndices : Prop :=
  ∀ (s : State) (f : Nat) (k : BitVec 3) (v : Word) (d : DWord), s.hasFn f = true → s.recovery = false →
    (∃ t, exec (.queueProducerWrite f k v) s = .next t ∧ t.mem = s.mem ∧ t.launches = s.launches
      ∧ (t.fn f).queues = (s.fn f).queues.modify k.toNat (fun x => { x with prod := v })
      ∧ (t.fn f).posted = (s.fn f).posted.modify k.toNat (fun n => n + (v - ((s.fn f).queues.getD k.toNat {}).prod)))
    ∧ (let q : Ring := { (s.fn f).compl with cons := v }
       ∃ t, exec (.completionConsumerWrite f v) s = .next t ∧ t.mem = s.mem
        ∧ ((q.full = true ∨ (s.fn f).heldCompl = []) → t.fn f = { s.fn f with compl := q } ∧ t.hostMem = s.hostMem)
        ∧ ∀ c, q.full = false → (s.fn f).heldCompl = [c] → (t.fn f).heldCompl = []
            ∧ (t.fn f).compl = { q with prod := q.prod + 1 } ∧ (t.fn f).msix0 = true
            ∧ t.hostMem = (writeBytes s (.host (q.slot q.prod 16)) c.bytes).hostMem)
    ∧ (1000 ≤ (d.setWidth 13).toNat → (d.setWidth 13).toNat ≤ 4800 → exec (.pcapWrite d) s = .next { s with pcap := d.setWidth 13 })
    ∧ (((d.setWidth 13).toNat < 1000 ∨ 4800 < (d.setWidth 13).toNat) → exec (.pcapWrite d) s = .next s)
    ∧ (bits d.toNat 15 12 ≤ 1 → exec (.mwselWrite d) s = .next { s with mwsel := d.setWidth 16 })
    ∧ (1 < bits d.toNat 15 12 → ∃ t, exec (.mwselWrite d) s = .next t ∧ bits t.mwsel.toNat 15 12 = bits s.mwsel.toNat 15 12
        ∧ bits t.mwsel.toNat 11 0 = bits d.toNat 11 0)

/-- R331, R333: an access through the aperture whose bytes all lie in enabled frames that can be reached reads or writes
them, at the address that MWSEL selects; any other changes no memory and is reported as an abort. The whole abort and POSTED are log 71. -/
def Claim.Aperture : Prop :=
  ∀ (s : State) (o : Nat) (b : List Byte), s.recovery = false →
    let pa := bits s.mwsel.toNat 15 12 * 2 ^ 48 + bits s.mwsel.toNat 11 0 * 2 ^ 36 + o
    let ok := fun (n : Nat) => o + n ≤ 2 ^ 36 ∧ ∀ k < n, frameEnabled s (pa + k) = true ∧ portDown s (pa + k) = false
    (ok b.length → ∃ t, exec (.bar2Access o (some b)) s = .next t ∧ t.mem = (writeBytes s (.dev pa) b).mem ∧ t.hostMem = s.hostMem
      ∧ t.aerAborts = s.aerAborts)
    ∧ (ok 8 → ∃ t, exec (.bar2Access o none) s = .next t ∧ t.lastBar2 = readBytes s (.dev pa) 8 ∧ t.mem = s.mem)
    ∧ (¬ ok b.length → exec (.bar2Access o (some b)) s = .next { s with aerAborts := s.aerAborts + 1 })
    ∧ (¬ ok 8 → exec (.bar2Access o none) s = .next { s with aerAborts := s.aerAborts + 1, lastBar2 := List.replicate 8 0xFF })

/-- R341: a rate that SRATE takes, or that the thermal controller asks for, waits as long as saves that stream to the stack
have deadlines; the retraining starts at the latest of them, and when it ends the stack runs at the rate asked for. A rate
that is asked for during a retraining waits for that one's end, and then for the deadlines. The rate kept for after a
retraining, and the latest of the holds, are log 70. -/
def Claim.Retraining : Prop :=
  ∀ (s : State) (k : Nat) (x : Rate) (v : BitVec 16), s.rates[k]? = some x → s.recovery = false →
    let busy := s.collects.filter fun c => c.begun && savesOn s c.fn c.pins k
    let asks := fun (good : Rate → Prop) => ∃ t y, exec (.thermalControllerRequest k v) s = .next t
      ∧ exec (.srateWrite k (v.setWidth 64)) s = .next t ∧ t = { s with rates := s.rates.set k y } ∧ good y
      ∧ ∀ c ∈ busy, c.since + Config.forceCycles ≤ y.hold
    (x.want = none → x.next = none → x.st = 0 → rateAllowed v = true → v ≠ x.mbps → asks fun y =>
      y.mbps = x.mbps ∧ y.want = some v ∧ (busy = [] → y.st = 0) ∧ (busy ≠ [] → y.st = 1))
    ∧ (x.st = 2 → rateAllowed v = true → v ≠ (x.next.or x.want).getD x.mbps → asks fun y =>
        y.mbps = x.mbps ∧ y.want = x.want ∧ y.st = 2 ∧ y.next = some v)
    ∧ ((rateAllowed v = false ∨ v = (x.next.or x.want).getD x.mbps) → exec (.thermalControllerRequest k v) s = .next s)
    ∧ (∀ n, x.want = some n → x.st ≠ 2 → ∃ t, exec (.stackRetrain k) s = .next t
        ∧ t.rates[k]? = some { x with st := 2, hold := 0 } ∧ t.mem = s.mem ∧ t.teams = s.teams
        ∧ (x.st = 1 → t.cycle = max s.cycle x.hold))
    ∧ (x.st = 2 →
        let y : Rate := { mbps := x.want.getD x.mbps, want := x.next, hold := x.hold, st := if x.hold = 0 then 0 else 1 }
        exec (.stackRetrainingEnd k) s = .next { s with rates := s.rates.set k y })

/-- R340: the mailbox, when no operation is under way, starts one; its data is ready, or it ends in error. What a certificate, a
digest or a signature holds is the part's own (the model's free constants). -/
def Claim.Attestation : Prop :=
  ∀ (s : State), s.recovery = false →
    let m := s.mailbox
    (m.sts ≠ 1 → (exec .attestReport s = .next { s with mailbox := { m with cmd := 1, sts := 1, next := attestation s } })
      ∧ exec .attestCertChain s = .next { s with mailbox := { m with cmd := 2, sts := 1, next := Config.certificateChain.take 4096 } })
    ∧ (m.sts = 1 → (exec .attestReport s = .next s) ∧ (exec .attestCertChain s = .next s)
      ∧ (∃ t, exec (.attestDataReady true) s = .next t ∧ t.mailbox = { m with sts := 2, len := BitVec.ofNat 64 m.next.length, data := m.next, next := [] }
          ∧ t = { s with mailbox := t.mailbox })
      ∧ exec (.attestDataReady false) s = .next { s with mailbox := { m with sts := 3, next := [] } })
    ∧ (m.nonce.length = 4 → (attestation s).length ≤ 240 ∧ (attestation s).take 32 = m.nonce.flatMap fun x => leBytes 8 x.toNat)

/-- R170, R251, R254, R321, R339, R344: creating a function gives it registers as at reset; destroying one leaves nothing
of it; a module reset with an image that may run leaves every function but the physical one gone and the host's memory as
it was, and with one that may not, the module in recovery, where the host's accesses change nothing (log 95); at 115 °C
every function enters RESET, its waves stop and the error is fatal. What a module reset keeps is log 69. -/
def Claim.Lifetimes : Prop :=
  ∀ (s : State) (f : Nat), 0 < f → f < 64 →
    (s.recovery = false → s.hasFn f = false → ∃ t, exec (.functionCreation f) s = .next t ∧ t.fn f = { id := f } ∧ t.hasFn f = true ∧ t.mem = s.mem
      ∧ ∀ g, g ≠ f → t.fn g = s.fn g)
    ∧ (s.recovery = false → s.hasFn f = true → ∃ t, exec (.contextDestruction f) s = .next t ∧ t.hasFn f = false ∧ (∀ x ∈ t.teams, x.fn ≠ f)
      ∧ (∀ x ∈ t.launches, x.fn ≠ f) ∧ ((∀ e ∈ s.rowErrs, e.fn ≠ f) → ∀ g, g ≠ f → t.fn g = s.fn g))
    ∧ (let n := Config.imageRollback s.turns
       ∃ t, exec .moduleReset s = .next t ∧ t.mem = [] ∧ t.hostMem = s.hostMem ∧ t.teams = [] ∧ t.retired = s.retired ∧ t.cycle = 0
        ∧ t.fns = [{}] ∧ t.wear = s.wear
        ∧ (Config.imageVerifies s.turns = true → s.rollback ≤ n → t.recovery = false ∧ t.rollback = n)
        ∧ ((Config.imageVerifies s.turns = false ∨ n < s.rollback) → t.recovery = true ∧ t.rollback = s.rollback))
    ∧ (s.recovery = true → ∀ (g k o : Nat) (v : DWord) (r : PlainReg), exec (.registerWrite g r v) s = .next s
      ∧ exec (.pcapWrite v) s = .next s ∧ exec (.srateWrite k v) s = .next s ∧ exec (.linkUp k v) s = .next s
      ∧ exec (.bar2Access o none) s = .next s ∧ exec .attestReport s = .next s ∧ exec (.functionCreation g) s = .next s)
    ∧ (s.recovery = false → ∃ t, exec .thermalShutdown s = .next t ∧ t.aerFatal = true ∧ ∀ g, s.hasFn g = true →
        (t.fn g).state = .reset ∧ ((s.fn g).state ≠ .reset → (t.fn g).frozen = true ∧ ∀ x ∈ t.teams, x.fn = g → x.stop = true))

/-- R323, R342: when a row's activations for a function pass the threshold its neighbours are refreshed at the function's
charge, and the physical function gets one record for the function and stack in a period. A frame with an uncorrectable
error, or with sixteen corrected ones in a day, is to be retired; once no pinned page uses it, it leaves its owner's pool
and is listed, with a record of cause 0x10. How retirement waits, and what the records of rows and frames hold, is log 68. -/
def Claim.RowsAndFrames : Prop :=
  ∀ (s : State),
    (∀ ch bank row f n, s.rowCounts = [((ch, bank, row, f), n)] → Config.rowThreshold < n → s.hasFn 0 = true →
      let w := weightOf s (stackDom (ch / 64)) 9
      ∃ t, exec (.rowDisturbance ch bank row) s = .next t ∧ t.rowCounts = [] ∧ t.mem = s.mem ∧ t.teams = s.teams
        ∧ { fn := f, dom := stackDom (ch / 64), fj := 2 * w } ∈ t.charges ∧ (f, ch / 64) ∈ t.rowRecords
        ∧ ((f, ch / 64) ∈ s.rowRecords → t.hostMem = s.hostMem)
        ∧ ((f, ch / 64) ∉ s.rowRecords → (s.fn 0).err.full = false → (t.fn 0).err.prod = (s.fn 0).err.prod + 1))
    ∧ (∀ line, line / 1024 ∉ s.retired → line / 1024 ∉ s.volatileRetired →
      (line / 1024 ∈ (lineError s line false).toRetire ∧ line ∈ (lineError s line false).badLines)
      ∧ (15 ≤ (s.corrected.filter fun x => x.1 == line / 1024 && s.cycle < x.2 + Config.dayCycles).length →
          line / 1024 ∈ (lineError s line true).toRetire)
      ∧ (lineError s line true).badLines = s.badLines)
    ∧ ∀ n, s.toRetire = [n] →
      (frameUsers s n = [] → s.retired.length < Config.retiredMax → ∃ t, exec .frameRetirement s = .next t
        ∧ t.retired = s.retired ++ [n] ∧ t.rlFull = s.rlFull ∧ t.toRetire = []
        ∧ (∀ f, ((s.fn f).fast.Nodup → 65536 * n ∉ (t.fn f).fast) ∧ ((s.fn f).slow.Nodup → 65536 * n ∉ (t.fn f).slow))
        ∧ (s.hasFn 0 = true → (s.fn 0).err.full = false → (t.fn 0).err.prod = (s.fn 0).err.prod + 1))
      ∧ ((∃ u ∈ frameUsers s n, unpinned s u = false) → exec .frameRetirement s = .next s)

/-- R335: a link trains to the lower of the highest versions, or is down on a mismatch. R336: a flit's 256 bytes have a right
CRC and read back as the flit. R337: a flit whose CRC is wrong gets a NAK; one whose SEQ is not the expected one changes
nothing of what has been accepted; the expected one is accepted, and a command executes when its last flit is. A NAK has the
flits from its SEQ sent again, in order, with the SEQ that this end expects now; ten in a row for one SEQ start a
retraining, which keeps the replay buffer, and after three failures the link is down. A command's flits take the next SEQ
each, and wait while 512 are not acknowledged. That each command flit is answered by one idle flit with ACK, and how executed
commands are counted, is the model's (log 67); so are the form of the CRC and the kinds that are ignored (log 96) and the
first SEQ (log 97). -/
def Claim.Links : Prop :=
  ∀ (s : State) (n : Nat) (l : Link) (b : List Byte) (p : DWord) (k : Nat), s.links[n]? = some l → s.recovery = false → l.pend = [] →
    let f := flitOf b
    let after := fun (x : Instr) (good : State → Link → Prop) =>
      ∃ t y, exec x s = .next t ∧ t.links[n]? = some y ∧ good t y ∧ t.mem = s.mem ∧ t.teams = s.teams
    let same := fun (y : Link) => y.expect = l.expect ∧ y.part_ = l.part_ ∧ y.executed = l.executed
    let takes := fun (good : Link → Prop) => after (.bruskoFlitReceive n b) fun _ y => good y
    let kept := fun (q : Nat) => l.replay.filter fun x => (x.1.seq.toNat + 4096 - q) % 4096 < 2048
    let again := fun (q : Nat) => (kept q).map fun x => ({ x.1 with ack := BitVec.ofNat 12 l.expect }, x.2)
    (l.st ≠ 1 → l.st ≠ 2 → after (.linkUp n p) fun _ y => y.peer = p
      ∧ (bits p.toNat 15 8 ≤ 1 → 1 ≤ bits p.toNat 7 0 → y.st = 2 ∧ y.ver = 1)
      ∧ ((1 < bits p.toNat 15 8 ∨ bits p.toNat 7 0 = 0) → y.st = 3 ∧ y.ver = 0))
    ∧ (∀ g : Flit, g.payload.length = 240 → (flitBytes g).length = 256 ∧ crcOk (flitBytes g) = true ∧ flitOf (flitBytes g) = g)
    ∧ (l.st = 2 →
      (crcOk b = false → takes fun y => same y ∧ ∃ g, y.out = l.out ++ [g] ∧ g.kind = 5 ∧ g.ack = BitVec.ofNat 12 l.expect)
      ∧ (crcOk b = true → 6 ≤ f.kind.toNat → takes fun y => y = l)
      ∧ (crcOk b = true → f.kind.toNat = 0 → takes fun y => same y ∧ y.out = l.out ∧ y.replay = kept f.ack.toNat)
      ∧ (crcOk b = true → f.kind.toNat = 5 → takes fun y => same y ∧ y.replay = again f.ack.toNat ∧ y.out = l.out ++ y.replay.map (·.1))
      ∧ (crcOk b = true → 1 ≤ f.kind.toNat → f.kind.toNat ≤ 4 → f.seq.toNat ≠ l.expect →
          takes fun y => same y ∧ y.replay = kept f.ack.toNat ∧ ∃ g, y.out = l.out ++ [g] ∧ g.kind = 0 ∧ g.ack = BitVec.ofNat 12 l.expect)
      ∧ (crcOk b = true → 1 ≤ f.kind.toNat → f.kind.toNat ≤ 4 → f.seq.toNat = l.expect → takes fun y =>
            y.expect = (l.expect + 1) % 4096 ∧ y.executed = l.executed + (if f.kind.toNat = 3 ∨ f.kind.toNat = 4 then 1 else 0)
            ∧ y.part_ = (if f.kind.toNat = 1 then [f] else if f.kind.toNat = 2 then l.part_ ++ [f] else [])
            ∧ ∃ g, y.out = l.out ++ [g] ∧ g.kind = 0 ∧ g.ack = BitVec.ofNat 12 ((l.expect + 1) % 4096))
      ∧ (k < 4096 → after (.bruskoNakReceive n k) fun _ y => same y ∧ y.replay = again k ∧ y.out = l.out ++ y.replay.map (·.1)
          ∧ (y.replay.length = l.replay.length → y.nakRun = (k, if l.nakRun.1 = k then l.nakRun.2 + 1 else 1))
          ∧ (y.replay.length ≠ l.replay.length → y.nakRun = (k, 1)))
      ∧ (∀ fn c q, let t := sendCommand s n fn c [q]
          let g : Flit := { ctx := c, kind := 4, ack := BitVec.ofNat 12 l.expect, seq := BitVec.ofNat 12 ((l.seq + 1) % 4096), payload := q }
          (l.replay.length < 512 → t.links[n]? = some { l with seq := (l.seq + 1) % 4096, replay := l.replay ++ [(g, fn)], out := l.out ++ [g] })
          ∧ (512 ≤ l.replay.length → ∃ y, t.links[n]? = some y ∧ y.pend.length = 1 ∧ y.out = l.out ∧ y.replay = l.replay))
      ∧ (10 ≤ l.nakRun.2 → after (.linkRetrain n) fun _ y => y.st = 1 ∧ y.replay = l.replay ∧ same y)
      ∧ (l.nakRun.2 < 10 → exec (.linkRetrain n) s = .next s))
    ∧ (l.st = 1 →
      after (.linkRetrainingEnd n true) (fun _ y => y = { l with st := 2, fails := 0 })
      ∧ (l.fails < 2 → after (.linkRetrainingEnd n false) fun _ y => y.st = 1 ∧ y.fails = l.fails + 1 ∧ y.replay = l.replay)
      ∧ (2 ≤ l.fails → after (.linkRetrainingEnd n false) fun t y => y.st = 4 ∧ y.replay = [] ∧ y.part_ = [] ∧ y.executed = l.executed
          ∧ ∀ x fn, l.replay = [(x, fn)] → x.kind.toNat = 4 → s.hasFn fn = true → (s.fn fn).err.full = false →
              (t.fn fn).err.prod = (s.fn fn).err.prod + 1))
    ∧ exec (.cxlPortDown k) s = .next { s with cxlDown := s.cxlDown.set k true }

/-! ### Encodings (04_encoding_and_opcode_map) -/

/-- R59 to R72: every instruction that map 1 can encode decodes from its words as itself, with every operand at every value
that its fields admit, and its words are as many as R59 says. `rk.next` is encoded with PRED = 0 and PN = 0, as R172 asks of
it. -/
def Claim.DecodeOfEncode : Prop :=
  ∀ (i : Instr) (p : Shape), i.shape = some p → i.WellFormed → (p.opc = 0x3AB → p.head.pred = 0 ∧ p.head.pn = false) →
    decodeInstr (encode i) = some i
    ∧ (encode i).length = itemLen ((encode i).getD 0 0) ((encode i).getD 1 0) (encode i).length

/-- R59, R75: the first steps of decoding on any parcels: a reserved class is illegal with reason 1, a header inside a block
with reason 2, a pad whose other bits are not zero with reason 7; an item that runs past its block is an overrun; and an
opcode without a valid entry, under map 1 or under a loaded map, is illegal with reason 3. -/
def Claim.DecodeRefusals : Prop :=
  ∀ (c : DecCtx) (room : Nat) (p : Word) (ps : List Word),
    let k := (parcelCls p).toNat
    (k ∈ [7, 8, 9, 11, 13] → decodeAt c room (p :: ps) = .error (.illegal 1))
    ∧ (k = 15 → decodeAt c room (p :: ps) = .error (.illegal 2))
    ∧ (k = 14 → decodeAt c room (p :: ps) = if p = 0xE then .ok .pad else .error (.illegal 7))
    ∧ (k = 12 → 2 ≤ room → (parcelCls (ps.getD 0 0)).toNat ∈ [7, 8, 9, 11, 12, 13, 14, 15] →
        decodeAt c room (p :: ps) = .error (.illegal 6))
    ∧ ((k < 7 ∧ room < 2) ∨ (k = 10 ∧ room < 3) ∨ (k = 12 ∧ room < 2) → decodeAt c room (p :: ps) = .error .overrun)
    ∧ (k < 7 → 2 ≤ room → c.table = none → map1Entry (opcOf p) = none → decodeAt c room (p :: ps) = .error (.illegal 3))
    ∧ (k < 7 → 2 ≤ room → (∃ t x, c.table = some t ∧ t[opcOf p]? = some x ∧ x.getLsbD 63 = false) →
        decodeAt c room (p :: ps) = .error (.illegal 3))

/-- R55, R59, R60 to R70: words written out from the encoding tables decode to the instructions they stand for: the worked
encodings of the sections on encoding, branches, waits, lanes, floats and stores; and a pad, a header and a reserved class do
not decode to an instruction. -/
def Claim.DecodeExamples : Prop :=
  let h : Head := { hold := 0, acc := 0, pn := false, pred := 0, pfx := none }
  let p : Prefix := { go := 0, tz := false, mz := false, v4th := 0, rm := 0, mn := false, mask := 0 }
  let words := fun (ps : List Nat) => decodeTableWord (32 * ps.length) (ps.foldr (fun x n => x + 2 ^ 32 * n) 0)
  -- `add.i32 s8, s6, -1`; `mov s9, 1`; `br.ne s5, s9, bail`; `lut3 v10, v6, v2, v7, 0x96, hold=abc`
  words [0x08000002, 0xFFFF040C] = some (.addUniform h { ty := .i32, dst := 8, sa := 6, b := .imm 0xFFFF })
  ∧ words [0x09000302, 0x00010000] = some (.movUniformImm h { dst := 9, imm := .short 1 })
  ∧ words [0x51000804, 0x0000E048] = some (.brCc h { cnd := .ne, sa := 5, sb := 9, off := .short 56 })
  ∧ words [0x0AE0130A, 0x0038080C, 0x96] = some (.lut3 { h with hold := 7 } { dst := 10, sa := 6, sb := 2, sc := 7, table := 0x96 })
  -- `(p2) call v20, fn`; `done`; `wait ld=2, cp=1`; `fma.f32.t.rtz v10, v4, v5, v6`
  ∧ words [0x0001400C, 0x01008834, 0x00010000] =
      some (.callVector { h with pred := 2, pfx := some { p with v4th := 20 } } (.short 64))
  ∧ words [0x00000A26, 0] = some (.done h)
  ∧ words [0x00000B0A, 0, 0x3F013F02] = some (.wait h (.bounds 0x3F013F02))
  ∧ words [0x0000020C, 0x0A082031, 0x50301408] =
      some (.fma { h with acc := 1, pfx := some { p with rm := 1 } } { ty := .f32, dst := 10, sa := 4, sb := 5, sc := 6 })
  -- `popc.b32.tz v3, v1`; `cmp.eq.i32 p1, v0, 0`; `(p1) st.b32 [s2:s3 + 64], v4`
  ∧ words [0x0040000C, 0x03001400, 2] = some (.popc { h with pfx := some { p with tz := true } } { dst := 3, sa := 1 })
  ∧ words [0x01001502, 0x400] = some (.cmpEq h { ty := .i32, pd := 1, sa := 0, b := .imm 0 })
  ∧ words [0x04006E03, 0x10000004] =
      some (.stB32 { h with pred := 1 } { rd := 4, m := { sp := .global, ix := none, sb := 2, disp := .short 64 } })
  ∧ words [0x0000000E] = none ∧ words [0x0380006F, 0x00000008] = none ∧ words [0x00000007, 0] = none
  ∧ hdrOf 0x000000280480C08F = { len := 8, liveV := 3, liveS := 9, liveP := 0, ent := true, rcv := false, rcvOff := 0 }

/-! ### The whole machine -/

/-- R36, R69, R74, R254, R332, R333, R335: what reset leaves: no team, launch or command, decode map 1, every register of the
service block at its reset value, the physical function alone; and, which is the model's choice (log 2), a full part with
its expanders attached and no wear (log 92). -/
def Claim.ResetState : Prop :=
  let s := State.reset
  s.teams = [] ∧ s.launches = [] ∧ s.saved = [] ∧ s.migrations = [] ∧ s.collects = [] ∧ s.slice = none ∧ s.charges = []
  ∧ s.cores = [] ∧ s.units = [] ∧ s.rootCmds = [] ∧ s.bagCmds = [] ∧ s.agenda = [] ∧ s.recovery = false
  ∧ s.fns.map (·.id) = [0] ∧ (s.fn 0).dtab = none ∧ (s.fn 0).state = .run ∧ (s.fn 0).bags = []
  ∧ s.pcap = 4800 ∧ s.mwsel = 0 ∧ s.calIdx = 0 ∧ s.rates = List.replicate 16 { mbps := 12800, st := 0 } ∧ s.rlFull = false ∧ s.ctime = 0
  ∧ s.links = List.replicate 12 { st := 0, rtr := 0, ver := 0, nak := 0 } ∧ s.wear = List.replicate 32 0
  ∧ s.mailbox = { nonce := List.replicate 4 0, cmd := 0, sts := 0, len := 0 }
  ∧ s.standMask = 0xFFFF ∧ s.stackMask = 0xFFFF ∧ s.coreMasks = List.replicate 256 0xFFFF ∧ s.cxl.length = 4 ∧ (∀ x ∈ s.cxl, x ≠ none) ∧ s.cxlDown = List.replicate 4 false
  ∧ s.MemWf

/-- Every step keeps device memory and host memory in canonical form. -/
def Claim.StepKeepsMemory : Prop :=
  ∀ s t : State, s.MemWf → step s = .next t → t.MemWf

/-- R7, R332, R334: what the part is, no step changes: which stands, stacks and cores are enabled and which expanders are
attached; and the list of retired frames in flash never shortens, nor does the rollback counter fall (R339, R342). -/
def Claim.StepKeepsThePart : Prop :=
  ∀ s t : State, step s = .next t →
    t.standMask = s.standMask ∧ t.stackMask = s.stackMask ∧ t.coreMasks = s.coreMasks ∧ t.cxl = s.cxl
    ∧ s.rollback ≤ t.rollback ∧ s.retired.length ≤ t.retired.length

end Sys2Proof

open Sys2Proof

/-- Uniform arithmetic, shifts, compares and pair forms complete with their results. -/
def Obligations.UniformInstructions : Prop :=
  Claim.UniformArithmetic ∧ Claim.UniformShiftsAndCompare ∧ Claim.PairArithmetic

/-- Uniform moves, special registers and predicate logic complete with their results. -/
def Obligations.MovesAndPredicates : Prop :=
  Claim.UniformMoves ∧ Claim.SpecialValues ∧ Claim.PredicateLogic

/-- Integer vector instructions complete with the results of their active elements. -/
def Obligations.VectorInteger : Prop :=
  Claim.VectorArithmetic ∧ Claim.VectorShifts ∧ Claim.VectorLogicAndFields ∧ Claim.CompareAndSelect ∧ Claim.PackedBytes

/-- Lane movement and vector moves, the indexed ones among them, complete. -/
def Obligations.LanesAndVectorMoves : Prop :=
  Claim.LaneMovement ∧ Claim.VectorMoves

/-- Votes, elections, reductions and scans complete; trees of add, and, or and xor are exact folds. -/
def Obligations.VotesAndReductions : Prop :=
  Claim.Votes ∧ Claim.Reductions

/-- Floating-point arithmetic, selections and functions put their rounded results and flags (the functions' own values: log 12). -/
def Obligations.FloatArithmetic : Prop :=
  Claim.FloatArithmetic ∧ Claim.ExactThenRounded ∧ Claim.FloatSelections ∧ Claim.QuotientsAndRoots ∧ Claim.FunctionTables

/-- An enabled arithmetic exception traps in its lanes and nothing is written (logs 34 and 35). -/
def Obligations.FloatTrapsSuppress : Prop :=
  Claim.FloatTrapsSuppress

/-- Rounding a representable value gives its own encoding and raises nothing. -/
def Obligations.RoundingKeepsRepresentable : Prop :=
  Claim.RoundingKeepsRepresentable

/-- What overflow gives, by mode, sign and format. -/
def Obligations.RoundingOverflow : Prop :=
  Claim.RoundingOverflow

/-- Comparisons, conversions, block formats and random generators complete. -/
def Obligations.ConversionsAndGenerators : Prop :=
  Claim.ConversionsAndGenerators ∧ Claim.ConversionValues

/-- The exact accumulator, vector length and type, descriptor bases and meters complete. -/
def Obligations.WaveStateInstructions : Prop :=
  Claim.WaveStateInstructions

/-- An instruction that acts on registers changes those and its lanes, and nothing else. -/
def Obligations.RegisterEffect : Prop :=
  Claim.RegisterEffectOnCore ∧ Claim.RegisterEffectOnUnit

/-- What a register write changes: active, zeroed and untouched elements; s0 and p0 never. -/
def Obligations.RegisterWrites : Prop :=
  Claim.RegisterWrites

/-- No instruction, no event and no step stops the machine. -/
def Obligations.NothingStops : Prop :=
  Claim.NoInstructionStops ∧ Claim.StepsAreSafe

/-- A turn of a group runs the instruction decoded at its lowest PC. -/
def Obligations.StepRunsDecodedInstruction : Prop :=
  Claim.StepRunsDecodedInstruction

/-- A turn of a root unit runs the instruction decoded at its PC. -/
def Obligations.StepRunsRootInstruction : Prop :=
  Claim.StepRunsRootInstruction

/-- A step runs the event whose turn it is (the agenda is the model's own, log 4). -/
def Obligations.StepRunsAgendaEvent : Prop :=
  Claim.StepRunsAgendaEvent

/-- Branches, jumps and calls go where they say, park on a page that is away, or trap when a target is none. -/
def Obligations.Branches : Prop :=
  Claim.Branches ∧ Claim.BranchEffect ∧ Claim.BranchParks ∧ Claim.BranchTraps

/-- exit, done and nap, the end of a nap, and the issue of a lagging wave. -/
def Obligations.EndsAndNaps : Prop :=
  Claim.EndsAndNaps ∧ Claim.RootExit ∧ Claim.NapsEndAndLaggardsIssue

/-- wait parks the lanes of E until its bounds hold. -/
def Obligations.WaitParks : Prop :=
  Claim.WaitParks

/-- Barriers: lanes arrive, and all go on when the last has. -/
def Obligations.Barriers : Prop :=
  Claim.BarriersArrive ∧ Claim.BarrierReleases ∧ Claim.GangBarrierReleases

/-- A barrier in trap mode raises illegal instruction, and its lanes end. -/
def Obligations.BarrierInTrapMode : Prop :=
  Claim.BarrierInTrapMode

/-- Taking a precise trap: the handler, or the lane's end and its record. -/
def Obligations.TrapEntry : Prop :=
  Claim.TrapEntry ∧ Claim.TrapEndsLane ∧ Claim.ErrorRecords

/-- Sine, cosine, exp2 and log2 are the function's value to within 2^-28, rounded once (log 12). -/
def Obligations.FunctionsOfReals : Prop :=
  Claim.FunctionsOfReals

/-- Software traps, leaving trap mode, and reading the trap's detail. -/
def Obligations.TrapReturn : Prop :=
  Claim.SoftwareTrap ∧ Claim.TrapReturn

/-- The address of an element, the checks of an access in their order, its traps, its walks, and where it parks. -/
def Obligations.AddressesAndChecks : Prop :=
  Claim.AccessAddress ∧ Claim.AccessChecks ∧ Claim.AccessTrapsAndMisses ∧ Claim.AccessParks

/-- Vector loads and first-fault loads go out. -/
def Obligations.VectorLoads : Prop :=
  Claim.VectorLoadsGoOut ∧ Claim.FirstFaultLoads

/-- Vector stores and uniform loads and stores go out. -/
def Obligations.StoresAndUniformAccesses : Prop :=
  Claim.VectorStoresGoOut ∧ Claim.UniformAccessesGoOut

/-- Atomics go out with their ordering. -/
def Obligations.Atomics : Prop :=
  Claim.AtomicsGoOut

/-- What an access changes when it goes out, and that it changes no byte of memory. -/
def Obligations.AccessFrame : Prop :=
  Claim.AccessFrame

/-- A load's data arrives in its registers; an atomic reads and writes in one step. -/
def Obligations.LoadsDeliver : Prop :=
  Claim.LoadDelivers ∧ Claim.LoadAfterUpdate ∧ Claim.AtomicDelivers

/-- A store writes exactly its bytes; one that fails leaves a record. -/
def Obligations.StoresRetire : Prop :=
  Claim.StoreRetires ∧ Claim.FailedStore

/-- Reads after writes, and memories that read alike are equal (the byte that unwritten memory reads as is the model's, log 1). -/
def Obligations.MemoryLaws : Prop :=
  Claim.ReadAfterWrite ∧ Claim.MemoryIsCanonical

/-- Full/empty words: taking, filling, parking, and the lane that wakes first. -/
def Obligations.FullEmptyWords : Prop :=
  Claim.FullEmptyForms ∧ Claim.FullEmptyWakes

/-- Prefetches and fences complete; a release performs what went before. -/
def Obligations.PrefetchAndFences : Prop :=
  Claim.PrefetchAndFences ∧ Claim.ReleasePerforms

/-- Page walks fill the TLBs, or leave the fault to the access. -/
def Obligations.WalksComplete : Prop :=
  Claim.WalksComplete

/-- A migration moves a page and its leaf, or leaves them. -/
def Obligations.Migration : Prop :=
  Claim.MigrationCompletes ∧ Claim.MigrationFails

/-- Matrix, access-processor and root commands go out counted, or park on a full counter. -/
def Obligations.EngineCommands : Prop :=
  Claim.EngineCommands ∧ Claim.FullCounterParks

/-- Bag commands, task posts, queue pops and migration hints go out; a post is answered. -/
def Obligations.BagAndTaskCommands : Prop :=
  Claim.BagCommands ∧ Claim.DeterministicBags ∧ Claim.PostsPopsAndHints ∧ Claim.PostReplies

/-- Descriptor registers, activation tables and fact. -/
def Obligations.WindowTables : Prop :=
  Claim.DescriptorRegisters ∧ Claim.ActivationLoads ∧ Claim.FactsComplete

/-- The access processor gathers, scatters, copies and pushes; records of engine faults. -/
def Obligations.AccessProcessor : Prop :=
  Claim.GatherRow ∧ Claim.ScattersAndCopies ∧ Claim.QueuePushes ∧ Claim.EngineFaults

/-- The matrix engine takes a command, and a step updates its tile. -/
def Obligations.MatrixEngine : Prop :=
  Claim.MatrixTakes ∧ Claim.MatrixSteps ∧ Claim.TileUpdate

/-- Clears, tile stores and loads, requantisation and versioned tiles. -/
def Obligations.MatrixStores : Prop :=
  Claim.MatrixClears ∧ Claim.MatrixUnits ∧ Claim.VersionedStores ∧ Claim.VersionedLoads

/-- Bag commands at their placement units and their answers. -/
def Obligations.BagTakes : Prop :=
  Claim.BagTakes ∧ Claim.BagRetires ∧ Claim.BagNewTake ∧ Claim.BagPutTake ∧ Claim.BagEachAndDrain ∧ Claim.BagDrainEnds
  ∧ Claim.BagAnswers

/-- Where a record is placed: its home share or the emptiest. -/
def Obligations.PlacementRule : Prop :=
  Claim.PlacementRule

/-- Root invocations start, root commands are taken, banks multiply, and root code's own instructions. -/
def Obligations.RootWork : Prop :=
  Claim.RootStarts ∧ Claim.RootCommandTakes ∧ Claim.BmacRows ∧ Claim.BmacWaits ∧ Claim.RootWindowForms

/-- The crown: put, sum and clear. -/
def Obligations.Crown : Prop :=
  Claim.Crown

/-- The blocks of an invocation, and a block that does not end. -/
def Obligations.RootBlocks : Prop :=
  Claim.RootBlocks

/-- Saving and restoring a wave in save mode. -/
def Obligations.SaveMode : Prop :=
  Claim.SaveMode

/-- Decode tables, invalidation, dirty tracking, pools, and the control of functions. -/
def Obligations.SystemInstructions : Prop :=
  Claim.SystemTables ∧ Claim.FunctionControl

/-- Launch records are taken, tasks start and teams are admitted. -/
def Obligations.LaunchesAndTasks : Prop :=
  Claim.RecordTakes ∧ Claim.TaskStarts ∧ Claim.TeamAdmissions

/-- Waves swap, launches complete and deterministic teams are released. -/
def Obligations.SwappingAndEnds : Prop :=
  Claim.Swapping ∧ Claim.LaunchEnds

/-- Charges are posted, and quotas updated at the end of a period. -/
def Obligations.MetersAndQuotas : Prop :=
  Claim.MeterPosts ∧ Claim.QuotaUpdates

/-- Pre-emption begins, waves enter save mode, engines stop, teams come back, slices begin and end. -/
def Obligations.Preemption : Prop :=
  Claim.PreemptBegins ∧ Claim.SaveModeEntries ∧ Claim.EngineStops ∧ Claim.TeamRestores ∧ Claim.SliceTimes

/-- Functions come and go, resets, attacked rows and retired frames. -/
def Obligations.Lifetimes : Prop :=
  Claim.FunctionReset ∧ Claim.Lifetimes ∧ Claim.RowsAndFrames

/-- The host's registers, rings and aperture, stack rates and attestation. -/
def Obligations.HostInterface : Prop :=
  Claim.HostRegisters ∧ Claim.HostAccesses ∧ Claim.HostIndices ∧ Claim.Aperture ∧ Claim.Retraining ∧ Claim.Attestation

/-- Brusko links: training, exactly-once delivery, replay and retraining. -/
def Obligations.Links : Prop :=
  Claim.Links

/-- Every encodable instruction decodes from its words as itself. -/
def Obligations.DecodeOfEncode : Prop :=
  Claim.DecodeOfEncode

/-- Words of the worked encodings decode as written; reserved words are refused by reason. -/
def Obligations.DecodingIsRight : Prop :=
  Claim.DecodeExamples ∧ Claim.DecodeRefusals

/-- Every step keeps memory canonical and the part as it is; reset has the form and the stated values. -/
def Obligations.StepInvariant : Prop :=
  Claim.StepKeepsMemory ∧ Claim.StepKeepsThePart ∧ Claim.ResetState
end

