-- ==== Sys2Proof/Laws/State.lean ====
section
/-! SUPPORT. What each update of the state leaves alone: one lemma for each field and each update. -/
namespace Sys2Proof.Machine.State

/-! ### `modFn` -/

@[simp] theorem modFn_cycle (s : State) (f : Nat) (g : Fn → Fn) : (s.modFn f g).cycle = s.cycle := rfl
@[simp] theorem modFn_turns (s : State) (f : Nat) (g : Fn → Fn) : (s.modFn f g).turns = s.turns := rfl
@[simp] theorem modFn_nextId (s : State) (f : Nat) (g : Fn → Fn) : (s.modFn f g).nextId = s.nextId := rfl
@[simp] theorem modFn_agenda (s : State) (f : Nat) (g : Fn → Fn) : (s.modFn f g).agenda = s.agenda := rfl
@[simp] theorem modFn_issue (s : State) (f : Nat) (g : Fn → Fn) : (s.modFn f g).issue = s.issue := rfl
@[simp] theorem modFn_mem (s : State) (f : Nat) (g : Fn → Fn) : (s.modFn f g).mem = s.mem := rfl
@[simp] theorem modFn_hostMem (s : State) (f : Nat) (g : Fn → Fn) : (s.modFn f g).hostMem = s.hostMem := rfl
@[simp] theorem modFn_standMask (s : State) (f : Nat) (g : Fn → Fn) : (s.modFn f g).standMask = s.standMask := rfl
@[simp] theorem modFn_stackMask (s : State) (f : Nat) (g : Fn → Fn) : (s.modFn f g).stackMask = s.stackMask := rfl
@[simp] theorem modFn_coreMasks (s : State) (f : Nat) (g : Fn → Fn) : (s.modFn f g).coreMasks = s.coreMasks := rfl
@[simp] theorem modFn_launches (s : State) (f : Nat) (g : Fn → Fn) : (s.modFn f g).launches = s.launches := rfl
@[simp] theorem modFn_teams (s : State) (f : Nat) (g : Fn → Fn) : (s.modFn f g).teams = s.teams := rfl
@[simp] theorem modFn_saved (s : State) (f : Nat) (g : Fn → Fn) : (s.modFn f g).saved = s.saved := rfl
@[simp] theorem modFn_savedRoots (s : State) (f : Nat) (g : Fn → Fn) : (s.modFn f g).savedRoots = s.savedRoots := rfl
@[simp] theorem modFn_cores (s : State) (f : Nat) (g : Fn → Fn) : (s.modFn f g).cores = s.cores := rfl
@[simp] theorem modFn_groveTlb (s : State) (f : Nat) (g : Fn → Fn) : (s.modFn f g).groveTlb = s.groveTlb := rfl
@[simp] theorem modFn_walks (s : State) (f : Nat) (g : Fn → Fn) : (s.modFn f g).walks = s.walks := rfl
@[simp] theorem modFn_migrations (s : State) (f : Nat) (g : Fn → Fn) : (s.modFn f g).migrations = s.migrations := rfl
@[simp] theorem modFn_pinned (s : State) (f : Nat) (g : Fn → Fn) : (s.modFn f g).pinned = s.pinned := rfl
@[simp] theorem modFn_posts (s : State) (f : Nat) (g : Fn → Fn) : (s.modFn f g).posts = s.posts := rfl
@[simp] theorem modFn_bagCmds (s : State) (f : Nat) (g : Fn → Fn) : (s.modFn f g).bagCmds = s.bagCmds := rfl
@[simp] theorem modFn_arrivals (s : State) (f : Nat) (g : Fn → Fn) : (s.modFn f g).arrivals = s.arrivals := rfl
@[simp] theorem modFn_rootCmds (s : State) (f : Nat) (g : Fn → Fn) : (s.modFn f g).rootCmds = s.rootCmds := rfl
@[simp] theorem modFn_units (s : State) (f : Nat) (g : Fn → Fn) : (s.modFn f g).units = s.units := rfl
@[simp] theorem modFn_crown (s : State) (f : Nat) (g : Fn → Fn) : (s.modFn f g).crown = s.crown := rfl
@[simp] theorem modFn_lrel (s : State) (f : Nat) (g : Fn → Fn) : (s.modFn f g).lrel = s.lrel := rfl
@[simp] theorem modFn_promotions (s : State) (f : Nat) (g : Fn → Fn) : (s.modFn f g).promotions = s.promotions := rfl
@[simp] theorem modFn_charges (s : State) (f : Nat) (g : Fn → Fn) : (s.modFn f g).charges = s.charges := rfl
@[simp] theorem modFn_periods (s : State) (f : Nat) (g : Fn → Fn) : (s.modFn f g).periods = s.periods := rfl
@[simp] theorem modFn_perTurn (s : State) (f : Nat) (g : Fn → Fn) : (s.modFn f g).perTurn = s.perTurn := rfl
@[simp] theorem modFn_collects (s : State) (f : Nat) (g : Fn → Fn) : (s.modFn f g).collects = s.collects := rfl
@[simp] theorem modFn_sysOps (s : State) (f : Nat) (g : Fn → Fn) : (s.modFn f g).sysOps = s.sysOps := rfl
@[simp] theorem modFn_slice (s : State) (f : Nat) (g : Fn → Fn) : (s.modFn f g).slice = s.slice := rfl
@[simp] theorem modFn_lags (s : State) (f : Nat) (g : Fn → Fn) : (s.modFn f g).lags = s.lags := rfl
@[simp] theorem modFn_served (s : State) (f : Nat) (g : Fn → Fn) : (s.modFn f g).served = s.served := rfl
@[simp] theorem modFn_rowCounts (s : State) (f : Nat) (g : Fn → Fn) : (s.modFn f g).rowCounts = s.rowCounts := rfl
@[simp] theorem modFn_rowRecords (s : State) (f : Nat) (g : Fn → Fn) : (s.modFn f g).rowRecords = s.rowRecords := rfl
@[simp] theorem modFn_calIdx (s : State) (f : Nat) (g : Fn → Fn) : (s.modFn f g).calIdx = s.calIdx := rfl
@[simp] theorem modFn_pcap (s : State) (f : Nat) (g : Fn → Fn) : (s.modFn f g).pcap = s.pcap := rfl
@[simp] theorem modFn_pstat (s : State) (f : Nat) (g : Fn → Fn) : (s.modFn f g).pstat = s.pstat := rfl
@[simp] theorem modFn_rates (s : State) (f : Nat) (g : Fn → Fn) : (s.modFn f g).rates = s.rates := rfl
@[simp] theorem modFn_links (s : State) (f : Nat) (g : Fn → Fn) : (s.modFn f g).links = s.links := rfl
@[simp] theorem modFn_cxl (s : State) (f : Nat) (g : Fn → Fn) : (s.modFn f g).cxl = s.cxl := rfl
@[simp] theorem modFn_cxlDown (s : State) (f : Nat) (g : Fn → Fn) : (s.modFn f g).cxlDown = s.cxlDown := rfl
@[simp] theorem modFn_wear (s : State) (f : Nat) (g : Fn → Fn) : (s.modFn f g).wear = s.wear := rfl
@[simp] theorem modFn_ctime (s : State) (f : Nat) (g : Fn → Fn) : (s.modFn f g).ctime = s.ctime := rfl
@[simp] theorem modFn_mwsel (s : State) (f : Nat) (g : Fn → Fn) : (s.modFn f g).mwsel = s.mwsel := rfl
@[simp] theorem modFn_mailbox (s : State) (f : Nat) (g : Fn → Fn) : (s.modFn f g).mailbox = s.mailbox := rfl
@[simp] theorem modFn_retired (s : State) (f : Nat) (g : Fn → Fn) : (s.modFn f g).retired = s.retired := rfl
@[simp] theorem modFn_volatileRetired (s : State) (f : Nat) (g : Fn → Fn) : (s.modFn f g).volatileRetired = s.volatileRetired := rfl
@[simp] theorem modFn_rlFull (s : State) (f : Nat) (g : Fn → Fn) : (s.modFn f g).rlFull = s.rlFull := rfl
@[simp] theorem modFn_corrected (s : State) (f : Nat) (g : Fn → Fn) : (s.modFn f g).corrected = s.corrected := rfl
@[simp] theorem modFn_badLines (s : State) (f : Nat) (g : Fn → Fn) : (s.modFn f g).badLines = s.badLines := rfl
@[simp] theorem modFn_errLines (s : State) (f : Nat) (g : Fn → Fn) : (s.modFn f g).errLines = s.errLines := rfl
@[simp] theorem modFn_rowErrs (s : State) (f : Nat) (g : Fn → Fn) : (s.modFn f g).rowErrs = s.rowErrs := rfl
@[simp] theorem modFn_toRetire (s : State) (f : Nat) (g : Fn → Fn) : (s.modFn f g).toRetire = s.toRetire := rfl
@[simp] theorem modFn_rollback (s : State) (f : Nat) (g : Fn → Fn) : (s.modFn f g).rollback = s.rollback := rfl
@[simp] theorem modFn_recovery (s : State) (f : Nat) (g : Fn → Fn) : (s.modFn f g).recovery = s.recovery := rfl
@[simp] theorem modFn_aerFatal (s : State) (f : Nat) (g : Fn → Fn) : (s.modFn f g).aerFatal = s.aerFatal := rfl
@[simp] theorem modFn_aerAborts (s : State) (f : Nat) (g : Fn → Fn) : (s.modFn f g).aerAborts = s.aerAborts := rfl
@[simp] theorem modFn_lastBar2 (s : State) (f : Nat) (g : Fn → Fn) : (s.modFn f g).lastBar2 = s.lastBar2 := rfl
@[simp] theorem modFn_lastBar0 (s : State) (f : Nat) (g : Fn → Fn) : (s.modFn f g).lastBar0 = s.lastBar0 := rfl

/-! ### `modTeam` -/

@[simp] theorem modTeam_cycle (s : State) (t : Nat) (g : Team → Team) : (s.modTeam t g).cycle = s.cycle := rfl
@[simp] theorem modTeam_turns (s : State) (t : Nat) (g : Team → Team) : (s.modTeam t g).turns = s.turns := rfl
@[simp] theorem modTeam_nextId (s : State) (t : Nat) (g : Team → Team) : (s.modTeam t g).nextId = s.nextId := rfl
@[simp] theorem modTeam_agenda (s : State) (t : Nat) (g : Team → Team) : (s.modTeam t g).agenda = s.agenda := rfl
@[simp] theorem modTeam_issue (s : State) (t : Nat) (g : Team → Team) : (s.modTeam t g).issue = s.issue := rfl
@[simp] theorem modTeam_mem (s : State) (t : Nat) (g : Team → Team) : (s.modTeam t g).mem = s.mem := rfl
@[simp] theorem modTeam_hostMem (s : State) (t : Nat) (g : Team → Team) : (s.modTeam t g).hostMem = s.hostMem := rfl
@[simp] theorem modTeam_standMask (s : State) (t : Nat) (g : Team → Team) : (s.modTeam t g).standMask = s.standMask := rfl
@[simp] theorem modTeam_stackMask (s : State) (t : Nat) (g : Team → Team) : (s.modTeam t g).stackMask = s.stackMask := rfl
@[simp] theorem modTeam_coreMasks (s : State) (t : Nat) (g : Team → Team) : (s.modTeam t g).coreMasks = s.coreMasks := rfl
@[simp] theorem modTeam_fns (s : State) (t : Nat) (g : Team → Team) : (s.modTeam t g).fns = s.fns := rfl
@[simp] theorem modTeam_launches (s : State) (t : Nat) (g : Team → Team) : (s.modTeam t g).launches = s.launches := rfl
@[simp] theorem modTeam_saved (s : State) (t : Nat) (g : Team → Team) : (s.modTeam t g).saved = s.saved := rfl
@[simp] theorem modTeam_savedRoots (s : State) (t : Nat) (g : Team → Team) : (s.modTeam t g).savedRoots = s.savedRoots := rfl
@[simp] theorem modTeam_cores (s : State) (t : Nat) (g : Team → Team) : (s.modTeam t g).cores = s.cores := rfl
@[simp] theorem modTeam_groveTlb (s : State) (t : Nat) (g : Team → Team) : (s.modTeam t g).groveTlb = s.groveTlb := rfl
@[simp] theorem modTeam_walks (s : State) (t : Nat) (g : Team → Team) : (s.modTeam t g).walks = s.walks := rfl
@[simp] theorem modTeam_migrations (s : State) (t : Nat) (g : Team → Team) : (s.modTeam t g).migrations = s.migrations := rfl
@[simp] theorem modTeam_pinned (s : State) (t : Nat) (g : Team → Team) : (s.modTeam t g).pinned = s.pinned := rfl
@[simp] theorem modTeam_posts (s : State) (t : Nat) (g : Team → Team) : (s.modTeam t g).posts = s.posts := rfl
@[simp] theorem modTeam_bagCmds (s : State) (t : Nat) (g : Team → Team) : (s.modTeam t g).bagCmds = s.bagCmds := rfl
@[simp] theorem modTeam_arrivals (s : State) (t : Nat) (g : Team → Team) : (s.modTeam t g).arrivals = s.arrivals := rfl
@[simp] theorem modTeam_rootCmds (s : State) (t : Nat) (g : Team → Team) : (s.modTeam t g).rootCmds = s.rootCmds := rfl
@[simp] theorem modTeam_units (s : State) (t : Nat) (g : Team → Team) : (s.modTeam t g).units = s.units := rfl
@[simp] theorem modTeam_crown (s : State) (t : Nat) (g : Team → Team) : (s.modTeam t g).crown = s.crown := rfl
@[simp] theorem modTeam_lrel (s : State) (t : Nat) (g : Team → Team) : (s.modTeam t g).lrel = s.lrel := rfl
@[simp] theorem modTeam_promotions (s : State) (t : Nat) (g : Team → Team) : (s.modTeam t g).promotions = s.promotions := rfl
@[simp] theorem modTeam_charges (s : State) (t : Nat) (g : Team → Team) : (s.modTeam t g).charges = s.charges := rfl
@[simp] theorem modTeam_periods (s : State) (t : Nat) (g : Team → Team) : (s.modTeam t g).periods = s.periods := rfl
@[simp] theorem modTeam_perTurn (s : State) (t : Nat) (g : Team → Team) : (s.modTeam t g).perTurn = s.perTurn := rfl
@[simp] theorem modTeam_collects (s : State) (t : Nat) (g : Team → Team) : (s.modTeam t g).collects = s.collects := rfl
@[simp] theorem modTeam_sysOps (s : State) (t : Nat) (g : Team → Team) : (s.modTeam t g).sysOps = s.sysOps := rfl
@[simp] theorem modTeam_slice (s : State) (t : Nat) (g : Team → Team) : (s.modTeam t g).slice = s.slice := rfl
@[simp] theorem modTeam_lags (s : State) (t : Nat) (g : Team → Team) : (s.modTeam t g).lags = s.lags := rfl
@[simp] theorem modTeam_served (s : State) (t : Nat) (g : Team → Team) : (s.modTeam t g).served = s.served := rfl
@[simp] theorem modTeam_rowCounts (s : State) (t : Nat) (g : Team → Team) : (s.modTeam t g).rowCounts = s.rowCounts := rfl
@[simp] theorem modTeam_rowRecords (s : State) (t : Nat) (g : Team → Team) : (s.modTeam t g).rowRecords = s.rowRecords := rfl
@[simp] theorem modTeam_calIdx (s : State) (t : Nat) (g : Team → Team) : (s.modTeam t g).calIdx = s.calIdx := rfl
@[simp] theorem modTeam_pcap (s : State) (t : Nat) (g : Team → Team) : (s.modTeam t g).pcap = s.pcap := rfl
@[simp] theorem modTeam_pstat (s : State) (t : Nat) (g : Team → Team) : (s.modTeam t g).pstat = s.pstat := rfl
@[simp] theorem modTeam_rates (s : State) (t : Nat) (g : Team → Team) : (s.modTeam t g).rates = s.rates := rfl
@[simp] theorem modTeam_links (s : State) (t : Nat) (g : Team → Team) : (s.modTeam t g).links = s.links := rfl
@[simp] theorem modTeam_cxl (s : State) (t : Nat) (g : Team → Team) : (s.modTeam t g).cxl = s.cxl := rfl
@[simp] theorem modTeam_cxlDown (s : State) (t : Nat) (g : Team → Team) : (s.modTeam t g).cxlDown = s.cxlDown := rfl
@[simp] theorem modTeam_wear (s : State) (t : Nat) (g : Team → Team) : (s.modTeam t g).wear = s.wear := rfl
@[simp] theorem modTeam_ctime (s : State) (t : Nat) (g : Team → Team) : (s.modTeam t g).ctime = s.ctime := rfl
@[simp] theorem modTeam_mwsel (s : State) (t : Nat) (g : Team → Team) : (s.modTeam t g).mwsel = s.mwsel := rfl
@[simp] theorem modTeam_mailbox (s : State) (t : Nat) (g : Team → Team) : (s.modTeam t g).mailbox = s.mailbox := rfl
@[simp] theorem modTeam_retired (s : State) (t : Nat) (g : Team → Team) : (s.modTeam t g).retired = s.retired := rfl
@[simp] theorem modTeam_volatileRetired (s : State) (t : Nat) (g : Team → Team) : (s.modTeam t g).volatileRetired = s.volatileRetired := rfl
@[simp] theorem modTeam_rlFull (s : State) (t : Nat) (g : Team → Team) : (s.modTeam t g).rlFull = s.rlFull := rfl
@[simp] theorem modTeam_corrected (s : State) (t : Nat) (g : Team → Team) : (s.modTeam t g).corrected = s.corrected := rfl
@[simp] theorem modTeam_badLines (s : State) (t : Nat) (g : Team → Team) : (s.modTeam t g).badLines = s.badLines := rfl
@[simp] theorem modTeam_errLines (s : State) (t : Nat) (g : Team → Team) : (s.modTeam t g).errLines = s.errLines := rfl
@[simp] theorem modTeam_rowErrs (s : State) (t : Nat) (g : Team → Team) : (s.modTeam t g).rowErrs = s.rowErrs := rfl
@[simp] theorem modTeam_toRetire (s : State) (t : Nat) (g : Team → Team) : (s.modTeam t g).toRetire = s.toRetire := rfl
@[simp] theorem modTeam_rollback (s : State) (t : Nat) (g : Team → Team) : (s.modTeam t g).rollback = s.rollback := rfl
@[simp] theorem modTeam_recovery (s : State) (t : Nat) (g : Team → Team) : (s.modTeam t g).recovery = s.recovery := rfl
@[simp] theorem modTeam_aerFatal (s : State) (t : Nat) (g : Team → Team) : (s.modTeam t g).aerFatal = s.aerFatal := rfl
@[simp] theorem modTeam_aerAborts (s : State) (t : Nat) (g : Team → Team) : (s.modTeam t g).aerAborts = s.aerAborts := rfl
@[simp] theorem modTeam_lastBar2 (s : State) (t : Nat) (g : Team → Team) : (s.modTeam t g).lastBar2 = s.lastBar2 := rfl
@[simp] theorem modTeam_lastBar0 (s : State) (t : Nat) (g : Team → Team) : (s.modTeam t g).lastBar0 = s.lastBar0 := rfl

/-! ### `modWave` -/

@[simp] theorem modWave_cycle (s : State) (r : WaveRef) (g : Wave → Wave) : (s.modWave r g).cycle = s.cycle := rfl
@[simp] theorem modWave_turns (s : State) (r : WaveRef) (g : Wave → Wave) : (s.modWave r g).turns = s.turns := rfl
@[simp] theorem modWave_nextId (s : State) (r : WaveRef) (g : Wave → Wave) : (s.modWave r g).nextId = s.nextId := rfl
@[simp] theorem modWave_agenda (s : State) (r : WaveRef) (g : Wave → Wave) : (s.modWave r g).agenda = s.agenda := rfl
@[simp] theorem modWave_issue (s : State) (r : WaveRef) (g : Wave → Wave) : (s.modWave r g).issue = s.issue := rfl
@[simp] theorem modWave_mem (s : State) (r : WaveRef) (g : Wave → Wave) : (s.modWave r g).mem = s.mem := rfl
@[simp] theorem modWave_hostMem (s : State) (r : WaveRef) (g : Wave → Wave) : (s.modWave r g).hostMem = s.hostMem := rfl
@[simp] theorem modWave_standMask (s : State) (r : WaveRef) (g : Wave → Wave) : (s.modWave r g).standMask = s.standMask := rfl
@[simp] theorem modWave_stackMask (s : State) (r : WaveRef) (g : Wave → Wave) : (s.modWave r g).stackMask = s.stackMask := rfl
@[simp] theorem modWave_coreMasks (s : State) (r : WaveRef) (g : Wave → Wave) : (s.modWave r g).coreMasks = s.coreMasks := rfl
@[simp] theorem modWave_fns (s : State) (r : WaveRef) (g : Wave → Wave) : (s.modWave r g).fns = s.fns := rfl
@[simp] theorem modWave_launches (s : State) (r : WaveRef) (g : Wave → Wave) : (s.modWave r g).launches = s.launches := rfl
@[simp] theorem modWave_saved (s : State) (r : WaveRef) (g : Wave → Wave) : (s.modWave r g).saved = s.saved := rfl
@[simp] theorem modWave_savedRoots (s : State) (r : WaveRef) (g : Wave → Wave) : (s.modWave r g).savedRoots = s.savedRoots := rfl
@[simp] theorem modWave_cores (s : State) (r : WaveRef) (g : Wave → Wave) : (s.modWave r g).cores = s.cores := rfl
@[simp] theorem modWave_groveTlb (s : State) (r : WaveRef) (g : Wave → Wave) : (s.modWave r g).groveTlb = s.groveTlb := rfl
@[simp] theorem modWave_walks (s : State) (r : WaveRef) (g : Wave → Wave) : (s.modWave r g).walks = s.walks := rfl
@[simp] theorem modWave_migrations (s : State) (r : WaveRef) (g : Wave → Wave) : (s.modWave r g).migrations = s.migrations := rfl
@[simp] theorem modWave_pinned (s : State) (r : WaveRef) (g : Wave → Wave) : (s.modWave r g).pinned = s.pinned := rfl
@[simp] theorem modWave_posts (s : State) (r : WaveRef) (g : Wave → Wave) : (s.modWave r g).posts = s.posts := rfl
@[simp] theorem modWave_bagCmds (s : State) (r : WaveRef) (g : Wave → Wave) : (s.modWave r g).bagCmds = s.bagCmds := rfl
@[simp] theorem modWave_arrivals (s : State) (r : WaveRef) (g : Wave → Wave) : (s.modWave r g).arrivals = s.arrivals := rfl
@[simp] theorem modWave_rootCmds (s : State) (r : WaveRef) (g : Wave → Wave) : (s.modWave r g).rootCmds = s.rootCmds := rfl
@[simp] theorem modWave_units (s : State) (r : WaveRef) (g : Wave → Wave) : (s.modWave r g).units = s.units := rfl
@[simp] theorem modWave_crown (s : State) (r : WaveRef) (g : Wave → Wave) : (s.modWave r g).crown = s.crown := rfl
@[simp] theorem modWave_lrel (s : State) (r : WaveRef) (g : Wave → Wave) : (s.modWave r g).lrel = s.lrel := rfl
@[simp] theorem modWave_promotions (s : State) (r : WaveRef) (g : Wave → Wave) : (s.modWave r g).promotions = s.promotions := rfl
@[simp] theorem modWave_charges (s : State) (r : WaveRef) (g : Wave → Wave) : (s.modWave r g).charges = s.charges := rfl
@[simp] theorem modWave_periods (s : State) (r : WaveRef) (g : Wave → Wave) : (s.modWave r g).periods = s.periods := rfl
@[simp] theorem modWave_perTurn (s : State) (r : WaveRef) (g : Wave → Wave) : (s.modWave r g).perTurn = s.perTurn := rfl
@[simp] theorem modWave_collects (s : State) (r : WaveRef) (g : Wave → Wave) : (s.modWave r g).collects = s.collects := rfl
@[simp] theorem modWave_sysOps (s : State) (r : WaveRef) (g : Wave → Wave) : (s.modWave r g).sysOps = s.sysOps := rfl
@[simp] theorem modWave_slice (s : State) (r : WaveRef) (g : Wave → Wave) : (s.modWave r g).slice = s.slice := rfl
@[simp] theorem modWave_lags (s : State) (r : WaveRef) (g : Wave → Wave) : (s.modWave r g).lags = s.lags := rfl
@[simp] theorem modWave_served (s : State) (r : WaveRef) (g : Wave → Wave) : (s.modWave r g).served = s.served := rfl
@[simp] theorem modWave_rowCounts (s : State) (r : WaveRef) (g : Wave → Wave) : (s.modWave r g).rowCounts = s.rowCounts := rfl
@[simp] theorem modWave_rowRecords (s : State) (r : WaveRef) (g : Wave → Wave) : (s.modWave r g).rowRecords = s.rowRecords := rfl
@[simp] theorem modWave_calIdx (s : State) (r : WaveRef) (g : Wave → Wave) : (s.modWave r g).calIdx = s.calIdx := rfl
@[simp] theorem modWave_pcap (s : State) (r : WaveRef) (g : Wave → Wave) : (s.modWave r g).pcap = s.pcap := rfl
@[simp] theorem modWave_pstat (s : State) (r : WaveRef) (g : Wave → Wave) : (s.modWave r g).pstat = s.pstat := rfl
@[simp] theorem modWave_rates (s : State) (r : WaveRef) (g : Wave → Wave) : (s.modWave r g).rates = s.rates := rfl
@[simp] theorem modWave_links (s : State) (r : WaveRef) (g : Wave → Wave) : (s.modWave r g).links = s.links := rfl
@[simp] theorem modWave_cxl (s : State) (r : WaveRef) (g : Wave → Wave) : (s.modWave r g).cxl = s.cxl := rfl
@[simp] theorem modWave_cxlDown (s : State) (r : WaveRef) (g : Wave → Wave) : (s.modWave r g).cxlDown = s.cxlDown := rfl
@[simp] theorem modWave_wear (s : State) (r : WaveRef) (g : Wave → Wave) : (s.modWave r g).wear = s.wear := rfl
@[simp] theorem modWave_ctime (s : State) (r : WaveRef) (g : Wave → Wave) : (s.modWave r g).ctime = s.ctime := rfl
@[simp] theorem modWave_mwsel (s : State) (r : WaveRef) (g : Wave → Wave) : (s.modWave r g).mwsel = s.mwsel := rfl
@[simp] theorem modWave_mailbox (s : State) (r : WaveRef) (g : Wave → Wave) : (s.modWave r g).mailbox = s.mailbox := rfl
@[simp] theorem modWave_retired (s : State) (r : WaveRef) (g : Wave → Wave) : (s.modWave r g).retired = s.retired := rfl
@[simp] theorem modWave_volatileRetired (s : State) (r : WaveRef) (g : Wave → Wave) : (s.modWave r g).volatileRetired = s.volatileRetired := rfl
@[simp] theorem modWave_rlFull (s : State) (r : WaveRef) (g : Wave → Wave) : (s.modWave r g).rlFull = s.rlFull := rfl
@[simp] theorem modWave_corrected (s : State) (r : WaveRef) (g : Wave → Wave) : (s.modWave r g).corrected = s.corrected := rfl
@[simp] theorem modWave_badLines (s : State) (r : WaveRef) (g : Wave → Wave) : (s.modWave r g).badLines = s.badLines := rfl
@[simp] theorem modWave_errLines (s : State) (r : WaveRef) (g : Wave → Wave) : (s.modWave r g).errLines = s.errLines := rfl
@[simp] theorem modWave_rowErrs (s : State) (r : WaveRef) (g : Wave → Wave) : (s.modWave r g).rowErrs = s.rowErrs := rfl
@[simp] theorem modWave_toRetire (s : State) (r : WaveRef) (g : Wave → Wave) : (s.modWave r g).toRetire = s.toRetire := rfl
@[simp] theorem modWave_rollback (s : State) (r : WaveRef) (g : Wave → Wave) : (s.modWave r g).rollback = s.rollback := rfl
@[simp] theorem modWave_recovery (s : State) (r : WaveRef) (g : Wave → Wave) : (s.modWave r g).recovery = s.recovery := rfl
@[simp] theorem modWave_aerFatal (s : State) (r : WaveRef) (g : Wave → Wave) : (s.modWave r g).aerFatal = s.aerFatal := rfl
@[simp] theorem modWave_aerAborts (s : State) (r : WaveRef) (g : Wave → Wave) : (s.modWave r g).aerAborts = s.aerAborts := rfl
@[simp] theorem modWave_lastBar2 (s : State) (r : WaveRef) (g : Wave → Wave) : (s.modWave r g).lastBar2 = s.lastBar2 := rfl
@[simp] theorem modWave_lastBar0 (s : State) (r : WaveRef) (g : Wave → Wave) : (s.modWave r g).lastBar0 = s.lastBar0 := rfl

/-! ### `onLanes` -/

@[simp] theorem onLanes_cycle (s : State) (r : WaveRef) (m : Mask) (g : Lane → Lane) : (s.onLanes r m g).cycle = s.cycle := rfl
@[simp] theorem onLanes_turns (s : State) (r : WaveRef) (m : Mask) (g : Lane → Lane) : (s.onLanes r m g).turns = s.turns := rfl
@[simp] theorem onLanes_nextId (s : State) (r : WaveRef) (m : Mask) (g : Lane → Lane) : (s.onLanes r m g).nextId = s.nextId := rfl
@[simp] theorem onLanes_agenda (s : State) (r : WaveRef) (m : Mask) (g : Lane → Lane) : (s.onLanes r m g).agenda = s.agenda := rfl
@[simp] theorem onLanes_issue (s : State) (r : WaveRef) (m : Mask) (g : Lane → Lane) : (s.onLanes r m g).issue = s.issue := rfl
@[simp] theorem onLanes_mem (s : State) (r : WaveRef) (m : Mask) (g : Lane → Lane) : (s.onLanes r m g).mem = s.mem := rfl
@[simp] theorem onLanes_hostMem (s : State) (r : WaveRef) (m : Mask) (g : Lane → Lane) : (s.onLanes r m g).hostMem = s.hostMem := rfl
@[simp] theorem onLanes_standMask (s : State) (r : WaveRef) (m : Mask) (g : Lane → Lane) : (s.onLanes r m g).standMask = s.standMask := rfl
@[simp] theorem onLanes_stackMask (s : State) (r : WaveRef) (m : Mask) (g : Lane → Lane) : (s.onLanes r m g).stackMask = s.stackMask := rfl
@[simp] theorem onLanes_coreMasks (s : State) (r : WaveRef) (m : Mask) (g : Lane → Lane) : (s.onLanes r m g).coreMasks = s.coreMasks := rfl
@[simp] theorem onLanes_fns (s : State) (r : WaveRef) (m : Mask) (g : Lane → Lane) : (s.onLanes r m g).fns = s.fns := rfl
@[simp] theorem onLanes_launches (s : State) (r : WaveRef) (m : Mask) (g : Lane → Lane) : (s.onLanes r m g).launches = s.launches := rfl
@[simp] theorem onLanes_saved (s : State) (r : WaveRef) (m : Mask) (g : Lane → Lane) : (s.onLanes r m g).saved = s.saved := rfl
@[simp] theorem onLanes_savedRoots (s : State) (r : WaveRef) (m : Mask) (g : Lane → Lane) : (s.onLanes r m g).savedRoots = s.savedRoots := rfl
@[simp] theorem onLanes_cores (s : State) (r : WaveRef) (m : Mask) (g : Lane → Lane) : (s.onLanes r m g).cores = s.cores := rfl
@[simp] theorem onLanes_groveTlb (s : State) (r : WaveRef) (m : Mask) (g : Lane → Lane) : (s.onLanes r m g).groveTlb = s.groveTlb := rfl
@[simp] theorem onLanes_walks (s : State) (r : WaveRef) (m : Mask) (g : Lane → Lane) : (s.onLanes r m g).walks = s.walks := rfl
@[simp] theorem onLanes_migrations (s : State) (r : WaveRef) (m : Mask) (g : Lane → Lane) : (s.onLanes r m g).migrations = s.migrations := rfl
@[simp] theorem onLanes_pinned (s : State) (r : WaveRef) (m : Mask) (g : Lane → Lane) : (s.onLanes r m g).pinned = s.pinned := rfl
@[simp] theorem onLanes_posts (s : State) (r : WaveRef) (m : Mask) (g : Lane → Lane) : (s.onLanes r m g).posts = s.posts := rfl
@[simp] theorem onLanes_bagCmds (s : State) (r : WaveRef) (m : Mask) (g : Lane → Lane) : (s.onLanes r m g).bagCmds = s.bagCmds := rfl
@[simp] theorem onLanes_arrivals (s : State) (r : WaveRef) (m : Mask) (g : Lane → Lane) : (s.onLanes r m g).arrivals = s.arrivals := rfl
@[simp] theorem onLanes_rootCmds (s : State) (r : WaveRef) (m : Mask) (g : Lane → Lane) : (s.onLanes r m g).rootCmds = s.rootCmds := rfl
@[simp] theorem onLanes_units (s : State) (r : WaveRef) (m : Mask) (g : Lane → Lane) : (s.onLanes r m g).units = s.units := rfl
@[simp] theorem onLanes_crown (s : State) (r : WaveRef) (m : Mask) (g : Lane → Lane) : (s.onLanes r m g).crown = s.crown := rfl
@[simp] theorem onLanes_lrel (s : State) (r : WaveRef) (m : Mask) (g : Lane → Lane) : (s.onLanes r m g).lrel = s.lrel := rfl
@[simp] theorem onLanes_promotions (s : State) (r : WaveRef) (m : Mask) (g : Lane → Lane) : (s.onLanes r m g).promotions = s.promotions := rfl
@[simp] theorem onLanes_charges (s : State) (r : WaveRef) (m : Mask) (g : Lane → Lane) : (s.onLanes r m g).charges = s.charges := rfl
@[simp] theorem onLanes_periods (s : State) (r : WaveRef) (m : Mask) (g : Lane → Lane) : (s.onLanes r m g).periods = s.periods := rfl
@[simp] theorem onLanes_perTurn (s : State) (r : WaveRef) (m : Mask) (g : Lane → Lane) : (s.onLanes r m g).perTurn = s.perTurn := rfl
@[simp] theorem onLanes_collects (s : State) (r : WaveRef) (m : Mask) (g : Lane → Lane) : (s.onLanes r m g).collects = s.collects := rfl
@[simp] theorem onLanes_sysOps (s : State) (r : WaveRef) (m : Mask) (g : Lane → Lane) : (s.onLanes r m g).sysOps = s.sysOps := rfl
@[simp] theorem onLanes_slice (s : State) (r : WaveRef) (m : Mask) (g : Lane → Lane) : (s.onLanes r m g).slice = s.slice := rfl
@[simp] theorem onLanes_lags (s : State) (r : WaveRef) (m : Mask) (g : Lane → Lane) : (s.onLanes r m g).lags = s.lags := rfl
@[simp] theorem onLanes_served (s : State) (r : WaveRef) (m : Mask) (g : Lane → Lane) : (s.onLanes r m g).served = s.served := rfl
@[simp] theorem onLanes_rowCounts (s : State) (r : WaveRef) (m : Mask) (g : Lane → Lane) : (s.onLanes r m g).rowCounts = s.rowCounts := rfl
@[simp] theorem onLanes_rowRecords (s : State) (r : WaveRef) (m : Mask) (g : Lane → Lane) : (s.onLanes r m g).rowRecords = s.rowRecords := rfl
@[simp] theorem onLanes_calIdx (s : State) (r : WaveRef) (m : Mask) (g : Lane → Lane) : (s.onLanes r m g).calIdx = s.calIdx := rfl
@[simp] theorem onLanes_pcap (s : State) (r : WaveRef) (m : Mask) (g : Lane → Lane) : (s.onLanes r m g).pcap = s.pcap := rfl
@[simp] theorem onLanes_pstat (s : State) (r : WaveRef) (m : Mask) (g : Lane → Lane) : (s.onLanes r m g).pstat = s.pstat := rfl
@[simp] theorem onLanes_rates (s : State) (r : WaveRef) (m : Mask) (g : Lane → Lane) : (s.onLanes r m g).rates = s.rates := rfl
@[simp] theorem onLanes_links (s : State) (r : WaveRef) (m : Mask) (g : Lane → Lane) : (s.onLanes r m g).links = s.links := rfl
@[simp] theorem onLanes_cxl (s : State) (r : WaveRef) (m : Mask) (g : Lane → Lane) : (s.onLanes r m g).cxl = s.cxl := rfl
@[simp] theorem onLanes_cxlDown (s : State) (r : WaveRef) (m : Mask) (g : Lane → Lane) : (s.onLanes r m g).cxlDown = s.cxlDown := rfl
@[simp] theorem onLanes_wear (s : State) (r : WaveRef) (m : Mask) (g : Lane → Lane) : (s.onLanes r m g).wear = s.wear := rfl
@[simp] theorem onLanes_ctime (s : State) (r : WaveRef) (m : Mask) (g : Lane → Lane) : (s.onLanes r m g).ctime = s.ctime := rfl
@[simp] theorem onLanes_mwsel (s : State) (r : WaveRef) (m : Mask) (g : Lane → Lane) : (s.onLanes r m g).mwsel = s.mwsel := rfl
@[simp] theorem onLanes_mailbox (s : State) (r : WaveRef) (m : Mask) (g : Lane → Lane) : (s.onLanes r m g).mailbox = s.mailbox := rfl
@[simp] theorem onLanes_retired (s : State) (r : WaveRef) (m : Mask) (g : Lane → Lane) : (s.onLanes r m g).retired = s.retired := rfl
@[simp] theorem onLanes_volatileRetired (s : State) (r : WaveRef) (m : Mask) (g : Lane → Lane) : (s.onLanes r m g).volatileRetired = s.volatileRetired := rfl
@[simp] theorem onLanes_rlFull (s : State) (r : WaveRef) (m : Mask) (g : Lane → Lane) : (s.onLanes r m g).rlFull = s.rlFull := rfl
@[simp] theorem onLanes_corrected (s : State) (r : WaveRef) (m : Mask) (g : Lane → Lane) : (s.onLanes r m g).corrected = s.corrected := rfl
@[simp] theorem onLanes_badLines (s : State) (r : WaveRef) (m : Mask) (g : Lane → Lane) : (s.onLanes r m g).badLines = s.badLines := rfl
@[simp] theorem onLanes_errLines (s : State) (r : WaveRef) (m : Mask) (g : Lane → Lane) : (s.onLanes r m g).errLines = s.errLines := rfl
@[simp] theorem onLanes_rowErrs (s : State) (r : WaveRef) (m : Mask) (g : Lane → Lane) : (s.onLanes r m g).rowErrs = s.rowErrs := rfl
@[simp] theorem onLanes_toRetire (s : State) (r : WaveRef) (m : Mask) (g : Lane → Lane) : (s.onLanes r m g).toRetire = s.toRetire := rfl
@[simp] theorem onLanes_rollback (s : State) (r : WaveRef) (m : Mask) (g : Lane → Lane) : (s.onLanes r m g).rollback = s.rollback := rfl
@[simp] theorem onLanes_recovery (s : State) (r : WaveRef) (m : Mask) (g : Lane → Lane) : (s.onLanes r m g).recovery = s.recovery := rfl
@[simp] theorem onLanes_aerFatal (s : State) (r : WaveRef) (m : Mask) (g : Lane → Lane) : (s.onLanes r m g).aerFatal = s.aerFatal := rfl
@[simp] theorem onLanes_aerAborts (s : State) (r : WaveRef) (m : Mask) (g : Lane → Lane) : (s.onLanes r m g).aerAborts = s.aerAborts := rfl
@[simp] theorem onLanes_lastBar2 (s : State) (r : WaveRef) (m : Mask) (g : Lane → Lane) : (s.onLanes r m g).lastBar2 = s.lastBar2 := rfl
@[simp] theorem onLanes_lastBar0 (s : State) (r : WaveRef) (m : Mask) (g : Lane → Lane) : (s.onLanes r m g).lastBar0 = s.lastBar0 := rfl

/-! ### `modLaunch` -/

@[simp] theorem modLaunch_cycle (s : State) (l : Nat) (g : Launch → Launch) : (s.modLaunch l g).cycle = s.cycle := rfl
@[simp] theorem modLaunch_turns (s : State) (l : Nat) (g : Launch → Launch) : (s.modLaunch l g).turns = s.turns := rfl
@[simp] theorem modLaunch_nextId (s : State) (l : Nat) (g : Launch → Launch) : (s.modLaunch l g).nextId = s.nextId := rfl
@[simp] theorem modLaunch_agenda (s : State) (l : Nat) (g : Launch → Launch) : (s.modLaunch l g).agenda = s.agenda := rfl
@[simp] theorem modLaunch_issue (s : State) (l : Nat) (g : Launch → Launch) : (s.modLaunch l g).issue = s.issue := rfl
@[simp] theorem modLaunch_mem (s : State) (l : Nat) (g : Launch → Launch) : (s.modLaunch l g).mem = s.mem := rfl
@[simp] theorem modLaunch_hostMem (s : State) (l : Nat) (g : Launch → Launch) : (s.modLaunch l g).hostMem = s.hostMem := rfl
@[simp] theorem modLaunch_standMask (s : State) (l : Nat) (g : Launch → Launch) : (s.modLaunch l g).standMask = s.standMask := rfl
@[simp] theorem modLaunch_stackMask (s : State) (l : Nat) (g : Launch → Launch) : (s.modLaunch l g).stackMask = s.stackMask := rfl
@[simp] theorem modLaunch_coreMasks (s : State) (l : Nat) (g : Launch → Launch) : (s.modLaunch l g).coreMasks = s.coreMasks := rfl
@[simp] theorem modLaunch_fns (s : State) (l : Nat) (g : Launch → Launch) : (s.modLaunch l g).fns = s.fns := rfl
@[simp] theorem modLaunch_teams (s : State) (l : Nat) (g : Launch → Launch) : (s.modLaunch l g).teams = s.teams := rfl
@[simp] theorem modLaunch_saved (s : State) (l : Nat) (g : Launch → Launch) : (s.modLaunch l g).saved = s.saved := rfl
@[simp] theorem modLaunch_savedRoots (s : State) (l : Nat) (g : Launch → Launch) : (s.modLaunch l g).savedRoots = s.savedRoots := rfl
@[simp] theorem modLaunch_cores (s : State) (l : Nat) (g : Launch → Launch) : (s.modLaunch l g).cores = s.cores := rfl
@[simp] theorem modLaunch_groveTlb (s : State) (l : Nat) (g : Launch → Launch) : (s.modLaunch l g).groveTlb = s.groveTlb := rfl
@[simp] theorem modLaunch_walks (s : State) (l : Nat) (g : Launch → Launch) : (s.modLaunch l g).walks = s.walks := rfl
@[simp] theorem modLaunch_migrations (s : State) (l : Nat) (g : Launch → Launch) : (s.modLaunch l g).migrations = s.migrations := rfl
@[simp] theorem modLaunch_pinned (s : State) (l : Nat) (g : Launch → Launch) : (s.modLaunch l g).pinned = s.pinned := rfl
@[simp] theorem modLaunch_posts (s : State) (l : Nat) (g : Launch → Launch) : (s.modLaunch l g).posts = s.posts := rfl
@[simp] theorem modLaunch_bagCmds (s : State) (l : Nat) (g : Launch → Launch) : (s.modLaunch l g).bagCmds = s.bagCmds := rfl
@[simp] theorem modLaunch_arrivals (s : State) (l : Nat) (g : Launch → Launch) : (s.modLaunch l g).arrivals = s.arrivals := rfl
@[simp] theorem modLaunch_rootCmds (s : State) (l : Nat) (g : Launch → Launch) : (s.modLaunch l g).rootCmds = s.rootCmds := rfl
@[simp] theorem modLaunch_units (s : State) (l : Nat) (g : Launch → Launch) : (s.modLaunch l g).units = s.units := rfl
@[simp] theorem modLaunch_crown (s : State) (l : Nat) (g : Launch → Launch) : (s.modLaunch l g).crown = s.crown := rfl
@[simp] theorem modLaunch_lrel (s : State) (l : Nat) (g : Launch → Launch) : (s.modLaunch l g).lrel = s.lrel := rfl
@[simp] theorem modLaunch_promotions (s : State) (l : Nat) (g : Launch → Launch) : (s.modLaunch l g).promotions = s.promotions := rfl
@[simp] theorem modLaunch_charges (s : State) (l : Nat) (g : Launch → Launch) : (s.modLaunch l g).charges = s.charges := rfl
@[simp] theorem modLaunch_periods (s : State) (l : Nat) (g : Launch → Launch) : (s.modLaunch l g).periods = s.periods := rfl
@[simp] theorem modLaunch_perTurn (s : State) (l : Nat) (g : Launch → Launch) : (s.modLaunch l g).perTurn = s.perTurn := rfl
@[simp] theorem modLaunch_collects (s : State) (l : Nat) (g : Launch → Launch) : (s.modLaunch l g).collects = s.collects := rfl
@[simp] theorem modLaunch_sysOps (s : State) (l : Nat) (g : Launch → Launch) : (s.modLaunch l g).sysOps = s.sysOps := rfl
@[simp] theorem modLaunch_slice (s : State) (l : Nat) (g : Launch → Launch) : (s.modLaunch l g).slice = s.slice := rfl
@[simp] theorem modLaunch_lags (s : State) (l : Nat) (g : Launch → Launch) : (s.modLaunch l g).lags = s.lags := rfl
@[simp] theorem modLaunch_served (s : State) (l : Nat) (g : Launch → Launch) : (s.modLaunch l g).served = s.served := rfl
@[simp] theorem modLaunch_rowCounts (s : State) (l : Nat) (g : Launch → Launch) : (s.modLaunch l g).rowCounts = s.rowCounts := rfl
@[simp] theorem modLaunch_rowRecords (s : State) (l : Nat) (g : Launch → Launch) : (s.modLaunch l g).rowRecords = s.rowRecords := rfl
@[simp] theorem modLaunch_calIdx (s : State) (l : Nat) (g : Launch → Launch) : (s.modLaunch l g).calIdx = s.calIdx := rfl
@[simp] theorem modLaunch_pcap (s : State) (l : Nat) (g : Launch → Launch) : (s.modLaunch l g).pcap = s.pcap := rfl
@[simp] theorem modLaunch_pstat (s : State) (l : Nat) (g : Launch → Launch) : (s.modLaunch l g).pstat = s.pstat := rfl
@[simp] theorem modLaunch_rates (s : State) (l : Nat) (g : Launch → Launch) : (s.modLaunch l g).rates = s.rates := rfl
@[simp] theorem modLaunch_links (s : State) (l : Nat) (g : Launch → Launch) : (s.modLaunch l g).links = s.links := rfl
@[simp] theorem modLaunch_cxl (s : State) (l : Nat) (g : Launch → Launch) : (s.modLaunch l g).cxl = s.cxl := rfl
@[simp] theorem modLaunch_cxlDown (s : State) (l : Nat) (g : Launch → Launch) : (s.modLaunch l g).cxlDown = s.cxlDown := rfl
@[simp] theorem modLaunch_wear (s : State) (l : Nat) (g : Launch → Launch) : (s.modLaunch l g).wear = s.wear := rfl
@[simp] theorem modLaunch_ctime (s : State) (l : Nat) (g : Launch → Launch) : (s.modLaunch l g).ctime = s.ctime := rfl
@[simp] theorem modLaunch_mwsel (s : State) (l : Nat) (g : Launch → Launch) : (s.modLaunch l g).mwsel = s.mwsel := rfl
@[simp] theorem modLaunch_mailbox (s : State) (l : Nat) (g : Launch → Launch) : (s.modLaunch l g).mailbox = s.mailbox := rfl
@[simp] theorem modLaunch_retired (s : State) (l : Nat) (g : Launch → Launch) : (s.modLaunch l g).retired = s.retired := rfl
@[simp] theorem modLaunch_volatileRetired (s : State) (l : Nat) (g : Launch → Launch) : (s.modLaunch l g).volatileRetired = s.volatileRetired := rfl
@[simp] theorem modLaunch_rlFull (s : State) (l : Nat) (g : Launch → Launch) : (s.modLaunch l g).rlFull = s.rlFull := rfl
@[simp] theorem modLaunch_corrected (s : State) (l : Nat) (g : Launch → Launch) : (s.modLaunch l g).corrected = s.corrected := rfl
@[simp] theorem modLaunch_badLines (s : State) (l : Nat) (g : Launch → Launch) : (s.modLaunch l g).badLines = s.badLines := rfl
@[simp] theorem modLaunch_errLines (s : State) (l : Nat) (g : Launch → Launch) : (s.modLaunch l g).errLines = s.errLines := rfl
@[simp] theorem modLaunch_rowErrs (s : State) (l : Nat) (g : Launch → Launch) : (s.modLaunch l g).rowErrs = s.rowErrs := rfl
@[simp] theorem modLaunch_toRetire (s : State) (l : Nat) (g : Launch → Launch) : (s.modLaunch l g).toRetire = s.toRetire := rfl
@[simp] theorem modLaunch_rollback (s : State) (l : Nat) (g : Launch → Launch) : (s.modLaunch l g).rollback = s.rollback := rfl
@[simp] theorem modLaunch_recovery (s : State) (l : Nat) (g : Launch → Launch) : (s.modLaunch l g).recovery = s.recovery := rfl
@[simp] theorem modLaunch_aerFatal (s : State) (l : Nat) (g : Launch → Launch) : (s.modLaunch l g).aerFatal = s.aerFatal := rfl
@[simp] theorem modLaunch_aerAborts (s : State) (l : Nat) (g : Launch → Launch) : (s.modLaunch l g).aerAborts = s.aerAborts := rfl
@[simp] theorem modLaunch_lastBar2 (s : State) (l : Nat) (g : Launch → Launch) : (s.modLaunch l g).lastBar2 = s.lastBar2 := rfl
@[simp] theorem modLaunch_lastBar0 (s : State) (l : Nat) (g : Launch → Launch) : (s.modLaunch l g).lastBar0 = s.lastBar0 := rfl

/-! ### `fresh` -/

@[simp] theorem fresh_cycle (s : State) : (s.fresh).cycle = s.cycle := rfl
@[simp] theorem fresh_turns (s : State) : (s.fresh).turns = s.turns := rfl
@[simp] theorem fresh_agenda (s : State) : (s.fresh).agenda = s.agenda := rfl
@[simp] theorem fresh_issue (s : State) : (s.fresh).issue = s.issue := rfl
@[simp] theorem fresh_mem (s : State) : (s.fresh).mem = s.mem := rfl
@[simp] theorem fresh_hostMem (s : State) : (s.fresh).hostMem = s.hostMem := rfl
@[simp] theorem fresh_standMask (s : State) : (s.fresh).standMask = s.standMask := rfl
@[simp] theorem fresh_stackMask (s : State) : (s.fresh).stackMask = s.stackMask := rfl
@[simp] theorem fresh_coreMasks (s : State) : (s.fresh).coreMasks = s.coreMasks := rfl
@[simp] theorem fresh_fns (s : State) : (s.fresh).fns = s.fns := rfl
@[simp] theorem fresh_launches (s : State) : (s.fresh).launches = s.launches := rfl
@[simp] theorem fresh_teams (s : State) : (s.fresh).teams = s.teams := rfl
@[simp] theorem fresh_saved (s : State) : (s.fresh).saved = s.saved := rfl
@[simp] theorem fresh_savedRoots (s : State) : (s.fresh).savedRoots = s.savedRoots := rfl
@[simp] theorem fresh_cores (s : State) : (s.fresh).cores = s.cores := rfl
@[simp] theorem fresh_groveTlb (s : State) : (s.fresh).groveTlb = s.groveTlb := rfl
@[simp] theorem fresh_walks (s : State) : (s.fresh).walks = s.walks := rfl
@[simp] theorem fresh_migrations (s : State) : (s.fresh).migrations = s.migrations := rfl
@[simp] theorem fresh_pinned (s : State) : (s.fresh).pinned = s.pinned := rfl
@[simp] theorem fresh_posts (s : State) : (s.fresh).posts = s.posts := rfl
@[simp] theorem fresh_bagCmds (s : State) : (s.fresh).bagCmds = s.bagCmds := rfl
@[simp] theorem fresh_arrivals (s : State) : (s.fresh).arrivals = s.arrivals := rfl
@[simp] theorem fresh_rootCmds (s : State) : (s.fresh).rootCmds = s.rootCmds := rfl
@[simp] theorem fresh_units (s : State) : (s.fresh).units = s.units := rfl
@[simp] theorem fresh_crown (s : State) : (s.fresh).crown = s.crown := rfl
@[simp] theorem fresh_lrel (s : State) : (s.fresh).lrel = s.lrel := rfl
@[simp] theorem fresh_promotions (s : State) : (s.fresh).promotions = s.promotions := rfl
@[simp] theorem fresh_charges (s : State) : (s.fresh).charges = s.charges := rfl
@[simp] theorem fresh_periods (s : State) : (s.fresh).periods = s.periods := rfl
@[simp] theorem fresh_perTurn (s : State) : (s.fresh).perTurn = s.perTurn := rfl
@[simp] theorem fresh_collects (s : State) : (s.fresh).collects = s.collects := rfl
@[simp] theorem fresh_sysOps (s : State) : (s.fresh).sysOps = s.sysOps := rfl
@[simp] theorem fresh_slice (s : State) : (s.fresh).slice = s.slice := rfl
@[simp] theorem fresh_lags (s : State) : (s.fresh).lags = s.lags := rfl
@[simp] theorem fresh_served (s : State) : (s.fresh).served = s.served := rfl
@[simp] theorem fresh_rowCounts (s : State) : (s.fresh).rowCounts = s.rowCounts := rfl
@[simp] theorem fresh_rowRecords (s : State) : (s.fresh).rowRecords = s.rowRecords := rfl
@[simp] theorem fresh_calIdx (s : State) : (s.fresh).calIdx = s.calIdx := rfl
@[simp] theorem fresh_pcap (s : State) : (s.fresh).pcap = s.pcap := rfl
@[simp] theorem fresh_pstat (s : State) : (s.fresh).pstat = s.pstat := rfl
@[simp] theorem fresh_rates (s : State) : (s.fresh).rates = s.rates := rfl
@[simp] theorem fresh_links (s : State) : (s.fresh).links = s.links := rfl
@[simp] theorem fresh_cxl (s : State) : (s.fresh).cxl = s.cxl := rfl
@[simp] theorem fresh_cxlDown (s : State) : (s.fresh).cxlDown = s.cxlDown := rfl
@[simp] theorem fresh_wear (s : State) : (s.fresh).wear = s.wear := rfl
@[simp] theorem fresh_ctime (s : State) : (s.fresh).ctime = s.ctime := rfl
@[simp] theorem fresh_mwsel (s : State) : (s.fresh).mwsel = s.mwsel := rfl
@[simp] theorem fresh_mailbox (s : State) : (s.fresh).mailbox = s.mailbox := rfl
@[simp] theorem fresh_retired (s : State) : (s.fresh).retired = s.retired := rfl
@[simp] theorem fresh_volatileRetired (s : State) : (s.fresh).volatileRetired = s.volatileRetired := rfl
@[simp] theorem fresh_rlFull (s : State) : (s.fresh).rlFull = s.rlFull := rfl
@[simp] theorem fresh_corrected (s : State) : (s.fresh).corrected = s.corrected := rfl
@[simp] theorem fresh_badLines (s : State) : (s.fresh).badLines = s.badLines := rfl
@[simp] theorem fresh_errLines (s : State) : (s.fresh).errLines = s.errLines := rfl
@[simp] theorem fresh_rowErrs (s : State) : (s.fresh).rowErrs = s.rowErrs := rfl
@[simp] theorem fresh_toRetire (s : State) : (s.fresh).toRetire = s.toRetire := rfl
@[simp] theorem fresh_rollback (s : State) : (s.fresh).rollback = s.rollback := rfl
@[simp] theorem fresh_recovery (s : State) : (s.fresh).recovery = s.recovery := rfl
@[simp] theorem fresh_aerFatal (s : State) : (s.fresh).aerFatal = s.aerFatal := rfl
@[simp] theorem fresh_aerAborts (s : State) : (s.fresh).aerAborts = s.aerAborts := rfl
@[simp] theorem fresh_lastBar2 (s : State) : (s.fresh).lastBar2 = s.lastBar2 := rfl
@[simp] theorem fresh_lastBar0 (s : State) : (s.fresh).lastBar0 = s.lastBar0 := rfl

/-! ### `passTo` -/

@[simp] theorem passTo_turns (s : State) (n : Nat) : (s.passTo n).turns = s.turns := rfl
@[simp] theorem passTo_nextId (s : State) (n : Nat) : (s.passTo n).nextId = s.nextId := rfl
@[simp] theorem passTo_agenda (s : State) (n : Nat) : (s.passTo n).agenda = s.agenda := rfl
@[simp] theorem passTo_issue (s : State) (n : Nat) : (s.passTo n).issue = s.issue := rfl
@[simp] theorem passTo_mem (s : State) (n : Nat) : (s.passTo n).mem = s.mem := rfl
@[simp] theorem passTo_hostMem (s : State) (n : Nat) : (s.passTo n).hostMem = s.hostMem := rfl
@[simp] theorem passTo_standMask (s : State) (n : Nat) : (s.passTo n).standMask = s.standMask := rfl
@[simp] theorem passTo_stackMask (s : State) (n : Nat) : (s.passTo n).stackMask = s.stackMask := rfl
@[simp] theorem passTo_coreMasks (s : State) (n : Nat) : (s.passTo n).coreMasks = s.coreMasks := rfl
@[simp] theorem passTo_fns (s : State) (n : Nat) : (s.passTo n).fns = s.fns := rfl
@[simp] theorem passTo_launches (s : State) (n : Nat) : (s.passTo n).launches = s.launches := rfl
@[simp] theorem passTo_teams (s : State) (n : Nat) : (s.passTo n).teams = s.teams := rfl
@[simp] theorem passTo_saved (s : State) (n : Nat) : (s.passTo n).saved = s.saved := rfl
@[simp] theorem passTo_savedRoots (s : State) (n : Nat) : (s.passTo n).savedRoots = s.savedRoots := rfl
@[simp] theorem passTo_cores (s : State) (n : Nat) : (s.passTo n).cores = s.cores := rfl
@[simp] theorem passTo_groveTlb (s : State) (n : Nat) : (s.passTo n).groveTlb = s.groveTlb := rfl
@[simp] theorem passTo_walks (s : State) (n : Nat) : (s.passTo n).walks = s.walks := rfl
@[simp] theorem passTo_migrations (s : State) (n : Nat) : (s.passTo n).migrations = s.migrations := rfl
@[simp] theorem passTo_pinned (s : State) (n : Nat) : (s.passTo n).pinned = s.pinned := rfl
@[simp] theorem passTo_posts (s : State) (n : Nat) : (s.passTo n).posts = s.posts := rfl
@[simp] theorem passTo_bagCmds (s : State) (n : Nat) : (s.passTo n).bagCmds = s.bagCmds := rfl
@[simp] theorem passTo_arrivals (s : State) (n : Nat) : (s.passTo n).arrivals = s.arrivals := rfl
@[simp] theorem passTo_rootCmds (s : State) (n : Nat) : (s.passTo n).rootCmds = s.rootCmds := rfl
@[simp] theorem passTo_units (s : State) (n : Nat) : (s.passTo n).units = s.units := rfl
@[simp] theorem passTo_crown (s : State) (n : Nat) : (s.passTo n).crown = s.crown := rfl
@[simp] theorem passTo_lrel (s : State) (n : Nat) : (s.passTo n).lrel = s.lrel := rfl
@[simp] theorem passTo_promotions (s : State) (n : Nat) : (s.passTo n).promotions = s.promotions := rfl
@[simp] theorem passTo_charges (s : State) (n : Nat) : (s.passTo n).charges = s.charges := rfl
@[simp] theorem passTo_periods (s : State) (n : Nat) : (s.passTo n).periods = s.periods := rfl
@[simp] theorem passTo_perTurn (s : State) (n : Nat) : (s.passTo n).perTurn = s.perTurn := rfl
@[simp] theorem passTo_collects (s : State) (n : Nat) : (s.passTo n).collects = s.collects := rfl
@[simp] theorem passTo_sysOps (s : State) (n : Nat) : (s.passTo n).sysOps = s.sysOps := rfl
@[simp] theorem passTo_slice (s : State) (n : Nat) : (s.passTo n).slice = s.slice := rfl
@[simp] theorem passTo_lags (s : State) (n : Nat) : (s.passTo n).lags = s.lags := rfl
@[simp] theorem passTo_served (s : State) (n : Nat) : (s.passTo n).served = s.served := rfl
@[simp] theorem passTo_rowCounts (s : State) (n : Nat) : (s.passTo n).rowCounts = s.rowCounts := rfl
@[simp] theorem passTo_rowRecords (s : State) (n : Nat) : (s.passTo n).rowRecords = s.rowRecords := rfl
@[simp] theorem passTo_calIdx (s : State) (n : Nat) : (s.passTo n).calIdx = s.calIdx := rfl
@[simp] theorem passTo_pcap (s : State) (n : Nat) : (s.passTo n).pcap = s.pcap := rfl
@[simp] theorem passTo_pstat (s : State) (n : Nat) : (s.passTo n).pstat = s.pstat := rfl
@[simp] theorem passTo_rates (s : State) (n : Nat) : (s.passTo n).rates = s.rates := rfl
@[simp] theorem passTo_links (s : State) (n : Nat) : (s.passTo n).links = s.links := rfl
@[simp] theorem passTo_cxl (s : State) (n : Nat) : (s.passTo n).cxl = s.cxl := rfl
@[simp] theorem passTo_cxlDown (s : State) (n : Nat) : (s.passTo n).cxlDown = s.cxlDown := rfl
@[simp] theorem passTo_wear (s : State) (n : Nat) : (s.passTo n).wear = s.wear := rfl
@[simp] theorem passTo_mwsel (s : State) (n : Nat) : (s.passTo n).mwsel = s.mwsel := rfl
@[simp] theorem passTo_mailbox (s : State) (n : Nat) : (s.passTo n).mailbox = s.mailbox := rfl
@[simp] theorem passTo_retired (s : State) (n : Nat) : (s.passTo n).retired = s.retired := rfl
@[simp] theorem passTo_volatileRetired (s : State) (n : Nat) : (s.passTo n).volatileRetired = s.volatileRetired := rfl
@[simp] theorem passTo_rlFull (s : State) (n : Nat) : (s.passTo n).rlFull = s.rlFull := rfl
@[simp] theorem passTo_corrected (s : State) (n : Nat) : (s.passTo n).corrected = s.corrected := rfl
@[simp] theorem passTo_badLines (s : State) (n : Nat) : (s.passTo n).badLines = s.badLines := rfl
@[simp] theorem passTo_errLines (s : State) (n : Nat) : (s.passTo n).errLines = s.errLines := rfl
@[simp] theorem passTo_rowErrs (s : State) (n : Nat) : (s.passTo n).rowErrs = s.rowErrs := rfl
@[simp] theorem passTo_toRetire (s : State) (n : Nat) : (s.passTo n).toRetire = s.toRetire := rfl
@[simp] theorem passTo_rollback (s : State) (n : Nat) : (s.passTo n).rollback = s.rollback := rfl
@[simp] theorem passTo_recovery (s : State) (n : Nat) : (s.passTo n).recovery = s.recovery := rfl
@[simp] theorem passTo_aerFatal (s : State) (n : Nat) : (s.passTo n).aerFatal = s.aerFatal := rfl
@[simp] theorem passTo_aerAborts (s : State) (n : Nat) : (s.passTo n).aerAborts = s.aerAborts := rfl
@[simp] theorem passTo_lastBar2 (s : State) (n : Nat) : (s.passTo n).lastBar2 = s.lastBar2 := rfl
@[simp] theorem passTo_lastBar0 (s : State) (n : Nat) : (s.passTo n).lastBar0 = s.lastBar0 := rfl

/-! ### `modCore` -/

@[simp] theorem modCore_cycle (s : State) (c : Nat) (g : Core → Core) : (s.modCore c g).cycle = s.cycle := by unfold State.modCore; split <;> rfl
@[simp] theorem modCore_turns (s : State) (c : Nat) (g : Core → Core) : (s.modCore c g).turns = s.turns := by unfold State.modCore; split <;> rfl
@[simp] theorem modCore_nextId (s : State) (c : Nat) (g : Core → Core) : (s.modCore c g).nextId = s.nextId := by unfold State.modCore; split <;> rfl
@[simp] theorem modCore_agenda (s : State) (c : Nat) (g : Core → Core) : (s.modCore c g).agenda = s.agenda := by unfold State.modCore; split <;> rfl
@[simp] theorem modCore_issue (s : State) (c : Nat) (g : Core → Core) : (s.modCore c g).issue = s.issue := by unfold State.modCore; split <;> rfl
@[simp] theorem modCore_mem (s : State) (c : Nat) (g : Core → Core) : (s.modCore c g).mem = s.mem := by unfold State.modCore; split <;> rfl
@[simp] theorem modCore_hostMem (s : State) (c : Nat) (g : Core → Core) : (s.modCore c g).hostMem = s.hostMem := by unfold State.modCore; split <;> rfl
@[simp] theorem modCore_standMask (s : State) (c : Nat) (g : Core → Core) : (s.modCore c g).standMask = s.standMask := by unfold State.modCore; split <;> rfl
@[simp] theorem modCore_stackMask (s : State) (c : Nat) (g : Core → Core) : (s.modCore c g).stackMask = s.stackMask := by unfold State.modCore; split <;> rfl
@[simp] theorem modCore_coreMasks (s : State) (c : Nat) (g : Core → Core) : (s.modCore c g).coreMasks = s.coreMasks := by unfold State.modCore; split <;> rfl
@[simp] theorem modCore_fns (s : State) (c : Nat) (g : Core → Core) : (s.modCore c g).fns = s.fns := by unfold State.modCore; split <;> rfl
@[simp] theorem modCore_launches (s : State) (c : Nat) (g : Core → Core) : (s.modCore c g).launches = s.launches := by unfold State.modCore; split <;> rfl
@[simp] theorem modCore_teams (s : State) (c : Nat) (g : Core → Core) : (s.modCore c g).teams = s.teams := by unfold State.modCore; split <;> rfl
@[simp] theorem modCore_saved (s : State) (c : Nat) (g : Core → Core) : (s.modCore c g).saved = s.saved := by unfold State.modCore; split <;> rfl
@[simp] theorem modCore_savedRoots (s : State) (c : Nat) (g : Core → Core) : (s.modCore c g).savedRoots = s.savedRoots := by unfold State.modCore; split <;> rfl
@[simp] theorem modCore_groveTlb (s : State) (c : Nat) (g : Core → Core) : (s.modCore c g).groveTlb = s.groveTlb := by unfold State.modCore; split <;> rfl
@[simp] theorem modCore_walks (s : State) (c : Nat) (g : Core → Core) : (s.modCore c g).walks = s.walks := by unfold State.modCore; split <;> rfl
@[simp] theorem modCore_migrations (s : State) (c : Nat) (g : Core → Core) : (s.modCore c g).migrations = s.migrations := by unfold State.modCore; split <;> rfl
@[simp] theorem modCore_pinned (s : State) (c : Nat) (g : Core → Core) : (s.modCore c g).pinned = s.pinned := by unfold State.modCore; split <;> rfl
@[simp] theorem modCore_posts (s : State) (c : Nat) (g : Core → Core) : (s.modCore c g).posts = s.posts := by unfold State.modCore; split <;> rfl
@[simp] theorem modCore_bagCmds (s : State) (c : Nat) (g : Core → Core) : (s.modCore c g).bagCmds = s.bagCmds := by unfold State.modCore; split <;> rfl
@[simp] theorem modCore_arrivals (s : State) (c : Nat) (g : Core → Core) : (s.modCore c g).arrivals = s.arrivals := by unfold State.modCore; split <;> rfl
@[simp] theorem modCore_rootCmds (s : State) (c : Nat) (g : Core → Core) : (s.modCore c g).rootCmds = s.rootCmds := by unfold State.modCore; split <;> rfl
@[simp] theorem modCore_units (s : State) (c : Nat) (g : Core → Core) : (s.modCore c g).units = s.units := by unfold State.modCore; split <;> rfl
@[simp] theorem modCore_crown (s : State) (c : Nat) (g : Core → Core) : (s.modCore c g).crown = s.crown := by unfold State.modCore; split <;> rfl
@[simp] theorem modCore_lrel (s : State) (c : Nat) (g : Core → Core) : (s.modCore c g).lrel = s.lrel := by unfold State.modCore; split <;> rfl
@[simp] theorem modCore_promotions (s : State) (c : Nat) (g : Core → Core) : (s.modCore c g).promotions = s.promotions := by unfold State.modCore; split <;> rfl
@[simp] theorem modCore_charges (s : State) (c : Nat) (g : Core → Core) : (s.modCore c g).charges = s.charges := by unfold State.modCore; split <;> rfl
@[simp] theorem modCore_periods (s : State) (c : Nat) (g : Core → Core) : (s.modCore c g).periods = s.periods := by unfold State.modCore; split <;> rfl
@[simp] theorem modCore_perTurn (s : State) (c : Nat) (g : Core → Core) : (s.modCore c g).perTurn = s.perTurn := by unfold State.modCore; split <;> rfl
@[simp] theorem modCore_collects (s : State) (c : Nat) (g : Core → Core) : (s.modCore c g).collects = s.collects := by unfold State.modCore; split <;> rfl
@[simp] theorem modCore_sysOps (s : State) (c : Nat) (g : Core → Core) : (s.modCore c g).sysOps = s.sysOps := by unfold State.modCore; split <;> rfl
@[simp] theorem modCore_slice (s : State) (c : Nat) (g : Core → Core) : (s.modCore c g).slice = s.slice := by unfold State.modCore; split <;> rfl
@[simp] theorem modCore_lags (s : State) (c : Nat) (g : Core → Core) : (s.modCore c g).lags = s.lags := by unfold State.modCore; split <;> rfl
@[simp] theorem modCore_served (s : State) (c : Nat) (g : Core → Core) : (s.modCore c g).served = s.served := by unfold State.modCore; split <;> rfl
@[simp] theorem modCore_rowCounts (s : State) (c : Nat) (g : Core → Core) : (s.modCore c g).rowCounts = s.rowCounts := by unfold State.modCore; split <;> rfl
@[simp] theorem modCore_rowRecords (s : State) (c : Nat) (g : Core → Core) : (s.modCore c g).rowRecords = s.rowRecords := by unfold State.modCore; split <;> rfl
@[simp] theorem modCore_calIdx (s : State) (c : Nat) (g : Core → Core) : (s.modCore c g).calIdx = s.calIdx := by unfold State.modCore; split <;> rfl
@[simp] theorem modCore_pcap (s : State) (c : Nat) (g : Core → Core) : (s.modCore c g).pcap = s.pcap := by unfold State.modCore; split <;> rfl
@[simp] theorem modCore_pstat (s : State) (c : Nat) (g : Core → Core) : (s.modCore c g).pstat = s.pstat := by unfold State.modCore; split <;> rfl
@[simp] theorem modCore_rates (s : State) (c : Nat) (g : Core → Core) : (s.modCore c g).rates = s.rates := by unfold State.modCore; split <;> rfl
@[simp] theorem modCore_links (s : State) (c : Nat) (g : Core → Core) : (s.modCore c g).links = s.links := by unfold State.modCore; split <;> rfl
@[simp] theorem modCore_cxl (s : State) (c : Nat) (g : Core → Core) : (s.modCore c g).cxl = s.cxl := by unfold State.modCore; split <;> rfl
@[simp] theorem modCore_cxlDown (s : State) (c : Nat) (g : Core → Core) : (s.modCore c g).cxlDown = s.cxlDown := by unfold State.modCore; split <;> rfl
@[simp] theorem modCore_wear (s : State) (c : Nat) (g : Core → Core) : (s.modCore c g).wear = s.wear := by unfold State.modCore; split <;> rfl
@[simp] theorem modCore_ctime (s : State) (c : Nat) (g : Core → Core) : (s.modCore c g).ctime = s.ctime := by unfold State.modCore; split <;> rfl
@[simp] theorem modCore_mwsel (s : State) (c : Nat) (g : Core → Core) : (s.modCore c g).mwsel = s.mwsel := by unfold State.modCore; split <;> rfl
@[simp] theorem modCore_mailbox (s : State) (c : Nat) (g : Core → Core) : (s.modCore c g).mailbox = s.mailbox := by unfold State.modCore; split <;> rfl
@[simp] theorem modCore_retired (s : State) (c : Nat) (g : Core → Core) : (s.modCore c g).retired = s.retired := by unfold State.modCore; split <;> rfl
@[simp] theorem modCore_volatileRetired (s : State) (c : Nat) (g : Core → Core) : (s.modCore c g).volatileRetired = s.volatileRetired := by unfold State.modCore; split <;> rfl
@[simp] theorem modCore_rlFull (s : State) (c : Nat) (g : Core → Core) : (s.modCore c g).rlFull = s.rlFull := by unfold State.modCore; split <;> rfl
@[simp] theorem modCore_corrected (s : State) (c : Nat) (g : Core → Core) : (s.modCore c g).corrected = s.corrected := by unfold State.modCore; split <;> rfl
@[simp] theorem modCore_badLines (s : State) (c : Nat) (g : Core → Core) : (s.modCore c g).badLines = s.badLines := by unfold State.modCore; split <;> rfl
@[simp] theorem modCore_errLines (s : State) (c : Nat) (g : Core → Core) : (s.modCore c g).errLines = s.errLines := by unfold State.modCore; split <;> rfl
@[simp] theorem modCore_rowErrs (s : State) (c : Nat) (g : Core → Core) : (s.modCore c g).rowErrs = s.rowErrs := by unfold State.modCore; split <;> rfl
@[simp] theorem modCore_toRetire (s : State) (c : Nat) (g : Core → Core) : (s.modCore c g).toRetire = s.toRetire := by unfold State.modCore; split <;> rfl
@[simp] theorem modCore_rollback (s : State) (c : Nat) (g : Core → Core) : (s.modCore c g).rollback = s.rollback := by unfold State.modCore; split <;> rfl
@[simp] theorem modCore_recovery (s : State) (c : Nat) (g : Core → Core) : (s.modCore c g).recovery = s.recovery := by unfold State.modCore; split <;> rfl
@[simp] theorem modCore_aerFatal (s : State) (c : Nat) (g : Core → Core) : (s.modCore c g).aerFatal = s.aerFatal := by unfold State.modCore; split <;> rfl
@[simp] theorem modCore_aerAborts (s : State) (c : Nat) (g : Core → Core) : (s.modCore c g).aerAborts = s.aerAborts := by unfold State.modCore; split <;> rfl
@[simp] theorem modCore_lastBar2 (s : State) (c : Nat) (g : Core → Core) : (s.modCore c g).lastBar2 = s.lastBar2 := by unfold State.modCore; split <;> rfl
@[simp] theorem modCore_lastBar0 (s : State) (c : Nat) (g : Core → Core) : (s.modCore c g).lastBar0 = s.lastBar0 := by unfold State.modCore; split <;> rfl

/-! ### `modUnit` -/

@[simp] theorem modUnit_cycle (s : State) (q : Nat) (g : RootUnit → RootUnit) : (s.modUnit q g).cycle = s.cycle := by unfold State.modUnit; split <;> rfl
@[simp] theorem modUnit_turns (s : State) (q : Nat) (g : RootUnit → RootUnit) : (s.modUnit q g).turns = s.turns := by unfold State.modUnit; split <;> rfl
@[simp] theorem modUnit_nextId (s : State) (q : Nat) (g : RootUnit → RootUnit) : (s.modUnit q g).nextId = s.nextId := by unfold State.modUnit; split <;> rfl
@[simp] theorem modUnit_agenda (s : State) (q : Nat) (g : RootUnit → RootUnit) : (s.modUnit q g).agenda = s.agenda := by unfold State.modUnit; split <;> rfl
@[simp] theorem modUnit_issue (s : State) (q : Nat) (g : RootUnit → RootUnit) : (s.modUnit q g).issue = s.issue := by unfold State.modUnit; split <;> rfl
@[simp] theorem modUnit_mem (s : State) (q : Nat) (g : RootUnit → RootUnit) : (s.modUnit q g).mem = s.mem := by unfold State.modUnit; split <;> rfl
@[simp] theorem modUnit_hostMem (s : State) (q : Nat) (g : RootUnit → RootUnit) : (s.modUnit q g).hostMem = s.hostMem := by unfold State.modUnit; split <;> rfl
@[simp] theorem modUnit_standMask (s : State) (q : Nat) (g : RootUnit → RootUnit) : (s.modUnit q g).standMask = s.standMask := by unfold State.modUnit; split <;> rfl
@[simp] theorem modUnit_stackMask (s : State) (q : Nat) (g : RootUnit → RootUnit) : (s.modUnit q g).stackMask = s.stackMask := by unfold State.modUnit; split <;> rfl
@[simp] theorem modUnit_coreMasks (s : State) (q : Nat) (g : RootUnit → RootUnit) : (s.modUnit q g).coreMasks = s.coreMasks := by unfold State.modUnit; split <;> rfl
@[simp] theorem modUnit_fns (s : State) (q : Nat) (g : RootUnit → RootUnit) : (s.modUnit q g).fns = s.fns := by unfold State.modUnit; split <;> rfl
@[simp] theorem modUnit_launches (s : State) (q : Nat) (g : RootUnit → RootUnit) : (s.modUnit q g).launches = s.launches := by unfold State.modUnit; split <;> rfl
@[simp] theorem modUnit_teams (s : State) (q : Nat) (g : RootUnit → RootUnit) : (s.modUnit q g).teams = s.teams := by unfold State.modUnit; split <;> rfl
@[simp] theorem modUnit_saved (s : State) (q : Nat) (g : RootUnit → RootUnit) : (s.modUnit q g).saved = s.saved := by unfold State.modUnit; split <;> rfl
@[simp] theorem modUnit_savedRoots (s : State) (q : Nat) (g : RootUnit → RootUnit) : (s.modUnit q g).savedRoots = s.savedRoots := by unfold State.modUnit; split <;> rfl
@[simp] theorem modUnit_cores (s : State) (q : Nat) (g : RootUnit → RootUnit) : (s.modUnit q g).cores = s.cores := by unfold State.modUnit; split <;> rfl
@[simp] theorem modUnit_groveTlb (s : State) (q : Nat) (g : RootUnit → RootUnit) : (s.modUnit q g).groveTlb = s.groveTlb := by unfold State.modUnit; split <;> rfl
@[simp] theorem modUnit_walks (s : State) (q : Nat) (g : RootUnit → RootUnit) : (s.modUnit q g).walks = s.walks := by unfold State.modUnit; split <;> rfl
@[simp] theorem modUnit_migrations (s : State) (q : Nat) (g : RootUnit → RootUnit) : (s.modUnit q g).migrations = s.migrations := by unfold State.modUnit; split <;> rfl
@[simp] theorem modUnit_pinned (s : State) (q : Nat) (g : RootUnit → RootUnit) : (s.modUnit q g).pinned = s.pinned := by unfold State.modUnit; split <;> rfl
@[simp] theorem modUnit_posts (s : State) (q : Nat) (g : RootUnit → RootUnit) : (s.modUnit q g).posts = s.posts := by unfold State.modUnit; split <;> rfl
@[simp] theorem modUnit_bagCmds (s : State) (q : Nat) (g : RootUnit → RootUnit) : (s.modUnit q g).bagCmds = s.bagCmds := by unfold State.modUnit; split <;> rfl
@[simp] theorem modUnit_arrivals (s : State) (q : Nat) (g : RootUnit → RootUnit) : (s.modUnit q g).arrivals = s.arrivals := by unfold State.modUnit; split <;> rfl
@[simp] theorem modUnit_rootCmds (s : State) (q : Nat) (g : RootUnit → RootUnit) : (s.modUnit q g).rootCmds = s.rootCmds := by unfold State.modUnit; split <;> rfl
@[simp] theorem modUnit_crown (s : State) (q : Nat) (g : RootUnit → RootUnit) : (s.modUnit q g).crown = s.crown := by unfold State.modUnit; split <;> rfl
@[simp] theorem modUnit_lrel (s : State) (q : Nat) (g : RootUnit → RootUnit) : (s.modUnit q g).lrel = s.lrel := by unfold State.modUnit; split <;> rfl
@[simp] theorem modUnit_promotions (s : State) (q : Nat) (g : RootUnit → RootUnit) : (s.modUnit q g).promotions = s.promotions := by unfold State.modUnit; split <;> rfl
@[simp] theorem modUnit_charges (s : State) (q : Nat) (g : RootUnit → RootUnit) : (s.modUnit q g).charges = s.charges := by unfold State.modUnit; split <;> rfl
@[simp] theorem modUnit_periods (s : State) (q : Nat) (g : RootUnit → RootUnit) : (s.modUnit q g).periods = s.periods := by unfold State.modUnit; split <;> rfl
@[simp] theorem modUnit_perTurn (s : State) (q : Nat) (g : RootUnit → RootUnit) : (s.modUnit q g).perTurn = s.perTurn := by unfold State.modUnit; split <;> rfl
@[simp] theorem modUnit_collects (s : State) (q : Nat) (g : RootUnit → RootUnit) : (s.modUnit q g).collects = s.collects := by unfold State.modUnit; split <;> rfl
@[simp] theorem modUnit_sysOps (s : State) (q : Nat) (g : RootUnit → RootUnit) : (s.modUnit q g).sysOps = s.sysOps := by unfold State.modUnit; split <;> rfl
@[simp] theorem modUnit_slice (s : State) (q : Nat) (g : RootUnit → RootUnit) : (s.modUnit q g).slice = s.slice := by unfold State.modUnit; split <;> rfl
@[simp] theorem modUnit_lags (s : State) (q : Nat) (g : RootUnit → RootUnit) : (s.modUnit q g).lags = s.lags := by unfold State.modUnit; split <;> rfl
@[simp] theorem modUnit_served (s : State) (q : Nat) (g : RootUnit → RootUnit) : (s.modUnit q g).served = s.served := by unfold State.modUnit; split <;> rfl
@[simp] theorem modUnit_rowCounts (s : State) (q : Nat) (g : RootUnit → RootUnit) : (s.modUnit q g).rowCounts = s.rowCounts := by unfold State.modUnit; split <;> rfl
@[simp] theorem modUnit_rowRecords (s : State) (q : Nat) (g : RootUnit → RootUnit) : (s.modUnit q g).rowRecords = s.rowRecords := by unfold State.modUnit; split <;> rfl
@[simp] theorem modUnit_calIdx (s : State) (q : Nat) (g : RootUnit → RootUnit) : (s.modUnit q g).calIdx = s.calIdx := by unfold State.modUnit; split <;> rfl
@[simp] theorem modUnit_pcap (s : State) (q : Nat) (g : RootUnit → RootUnit) : (s.modUnit q g).pcap = s.pcap := by unfold State.modUnit; split <;> rfl
@[simp] theorem modUnit_pstat (s : State) (q : Nat) (g : RootUnit → RootUnit) : (s.modUnit q g).pstat = s.pstat := by unfold State.modUnit; split <;> rfl
@[simp] theorem modUnit_rates (s : State) (q : Nat) (g : RootUnit → RootUnit) : (s.modUnit q g).rates = s.rates := by unfold State.modUnit; split <;> rfl
@[simp] theorem modUnit_links (s : State) (q : Nat) (g : RootUnit → RootUnit) : (s.modUnit q g).links = s.links := by unfold State.modUnit; split <;> rfl
@[simp] theorem modUnit_cxl (s : State) (q : Nat) (g : RootUnit → RootUnit) : (s.modUnit q g).cxl = s.cxl := by unfold State.modUnit; split <;> rfl
@[simp] theorem modUnit_cxlDown (s : State) (q : Nat) (g : RootUnit → RootUnit) : (s.modUnit q g).cxlDown = s.cxlDown := by unfold State.modUnit; split <;> rfl
@[simp] theorem modUnit_wear (s : State) (q : Nat) (g : RootUnit → RootUnit) : (s.modUnit q g).wear = s.wear := by unfold State.modUnit; split <;> rfl
@[simp] theorem modUnit_ctime (s : State) (q : Nat) (g : RootUnit → RootUnit) : (s.modUnit q g).ctime = s.ctime := by unfold State.modUnit; split <;> rfl
@[simp] theorem modUnit_mwsel (s : State) (q : Nat) (g : RootUnit → RootUnit) : (s.modUnit q g).mwsel = s.mwsel := by unfold State.modUnit; split <;> rfl
@[simp] theorem modUnit_mailbox (s : State) (q : Nat) (g : RootUnit → RootUnit) : (s.modUnit q g).mailbox = s.mailbox := by unfold State.modUnit; split <;> rfl
@[simp] theorem modUnit_retired (s : State) (q : Nat) (g : RootUnit → RootUnit) : (s.modUnit q g).retired = s.retired := by unfold State.modUnit; split <;> rfl
@[simp] theorem modUnit_volatileRetired (s : State) (q : Nat) (g : RootUnit → RootUnit) : (s.modUnit q g).volatileRetired = s.volatileRetired := by unfold State.modUnit; split <;> rfl
@[simp] theorem modUnit_rlFull (s : State) (q : Nat) (g : RootUnit → RootUnit) : (s.modUnit q g).rlFull = s.rlFull := by unfold State.modUnit; split <;> rfl
@[simp] theorem modUnit_corrected (s : State) (q : Nat) (g : RootUnit → RootUnit) : (s.modUnit q g).corrected = s.corrected := by unfold State.modUnit; split <;> rfl
@[simp] theorem modUnit_badLines (s : State) (q : Nat) (g : RootUnit → RootUnit) : (s.modUnit q g).badLines = s.badLines := by unfold State.modUnit; split <;> rfl
@[simp] theorem modUnit_errLines (s : State) (q : Nat) (g : RootUnit → RootUnit) : (s.modUnit q g).errLines = s.errLines := by unfold State.modUnit; split <;> rfl
@[simp] theorem modUnit_rowErrs (s : State) (q : Nat) (g : RootUnit → RootUnit) : (s.modUnit q g).rowErrs = s.rowErrs := by unfold State.modUnit; split <;> rfl
@[simp] theorem modUnit_toRetire (s : State) (q : Nat) (g : RootUnit → RootUnit) : (s.modUnit q g).toRetire = s.toRetire := by unfold State.modUnit; split <;> rfl
@[simp] theorem modUnit_rollback (s : State) (q : Nat) (g : RootUnit → RootUnit) : (s.modUnit q g).rollback = s.rollback := by unfold State.modUnit; split <;> rfl
@[simp] theorem modUnit_recovery (s : State) (q : Nat) (g : RootUnit → RootUnit) : (s.modUnit q g).recovery = s.recovery := by unfold State.modUnit; split <;> rfl
@[simp] theorem modUnit_aerFatal (s : State) (q : Nat) (g : RootUnit → RootUnit) : (s.modUnit q g).aerFatal = s.aerFatal := by unfold State.modUnit; split <;> rfl
@[simp] theorem modUnit_aerAborts (s : State) (q : Nat) (g : RootUnit → RootUnit) : (s.modUnit q g).aerAborts = s.aerAborts := by unfold State.modUnit; split <;> rfl
@[simp] theorem modUnit_lastBar2 (s : State) (q : Nat) (g : RootUnit → RootUnit) : (s.modUnit q g).lastBar2 = s.lastBar2 := by unfold State.modUnit; split <;> rfl
@[simp] theorem modUnit_lastBar0 (s : State) (q : Nat) (g : RootUnit → RootUnit) : (s.modUnit q g).lastBar0 = s.lastBar0 := by unfold State.modUnit; split <;> rfl

/-! ### `charge` -/

@[simp] theorem charge_cycle (s : State) (f d k n : Nat) : (s.charge f d k n).cycle = s.cycle := rfl
@[simp] theorem charge_turns (s : State) (f d k n : Nat) : (s.charge f d k n).turns = s.turns := rfl
@[simp] theorem charge_nextId (s : State) (f d k n : Nat) : (s.charge f d k n).nextId = s.nextId := rfl
@[simp] theorem charge_agenda (s : State) (f d k n : Nat) : (s.charge f d k n).agenda = s.agenda := rfl
@[simp] theorem charge_issue (s : State) (f d k n : Nat) : (s.charge f d k n).issue = s.issue := rfl
@[simp] theorem charge_mem (s : State) (f d k n : Nat) : (s.charge f d k n).mem = s.mem := rfl
@[simp] theorem charge_hostMem (s : State) (f d k n : Nat) : (s.charge f d k n).hostMem = s.hostMem := rfl
@[simp] theorem charge_standMask (s : State) (f d k n : Nat) : (s.charge f d k n).standMask = s.standMask := rfl
@[simp] theorem charge_stackMask (s : State) (f d k n : Nat) : (s.charge f d k n).stackMask = s.stackMask := rfl
@[simp] theorem charge_coreMasks (s : State) (f d k n : Nat) : (s.charge f d k n).coreMasks = s.coreMasks := rfl
@[simp] theorem charge_fns (s : State) (f d k n : Nat) : (s.charge f d k n).fns = s.fns := rfl
@[simp] theorem charge_launches (s : State) (f d k n : Nat) : (s.charge f d k n).launches = s.launches := rfl
@[simp] theorem charge_teams (s : State) (f d k n : Nat) : (s.charge f d k n).teams = s.teams := rfl
@[simp] theorem charge_saved (s : State) (f d k n : Nat) : (s.charge f d k n).saved = s.saved := rfl
@[simp] theorem charge_savedRoots (s : State) (f d k n : Nat) : (s.charge f d k n).savedRoots = s.savedRoots := rfl
@[simp] theorem charge_cores (s : State) (f d k n : Nat) : (s.charge f d k n).cores = s.cores := rfl
@[simp] theorem charge_groveTlb (s : State) (f d k n : Nat) : (s.charge f d k n).groveTlb = s.groveTlb := rfl
@[simp] theorem charge_walks (s : State) (f d k n : Nat) : (s.charge f d k n).walks = s.walks := rfl
@[simp] theorem charge_migrations (s : State) (f d k n : Nat) : (s.charge f d k n).migrations = s.migrations := rfl
@[simp] theorem charge_pinned (s : State) (f d k n : Nat) : (s.charge f d k n).pinned = s.pinned := rfl
@[simp] theorem charge_posts (s : State) (f d k n : Nat) : (s.charge f d k n).posts = s.posts := rfl
@[simp] theorem charge_bagCmds (s : State) (f d k n : Nat) : (s.charge f d k n).bagCmds = s.bagCmds := rfl
@[simp] theorem charge_arrivals (s : State) (f d k n : Nat) : (s.charge f d k n).arrivals = s.arrivals := rfl
@[simp] theorem charge_rootCmds (s : State) (f d k n : Nat) : (s.charge f d k n).rootCmds = s.rootCmds := rfl
@[simp] theorem charge_units (s : State) (f d k n : Nat) : (s.charge f d k n).units = s.units := rfl
@[simp] theorem charge_crown (s : State) (f d k n : Nat) : (s.charge f d k n).crown = s.crown := rfl
@[simp] theorem charge_lrel (s : State) (f d k n : Nat) : (s.charge f d k n).lrel = s.lrel := rfl
@[simp] theorem charge_promotions (s : State) (f d k n : Nat) : (s.charge f d k n).promotions = s.promotions := rfl
@[simp] theorem charge_periods (s : State) (f d k n : Nat) : (s.charge f d k n).periods = s.periods := rfl
@[simp] theorem charge_perTurn (s : State) (f d k n : Nat) : (s.charge f d k n).perTurn = s.perTurn := rfl
@[simp] theorem charge_collects (s : State) (f d k n : Nat) : (s.charge f d k n).collects = s.collects := rfl
@[simp] theorem charge_sysOps (s : State) (f d k n : Nat) : (s.charge f d k n).sysOps = s.sysOps := rfl
@[simp] theorem charge_slice (s : State) (f d k n : Nat) : (s.charge f d k n).slice = s.slice := rfl
@[simp] theorem charge_lags (s : State) (f d k n : Nat) : (s.charge f d k n).lags = s.lags := rfl
@[simp] theorem charge_served (s : State) (f d k n : Nat) : (s.charge f d k n).served = s.served := rfl
@[simp] theorem charge_rowCounts (s : State) (f d k n : Nat) : (s.charge f d k n).rowCounts = s.rowCounts := rfl
@[simp] theorem charge_rowRecords (s : State) (f d k n : Nat) : (s.charge f d k n).rowRecords = s.rowRecords := rfl
@[simp] theorem charge_calIdx (s : State) (f d k n : Nat) : (s.charge f d k n).calIdx = s.calIdx := rfl
@[simp] theorem charge_pcap (s : State) (f d k n : Nat) : (s.charge f d k n).pcap = s.pcap := rfl
@[simp] theorem charge_pstat (s : State) (f d k n : Nat) : (s.charge f d k n).pstat = s.pstat := rfl
@[simp] theorem charge_rates (s : State) (f d k n : Nat) : (s.charge f d k n).rates = s.rates := rfl
@[simp] theorem charge_links (s : State) (f d k n : Nat) : (s.charge f d k n).links = s.links := rfl
@[simp] theorem charge_cxl (s : State) (f d k n : Nat) : (s.charge f d k n).cxl = s.cxl := rfl
@[simp] theorem charge_cxlDown (s : State) (f d k n : Nat) : (s.charge f d k n).cxlDown = s.cxlDown := rfl
@[simp] theorem charge_wear (s : State) (f d k n : Nat) : (s.charge f d k n).wear = s.wear := rfl
@[simp] theorem charge_ctime (s : State) (f d k n : Nat) : (s.charge f d k n).ctime = s.ctime := rfl
@[simp] theorem charge_mwsel (s : State) (f d k n : Nat) : (s.charge f d k n).mwsel = s.mwsel := rfl
@[simp] theorem charge_mailbox (s : State) (f d k n : Nat) : (s.charge f d k n).mailbox = s.mailbox := rfl
@[simp] theorem charge_retired (s : State) (f d k n : Nat) : (s.charge f d k n).retired = s.retired := rfl
@[simp] theorem charge_volatileRetired (s : State) (f d k n : Nat) : (s.charge f d k n).volatileRetired = s.volatileRetired := rfl
@[simp] theorem charge_rlFull (s : State) (f d k n : Nat) : (s.charge f d k n).rlFull = s.rlFull := rfl
@[simp] theorem charge_corrected (s : State) (f d k n : Nat) : (s.charge f d k n).corrected = s.corrected := rfl
@[simp] theorem charge_badLines (s : State) (f d k n : Nat) : (s.charge f d k n).badLines = s.badLines := rfl
@[simp] theorem charge_errLines (s : State) (f d k n : Nat) : (s.charge f d k n).errLines = s.errLines := rfl
@[simp] theorem charge_rowErrs (s : State) (f d k n : Nat) : (s.charge f d k n).rowErrs = s.rowErrs := rfl
@[simp] theorem charge_toRetire (s : State) (f d k n : Nat) : (s.charge f d k n).toRetire = s.toRetire := rfl
@[simp] theorem charge_rollback (s : State) (f d k n : Nat) : (s.charge f d k n).rollback = s.rollback := rfl
@[simp] theorem charge_recovery (s : State) (f d k n : Nat) : (s.charge f d k n).recovery = s.recovery := rfl
@[simp] theorem charge_aerFatal (s : State) (f d k n : Nat) : (s.charge f d k n).aerFatal = s.aerFatal := rfl
@[simp] theorem charge_aerAborts (s : State) (f d k n : Nat) : (s.charge f d k n).aerAborts = s.aerAborts := rfl
@[simp] theorem charge_lastBar2 (s : State) (f d k n : Nat) : (s.charge f d k n).lastBar2 = s.lastBar2 := rfl
@[simp] theorem charge_lastBar0 (s : State) (f d k n : Nat) : (s.charge f d k n).lastBar0 = s.lastBar0 := rfl

/-! ### `chargeLines` -/

@[simp] theorem chargeLines_cycle (s : State) (f c : Nat) (ls : List Loc) : (chargeLines s f c ls).cycle = s.cycle := rfl
@[simp] theorem chargeLines_turns (s : State) (f c : Nat) (ls : List Loc) : (chargeLines s f c ls).turns = s.turns := rfl
@[simp] theorem chargeLines_nextId (s : State) (f c : Nat) (ls : List Loc) : (chargeLines s f c ls).nextId = s.nextId := rfl
@[simp] theorem chargeLines_agenda (s : State) (f c : Nat) (ls : List Loc) : (chargeLines s f c ls).agenda = s.agenda := rfl
@[simp] theorem chargeLines_issue (s : State) (f c : Nat) (ls : List Loc) : (chargeLines s f c ls).issue = s.issue := rfl
@[simp] theorem chargeLines_mem (s : State) (f c : Nat) (ls : List Loc) : (chargeLines s f c ls).mem = s.mem := rfl
@[simp] theorem chargeLines_hostMem (s : State) (f c : Nat) (ls : List Loc) : (chargeLines s f c ls).hostMem = s.hostMem := rfl
@[simp] theorem chargeLines_standMask (s : State) (f c : Nat) (ls : List Loc) : (chargeLines s f c ls).standMask = s.standMask := rfl
@[simp] theorem chargeLines_stackMask (s : State) (f c : Nat) (ls : List Loc) : (chargeLines s f c ls).stackMask = s.stackMask := rfl
@[simp] theorem chargeLines_coreMasks (s : State) (f c : Nat) (ls : List Loc) : (chargeLines s f c ls).coreMasks = s.coreMasks := rfl
@[simp] theorem chargeLines_fns (s : State) (f c : Nat) (ls : List Loc) : (chargeLines s f c ls).fns = s.fns := rfl
@[simp] theorem chargeLines_launches (s : State) (f c : Nat) (ls : List Loc) : (chargeLines s f c ls).launches = s.launches := rfl
@[simp] theorem chargeLines_teams (s : State) (f c : Nat) (ls : List Loc) : (chargeLines s f c ls).teams = s.teams := rfl
@[simp] theorem chargeLines_saved (s : State) (f c : Nat) (ls : List Loc) : (chargeLines s f c ls).saved = s.saved := rfl
@[simp] theorem chargeLines_savedRoots (s : State) (f c : Nat) (ls : List Loc) : (chargeLines s f c ls).savedRoots = s.savedRoots := rfl
@[simp] theorem chargeLines_cores (s : State) (f c : Nat) (ls : List Loc) : (chargeLines s f c ls).cores = s.cores := rfl
@[simp] theorem chargeLines_groveTlb (s : State) (f c : Nat) (ls : List Loc) : (chargeLines s f c ls).groveTlb = s.groveTlb := rfl
@[simp] theorem chargeLines_walks (s : State) (f c : Nat) (ls : List Loc) : (chargeLines s f c ls).walks = s.walks := rfl
@[simp] theorem chargeLines_migrations (s : State) (f c : Nat) (ls : List Loc) : (chargeLines s f c ls).migrations = s.migrations := rfl
@[simp] theorem chargeLines_pinned (s : State) (f c : Nat) (ls : List Loc) : (chargeLines s f c ls).pinned = s.pinned := rfl
@[simp] theorem chargeLines_posts (s : State) (f c : Nat) (ls : List Loc) : (chargeLines s f c ls).posts = s.posts := rfl
@[simp] theorem chargeLines_bagCmds (s : State) (f c : Nat) (ls : List Loc) : (chargeLines s f c ls).bagCmds = s.bagCmds := rfl
@[simp] theorem chargeLines_arrivals (s : State) (f c : Nat) (ls : List Loc) : (chargeLines s f c ls).arrivals = s.arrivals := rfl
@[simp] theorem chargeLines_rootCmds (s : State) (f c : Nat) (ls : List Loc) : (chargeLines s f c ls).rootCmds = s.rootCmds := rfl
@[simp] theorem chargeLines_units (s : State) (f c : Nat) (ls : List Loc) : (chargeLines s f c ls).units = s.units := rfl
@[simp] theorem chargeLines_crown (s : State) (f c : Nat) (ls : List Loc) : (chargeLines s f c ls).crown = s.crown := rfl
@[simp] theorem chargeLines_lrel (s : State) (f c : Nat) (ls : List Loc) : (chargeLines s f c ls).lrel = s.lrel := rfl
@[simp] theorem chargeLines_promotions (s : State) (f c : Nat) (ls : List Loc) : (chargeLines s f c ls).promotions = s.promotions := rfl
@[simp] theorem chargeLines_periods (s : State) (f c : Nat) (ls : List Loc) : (chargeLines s f c ls).periods = s.periods := rfl
@[simp] theorem chargeLines_perTurn (s : State) (f c : Nat) (ls : List Loc) : (chargeLines s f c ls).perTurn = s.perTurn := rfl
@[simp] theorem chargeLines_collects (s : State) (f c : Nat) (ls : List Loc) : (chargeLines s f c ls).collects = s.collects := rfl
@[simp] theorem chargeLines_sysOps (s : State) (f c : Nat) (ls : List Loc) : (chargeLines s f c ls).sysOps = s.sysOps := rfl
@[simp] theorem chargeLines_slice (s : State) (f c : Nat) (ls : List Loc) : (chargeLines s f c ls).slice = s.slice := rfl
@[simp] theorem chargeLines_lags (s : State) (f c : Nat) (ls : List Loc) : (chargeLines s f c ls).lags = s.lags := rfl
@[simp] theorem chargeLines_served (s : State) (f c : Nat) (ls : List Loc) : (chargeLines s f c ls).served = s.served := rfl
@[simp] theorem chargeLines_rowCounts (s : State) (f c : Nat) (ls : List Loc) : (chargeLines s f c ls).rowCounts = s.rowCounts := rfl
@[simp] theorem chargeLines_rowRecords (s : State) (f c : Nat) (ls : List Loc) : (chargeLines s f c ls).rowRecords = s.rowRecords := rfl
@[simp] theorem chargeLines_calIdx (s : State) (f c : Nat) (ls : List Loc) : (chargeLines s f c ls).calIdx = s.calIdx := rfl
@[simp] theorem chargeLines_pcap (s : State) (f c : Nat) (ls : List Loc) : (chargeLines s f c ls).pcap = s.pcap := rfl
@[simp] theorem chargeLines_pstat (s : State) (f c : Nat) (ls : List Loc) : (chargeLines s f c ls).pstat = s.pstat := rfl
@[simp] theorem chargeLines_rates (s : State) (f c : Nat) (ls : List Loc) : (chargeLines s f c ls).rates = s.rates := rfl
@[simp] theorem chargeLines_links (s : State) (f c : Nat) (ls : List Loc) : (chargeLines s f c ls).links = s.links := rfl
@[simp] theorem chargeLines_cxl (s : State) (f c : Nat) (ls : List Loc) : (chargeLines s f c ls).cxl = s.cxl := rfl
@[simp] theorem chargeLines_cxlDown (s : State) (f c : Nat) (ls : List Loc) : (chargeLines s f c ls).cxlDown = s.cxlDown := rfl
@[simp] theorem chargeLines_wear (s : State) (f c : Nat) (ls : List Loc) : (chargeLines s f c ls).wear = s.wear := rfl
@[simp] theorem chargeLines_ctime (s : State) (f c : Nat) (ls : List Loc) : (chargeLines s f c ls).ctime = s.ctime := rfl
@[simp] theorem chargeLines_mwsel (s : State) (f c : Nat) (ls : List Loc) : (chargeLines s f c ls).mwsel = s.mwsel := rfl
@[simp] theorem chargeLines_mailbox (s : State) (f c : Nat) (ls : List Loc) : (chargeLines s f c ls).mailbox = s.mailbox := rfl
@[simp] theorem chargeLines_retired (s : State) (f c : Nat) (ls : List Loc) : (chargeLines s f c ls).retired = s.retired := rfl
@[simp] theorem chargeLines_volatileRetired (s : State) (f c : Nat) (ls : List Loc) : (chargeLines s f c ls).volatileRetired = s.volatileRetired := rfl
@[simp] theorem chargeLines_rlFull (s : State) (f c : Nat) (ls : List Loc) : (chargeLines s f c ls).rlFull = s.rlFull := rfl
@[simp] theorem chargeLines_corrected (s : State) (f c : Nat) (ls : List Loc) : (chargeLines s f c ls).corrected = s.corrected := rfl
@[simp] theorem chargeLines_badLines (s : State) (f c : Nat) (ls : List Loc) : (chargeLines s f c ls).badLines = s.badLines := rfl
@[simp] theorem chargeLines_errLines (s : State) (f c : Nat) (ls : List Loc) : (chargeLines s f c ls).errLines = s.errLines := rfl
@[simp] theorem chargeLines_rowErrs (s : State) (f c : Nat) (ls : List Loc) : (chargeLines s f c ls).rowErrs = s.rowErrs := rfl
@[simp] theorem chargeLines_toRetire (s : State) (f c : Nat) (ls : List Loc) : (chargeLines s f c ls).toRetire = s.toRetire := rfl
@[simp] theorem chargeLines_rollback (s : State) (f c : Nat) (ls : List Loc) : (chargeLines s f c ls).rollback = s.rollback := rfl
@[simp] theorem chargeLines_recovery (s : State) (f c : Nat) (ls : List Loc) : (chargeLines s f c ls).recovery = s.recovery := rfl
@[simp] theorem chargeLines_aerFatal (s : State) (f c : Nat) (ls : List Loc) : (chargeLines s f c ls).aerFatal = s.aerFatal := rfl
@[simp] theorem chargeLines_aerAborts (s : State) (f c : Nat) (ls : List Loc) : (chargeLines s f c ls).aerAborts = s.aerAborts := rfl
@[simp] theorem chargeLines_lastBar2 (s : State) (f c : Nat) (ls : List Loc) : (chargeLines s f c ls).lastBar2 = s.lastBar2 := rfl
@[simp] theorem chargeLines_lastBar0 (s : State) (f c : Nat) (ls : List Loc) : (chargeLines s f c ls).lastBar0 = s.lastBar0 := rfl

/-! ### `chargeDirect` -/

@[simp] theorem chargeDirect_cycle (s : State) (f : Nat) (ls : List Loc) : (chargeDirect s f ls).cycle = s.cycle := rfl
@[simp] theorem chargeDirect_turns (s : State) (f : Nat) (ls : List Loc) : (chargeDirect s f ls).turns = s.turns := rfl
@[simp] theorem chargeDirect_nextId (s : State) (f : Nat) (ls : List Loc) : (chargeDirect s f ls).nextId = s.nextId := rfl
@[simp] theorem chargeDirect_agenda (s : State) (f : Nat) (ls : List Loc) : (chargeDirect s f ls).agenda = s.agenda := rfl
@[simp] theorem chargeDirect_issue (s : State) (f : Nat) (ls : List Loc) : (chargeDirect s f ls).issue = s.issue := rfl
@[simp] theorem chargeDirect_mem (s : State) (f : Nat) (ls : List Loc) : (chargeDirect s f ls).mem = s.mem := rfl
@[simp] theorem chargeDirect_hostMem (s : State) (f : Nat) (ls : List Loc) : (chargeDirect s f ls).hostMem = s.hostMem := rfl
@[simp] theorem chargeDirect_standMask (s : State) (f : Nat) (ls : List Loc) : (chargeDirect s f ls).standMask = s.standMask := rfl
@[simp] theorem chargeDirect_stackMask (s : State) (f : Nat) (ls : List Loc) : (chargeDirect s f ls).stackMask = s.stackMask := rfl
@[simp] theorem chargeDirect_coreMasks (s : State) (f : Nat) (ls : List Loc) : (chargeDirect s f ls).coreMasks = s.coreMasks := rfl
@[simp] theorem chargeDirect_fns (s : State) (f : Nat) (ls : List Loc) : (chargeDirect s f ls).fns = s.fns := rfl
@[simp] theorem chargeDirect_launches (s : State) (f : Nat) (ls : List Loc) : (chargeDirect s f ls).launches = s.launches := rfl
@[simp] theorem chargeDirect_teams (s : State) (f : Nat) (ls : List Loc) : (chargeDirect s f ls).teams = s.teams := rfl
@[simp] theorem chargeDirect_saved (s : State) (f : Nat) (ls : List Loc) : (chargeDirect s f ls).saved = s.saved := rfl
@[simp] theorem chargeDirect_savedRoots (s : State) (f : Nat) (ls : List Loc) : (chargeDirect s f ls).savedRoots = s.savedRoots := rfl
@[simp] theorem chargeDirect_cores (s : State) (f : Nat) (ls : List Loc) : (chargeDirect s f ls).cores = s.cores := rfl
@[simp] theorem chargeDirect_groveTlb (s : State) (f : Nat) (ls : List Loc) : (chargeDirect s f ls).groveTlb = s.groveTlb := rfl
@[simp] theorem chargeDirect_walks (s : State) (f : Nat) (ls : List Loc) : (chargeDirect s f ls).walks = s.walks := rfl
@[simp] theorem chargeDirect_migrations (s : State) (f : Nat) (ls : List Loc) : (chargeDirect s f ls).migrations = s.migrations := rfl
@[simp] theorem chargeDirect_pinned (s : State) (f : Nat) (ls : List Loc) : (chargeDirect s f ls).pinned = s.pinned := rfl
@[simp] theorem chargeDirect_posts (s : State) (f : Nat) (ls : List Loc) : (chargeDirect s f ls).posts = s.posts := rfl
@[simp] theorem chargeDirect_bagCmds (s : State) (f : Nat) (ls : List Loc) : (chargeDirect s f ls).bagCmds = s.bagCmds := rfl
@[simp] theorem chargeDirect_arrivals (s : State) (f : Nat) (ls : List Loc) : (chargeDirect s f ls).arrivals = s.arrivals := rfl
@[simp] theorem chargeDirect_rootCmds (s : State) (f : Nat) (ls : List Loc) : (chargeDirect s f ls).rootCmds = s.rootCmds := rfl
@[simp] theorem chargeDirect_units (s : State) (f : Nat) (ls : List Loc) : (chargeDirect s f ls).units = s.units := rfl
@[simp] theorem chargeDirect_crown (s : State) (f : Nat) (ls : List Loc) : (chargeDirect s f ls).crown = s.crown := rfl
@[simp] theorem chargeDirect_lrel (s : State) (f : Nat) (ls : List Loc) : (chargeDirect s f ls).lrel = s.lrel := rfl
@[simp] theorem chargeDirect_promotions (s : State) (f : Nat) (ls : List Loc) : (chargeDirect s f ls).promotions = s.promotions := rfl
@[simp] theorem chargeDirect_periods (s : State) (f : Nat) (ls : List Loc) : (chargeDirect s f ls).periods = s.periods := rfl
@[simp] theorem chargeDirect_perTurn (s : State) (f : Nat) (ls : List Loc) : (chargeDirect s f ls).perTurn = s.perTurn := rfl
@[simp] theorem chargeDirect_collects (s : State) (f : Nat) (ls : List Loc) : (chargeDirect s f ls).collects = s.collects := rfl
@[simp] theorem chargeDirect_sysOps (s : State) (f : Nat) (ls : List Loc) : (chargeDirect s f ls).sysOps = s.sysOps := rfl
@[simp] theorem chargeDirect_slice (s : State) (f : Nat) (ls : List Loc) : (chargeDirect s f ls).slice = s.slice := rfl
@[simp] theorem chargeDirect_lags (s : State) (f : Nat) (ls : List Loc) : (chargeDirect s f ls).lags = s.lags := rfl
@[simp] theorem chargeDirect_served (s : State) (f : Nat) (ls : List Loc) : (chargeDirect s f ls).served = s.served := rfl
@[simp] theorem chargeDirect_rowCounts (s : State) (f : Nat) (ls : List Loc) : (chargeDirect s f ls).rowCounts = s.rowCounts := rfl
@[simp] theorem chargeDirect_rowRecords (s : State) (f : Nat) (ls : List Loc) : (chargeDirect s f ls).rowRecords = s.rowRecords := rfl
@[simp] theorem chargeDirect_calIdx (s : State) (f : Nat) (ls : List Loc) : (chargeDirect s f ls).calIdx = s.calIdx := rfl
@[simp] theorem chargeDirect_pcap (s : State) (f : Nat) (ls : List Loc) : (chargeDirect s f ls).pcap = s.pcap := rfl
@[simp] theorem chargeDirect_pstat (s : State) (f : Nat) (ls : List Loc) : (chargeDirect s f ls).pstat = s.pstat := rfl
@[simp] theorem chargeDirect_rates (s : State) (f : Nat) (ls : List Loc) : (chargeDirect s f ls).rates = s.rates := rfl
@[simp] theorem chargeDirect_links (s : State) (f : Nat) (ls : List Loc) : (chargeDirect s f ls).links = s.links := rfl
@[simp] theorem chargeDirect_cxl (s : State) (f : Nat) (ls : List Loc) : (chargeDirect s f ls).cxl = s.cxl := rfl
@[simp] theorem chargeDirect_cxlDown (s : State) (f : Nat) (ls : List Loc) : (chargeDirect s f ls).cxlDown = s.cxlDown := rfl
@[simp] theorem chargeDirect_wear (s : State) (f : Nat) (ls : List Loc) : (chargeDirect s f ls).wear = s.wear := rfl
@[simp] theorem chargeDirect_ctime (s : State) (f : Nat) (ls : List Loc) : (chargeDirect s f ls).ctime = s.ctime := rfl
@[simp] theorem chargeDirect_mwsel (s : State) (f : Nat) (ls : List Loc) : (chargeDirect s f ls).mwsel = s.mwsel := rfl
@[simp] theorem chargeDirect_mailbox (s : State) (f : Nat) (ls : List Loc) : (chargeDirect s f ls).mailbox = s.mailbox := rfl
@[simp] theorem chargeDirect_retired (s : State) (f : Nat) (ls : List Loc) : (chargeDirect s f ls).retired = s.retired := rfl
@[simp] theorem chargeDirect_volatileRetired (s : State) (f : Nat) (ls : List Loc) : (chargeDirect s f ls).volatileRetired = s.volatileRetired := rfl
@[simp] theorem chargeDirect_rlFull (s : State) (f : Nat) (ls : List Loc) : (chargeDirect s f ls).rlFull = s.rlFull := rfl
@[simp] theorem chargeDirect_corrected (s : State) (f : Nat) (ls : List Loc) : (chargeDirect s f ls).corrected = s.corrected := rfl
@[simp] theorem chargeDirect_badLines (s : State) (f : Nat) (ls : List Loc) : (chargeDirect s f ls).badLines = s.badLines := rfl
@[simp] theorem chargeDirect_errLines (s : State) (f : Nat) (ls : List Loc) : (chargeDirect s f ls).errLines = s.errLines := rfl
@[simp] theorem chargeDirect_rowErrs (s : State) (f : Nat) (ls : List Loc) : (chargeDirect s f ls).rowErrs = s.rowErrs := rfl
@[simp] theorem chargeDirect_toRetire (s : State) (f : Nat) (ls : List Loc) : (chargeDirect s f ls).toRetire = s.toRetire := rfl
@[simp] theorem chargeDirect_rollback (s : State) (f : Nat) (ls : List Loc) : (chargeDirect s f ls).rollback = s.rollback := rfl
@[simp] theorem chargeDirect_recovery (s : State) (f : Nat) (ls : List Loc) : (chargeDirect s f ls).recovery = s.recovery := rfl
@[simp] theorem chargeDirect_aerFatal (s : State) (f : Nat) (ls : List Loc) : (chargeDirect s f ls).aerFatal = s.aerFatal := rfl
@[simp] theorem chargeDirect_aerAborts (s : State) (f : Nat) (ls : List Loc) : (chargeDirect s f ls).aerAborts = s.aerAborts := rfl
@[simp] theorem chargeDirect_lastBar2 (s : State) (f : Nat) (ls : List Loc) : (chargeDirect s f ls).lastBar2 = s.lastBar2 := rfl
@[simp] theorem chargeDirect_lastBar0 (s : State) (f : Nat) (ls : List Loc) : (chargeDirect s f ls).lastBar0 = s.lastBar0 := rfl

/-! ### `chargeEach` -/

@[simp] theorem chargeEach_cycle (s : State) (f c : Nat) (ls : List Loc) : (chargeEach s f c ls).cycle = s.cycle := rfl
@[simp] theorem chargeEach_turns (s : State) (f c : Nat) (ls : List Loc) : (chargeEach s f c ls).turns = s.turns := rfl
@[simp] theorem chargeEach_nextId (s : State) (f c : Nat) (ls : List Loc) : (chargeEach s f c ls).nextId = s.nextId := rfl
@[simp] theorem chargeEach_agenda (s : State) (f c : Nat) (ls : List Loc) : (chargeEach s f c ls).agenda = s.agenda := rfl
@[simp] theorem chargeEach_issue (s : State) (f c : Nat) (ls : List Loc) : (chargeEach s f c ls).issue = s.issue := rfl
@[simp] theorem chargeEach_mem (s : State) (f c : Nat) (ls : List Loc) : (chargeEach s f c ls).mem = s.mem := rfl
@[simp] theorem chargeEach_hostMem (s : State) (f c : Nat) (ls : List Loc) : (chargeEach s f c ls).hostMem = s.hostMem := rfl
@[simp] theorem chargeEach_standMask (s : State) (f c : Nat) (ls : List Loc) : (chargeEach s f c ls).standMask = s.standMask := rfl
@[simp] theorem chargeEach_stackMask (s : State) (f c : Nat) (ls : List Loc) : (chargeEach s f c ls).stackMask = s.stackMask := rfl
@[simp] theorem chargeEach_coreMasks (s : State) (f c : Nat) (ls : List Loc) : (chargeEach s f c ls).coreMasks = s.coreMasks := rfl
@[simp] theorem chargeEach_fns (s : State) (f c : Nat) (ls : List Loc) : (chargeEach s f c ls).fns = s.fns := rfl
@[simp] theorem chargeEach_launches (s : State) (f c : Nat) (ls : List Loc) : (chargeEach s f c ls).launches = s.launches := rfl
@[simp] theorem chargeEach_teams (s : State) (f c : Nat) (ls : List Loc) : (chargeEach s f c ls).teams = s.teams := rfl
@[simp] theorem chargeEach_saved (s : State) (f c : Nat) (ls : List Loc) : (chargeEach s f c ls).saved = s.saved := rfl
@[simp] theorem chargeEach_savedRoots (s : State) (f c : Nat) (ls : List Loc) : (chargeEach s f c ls).savedRoots = s.savedRoots := rfl
@[simp] theorem chargeEach_cores (s : State) (f c : Nat) (ls : List Loc) : (chargeEach s f c ls).cores = s.cores := rfl
@[simp] theorem chargeEach_groveTlb (s : State) (f c : Nat) (ls : List Loc) : (chargeEach s f c ls).groveTlb = s.groveTlb := rfl
@[simp] theorem chargeEach_walks (s : State) (f c : Nat) (ls : List Loc) : (chargeEach s f c ls).walks = s.walks := rfl
@[simp] theorem chargeEach_migrations (s : State) (f c : Nat) (ls : List Loc) : (chargeEach s f c ls).migrations = s.migrations := rfl
@[simp] theorem chargeEach_pinned (s : State) (f c : Nat) (ls : List Loc) : (chargeEach s f c ls).pinned = s.pinned := rfl
@[simp] theorem chargeEach_posts (s : State) (f c : Nat) (ls : List Loc) : (chargeEach s f c ls).posts = s.posts := rfl
@[simp] theorem chargeEach_bagCmds (s : State) (f c : Nat) (ls : List Loc) : (chargeEach s f c ls).bagCmds = s.bagCmds := rfl
@[simp] theorem chargeEach_arrivals (s : State) (f c : Nat) (ls : List Loc) : (chargeEach s f c ls).arrivals = s.arrivals := rfl
@[simp] theorem chargeEach_rootCmds (s : State) (f c : Nat) (ls : List Loc) : (chargeEach s f c ls).rootCmds = s.rootCmds := rfl
@[simp] theorem chargeEach_units (s : State) (f c : Nat) (ls : List Loc) : (chargeEach s f c ls).units = s.units := rfl
@[simp] theorem chargeEach_crown (s : State) (f c : Nat) (ls : List Loc) : (chargeEach s f c ls).crown = s.crown := rfl
@[simp] theorem chargeEach_lrel (s : State) (f c : Nat) (ls : List Loc) : (chargeEach s f c ls).lrel = s.lrel := rfl
@[simp] theorem chargeEach_promotions (s : State) (f c : Nat) (ls : List Loc) : (chargeEach s f c ls).promotions = s.promotions := rfl
@[simp] theorem chargeEach_periods (s : State) (f c : Nat) (ls : List Loc) : (chargeEach s f c ls).periods = s.periods := rfl
@[simp] theorem chargeEach_perTurn (s : State) (f c : Nat) (ls : List Loc) : (chargeEach s f c ls).perTurn = s.perTurn := rfl
@[simp] theorem chargeEach_collects (s : State) (f c : Nat) (ls : List Loc) : (chargeEach s f c ls).collects = s.collects := rfl
@[simp] theorem chargeEach_sysOps (s : State) (f c : Nat) (ls : List Loc) : (chargeEach s f c ls).sysOps = s.sysOps := rfl
@[simp] theorem chargeEach_slice (s : State) (f c : Nat) (ls : List Loc) : (chargeEach s f c ls).slice = s.slice := rfl
@[simp] theorem chargeEach_lags (s : State) (f c : Nat) (ls : List Loc) : (chargeEach s f c ls).lags = s.lags := rfl
@[simp] theorem chargeEach_served (s : State) (f c : Nat) (ls : List Loc) : (chargeEach s f c ls).served = s.served := rfl
@[simp] theorem chargeEach_rowCounts (s : State) (f c : Nat) (ls : List Loc) : (chargeEach s f c ls).rowCounts = s.rowCounts := rfl
@[simp] theorem chargeEach_rowRecords (s : State) (f c : Nat) (ls : List Loc) : (chargeEach s f c ls).rowRecords = s.rowRecords := rfl
@[simp] theorem chargeEach_calIdx (s : State) (f c : Nat) (ls : List Loc) : (chargeEach s f c ls).calIdx = s.calIdx := rfl
@[simp] theorem chargeEach_pcap (s : State) (f c : Nat) (ls : List Loc) : (chargeEach s f c ls).pcap = s.pcap := rfl
@[simp] theorem chargeEach_pstat (s : State) (f c : Nat) (ls : List Loc) : (chargeEach s f c ls).pstat = s.pstat := rfl
@[simp] theorem chargeEach_rates (s : State) (f c : Nat) (ls : List Loc) : (chargeEach s f c ls).rates = s.rates := rfl
@[simp] theorem chargeEach_links (s : State) (f c : Nat) (ls : List Loc) : (chargeEach s f c ls).links = s.links := rfl
@[simp] theorem chargeEach_cxl (s : State) (f c : Nat) (ls : List Loc) : (chargeEach s f c ls).cxl = s.cxl := rfl
@[simp] theorem chargeEach_cxlDown (s : State) (f c : Nat) (ls : List Loc) : (chargeEach s f c ls).cxlDown = s.cxlDown := rfl
@[simp] theorem chargeEach_wear (s : State) (f c : Nat) (ls : List Loc) : (chargeEach s f c ls).wear = s.wear := rfl
@[simp] theorem chargeEach_ctime (s : State) (f c : Nat) (ls : List Loc) : (chargeEach s f c ls).ctime = s.ctime := rfl
@[simp] theorem chargeEach_mwsel (s : State) (f c : Nat) (ls : List Loc) : (chargeEach s f c ls).mwsel = s.mwsel := rfl
@[simp] theorem chargeEach_mailbox (s : State) (f c : Nat) (ls : List Loc) : (chargeEach s f c ls).mailbox = s.mailbox := rfl
@[simp] theorem chargeEach_retired (s : State) (f c : Nat) (ls : List Loc) : (chargeEach s f c ls).retired = s.retired := rfl
@[simp] theorem chargeEach_volatileRetired (s : State) (f c : Nat) (ls : List Loc) : (chargeEach s f c ls).volatileRetired = s.volatileRetired := rfl
@[simp] theorem chargeEach_rlFull (s : State) (f c : Nat) (ls : List Loc) : (chargeEach s f c ls).rlFull = s.rlFull := rfl
@[simp] theorem chargeEach_corrected (s : State) (f c : Nat) (ls : List Loc) : (chargeEach s f c ls).corrected = s.corrected := rfl
@[simp] theorem chargeEach_badLines (s : State) (f c : Nat) (ls : List Loc) : (chargeEach s f c ls).badLines = s.badLines := rfl
@[simp] theorem chargeEach_errLines (s : State) (f c : Nat) (ls : List Loc) : (chargeEach s f c ls).errLines = s.errLines := rfl
@[simp] theorem chargeEach_rowErrs (s : State) (f c : Nat) (ls : List Loc) : (chargeEach s f c ls).rowErrs = s.rowErrs := rfl
@[simp] theorem chargeEach_toRetire (s : State) (f c : Nat) (ls : List Loc) : (chargeEach s f c ls).toRetire = s.toRetire := rfl
@[simp] theorem chargeEach_rollback (s : State) (f c : Nat) (ls : List Loc) : (chargeEach s f c ls).rollback = s.rollback := rfl
@[simp] theorem chargeEach_recovery (s : State) (f c : Nat) (ls : List Loc) : (chargeEach s f c ls).recovery = s.recovery := rfl
@[simp] theorem chargeEach_aerFatal (s : State) (f c : Nat) (ls : List Loc) : (chargeEach s f c ls).aerFatal = s.aerFatal := rfl
@[simp] theorem chargeEach_aerAborts (s : State) (f c : Nat) (ls : List Loc) : (chargeEach s f c ls).aerAborts = s.aerAborts := rfl
@[simp] theorem chargeEach_lastBar2 (s : State) (f c : Nat) (ls : List Loc) : (chargeEach s f c ls).lastBar2 = s.lastBar2 := rfl
@[simp] theorem chargeEach_lastBar0 (s : State) (f c : Nat) (ls : List Loc) : (chargeEach s f c ls).lastBar0 = s.lastBar0 := rfl

/-! ### `chargeWalks` -/

@[simp] theorem chargeWalks_cycle (s : State) (f : Nat) (ps : List Nat) : (chargeWalks s f ps).cycle = s.cycle := rfl
@[simp] theorem chargeWalks_turns (s : State) (f : Nat) (ps : List Nat) : (chargeWalks s f ps).turns = s.turns := rfl
@[simp] theorem chargeWalks_nextId (s : State) (f : Nat) (ps : List Nat) : (chargeWalks s f ps).nextId = s.nextId := rfl
@[simp] theorem chargeWalks_agenda (s : State) (f : Nat) (ps : List Nat) : (chargeWalks s f ps).agenda = s.agenda := rfl
@[simp] theorem chargeWalks_issue (s : State) (f : Nat) (ps : List Nat) : (chargeWalks s f ps).issue = s.issue := rfl
@[simp] theorem chargeWalks_mem (s : State) (f : Nat) (ps : List Nat) : (chargeWalks s f ps).mem = s.mem := rfl
@[simp] theorem chargeWalks_hostMem (s : State) (f : Nat) (ps : List Nat) : (chargeWalks s f ps).hostMem = s.hostMem := rfl
@[simp] theorem chargeWalks_standMask (s : State) (f : Nat) (ps : List Nat) : (chargeWalks s f ps).standMask = s.standMask := rfl
@[simp] theorem chargeWalks_stackMask (s : State) (f : Nat) (ps : List Nat) : (chargeWalks s f ps).stackMask = s.stackMask := rfl
@[simp] theorem chargeWalks_coreMasks (s : State) (f : Nat) (ps : List Nat) : (chargeWalks s f ps).coreMasks = s.coreMasks := rfl
@[simp] theorem chargeWalks_fns (s : State) (f : Nat) (ps : List Nat) : (chargeWalks s f ps).fns = s.fns := rfl
@[simp] theorem chargeWalks_launches (s : State) (f : Nat) (ps : List Nat) : (chargeWalks s f ps).launches = s.launches := rfl
@[simp] theorem chargeWalks_teams (s : State) (f : Nat) (ps : List Nat) : (chargeWalks s f ps).teams = s.teams := rfl
@[simp] theorem chargeWalks_saved (s : State) (f : Nat) (ps : List Nat) : (chargeWalks s f ps).saved = s.saved := rfl
@[simp] theorem chargeWalks_savedRoots (s : State) (f : Nat) (ps : List Nat) : (chargeWalks s f ps).savedRoots = s.savedRoots := rfl
@[simp] theorem chargeWalks_cores (s : State) (f : Nat) (ps : List Nat) : (chargeWalks s f ps).cores = s.cores := rfl
@[simp] theorem chargeWalks_groveTlb (s : State) (f : Nat) (ps : List Nat) : (chargeWalks s f ps).groveTlb = s.groveTlb := rfl
@[simp] theorem chargeWalks_walks (s : State) (f : Nat) (ps : List Nat) : (chargeWalks s f ps).walks = s.walks := rfl
@[simp] theorem chargeWalks_migrations (s : State) (f : Nat) (ps : List Nat) : (chargeWalks s f ps).migrations = s.migrations := rfl
@[simp] theorem chargeWalks_pinned (s : State) (f : Nat) (ps : List Nat) : (chargeWalks s f ps).pinned = s.pinned := rfl
@[simp] theorem chargeWalks_posts (s : State) (f : Nat) (ps : List Nat) : (chargeWalks s f ps).posts = s.posts := rfl
@[simp] theorem chargeWalks_bagCmds (s : State) (f : Nat) (ps : List Nat) : (chargeWalks s f ps).bagCmds = s.bagCmds := rfl
@[simp] theorem chargeWalks_arrivals (s : State) (f : Nat) (ps : List Nat) : (chargeWalks s f ps).arrivals = s.arrivals := rfl
@[simp] theorem chargeWalks_rootCmds (s : State) (f : Nat) (ps : List Nat) : (chargeWalks s f ps).rootCmds = s.rootCmds := rfl
@[simp] theorem chargeWalks_units (s : State) (f : Nat) (ps : List Nat) : (chargeWalks s f ps).units = s.units := rfl
@[simp] theorem chargeWalks_crown (s : State) (f : Nat) (ps : List Nat) : (chargeWalks s f ps).crown = s.crown := rfl
@[simp] theorem chargeWalks_lrel (s : State) (f : Nat) (ps : List Nat) : (chargeWalks s f ps).lrel = s.lrel := rfl
@[simp] theorem chargeWalks_promotions (s : State) (f : Nat) (ps : List Nat) : (chargeWalks s f ps).promotions = s.promotions := rfl
@[simp] theorem chargeWalks_periods (s : State) (f : Nat) (ps : List Nat) : (chargeWalks s f ps).periods = s.periods := rfl
@[simp] theorem chargeWalks_perTurn (s : State) (f : Nat) (ps : List Nat) : (chargeWalks s f ps).perTurn = s.perTurn := rfl
@[simp] theorem chargeWalks_collects (s : State) (f : Nat) (ps : List Nat) : (chargeWalks s f ps).collects = s.collects := rfl
@[simp] theorem chargeWalks_sysOps (s : State) (f : Nat) (ps : List Nat) : (chargeWalks s f ps).sysOps = s.sysOps := rfl
@[simp] theorem chargeWalks_slice (s : State) (f : Nat) (ps : List Nat) : (chargeWalks s f ps).slice = s.slice := rfl
@[simp] theorem chargeWalks_lags (s : State) (f : Nat) (ps : List Nat) : (chargeWalks s f ps).lags = s.lags := rfl
@[simp] theorem chargeWalks_served (s : State) (f : Nat) (ps : List Nat) : (chargeWalks s f ps).served = s.served := rfl
@[simp] theorem chargeWalks_rowCounts (s : State) (f : Nat) (ps : List Nat) : (chargeWalks s f ps).rowCounts = s.rowCounts := rfl
@[simp] theorem chargeWalks_rowRecords (s : State) (f : Nat) (ps : List Nat) : (chargeWalks s f ps).rowRecords = s.rowRecords := rfl
@[simp] theorem chargeWalks_calIdx (s : State) (f : Nat) (ps : List Nat) : (chargeWalks s f ps).calIdx = s.calIdx := rfl
@[simp] theorem chargeWalks_pcap (s : State) (f : Nat) (ps : List Nat) : (chargeWalks s f ps).pcap = s.pcap := rfl
@[simp] theorem chargeWalks_pstat (s : State) (f : Nat) (ps : List Nat) : (chargeWalks s f ps).pstat = s.pstat := rfl
@[simp] theorem chargeWalks_rates (s : State) (f : Nat) (ps : List Nat) : (chargeWalks s f ps).rates = s.rates := rfl
@[simp] theorem chargeWalks_links (s : State) (f : Nat) (ps : List Nat) : (chargeWalks s f ps).links = s.links := rfl
@[simp] theorem chargeWalks_cxl (s : State) (f : Nat) (ps : List Nat) : (chargeWalks s f ps).cxl = s.cxl := rfl
@[simp] theorem chargeWalks_cxlDown (s : State) (f : Nat) (ps : List Nat) : (chargeWalks s f ps).cxlDown = s.cxlDown := rfl
@[simp] theorem chargeWalks_wear (s : State) (f : Nat) (ps : List Nat) : (chargeWalks s f ps).wear = s.wear := rfl
@[simp] theorem chargeWalks_ctime (s : State) (f : Nat) (ps : List Nat) : (chargeWalks s f ps).ctime = s.ctime := rfl
@[simp] theorem chargeWalks_mwsel (s : State) (f : Nat) (ps : List Nat) : (chargeWalks s f ps).mwsel = s.mwsel := rfl
@[simp] theorem chargeWalks_mailbox (s : State) (f : Nat) (ps : List Nat) : (chargeWalks s f ps).mailbox = s.mailbox := rfl
@[simp] theorem chargeWalks_retired (s : State) (f : Nat) (ps : List Nat) : (chargeWalks s f ps).retired = s.retired := rfl
@[simp] theorem chargeWalks_volatileRetired (s : State) (f : Nat) (ps : List Nat) : (chargeWalks s f ps).volatileRetired = s.volatileRetired := rfl
@[simp] theorem chargeWalks_rlFull (s : State) (f : Nat) (ps : List Nat) : (chargeWalks s f ps).rlFull = s.rlFull := rfl
@[simp] theorem chargeWalks_corrected (s : State) (f : Nat) (ps : List Nat) : (chargeWalks s f ps).corrected = s.corrected := rfl
@[simp] theorem chargeWalks_badLines (s : State) (f : Nat) (ps : List Nat) : (chargeWalks s f ps).badLines = s.badLines := rfl
@[simp] theorem chargeWalks_errLines (s : State) (f : Nat) (ps : List Nat) : (chargeWalks s f ps).errLines = s.errLines := rfl
@[simp] theorem chargeWalks_rowErrs (s : State) (f : Nat) (ps : List Nat) : (chargeWalks s f ps).rowErrs = s.rowErrs := rfl
@[simp] theorem chargeWalks_toRetire (s : State) (f : Nat) (ps : List Nat) : (chargeWalks s f ps).toRetire = s.toRetire := rfl
@[simp] theorem chargeWalks_rollback (s : State) (f : Nat) (ps : List Nat) : (chargeWalks s f ps).rollback = s.rollback := rfl
@[simp] theorem chargeWalks_recovery (s : State) (f : Nat) (ps : List Nat) : (chargeWalks s f ps).recovery = s.recovery := rfl
@[simp] theorem chargeWalks_aerFatal (s : State) (f : Nat) (ps : List Nat) : (chargeWalks s f ps).aerFatal = s.aerFatal := rfl
@[simp] theorem chargeWalks_aerAborts (s : State) (f : Nat) (ps : List Nat) : (chargeWalks s f ps).aerAborts = s.aerAborts := rfl
@[simp] theorem chargeWalks_lastBar2 (s : State) (f : Nat) (ps : List Nat) : (chargeWalks s f ps).lastBar2 = s.lastBar2 := rfl
@[simp] theorem chargeWalks_lastBar0 (s : State) (f : Nat) (ps : List Nat) : (chargeWalks s f ps).lastBar0 = s.lastBar0 := rfl

/-! ### `chargeRange` -/

@[simp] theorem chargeRange_cycle (s : State) (f g va n : Nat) : (chargeRange s f g va n).cycle = s.cycle := rfl
@[simp] theorem chargeRange_turns (s : State) (f g va n : Nat) : (chargeRange s f g va n).turns = s.turns := rfl
@[simp] theorem chargeRange_nextId (s : State) (f g va n : Nat) : (chargeRange s f g va n).nextId = s.nextId := rfl
@[simp] theorem chargeRange_agenda (s : State) (f g va n : Nat) : (chargeRange s f g va n).agenda = s.agenda := rfl
@[simp] theorem chargeRange_issue (s : State) (f g va n : Nat) : (chargeRange s f g va n).issue = s.issue := rfl
@[simp] theorem chargeRange_mem (s : State) (f g va n : Nat) : (chargeRange s f g va n).mem = s.mem := rfl
@[simp] theorem chargeRange_hostMem (s : State) (f g va n : Nat) : (chargeRange s f g va n).hostMem = s.hostMem := rfl
@[simp] theorem chargeRange_standMask (s : State) (f g va n : Nat) : (chargeRange s f g va n).standMask = s.standMask := rfl
@[simp] theorem chargeRange_stackMask (s : State) (f g va n : Nat) : (chargeRange s f g va n).stackMask = s.stackMask := rfl
@[simp] theorem chargeRange_coreMasks (s : State) (f g va n : Nat) : (chargeRange s f g va n).coreMasks = s.coreMasks := rfl
@[simp] theorem chargeRange_fns (s : State) (f g va n : Nat) : (chargeRange s f g va n).fns = s.fns := rfl
@[simp] theorem chargeRange_launches (s : State) (f g va n : Nat) : (chargeRange s f g va n).launches = s.launches := rfl
@[simp] theorem chargeRange_teams (s : State) (f g va n : Nat) : (chargeRange s f g va n).teams = s.teams := rfl
@[simp] theorem chargeRange_saved (s : State) (f g va n : Nat) : (chargeRange s f g va n).saved = s.saved := rfl
@[simp] theorem chargeRange_savedRoots (s : State) (f g va n : Nat) : (chargeRange s f g va n).savedRoots = s.savedRoots := rfl
@[simp] theorem chargeRange_cores (s : State) (f g va n : Nat) : (chargeRange s f g va n).cores = s.cores := rfl
@[simp] theorem chargeRange_groveTlb (s : State) (f g va n : Nat) : (chargeRange s f g va n).groveTlb = s.groveTlb := rfl
@[simp] theorem chargeRange_walks (s : State) (f g va n : Nat) : (chargeRange s f g va n).walks = s.walks := rfl
@[simp] theorem chargeRange_migrations (s : State) (f g va n : Nat) : (chargeRange s f g va n).migrations = s.migrations := rfl
@[simp] theorem chargeRange_pinned (s : State) (f g va n : Nat) : (chargeRange s f g va n).pinned = s.pinned := rfl
@[simp] theorem chargeRange_posts (s : State) (f g va n : Nat) : (chargeRange s f g va n).posts = s.posts := rfl
@[simp] theorem chargeRange_bagCmds (s : State) (f g va n : Nat) : (chargeRange s f g va n).bagCmds = s.bagCmds := rfl
@[simp] theorem chargeRange_arrivals (s : State) (f g va n : Nat) : (chargeRange s f g va n).arrivals = s.arrivals := rfl
@[simp] theorem chargeRange_rootCmds (s : State) (f g va n : Nat) : (chargeRange s f g va n).rootCmds = s.rootCmds := rfl
@[simp] theorem chargeRange_units (s : State) (f g va n : Nat) : (chargeRange s f g va n).units = s.units := rfl
@[simp] theorem chargeRange_crown (s : State) (f g va n : Nat) : (chargeRange s f g va n).crown = s.crown := rfl
@[simp] theorem chargeRange_lrel (s : State) (f g va n : Nat) : (chargeRange s f g va n).lrel = s.lrel := rfl
@[simp] theorem chargeRange_promotions (s : State) (f g va n : Nat) : (chargeRange s f g va n).promotions = s.promotions := rfl
@[simp] theorem chargeRange_periods (s : State) (f g va n : Nat) : (chargeRange s f g va n).periods = s.periods := rfl
@[simp] theorem chargeRange_perTurn (s : State) (f g va n : Nat) : (chargeRange s f g va n).perTurn = s.perTurn := rfl
@[simp] theorem chargeRange_collects (s : State) (f g va n : Nat) : (chargeRange s f g va n).collects = s.collects := rfl
@[simp] theorem chargeRange_sysOps (s : State) (f g va n : Nat) : (chargeRange s f g va n).sysOps = s.sysOps := rfl
@[simp] theorem chargeRange_slice (s : State) (f g va n : Nat) : (chargeRange s f g va n).slice = s.slice := rfl
@[simp] theorem chargeRange_lags (s : State) (f g va n : Nat) : (chargeRange s f g va n).lags = s.lags := rfl
@[simp] theorem chargeRange_served (s : State) (f g va n : Nat) : (chargeRange s f g va n).served = s.served := rfl
@[simp] theorem chargeRange_rowCounts (s : State) (f g va n : Nat) : (chargeRange s f g va n).rowCounts = s.rowCounts := rfl
@[simp] theorem chargeRange_rowRecords (s : State) (f g va n : Nat) : (chargeRange s f g va n).rowRecords = s.rowRecords := rfl
@[simp] theorem chargeRange_calIdx (s : State) (f g va n : Nat) : (chargeRange s f g va n).calIdx = s.calIdx := rfl
@[simp] theorem chargeRange_pcap (s : State) (f g va n : Nat) : (chargeRange s f g va n).pcap = s.pcap := rfl
@[simp] theorem chargeRange_pstat (s : State) (f g va n : Nat) : (chargeRange s f g va n).pstat = s.pstat := rfl
@[simp] theorem chargeRange_rates (s : State) (f g va n : Nat) : (chargeRange s f g va n).rates = s.rates := rfl
@[simp] theorem chargeRange_links (s : State) (f g va n : Nat) : (chargeRange s f g va n).links = s.links := rfl
@[simp] theorem chargeRange_cxl (s : State) (f g va n : Nat) : (chargeRange s f g va n).cxl = s.cxl := rfl
@[simp] theorem chargeRange_cxlDown (s : State) (f g va n : Nat) : (chargeRange s f g va n).cxlDown = s.cxlDown := rfl
@[simp] theorem chargeRange_wear (s : State) (f g va n : Nat) : (chargeRange s f g va n).wear = s.wear := rfl
@[simp] theorem chargeRange_ctime (s : State) (f g va n : Nat) : (chargeRange s f g va n).ctime = s.ctime := rfl
@[simp] theorem chargeRange_mwsel (s : State) (f g va n : Nat) : (chargeRange s f g va n).mwsel = s.mwsel := rfl
@[simp] theorem chargeRange_mailbox (s : State) (f g va n : Nat) : (chargeRange s f g va n).mailbox = s.mailbox := rfl
@[simp] theorem chargeRange_retired (s : State) (f g va n : Nat) : (chargeRange s f g va n).retired = s.retired := rfl
@[simp] theorem chargeRange_volatileRetired (s : State) (f g va n : Nat) : (chargeRange s f g va n).volatileRetired = s.volatileRetired := rfl
@[simp] theorem chargeRange_rlFull (s : State) (f g va n : Nat) : (chargeRange s f g va n).rlFull = s.rlFull := rfl
@[simp] theorem chargeRange_corrected (s : State) (f g va n : Nat) : (chargeRange s f g va n).corrected = s.corrected := rfl
@[simp] theorem chargeRange_badLines (s : State) (f g va n : Nat) : (chargeRange s f g va n).badLines = s.badLines := rfl
@[simp] theorem chargeRange_errLines (s : State) (f g va n : Nat) : (chargeRange s f g va n).errLines = s.errLines := rfl
@[simp] theorem chargeRange_rowErrs (s : State) (f g va n : Nat) : (chargeRange s f g va n).rowErrs = s.rowErrs := rfl
@[simp] theorem chargeRange_toRetire (s : State) (f g va n : Nat) : (chargeRange s f g va n).toRetire = s.toRetire := rfl
@[simp] theorem chargeRange_rollback (s : State) (f g va n : Nat) : (chargeRange s f g va n).rollback = s.rollback := rfl
@[simp] theorem chargeRange_recovery (s : State) (f g va n : Nat) : (chargeRange s f g va n).recovery = s.recovery := rfl
@[simp] theorem chargeRange_aerFatal (s : State) (f g va n : Nat) : (chargeRange s f g va n).aerFatal = s.aerFatal := rfl
@[simp] theorem chargeRange_aerAborts (s : State) (f g va n : Nat) : (chargeRange s f g va n).aerAborts = s.aerAborts := rfl
@[simp] theorem chargeRange_lastBar2 (s : State) (f g va n : Nat) : (chargeRange s f g va n).lastBar2 = s.lastBar2 := rfl
@[simp] theorem chargeRange_lastBar0 (s : State) (f g va n : Nat) : (chargeRange s f g va n).lastBar0 = s.lastBar0 := rfl

end Sys2Proof.Machine.State
end

