-- ==== Sys2Proof/Laws/Issue.lean ====
section
/-! SUPPORT. What the shared forms of a meaning answer: `runEach`, `runRegs` and the forms over them end in a next
state whenever an issue is in progress, in the effect of every part when none traps, and in the traps otherwise. -/
namespace Sys2Proof.Machine

/-- No part of a list traps: the disjunction that `runEach` tests is false. -/
theorem any_nonempty_map_eq_false {α β : Type} {cs : List α} {chk : α → List β} (hc : ∀ c ∈ cs, chk c = []) :
    ((cs.map fun c => (c, chk c)).any fun x => !x.2.isEmpty) = false := by
  simp only [List.any_map, List.any_eq_false, Function.comp_apply]
  intro c hm
  simp [hc c hm]

theorem any_nonempty_map_eq_true {α β : Type} {cs : List α} {chk : α → List β} {c : α} (hm : c ∈ cs) (hc : chk c ≠ []) :
    ((cs.map fun c => (c, chk c)).any fun x => !x.2.isEmpty) = true := by
  simp only [List.any_map, List.any_eq_true, Function.comp_apply]
  exact ⟨c, hm, by simpa using hc⟩

theorem runEach_next {h : Head} {chk : State → Ctx → List (Nat × TrapInfo)} {act : Issue → Ctx → State → State}
    {s : State} {i : Issue} (hi : s.issue = some i) (hc : NoTraps chk h i s) :
    runEach h chk act s = .next (partsEffect act h i s) := by
  unfold runEach partsEffect
  simp only [hi, any_nonempty_map_eq_false hc]
  rfl

/-- Some part traps: nothing acts, lanes whose predicate is false move on, and the traps are taken. -/
theorem runEach_traps {h : Head} {chk : State → Ctx → List (Nat × TrapInfo)} {act : Issue → Ctx → State → State}
    {s : State} {i : Issue} {c : Ctx} (hi : s.issue = some i) (hm : c ∈ contexts s i h) (hc : chk s c ≠ []) :
    runEach h chk act s = .next (raiseAll
      ((contexts s i h).foldl (fun s c => bif c.ref.isSome then advance s i c (c.iss &&& ~~~c.e) else s) s)
      ((contexts s i h).map fun c => (c, chk s c))) := by
  unfold runEach
  simp only [hi, any_nonempty_map_eq_true hm hc]
  rfl

/-- With an issue in progress, `runEach` always answers a next state. -/
theorem runEach_answers {h : Head} {chk : State → Ctx → List (Nat × TrapInfo)} {act : Issue → Ctx → State → State}
    {s : State} {i : Issue} (hi : s.issue = some i) : ∃ t, runEach h chk act s = .next t := by
  unfold runEach
  simp only [hi]
  split <;> exact ⟨_, rfl⟩

theorem runRegs_next {h : Head} {chk : Ctx → List (Nat × TrapInfo)} {f : Ctx → Regs} {s : State} {i : Issue}
    (hi : s.issue = some i) (hc : NoTraps (fun _ c => chk c) h i s) :
    runRegs h chk f s = .next (regEffect f h i s) :=
  runEach_next hi hc

theorem runRegs_noTrap {h : Head} {f : Ctx → Regs} {s : State} {i : Issue} (hi : s.issue = some i) :
    runRegs h noTrap f s = .next (regEffect f h i s) :=
  runRegs_next hi fun _ _ => rfl

theorem regEffect_congr {f g : Ctx → Regs} (hfg : ∀ c, f c = g c) (h : Head) (i : Issue) (s : State) :
    regEffect f h i s = regEffect g h i s := by
  rw [funext hfg]

theorem onceE_eq (f : Ctx → Regs → Regs) (c : Ctx) : onceE f c = if c.e = 0 then c.r else f c c.r := by
  unfold onceE
  by_cases h : c.e = 0 <;> simp [h]

theorem runUni_next {h : Head} {d : UReg} {f : Regs → Word} {s : State} {i : Issue} (hi : s.issue = some i) :
    runUni h d f s = .next (regEffect (uniW d fun c => f c.r) h i s) := by
  unfold runUni
  rw [runRegs_noTrap hi]
  exact congrArg _ (regEffect_congr (fun c => onceE_eq _ c) h i s)

theorem runVote_next {h : Head} {d : UReg} {f : Ctx → Word} {s : State} {i : Issue} (hi : s.issue = some i) :
    runVote h d f s = .next (regEffect (uniW d f) h i s) := by
  unfold runVote
  rw [runRegs_noTrap hi]
  exact congrArg _ (regEffect_congr (fun c => onceE_eq _ c) h i s)

theorem runPair_next {h : Head} {d : UReg} {f : Regs → DWord} {s : State} {i : Issue} (hi : s.issue = some i) :
    runPair h d f s = .next (regEffect (pairW d fun c => f c.r) h i s) := by
  unfold runPair
  rw [runRegs_noTrap hi]
  exact congrArg _ (regEffect_congr (fun c => onceE_eq _ c) h i s)

theorem runVec_next {h : Head} {d : VReg} {f : Ctx → Nat → Word} {s : State} {i : Issue} (hi : s.issue = some i) :
    runVec h d f s = .next (regEffect (vecW d f) h i s) :=
  runRegs_noTrap hi

theorem runVPred_next {h : Head} {d : PReg} {f : Ctx → Nat → Bool} {s : State} {i : Issue} (hi : s.issue = some i) :
    runVPred h d f s = .next (regEffect (predW d f) h i s) :=
  runRegs_noTrap hi

theorem runPred_next {h : Head} {d : PReg} {f : Regs → Mask} {s : State} {i : Issue} (hi : s.issue = some i) :
    runPred h d f s = .next (regEffect (predE d fun c => f c.r) h i s) := by
  unfold runPred
  rw [runRegs_noTrap hi]
  exact congrArg _ (regEffect_congr (fun c => onceE_eq _ c) h i s)

/-- With an issue in progress, a memory form always answers a next state. -/
theorem runMem_answers {h : Head} {f : MemForm} {uni : Bool} {pre : State → Ctx → List (Nat × TrapInfo)}
    {chk look : Ctx → List Elem} {act : Issue → Ctx → State → State} {s : State} {i : Issue} (hi : s.issue = some i) :
    ∃ t, runMem h f uni pre chk look act s = .next t := by
  unfold runMem
  simp only [hi]
  split_ifs <;> exact ⟨_, rfl⟩

/-- With an issue in progress, a branch always answers a next state. -/
theorem runBranch_answers {h : Head} {taken : State → Issue → Ctx → List (Nat × Int)} {link : State → Issue → Ctx → Regs}
    {s : State} {i : Issue} (hi : s.issue = some i) : ∃ t, runBranch h taken link s = .next t := by
  unfold runBranch
  simp only [hi]
  split_ifs <;> exact ⟨_, rfl⟩

end Sys2Proof.Machine
end

