-- ==== Sys2Proof/Laws/Memory.lean ====
section
/-! SUPPORT. Every operation over memory keeps the canonical form, and the state after reset has it. -/
namespace Sys2Proof.Machine

/-! ### Lists of cells -/

theorem cellsAbove_mono {m : List Host.Cell} {j k : Nat} (hm : cellsAbove k m = true) (h : j ≤ k) : cellsAbove j m = true := by
  cases m with
  | nil => rfl
  | cons c cs =>
    simp only [cellsAbove, Bool.and_eq_true, decide_eq_true_eq] at hm ⊢
    exact ⟨⟨by omega, hm.1.2⟩, hm.2⟩

theorem cellsAbove_writeCell {m : List Host.Cell} {k a : Nat} {b : Byte} (hm : cellsAbove k m = true) (h : k ≤ a) :
    cellsAbove k (writeCell a b m) = true := by
  induction m generalizing k with
  | nil =>
    unfold writeCell
    cases hb : b == emptyByte
    · simp [cellsAbove, h, bne, hb]
    · rfl
  | cons c cs ih =>
    simp only [cellsAbove, Bool.and_eq_true, decide_eq_true_eq] at hm
    obtain ⟨⟨hk, hc⟩, hcs⟩ := hm
    unfold writeCell
    cases hb : b == emptyByte <;> rcases Nat.lt_trichotomy a c.1 with hlt | heq | hgt
    · have hne : (c.1 == a) = false := by simp; omega
      simp [hne, hlt, cellsAbove, h, bne, hb, hcs]
      simpa using hc
    · simp [heq, cellsAbove, hk, bne, hb, hcs]
    · have hne : (c.1 == a) = false := by simp; omega
      have hnl : ¬ a < c.1 := by omega
      simp [hne, hnl, cellsAbove, hk, hc, ih hcs (by omega)]
    · have hne : (c.1 == a) = false := by simp; omega
      simp [hne, hlt, cellsAbove, hk, hc, hcs]
    · simpa [heq] using cellsAbove_mono hcs (by omega)
    · have hne : (c.1 == a) = false := by simp; omega
      have hnl : ¬ a < c.1 := by omega
      simp [hne, hnl, cellsAbove, hk, hc, ih hcs (by omega)]

theorem cellsAbove_filter {m : List Host.Cell} {k : Nat} (p : Host.Cell → Bool) (hm : cellsAbove k m = true) :
    cellsAbove k (m.filter p) = true := by
  induction m generalizing k with
  | nil => rfl
  | cons c cs ih =>
    simp only [cellsAbove, Bool.and_eq_true, decide_eq_true_eq] at hm
    cases hp : p c
    · simpa [hp] using cellsAbove_mono (ih hm.2) (by omega)
    · simp [hp, cellsAbove, hm.1.1, hm.1.2, ih hm.2]

theorem wf_writeCell {m : List Host.Cell} (a : Nat) (b : Byte) (hm : Memory.wf m = true) : Memory.wf (writeCell a b m) = true :=
  cellsAbove_writeCell hm (Nat.zero_le a)

theorem wf_writeCells {m : List Host.Cell} (a : Nat) (bs : List Byte) (hm : Memory.wf m = true) :
    Memory.wf (writeCells a bs m) = true := by
  induction bs generalizing a m with
  | nil => exact hm
  | cons b bs ih => exact ih _ (wf_writeCell a b hm)

theorem wf_foldl {α : Type} {f : List Host.Cell → α → List Host.Cell} (hf : ∀ m x, Memory.wf m = true → Memory.wf (f m x) = true)
    (xs : List α) {m : List Host.Cell} (hm : Memory.wf m = true) : Memory.wf (xs.foldl f m) = true := by
  induction xs generalizing m with
  | nil => exact hm
  | cons x xs ih => exact ih (hf m x hm)

theorem wf_copyFrame {m : List Host.Cell} (src dst : Nat) (hm : Memory.wf m = true) : Memory.wf (copyFrame m src dst) = true :=
  wf_foldl (fun _ _ h => wf_writeCell _ _ h) _ (cellsAbove_filter _ hm)

theorem wf_fetchMem {m : List Host.Cell} (w : Nat) (hm : Memory.wf m = true) : Memory.wf (fetchMem m w) = true :=
  wf_writeCells _ _ (wf_foldl (fun _ _ h => wf_writeCells _ _ h) _ hm)

/-! ### The memories and windows of a state -/

/-- The window of every team is in canonical form. -/
def State.WindowsWf (s : State) : Prop := ∀ t ∈ s.teams, Memory.wf t.win = true

theorem memWf_writeLoc {s : State} (b : Byte) (l : Loc) (hs : s.MemWf) : (writeLoc s b l).MemWf := by
  cases l with
  | dev a => exact ⟨wf_writeCell a b hs.1, hs.2⟩
  | host a => exact ⟨hs.1, wf_writeCell a b hs.2⟩
  | win t o => exact hs

theorem windowsWf_writeLoc {s : State} (b : Byte) (l : Loc) (hs : s.WindowsWf) : (writeLoc s b l).WindowsWf := by
  cases l with
  | dev a => exact hs
  | host a => exact hs
  | win t o =>
    intro x hx
    simp only [writeLoc, State.modTeam, List.mem_map] at hx
    obtain ⟨y, hy, rfl⟩ := hx
    cases hid : y.id == t
    · exact hs y hy
    · exact wf_writeCell o b (hs y hy)

theorem memWf_writeBytes {s : State} (bs : List Byte) (l : Loc) (hs : s.MemWf) : (writeBytes s l bs).MemWf := by
  induction bs generalizing s l with
  | nil => exact hs
  | cons b bs ih => exact ih _ (memWf_writeLoc b l hs)

theorem windowsWf_writeBytes {s : State} (bs : List Byte) (l : Loc) (hs : s.WindowsWf) : (writeBytes s l bs).WindowsWf := by
  induction bs generalizing s l with
  | nil => exact hs
  | cons b bs ih => exact ih _ (windowsWf_writeLoc b l hs)

theorem memWf_writeWord {s : State} (x : Word) (l : Loc) (hs : s.MemWf) : (writeWord s l x).MemWf := memWf_writeBytes _ l hs

theorem memWf_performPiece {s : State} (e : StElem) (hs : s.MemWf) : (performPiece s e).MemWf := by
  unfold performPiece
  cases e.val with
  | bytes b => exact memWf_writeBytes b _ hs
  | nibble hi x => exact memWf_writeLoc _ _ hs
  | upd k v => exact memWf_writeWord _ _ hs

theorem reset_memWf : State.reset.MemWf := ⟨rfl, rfl⟩

theorem reset_windowsWf : State.reset.WindowsWf := by
  intro t ht
  cases ht

/-! ### Updates that touch no memory -/

@[simp] theorem memWf_modFn {s : State} {f : Nat} {g : Fn → Fn} : (s.modFn f g).MemWf ↔ s.MemWf := Iff.rfl
@[simp] theorem memWf_modTeam {s : State} {t : Nat} {g : Team → Team} : (s.modTeam t g).MemWf ↔ s.MemWf := Iff.rfl
@[simp] theorem memWf_modWave {s : State} {r : WaveRef} {g : Wave → Wave} : (s.modWave r g).MemWf ↔ s.MemWf := Iff.rfl
@[simp] theorem memWf_modLaunch {s : State} {l : Nat} {g : Launch → Launch} : (s.modLaunch l g).MemWf ↔ s.MemWf := Iff.rfl
@[simp] theorem memWf_fresh {s : State} : s.fresh.MemWf ↔ s.MemWf := Iff.rfl
@[simp] theorem memWf_charge {s : State} {f d c n : Nat} : (s.charge f d c n).MemWf ↔ s.MemWf := Iff.rfl

end Sys2Proof.Machine
end

