-- ==== Sys2Proof/Laws/PerInstr.lean ====
section
/-! SUPPORT. A statement of every instruction, one lemma for each constructor: an instruction has a place in map 1 exactly
when the encoder has words for it, and that place is an opcode of ten bits with an entry. -/
namespace Sys2Proof

/-- The instruction has a shape exactly when it has an encoding, and its opcode then has an entry of map 1. -/
def Laws.Encoded.Statement (i : Instr) : Prop :=
  i.shape.isSome = i.enc.isSome ∧ ∀ p : Shape, i.shape = some p → p.opc < 1024 ∧ (map1Entry p.opc).isSome = true

theorem Laws.Encoded.addUniform (h : Head) (o : UBin) : Laws.Encoded.Statement (.addUniform h o) := ⟨rfl, fun _ hp => by
  cases hp; exact (by decide : (0x000 : Nat) < 1024 ∧ (map1Entry 0x000).isSome = true)⟩
theorem Laws.Encoded.subUniform (h : Head) (o : UBin) : Laws.Encoded.Statement (.subUniform h o) := ⟨rfl, fun _ hp => by
  cases hp; exact (by decide : (0x001 : Nat) < 1024 ∧ (map1Entry 0x001).isSome = true)⟩
theorem Laws.Encoded.mulUniform (h : Head) (o : UBin) : Laws.Encoded.Statement (.mulUniform h o) := ⟨rfl, fun _ hp => by
  cases hp; exact (by decide : (0x002 : Nat) < 1024 ∧ (map1Entry 0x002).isSome = true)⟩
theorem Laws.Encoded.mulhUniform (h : Head) (o : UBin) : Laws.Encoded.Statement (.mulhUniform h o) := ⟨rfl, fun _ hp => by
  cases hp; exact (by decide : (0x003 : Nat) < 1024 ∧ (map1Entry 0x003).isSome = true)⟩
theorem Laws.Encoded.minUniform (h : Head) (o : UBin) : Laws.Encoded.Statement (.minUniform h o) := ⟨rfl, fun _ hp => by
  cases hp; exact (by decide : (0x004 : Nat) < 1024 ∧ (map1Entry 0x004).isSome = true)⟩
theorem Laws.Encoded.maxUniform (h : Head) (o : UBin) : Laws.Encoded.Statement (.maxUniform h o) := ⟨rfl, fun _ hp => by
  cases hp; exact (by decide : (0x005 : Nat) < 1024 ∧ (map1Entry 0x005).isSome = true)⟩
theorem Laws.Encoded.andUniform (h : Head) (o : UBin) : Laws.Encoded.Statement (.andUniform h o) := ⟨rfl, fun _ hp => by
  cases hp; exact (by decide : (0x006 : Nat) < 1024 ∧ (map1Entry 0x006).isSome = true)⟩
theorem Laws.Encoded.orUniform (h : Head) (o : UBin) : Laws.Encoded.Statement (.orUniform h o) := ⟨rfl, fun _ hp => by
  cases hp; exact (by decide : (0x007 : Nat) < 1024 ∧ (map1Entry 0x007).isSome = true)⟩
theorem Laws.Encoded.xorUniform (h : Head) (o : UBin) : Laws.Encoded.Statement (.xorUniform h o) := ⟨rfl, fun _ hp => by
  cases hp; exact (by decide : (0x008 : Nat) < 1024 ∧ (map1Entry 0x008).isSome = true)⟩
theorem Laws.Encoded.andnUniform (h : Head) (o : UBin) : Laws.Encoded.Statement (.andnUniform h o) := ⟨rfl, fun _ hp => by
  cases hp; exact (by decide : (0x009 : Nat) < 1024 ∧ (map1Entry 0x009).isSome = true)⟩
theorem Laws.Encoded.divUniform (h : Head) (o : UBin) : Laws.Encoded.Statement (.divUniform h o) := ⟨rfl, fun _ hp => by
  cases hp; exact (by decide : (0x00A : Nat) < 1024 ∧ (map1Entry 0x00A).isSome = true)⟩
theorem Laws.Encoded.remUniform (h : Head) (o : UBin) : Laws.Encoded.Statement (.remUniform h o) := ⟨rfl, fun _ hp => by
  cases hp; exact (by decide : (0x00B : Nat) < 1024 ∧ (map1Entry 0x00B).isSome = true)⟩
theorem Laws.Encoded.addsUniform (h : Head) (o : UBin) : Laws.Encoded.Statement (.addsUniform h o) := ⟨rfl, fun _ hp => by
  cases hp; exact (by decide : (0x00C : Nat) < 1024 ∧ (map1Entry 0x00C).isSome = true)⟩
theorem Laws.Encoded.subsUniform (h : Head) (o : UBin) : Laws.Encoded.Statement (.subsUniform h o) := ⟨rfl, fun _ hp => by
  cases hp; exact (by decide : (0x00D : Nat) < 1024 ∧ (map1Entry 0x00D).isSome = true)⟩
theorem Laws.Encoded.shlUniform (h : Head) (o : UBin) : Laws.Encoded.Statement (.shlUniform h o) := ⟨rfl, fun _ hp => by
  cases hp; exact (by decide : (0x020 : Nat) < 1024 ∧ (map1Entry 0x020).isSome = true)⟩
theorem Laws.Encoded.shrUniform (h : Head) (o : UBin) : Laws.Encoded.Statement (.shrUniform h o) := ⟨rfl, fun _ hp => by
  cases hp; exact (by decide : (0x021 : Nat) < 1024 ∧ (map1Entry 0x021).isSome = true)⟩
theorem Laws.Encoded.setCc (h : Head) (o : SetCc) : Laws.Encoded.Statement (.setCc h o) := ⟨rfl, fun _ hp => by
  cases hp; exact (by decide : (0x022 : Nat) < 1024 ∧ (map1Entry 0x022).isSome = true)⟩
theorem Laws.Encoded.add64 (h : Head) (o : UBin) : Laws.Encoded.Statement (.add64 h o) := ⟨rfl, fun _ hp => by
  cases hp; exact (by decide : (0x023 : Nat) < 1024 ∧ (map1Entry 0x023).isSome = true)⟩
theorem Laws.Encoded.sub64 (h : Head) (o : UBin) : Laws.Encoded.Statement (.sub64 h o) := ⟨rfl, fun _ hp => by
  cases hp; exact (by decide : (0x024 : Nat) < 1024 ∧ (map1Entry 0x024).isSome = true)⟩
theorem Laws.Encoded.mulw (h : Head) (o : UBin) : Laws.Encoded.Statement (.mulw h o) := ⟨rfl, fun _ hp => by
  cases hp; exact (by decide : (0x025 : Nat) < 1024 ∧ (map1Entry 0x025).isSome = true)⟩
theorem Laws.Encoded.shl64 (h : Head) (o : UBin) : Laws.Encoded.Statement (.shl64 h o) := ⟨rfl, fun _ hp => by
  cases hp; exact (by decide : (0x026 : Nat) < 1024 ∧ (map1Entry 0x026).isSome = true)⟩
theorem Laws.Encoded.shr64 (h : Head) (o : UBin) : Laws.Encoded.Statement (.shr64 h o) := ⟨rfl, fun _ hp => by
  cases hp; exact (by decide : (0x027 : Nat) < 1024 ∧ (map1Entry 0x027).isSome = true)⟩
theorem Laws.Encoded.sar64 (h : Head) (o : UBin) : Laws.Encoded.Statement (.sar64 h o) := ⟨rfl, fun _ hp => by
  cases hp; exact (by decide : (0x028 : Nat) < 1024 ∧ (map1Entry 0x028).isSome = true)⟩
theorem Laws.Encoded.lea (h : Head) (o : LeaOp) : Laws.Encoded.Statement (.lea h o) := ⟨rfl, fun _ hp => by
  cases hp; exact (by decide : (0x029 : Nat) < 1024 ∧ (map1Entry 0x029).isSome = true)⟩
theorem Laws.Encoded.movUniformImm (h : Head) (o : UImm) : Laws.Encoded.Statement (.movUniformImm h o) := ⟨rfl, fun _ hp => by
  cases hp; exact (by decide : (0x030 : Nat) < 1024 ∧ (map1Entry 0x030).isSome = true)⟩
theorem Laws.Encoded.movUniformReg (h : Head) (o : U2) : Laws.Encoded.Statement (.movUniformReg h o) := ⟨rfl, fun _ hp => by
  cases hp; exact (by decide : (0x031 : Nat) < 1024 ∧ (map1Entry 0x031).isSome = true)⟩
theorem Laws.Encoded.mov64 (h : Head) (o : U2) : Laws.Encoded.Statement (.mov64 h o) := ⟨rfl, fun _ hp => by
  cases hp; exact (by decide : (0x035 : Nat) < 1024 ∧ (map1Entry 0x035).isSome = true)⟩
theorem Laws.Encoded.movUniformFromSpecial (h : Head) (o : FromSpecial) : Laws.Encoded.Statement (.movUniformFromSpecial h o) := ⟨rfl, fun _ hp => by
  cases hp; exact (by decide : (0x032 : Nat) < 1024 ∧ (map1Entry 0x032).isSome = true)⟩
theorem Laws.Encoded.movVectorFromSpecial (h : Head) (o : VSpecial) : Laws.Encoded.Statement (.movVectorFromSpecial h o) := ⟨rfl, fun _ hp => by
  cases hp; exact (by decide : (0x033 : Nat) < 1024 ∧ (map1Entry 0x033).isSome = true)⟩
theorem Laws.Encoded.movToSpecial (h : Head) (o : ToSpecial) : Laws.Encoded.Statement (.movToSpecial h o) := ⟨rfl, fun _ hp => by
  cases hp; exact (by decide : (0x034 : Nat) < 1024 ∧ (map1Entry 0x034).isSome = true)⟩
theorem Laws.Encoded.pand (h : Head) (o : PBin) : Laws.Encoded.Statement (.pand h o) := ⟨rfl, fun _ hp => by
  cases hp; exact (by decide : (0x040 : Nat) < 1024 ∧ (map1Entry 0x040).isSome = true)⟩
theorem Laws.Encoded.por (h : Head) (o : PBin) : Laws.Encoded.Statement (.por h o) := ⟨rfl, fun _ hp => by
  cases hp; exact (by decide : (0x041 : Nat) < 1024 ∧ (map1Entry 0x041).isSome = true)⟩
theorem Laws.Encoded.pxor (h : Head) (o : PBin) : Laws.Encoded.Statement (.pxor h o) := ⟨rfl, fun _ hp => by
  cases hp; exact (by decide : (0x042 : Nat) < 1024 ∧ (map1Entry 0x042).isSome = true)⟩
theorem Laws.Encoded.pandn (h : Head) (o : PBin) : Laws.Encoded.Statement (.pandn h o) := ⟨rfl, fun _ hp => by
  cases hp; exact (by decide : (0x043 : Nat) < 1024 ∧ (map1Entry 0x043).isSome = true)⟩
theorem Laws.Encoded.pnot (h : Head) (o : PUn) : Laws.Encoded.Statement (.pnot h o) := ⟨rfl, fun _ hp => by
  cases hp; exact (by decide : (0x044 : Nat) < 1024 ∧ (map1Entry 0x044).isSome = true)⟩
theorem Laws.Encoded.pset (h : Head) (o : PFromU) : Laws.Encoded.Statement (.pset h o) := ⟨rfl, fun _ hp => by
  cases hp; exact (by decide : (0x045 : Nat) < 1024 ∧ (map1Entry 0x045).isSome = true)⟩
theorem Laws.Encoded.pget (h : Head) (o : UFromP) : Laws.Encoded.Statement (.pget h o) := ⟨rfl, fun _ hp => by
  cases hp; exact (by decide : (0x046 : Nat) < 1024 ∧ (map1Entry 0x046).isSome = true)⟩
theorem Laws.Encoded.pcnt (h : Head) (o : UFromP) : Laws.Encoded.Statement (.pcnt h o) := ⟨rfl, fun _ hp => by
  cases hp; exact (by decide : (0x047 : Nat) < 1024 ∧ (map1Entry 0x047).isSome = true)⟩
theorem Laws.Encoded.brCc (h : Head) (o : BrCc) : Laws.Encoded.Statement (.brCc h o) := ⟨rfl, fun _ hp => by
  cases hp; exact (by decide : (0x080 : Nat) < 1024 ∧ (map1Entry 0x080).isSome = true)⟩
theorem Laws.Encoded.brVote (h : Head) (o : BrVoteOp) : Laws.Encoded.Statement (.brVote h o) := ⟨rfl, fun _ hp => by
  cases hp; exact (by decide : (0x081 : Nat) < 1024 ∧ (map1Entry 0x081).isSome = true)⟩
theorem Laws.Encoded.jmpUniform (h : Head) (sa : UReg) : Laws.Encoded.Statement (.jmpUniform h sa) := ⟨rfl, fun _ hp => by
  cases hp; exact (by decide : (0x082 : Nat) < 1024 ∧ (map1Entry 0x082).isSome = true)⟩
theorem Laws.Encoded.jmpVector (h : Head) : Laws.Encoded.Statement (.jmpVector h) := ⟨rfl, fun _ hp => by
  cases hp; exact (by decide : (0x082 : Nat) < 1024 ∧ (map1Entry 0x082).isSome = true)⟩
theorem Laws.Encoded.callUniform (h : Head) (o : CallOp) : Laws.Encoded.Statement (.callUniform h o) := ⟨rfl, fun _ hp => by
  cases hp; exact (by decide : (0x083 : Nat) < 1024 ∧ (map1Entry 0x083).isSome = true)⟩
theorem Laws.Encoded.callVector (h : Head) (off : Off) : Laws.Encoded.Statement (.callVector h off) := ⟨rfl, fun _ hp => by
  cases hp; exact (by decide : (0x083 : Nat) < 1024 ∧ (map1Entry 0x083).isSome = true)⟩
theorem Laws.Encoded.exit (h : Head) : Laws.Encoded.Statement (.exit h) := ⟨rfl, fun _ hp => by
  cases hp; exact (by decide : (0x0A0 : Nat) < 1024 ∧ (map1Entry 0x0A0).isSome = true)⟩
theorem Laws.Encoded.done (h : Head) : Laws.Encoded.Statement (.done h) := ⟨rfl, fun _ hp => by
  cases hp; exact (by decide : (0x0A2 : Nat) < 1024 ∧ (map1Entry 0x0A2).isSome = true)⟩
theorem Laws.Encoded.nap (h : Head) (n : BitVec 12) : Laws.Encoded.Statement (.nap h n) := ⟨rfl, fun _ hp => by
  cases hp; exact (by decide : (0x0A1 : Nat) < 1024 ∧ (map1Entry 0x0A1).isSome = true)⟩
theorem Laws.Encoded.napExpiry (w : WaveRef) : Laws.Encoded.Statement (.napExpiry w) := ⟨rfl, fun _ hp => nomatch hp⟩
theorem Laws.Encoded.setvl (h : Head) (o : SetVl) : Laws.Encoded.Statement (.setvl h o) := ⟨rfl, fun _ hp => by
  cases hp; exact (by decide : (0x0A3 : Nat) < 1024 ∧ (map1Entry 0x0A3).isSome = true)⟩
theorem Laws.Encoded.setvtype (h : Head) (o : SetVtype) : Laws.Encoded.Statement (.setvtype h o) := ⟨rfl, fun _ hp => by
  cases hp; exact (by decide : (0x0A4 : Nat) < 1024 ∧ (map1Entry 0x0A4).isSome = true)⟩
theorem Laws.Encoded.wait (h : Head) (a : WaitArg) : Laws.Encoded.Statement (.wait h a) := ⟨rfl, fun _ hp => by
  cases hp; exact (by decide : (0x0B0 : Nat) < 1024 ∧ (map1Entry 0x0B0).isSome = true)⟩
theorem Laws.Encoded.barTeam (h : Head) : Laws.Encoded.Statement (.barTeam h) := ⟨rfl, fun _ hp => by
  cases hp; exact (by decide : (0x0B1 : Nat) < 1024 ∧ (map1Entry 0x0B1).isSome = true)⟩
theorem Laws.Encoded.barGang (h : Head) : Laws.Encoded.Statement (.barGang h) := ⟨rfl, fun _ hp => by
  cases hp; exact (by decide : (0x0B2 : Nat) < 1024 ∧ (map1Entry 0x0B2).isSome = true)⟩
theorem Laws.Encoded.taskPost (h : Head) (o : U2) : Laws.Encoded.Statement (.taskPost h o) := ⟨rfl, fun _ hp => by
  cases hp; exact (by decide : (0x0C0 : Nat) < 1024 ∧ (map1Entry 0x0C0).isSome = true)⟩
theorem Laws.Encoded.taskPostReply (k : Nat) : Laws.Encoded.Statement (.taskPostReply k) := ⟨rfl, fun _ hp => nomatch hp⟩
theorem Laws.Encoded.trap (h : Head) (n : BitVec 12) : Laws.Encoded.Statement (.trap h n) := ⟨rfl, fun _ hp => by
  cases hp; exact (by decide : (0x0C1 : Nat) < 1024 ∧ (map1Entry 0x0C1).isSome = true)⟩
theorem Laws.Encoded.laggingWaveStep (core : Nat) (slot : Nat) (grp : Nat) : Laws.Encoded.Statement (.laggingWaveStep core slot grp) := ⟨rfl, fun _ hp => nomatch hp⟩
theorem Laws.Encoded.addVector (h : Head) (o : VBin) : Laws.Encoded.Statement (.addVector h o) := ⟨rfl, fun _ hp => by
  cases hp; exact (by decide : (0x100 : Nat) < 1024 ∧ (map1Entry 0x100).isSome = true)⟩
theorem Laws.Encoded.subVector (h : Head) (o : VBin) : Laws.Encoded.Statement (.subVector h o) := ⟨rfl, fun _ hp => by
  cases hp; exact (by decide : (0x101 : Nat) < 1024 ∧ (map1Entry 0x101).isSome = true)⟩
theorem Laws.Encoded.addsVector (h : Head) (o : VBin) : Laws.Encoded.Statement (.addsVector h o) := ⟨rfl, fun _ hp => by
  cases hp; exact (by decide : (0x102 : Nat) < 1024 ∧ (map1Entry 0x102).isSome = true)⟩
theorem Laws.Encoded.subsVector (h : Head) (o : VBin) : Laws.Encoded.Statement (.subsVector h o) := ⟨rfl, fun _ hp => by
  cases hp; exact (by decide : (0x103 : Nat) < 1024 ∧ (map1Entry 0x103).isSome = true)⟩
theorem Laws.Encoded.minVector (h : Head) (o : VBin) : Laws.Encoded.Statement (.minVector h o) := ⟨rfl, fun _ hp => by
  cases hp; exact (by decide : (0x104 : Nat) < 1024 ∧ (map1Entry 0x104).isSome = true)⟩
theorem Laws.Encoded.maxVector (h : Head) (o : VBin) : Laws.Encoded.Statement (.maxVector h o) := ⟨rfl, fun _ hp => by
  cases hp; exact (by decide : (0x105 : Nat) < 1024 ∧ (map1Entry 0x105).isSome = true)⟩
theorem Laws.Encoded.abs (h : Head) (o : VUnTy) : Laws.Encoded.Statement (.abs h o) := ⟨rfl, fun _ hp => by
  cases hp; exact (by decide : (0x106 : Nat) < 1024 ∧ (map1Entry 0x106).isSome = true)⟩
theorem Laws.Encoded.absd (h : Head) (o : VBin) : Laws.Encoded.Statement (.absd h o) := ⟨rfl, fun _ hp => by
  cases hp; exact (by decide : (0x107 : Nat) < 1024 ∧ (map1Entry 0x107).isSome = true)⟩
theorem Laws.Encoded.mulVector (h : Head) (o : VBin) : Laws.Encoded.Statement (.mulVector h o) := ⟨rfl, fun _ hp => by
  cases hp; exact (by decide : (0x108 : Nat) < 1024 ∧ (map1Entry 0x108).isSome = true)⟩
theorem Laws.Encoded.mulhVector (h : Head) (o : VBin) : Laws.Encoded.Statement (.mulhVector h o) := ⟨rfl, fun _ hp => by
  cases hp; exact (by decide : (0x109 : Nat) < 1024 ∧ (map1Entry 0x109).isSome = true)⟩
theorem Laws.Encoded.mad (h : Head) (o : VTri) : Laws.Encoded.Statement (.mad h o) := ⟨rfl, fun _ hp => by
  cases hp; exact (by decide : (0x10A : Nat) < 1024 ∧ (map1Entry 0x10A).isSome = true)⟩
theorem Laws.Encoded.shlVector (h : Head) (o : VBin) : Laws.Encoded.Statement (.shlVector h o) := ⟨rfl, fun _ hp => by
  cases hp; exact (by decide : (0x120 : Nat) < 1024 ∧ (map1Entry 0x120).isSome = true)⟩
theorem Laws.Encoded.shrVector (h : Head) (o : VBin) : Laws.Encoded.Statement (.shrVector h o) := ⟨rfl, fun _ hp => by
  cases hp; exact (by decide : (0x121 : Nat) < 1024 ∧ (map1Entry 0x121).isSome = true)⟩
theorem Laws.Encoded.fshl (h : Head) (o : Funnel) : Laws.Encoded.Statement (.fshl h o) := ⟨rfl, fun _ hp => by
  cases hp; exact (by decide : (0x124 : Nat) < 1024 ∧ (map1Entry 0x124).isSome = true)⟩
theorem Laws.Encoded.fshr (h : Head) (o : Funnel) : Laws.Encoded.Statement (.fshr h o) := ⟨rfl, fun _ hp => by
  cases hp; exact (by decide : (0x125 : Nat) < 1024 ∧ (map1Entry 0x125).isSome = true)⟩
theorem Laws.Encoded.lut3 (h : Head) (o : Lut3Op) : Laws.Encoded.Statement (.lut3 h o) := ⟨rfl, fun _ hp => by
  cases hp; exact (by decide : (0x130 : Nat) < 1024 ∧ (map1Entry 0x130).isSome = true)⟩
theorem Laws.Encoded.andVector (h : Head) (o : VBin) : Laws.Encoded.Statement (.andVector h o) := ⟨rfl, fun _ hp => by
  cases hp; exact (by decide : (0x131 : Nat) < 1024 ∧ (map1Entry 0x131).isSome = true)⟩
theorem Laws.Encoded.orVector (h : Head) (o : VBin) : Laws.Encoded.Statement (.orVector h o) := ⟨rfl, fun _ hp => by
  cases hp; exact (by decide : (0x132 : Nat) < 1024 ∧ (map1Entry 0x132).isSome = true)⟩
theorem Laws.Encoded.xorVector (h : Head) (o : VBin) : Laws.Encoded.Statement (.xorVector h o) := ⟨rfl, fun _ hp => by
  cases hp; exact (by decide : (0x133 : Nat) < 1024 ∧ (map1Entry 0x133).isSome = true)⟩
theorem Laws.Encoded.andnVector (h : Head) (o : VBin) : Laws.Encoded.Statement (.andnVector h o) := ⟨rfl, fun _ hp => by
  cases hp; exact (by decide : (0x134 : Nat) < 1024 ∧ (map1Entry 0x134).isSome = true)⟩
theorem Laws.Encoded.not (h : Head) (o : VUn) : Laws.Encoded.Statement (.not h o) := ⟨rfl, fun _ hp => by
  cases hp; exact (by decide : (0x135 : Nat) < 1024 ∧ (map1Entry 0x135).isSome = true)⟩
theorem Laws.Encoded.popc (h : Head) (o : VUn) : Laws.Encoded.Statement (.popc h o) := ⟨rfl, fun _ hp => by
  cases hp; exact (by decide : (0x140 : Nat) < 1024 ∧ (map1Entry 0x140).isSome = true)⟩
theorem Laws.Encoded.clz (h : Head) (o : VUn) : Laws.Encoded.Statement (.clz h o) := ⟨rfl, fun _ hp => by
  cases hp; exact (by decide : (0x141 : Nat) < 1024 ∧ (map1Entry 0x141).isSome = true)⟩
theorem Laws.Encoded.ctz (h : Head) (o : VUn) : Laws.Encoded.Statement (.ctz h o) := ⟨rfl, fun _ hp => by
  cases hp; exact (by decide : (0x142 : Nat) < 1024 ∧ (map1Entry 0x142).isSome = true)⟩
theorem Laws.Encoded.brev (h : Head) (o : VUn) : Laws.Encoded.Statement (.brev h o) := ⟨rfl, fun _ hp => by
  cases hp; exact (by decide : (0x143 : Nat) < 1024 ∧ (map1Entry 0x143).isSome = true)⟩
theorem Laws.Encoded.bfx (h : Head) (o : BField) : Laws.Encoded.Statement (.bfx h o) := ⟨rfl, fun _ hp => by
  cases hp; exact (by decide : (0x144 : Nat) < 1024 ∧ (map1Entry 0x144).isSome = true)⟩
theorem Laws.Encoded.bfi (h : Head) (o : BField) : Laws.Encoded.Statement (.bfi h o) := ⟨rfl, fun _ hp => by
  cases hp; exact (by decide : (0x145 : Nat) < 1024 ∧ (map1Entry 0x145).isSome = true)⟩
theorem Laws.Encoded.cmpEq (h : Head) (o : VCmp) : Laws.Encoded.Statement (.cmpEq h o) := ⟨rfl, fun _ hp => by
  cases hp; exact (by decide : (0x150 : Nat) < 1024 ∧ (map1Entry 0x150).isSome = true)⟩
theorem Laws.Encoded.cmpNe (h : Head) (o : VCmp) : Laws.Encoded.Statement (.cmpNe h o) := ⟨rfl, fun _ hp => by
  cases hp; exact (by decide : (0x151 : Nat) < 1024 ∧ (map1Entry 0x151).isSome = true)⟩
theorem Laws.Encoded.cmpLt (h : Head) (o : VCmp) : Laws.Encoded.Statement (.cmpLt h o) := ⟨rfl, fun _ hp => by
  cases hp; exact (by decide : (0x152 : Nat) < 1024 ∧ (map1Entry 0x152).isSome = true)⟩
theorem Laws.Encoded.cmpGe (h : Head) (o : VCmp) : Laws.Encoded.Statement (.cmpGe h o) := ⟨rfl, fun _ hp => by
  cases hp; exact (by decide : (0x153 : Nat) < 1024 ∧ (map1Entry 0x153).isSome = true)⟩
theorem Laws.Encoded.cmpLe (h : Head) (o : VCmp) : Laws.Encoded.Statement (.cmpLe h o) := ⟨rfl, fun _ hp => by
  cases hp; exact (by decide : (0x154 : Nat) < 1024 ∧ (map1Entry 0x154).isSome = true)⟩
theorem Laws.Encoded.cmpGt (h : Head) (o : VCmp) : Laws.Encoded.Statement (.cmpGt h o) := ⟨rfl, fun _ hp => by
  cases hp; exact (by decide : (0x155 : Nat) < 1024 ∧ (map1Entry 0x155).isSome = true)⟩
theorem Laws.Encoded.sel (h : Head) (o : SelOp) : Laws.Encoded.Statement (.sel h o) := ⟨rfl, fun _ hp => by
  cases hp; exact (by decide : (0x156 : Nat) < 1024 ∧ (map1Entry 0x156).isSome = true)⟩
theorem Laws.Encoded.padd (h : Head) (o : VBin) : Laws.Encoded.Statement (.padd h o) := ⟨rfl, fun _ hp => by
  cases hp; exact (by decide : (0x160 : Nat) < 1024 ∧ (map1Entry 0x160).isSome = true)⟩
theorem Laws.Encoded.psub (h : Head) (o : VBin) : Laws.Encoded.Statement (.psub h o) := ⟨rfl, fun _ hp => by
  cases hp; exact (by decide : (0x161 : Nat) < 1024 ∧ (map1Entry 0x161).isSome = true)⟩
theorem Laws.Encoded.padds (h : Head) (o : VBin) : Laws.Encoded.Statement (.padds h o) := ⟨rfl, fun _ hp => by
  cases hp; exact (by decide : (0x162 : Nat) < 1024 ∧ (map1Entry 0x162).isSome = true)⟩
theorem Laws.Encoded.psubs (h : Head) (o : VBin) : Laws.Encoded.Statement (.psubs h o) := ⟨rfl, fun _ hp => by
  cases hp; exact (by decide : (0x163 : Nat) < 1024 ∧ (map1Entry 0x163).isSome = true)⟩
theorem Laws.Encoded.pmin (h : Head) (o : VBin) : Laws.Encoded.Statement (.pmin h o) := ⟨rfl, fun _ hp => by
  cases hp; exact (by decide : (0x164 : Nat) < 1024 ∧ (map1Entry 0x164).isSome = true)⟩
theorem Laws.Encoded.pmax (h : Head) (o : VBin) : Laws.Encoded.Statement (.pmax h o) := ⟨rfl, fun _ hp => by
  cases hp; exact (by decide : (0x165 : Nat) < 1024 ∧ (map1Entry 0x165).isSome = true)⟩
theorem Laws.Encoded.pabsd (h : Head) (o : VBin) : Laws.Encoded.Statement (.pabsd h o) := ⟨rfl, fun _ hp => by
  cases hp; exact (by decide : (0x166 : Nat) < 1024 ∧ (map1Entry 0x166).isSome = true)⟩
theorem Laws.Encoded.pdot (h : Head) (o : VTri) : Laws.Encoded.Statement (.pdot h o) := ⟨rfl, fun _ hp => by
  cases hp; exact (by decide : (0x167 : Nat) < 1024 ∧ (map1Entry 0x167).isSome = true)⟩
theorem Laws.Encoded.pack (h : Head) (o : PackOp) : Laws.Encoded.Statement (.pack h o) := ⟨rfl, fun _ hp => by
  cases hp; exact (by decide : (0x168 : Nat) < 1024 ∧ (map1Entry 0x168).isSome = true)⟩
theorem Laws.Encoded.lrot (h : Head) (o : LMove) : Laws.Encoded.Statement (.lrot h o) := ⟨rfl, fun _ hp => by
  cases hp; exact (by decide : (0x180 : Nat) < 1024 ∧ (map1Entry 0x180).isSome = true)⟩
theorem Laws.Encoded.lsh (h : Head) (o : LMove) : Laws.Encoded.Statement (.lsh h o) := ⟨rfl, fun _ hp => by
  cases hp; exact (by decide : (0x181 : Nat) < 1024 ∧ (map1Entry 0x181).isSome = true)⟩
theorem Laws.Encoded.bcast (h : Head) (o : LMove) : Laws.Encoded.Statement (.bcast h o) := ⟨rfl, fun _ hp => by
  cases hp; exact (by decide : (0x182 : Nat) < 1024 ∧ (map1Entry 0x182).isSome = true)⟩
theorem Laws.Encoded.perm (h : Head) (o : V3R) : Laws.Encoded.Statement (.perm h o) := ⟨rfl, fun _ hp => by
  cases hp; exact (by decide : (0x183 : Nat) < 1024 ∧ (map1Entry 0x183).isSome = true)⟩
theorem Laws.Encoded.lext (h : Head) (o : LextOp) : Laws.Encoded.Statement (.lext h o) := ⟨rfl, fun _ hp => by
  cases hp; exact (by decide : (0x184 : Nat) < 1024 ∧ (map1Entry 0x184).isSome = true)⟩
theorem Laws.Encoded.lins (h : Head) (o : LinsOp) : Laws.Encoded.Statement (.lins h o) := ⟨rfl, fun _ hp => by
  cases hp; exact (by decide : (0x185 : Nat) < 1024 ∧ (map1Entry 0x185).isSome = true)⟩
theorem Laws.Encoded.voteAny (h : Head) (o : UFromP) : Laws.Encoded.Statement (.voteAny h o) := ⟨rfl, fun _ hp => by
  cases hp; exact (by decide : (0x1B0 : Nat) < 1024 ∧ (map1Entry 0x1B0).isSome = true)⟩
theorem Laws.Encoded.voteAll (h : Head) (o : UFromP) : Laws.Encoded.Statement (.voteAll h o) := ⟨rfl, fun _ hp => by
  cases hp; exact (by decide : (0x1B1 : Nat) < 1024 ∧ (map1Entry 0x1B1).isSome = true)⟩
theorem Laws.Encoded.voteCnt (h : Head) (o : UFromP) : Laws.Encoded.Statement (.voteCnt h o) := ⟨rfl, fun _ hp => by
  cases hp; exact (by decide : (0x1B2 : Nat) < 1024 ∧ (map1Entry 0x1B2).isSome = true)⟩
theorem Laws.Encoded.voteMsk (h : Head) (o : UFromP) : Laws.Encoded.Statement (.voteMsk h o) := ⟨rfl, fun _ hp => by
  cases hp; exact (by decide : (0x1B3 : Nat) < 1024 ∧ (map1Entry 0x1B3).isSome = true)⟩
theorem Laws.Encoded.voteEq (h : Head) (o : UFromV) : Laws.Encoded.Statement (.voteEq h o) := ⟨rfl, fun _ hp => by
  cases hp; exact (by decide : (0x1B4 : Nat) < 1024 ∧ (map1Entry 0x1B4).isSome = true)⟩
theorem Laws.Encoded.elect (h : Head) (pd : PReg) : Laws.Encoded.Statement (.elect h pd) := ⟨rfl, fun _ hp => by
  cases hp; exact (by decide : (0x1B5 : Nat) < 1024 ∧ (map1Entry 0x1B5).isSome = true)⟩
theorem Laws.Encoded.red (h : Head) (o : RedArg) : Laws.Encoded.Statement (.red h o) := ⟨rfl, fun _ hp => by
  cases hp; exact (by decide : (0x1C0 : Nat) < 1024 ∧ (map1Entry 0x1C0).isSome = true)⟩
theorem Laws.Encoded.scan (h : Head) (o : ScanArg) : Laws.Encoded.Statement (.scan h o) := ⟨rfl, fun _ hp => by
  cases hp; exact (by decide : (0x1C1 : Nat) < 1024 ∧ (map1Entry 0x1C1).isSome = true)⟩
theorem Laws.Encoded.scanx (h : Head) (o : ScanArg) : Laws.Encoded.Statement (.scanx h o) := ⟨rfl, fun _ hp => by
  cases hp; exact (by decide : (0x1C2 : Nat) < 1024 ∧ (map1Entry 0x1C2).isSome = true)⟩
theorem Laws.Encoded.movVectorReg (h : Head) (o : VUn) : Laws.Encoded.Statement (.movVectorReg h o) := ⟨rfl, fun _ hp => by
  cases hp; exact (by decide : (0x1F2 : Nat) < 1024 ∧ (map1Entry 0x1F2).isSome = true)⟩
theorem Laws.Encoded.movVectorImm (h : Head) (o : VImm) : Laws.Encoded.Statement (.movVectorImm h o) := ⟨rfl, fun _ hp => by
  cases hp; exact (by decide : (0x1F3 : Nat) < 1024 ∧ (map1Entry 0x1F3).isSome = true)⟩
theorem Laws.Encoded.movVectorUniform (h : Head) (o : VFromU) : Laws.Encoded.Statement (.movVectorUniform h o) := ⟨rfl, fun _ hp => by
  cases hp; exact (by decide : (0x1F4 : Nat) < 1024 ∧ (map1Entry 0x1F4).isSome = true)⟩
theorem Laws.Encoded.movIxRead (h : Head) (o : IxRead) : Laws.Encoded.Statement (.movIxRead h o) := ⟨rfl, fun _ hp => by
  cases hp; exact (by decide : (0x1F0 : Nat) < 1024 ∧ (map1Entry 0x1F0).isSome = true)⟩
theorem Laws.Encoded.movIxWrite (h : Head) (o : IxWrite) : Laws.Encoded.Statement (.movIxWrite h o) := ⟨rfl, fun _ hp => by
  cases hp; exact (by decide : (0x1F1 : Nat) < 1024 ∧ (map1Entry 0x1F1).isSome = true)⟩
theorem Laws.Encoded.fadd (h : Head) (o : VBin) : Laws.Encoded.Statement (.fadd h o) := ⟨rfl, fun _ hp => by
  cases hp; exact (by decide : (0x200 : Nat) < 1024 ∧ (map1Entry 0x200).isSome = true)⟩
theorem Laws.Encoded.fsub (h : Head) (o : VBin) : Laws.Encoded.Statement (.fsub h o) := ⟨rfl, fun _ hp => by
  cases hp; exact (by decide : (0x201 : Nat) < 1024 ∧ (map1Entry 0x201).isSome = true)⟩
theorem Laws.Encoded.fmul (h : Head) (o : VBin) : Laws.Encoded.Statement (.fmul h o) := ⟨rfl, fun _ hp => by
  cases hp; exact (by decide : (0x202 : Nat) < 1024 ∧ (map1Entry 0x202).isSome = true)⟩
theorem Laws.Encoded.fma (h : Head) (o : VTri) : Laws.Encoded.Statement (.fma h o) := ⟨rfl, fun _ hp => by
  cases hp; exact (by decide : (0x203 : Nat) < 1024 ∧ (map1Entry 0x203).isSome = true)⟩
theorem Laws.Encoded.fms (h : Head) (o : VTri) : Laws.Encoded.Statement (.fms h o) := ⟨rfl, fun _ hp => by
  cases hp; exact (by decide : (0x204 : Nat) < 1024 ∧ (map1Entry 0x204).isSome = true)⟩
theorem Laws.Encoded.fnma (h : Head) (o : VTri) : Laws.Encoded.Statement (.fnma h o) := ⟨rfl, fun _ hp => by
  cases hp; exact (by decide : (0x205 : Nat) < 1024 ∧ (map1Entry 0x205).isSome = true)⟩
theorem Laws.Encoded.fnms (h : Head) (o : VTri) : Laws.Encoded.Statement (.fnms h o) := ⟨rfl, fun _ hp => by
  cases hp; exact (by decide : (0x206 : Nat) < 1024 ∧ (map1Entry 0x206).isSome = true)⟩
theorem Laws.Encoded.fneg (h : Head) (o : VUnTy) : Laws.Encoded.Statement (.fneg h o) := ⟨rfl, fun _ hp => by
  cases hp; exact (by decide : (0x207 : Nat) < 1024 ∧ (map1Entry 0x207).isSome = true)⟩
theorem Laws.Encoded.fabs (h : Head) (o : VUnTy) : Laws.Encoded.Statement (.fabs h o) := ⟨rfl, fun _ hp => by
  cases hp; exact (by decide : (0x208 : Nat) < 1024 ∧ (map1Entry 0x208).isSome = true)⟩
theorem Laws.Encoded.fsgn (h : Head) (o : VBin) : Laws.Encoded.Statement (.fsgn h o) := ⟨rfl, fun _ hp => by
  cases hp; exact (by decide : (0x209 : Nat) < 1024 ∧ (map1Entry 0x209).isSome = true)⟩
theorem Laws.Encoded.fmin (h : Head) (o : VBin) : Laws.Encoded.Statement (.fmin h o) := ⟨rfl, fun _ hp => by
  cases hp; exact (by decide : (0x220 : Nat) < 1024 ∧ (map1Entry 0x220).isSome = true)⟩
theorem Laws.Encoded.fmax (h : Head) (o : VBin) : Laws.Encoded.Statement (.fmax h o) := ⟨rfl, fun _ hp => by
  cases hp; exact (by decide : (0x221 : Nat) < 1024 ∧ (map1Entry 0x221).isSome = true)⟩
theorem Laws.Encoded.fcmp (h : Head) (o : FCmpOp) : Laws.Encoded.Statement (.fcmp h o) := ⟨rfl, fun _ hp => by
  cases hp; exact (by decide : (0x222 : Nat) < 1024 ∧ (map1Entry 0x222).isSome = true)⟩
theorem Laws.Encoded.fclass (h : Head) (o : VUn) : Laws.Encoded.Statement (.fclass h o) := ⟨rfl, fun _ hp => by
  cases hp; exact (by decide : (0x223 : Nat) < 1024 ∧ (map1Entry 0x223).isSome = true)⟩
theorem Laws.Encoded.fdiv (h : Head) (o : VBin) : Laws.Encoded.Statement (.fdiv h o) := ⟨rfl, fun _ hp => by
  cases hp; exact (by decide : (0x230 : Nat) < 1024 ∧ (map1Entry 0x230).isSome = true)⟩
theorem Laws.Encoded.fsqrt (h : Head) (o : VUnTy) : Laws.Encoded.Statement (.fsqrt h o) := ⟨rfl, fun _ hp => by
  cases hp; exact (by decide : (0x231 : Nat) < 1024 ∧ (map1Entry 0x231).isSome = true)⟩
theorem Laws.Encoded.frcp (h : Head) (o : VUn) : Laws.Encoded.Statement (.frcp h o) := ⟨rfl, fun _ hp => by
  cases hp; exact (by decide : (0x232 : Nat) < 1024 ∧ (map1Entry 0x232).isSome = true)⟩
theorem Laws.Encoded.frsq (h : Head) (o : VUn) : Laws.Encoded.Statement (.frsq h o) := ⟨rfl, fun _ hp => by
  cases hp; exact (by decide : (0x233 : Nat) < 1024 ∧ (map1Entry 0x233).isSome = true)⟩
theorem Laws.Encoded.fsin (h : Head) (o : VUn) : Laws.Encoded.Statement (.fsin h o) := ⟨rfl, fun _ hp => by
  cases hp; exact (by decide : (0x280 : Nat) < 1024 ∧ (map1Entry 0x280).isSome = true)⟩
theorem Laws.Encoded.fcos (h : Head) (o : VUn) : Laws.Encoded.Statement (.fcos h o) := ⟨rfl, fun _ hp => by
  cases hp; exact (by decide : (0x281 : Nat) < 1024 ∧ (map1Entry 0x281).isSome = true)⟩
theorem Laws.Encoded.fexp2 (h : Head) (o : VUn) : Laws.Encoded.Statement (.fexp2 h o) := ⟨rfl, fun _ hp => by
  cases hp; exact (by decide : (0x282 : Nat) < 1024 ∧ (map1Entry 0x282).isSome = true)⟩
theorem Laws.Encoded.flog2 (h : Head) (o : VUn) : Laws.Encoded.Statement (.flog2 h o) := ⟨rfl, fun _ hp => by
  cases hp; exact (by decide : (0x283 : Nat) < 1024 ∧ (map1Entry 0x283).isSome = true)⟩
theorem Laws.Encoded.cvtFloat (h : Head) (o : CvtOp) : Laws.Encoded.Statement (.cvtFloat h o) := ⟨rfl, fun _ hp => by
  cases hp; exact (by decide : (0x240 : Nat) < 1024 ∧ (map1Entry 0x240).isSome = true)⟩
theorem Laws.Encoded.cvtIntFloat (h : Head) (o : CvtOp) : Laws.Encoded.Statement (.cvtIntFloat h o) := ⟨rfl, fun _ hp => by
  cases hp; exact (by decide : (0x241 : Nat) < 1024 ∧ (map1Entry 0x241).isSome = true)⟩
theorem Laws.Encoded.frint (h : Head) (o : VUn) : Laws.Encoded.Statement (.frint h o) := ⟨rfl, fun _ hp => by
  cases hp; exact (by decide : (0x242 : Nat) < 1024 ∧ (map1Entry 0x242).isSome = true)⟩
theorem Laws.Encoded.bscale (h : Head) (o : BScale) : Laws.Encoded.Statement (.bscale h o) := ⟨rfl, fun _ hp => by
  cases hp; exact (by decide : (0x243 : Nat) < 1024 ∧ (map1Entry 0x243).isSome = true)⟩
theorem Laws.Encoded.bq (h : Head) (o : BQuant) : Laws.Encoded.Statement (.bq h o) := ⟨rfl, fun _ hp => by
  cases hp; exact (by decide : (0x244 : Nat) < 1024 ∧ (map1Entry 0x244).isSome = true)⟩
theorem Laws.Encoded.bdq (h : Head) (o : BQuant) : Laws.Encoded.Statement (.bdq h o) := ⟨rfl, fun _ hp => by
  cases hp; exact (by decide : (0x245 : Nat) < 1024 ∧ (map1Entry 0x245).isSome = true)⟩
theorem Laws.Encoded.xaccClr (h : Head) : Laws.Encoded.Statement (.xaccClr h) := ⟨rfl, fun _ hp => by
  cases hp; exact (by decide : (0x260 : Nat) < 1024 ∧ (map1Entry 0x260).isSome = true)⟩
theorem Laws.Encoded.xaccAdd (h : Head) (va : VReg) : Laws.Encoded.Statement (.xaccAdd h va) := ⟨rfl, fun _ hp => by
  cases hp; exact (by decide : (0x261 : Nat) < 1024 ∧ (map1Entry 0x261).isSome = true)⟩
theorem Laws.Encoded.xaccMac (h : Head) (o : XMac) : Laws.Encoded.Statement (.xaccMac h o) := ⟨rfl, fun _ hp => by
  cases hp; exact (by decide : (0x262 : Nat) < 1024 ∧ (map1Entry 0x262).isSome = true)⟩
theorem Laws.Encoded.xaccRd (h : Head) (sd : UReg) : Laws.Encoded.Statement (.xaccRd h sd) := ⟨rfl, fun _ hp => by
  cases hp; exact (by decide : (0x263 : Nat) < 1024 ∧ (map1Entry 0x263).isSome = true)⟩
theorem Laws.Encoded.actLd (h : Head) (o : ActLd) : Laws.Encoded.Statement (.actLd h o) := ⟨rfl, fun _ hp => by
  cases hp; exact (by decide : (0x290 : Nat) < 1024 ∧ (map1Entry 0x290).isSome = true)⟩
theorem Laws.Encoded.actLdFlip (team : Nat) (tb : BitVec 2) : Laws.Encoded.Statement (.actLdFlip team tb) := ⟨rfl, fun _ hp => nomatch hp⟩
theorem Laws.Encoded.fact (h : Head) (o : FactOp) : Laws.Encoded.Statement (.fact h o) := ⟨rfl, fun _ hp => by
  cases hp; exact (by decide : (0x291 : Nat) < 1024 ∧ (map1Entry 0x291).isSome = true)⟩
theorem Laws.Encoded.factComplete (w : WaveRef) : Laws.Encoded.Statement (.factComplete w) := ⟨rfl, fun _ hp => nomatch hp⟩
theorem Laws.Encoded.rngInit (h : Head) (o : VFromU) : Laws.Encoded.Statement (.rngInit h o) := ⟨rfl, fun _ hp => by
  cases hp; exact (by decide : (0x2A0 : Nat) < 1024 ∧ (map1Entry 0x2A0).isSome = true)⟩
theorem Laws.Encoded.rngNext (h : Head) (o : VUn) : Laws.Encoded.Statement (.rngNext h o) := ⟨rfl, fun _ hp => by
  cases hp; exact (by decide : (0x2A1 : Nat) < 1024 ∧ (map1Entry 0x2A1).isSome = true)⟩
theorem Laws.Encoded.rngJump (h : Head) (o : VFromU) : Laws.Encoded.Statement (.rngJump h o) := ⟨rfl, fun _ hp => by
  cases hp; exact (by decide : (0x2A2 : Nat) < 1024 ∧ (map1Entry 0x2A2).isSome = true)⟩
theorem Laws.Encoded.ldB32 (h : Head) (o : VMem) : Laws.Encoded.Statement (.ldB32 h o) := ⟨rfl, fun _ hp => by
  cases hp; exact (by decide : (0x2C0 : Nat) < 1024 ∧ (map1Entry 0x2C0).isSome = true)⟩
theorem Laws.Encoded.ldI8 (h : Head) (o : VMem) : Laws.Encoded.Statement (.ldI8 h o) := ⟨rfl, fun _ hp => by
  cases hp; exact (by decide : (0x2C1 : Nat) < 1024 ∧ (map1Entry 0x2C1).isSome = true)⟩
theorem Laws.Encoded.ldN8 (h : Head) (o : VMem) : Laws.Encoded.Statement (.ldN8 h o) := ⟨rfl, fun _ hp => by
  cases hp; exact (by decide : (0x2C2 : Nat) < 1024 ∧ (map1Entry 0x2C2).isSome = true)⟩
theorem Laws.Encoded.ldF16 (h : Head) (o : VMem) : Laws.Encoded.Statement (.ldF16 h o) := ⟨rfl, fun _ hp => by
  cases hp; exact (by decide : (0x2C3 : Nat) < 1024 ∧ (map1Entry 0x2C3).isSome = true)⟩
theorem Laws.Encoded.ldB4 (h : Head) (o : VMem) : Laws.Encoded.Statement (.ldB4 h o) := ⟨rfl, fun _ hp => by
  cases hp; exact (by decide : (0x2C4 : Nat) < 1024 ∧ (map1Entry 0x2C4).isSome = true)⟩
theorem Laws.Encoded.ldW2 (h : Head) (o : VMem) : Laws.Encoded.Statement (.ldW2 h o) := ⟨rfl, fun _ hp => by
  cases hp; exact (by decide : (0x2C5 : Nat) < 1024 ∧ (map1Entry 0x2C5).isSome = true)⟩
theorem Laws.Encoded.ldW4 (h : Head) (o : VMem) : Laws.Encoded.Statement (.ldW4 h o) := ⟨rfl, fun _ hp => by
  cases hp; exact (by decide : (0x2C6 : Nat) < 1024 ∧ (map1Entry 0x2C6).isSome = true)⟩
theorem Laws.Encoded.ldFfB32 (h : Head) (o : VMem) : Laws.Encoded.Statement (.ldFfB32 h o) := ⟨rfl, fun _ hp => by
  cases hp; exact (by decide : (0x2C8 : Nat) < 1024 ∧ (map1Entry 0x2C8).isSome = true)⟩
theorem Laws.Encoded.ldFfN8 (h : Head) (o : VMem) : Laws.Encoded.Statement (.ldFfN8 h o) := ⟨rfl, fun _ hp => by
  cases hp; exact (by decide : (0x2C9 : Nat) < 1024 ∧ (map1Entry 0x2C9).isSome = true)⟩
theorem Laws.Encoded.ldsB32 (h : Head) (o : UMem) : Laws.Encoded.Statement (.ldsB32 h o) := ⟨rfl, fun _ hp => by
  cases hp; exact (by decide : (0x2CC : Nat) < 1024 ∧ (map1Entry 0x2CC).isSome = true)⟩
theorem Laws.Encoded.ldsW2 (h : Head) (o : UMem) : Laws.Encoded.Statement (.ldsW2 h o) := ⟨rfl, fun _ hp => by
  cases hp; exact (by decide : (0x2CD : Nat) < 1024 ∧ (map1Entry 0x2CD).isSome = true)⟩
theorem Laws.Encoded.ldSync (h : Head) (o : VMem) : Laws.Encoded.Statement (.ldSync h o) := ⟨rfl, fun _ hp => by
  cases hp; exact (by decide : (0x2D0 : Nat) < 1024 ∧ (map1Entry 0x2D0).isSome = true)⟩
theorem Laws.Encoded.stB32 (h : Head) (o : VMem) : Laws.Encoded.Statement (.stB32 h o) := ⟨rfl, fun _ hp => by
  cases hp; exact (by decide : (0x2E0 : Nat) < 1024 ∧ (map1Entry 0x2E0).isSome = true)⟩
theorem Laws.Encoded.stN8 (h : Head) (o : VMem) : Laws.Encoded.Statement (.stN8 h o) := ⟨rfl, fun _ hp => by
  cases hp; exact (by decide : (0x2E1 : Nat) < 1024 ∧ (map1Entry 0x2E1).isSome = true)⟩
theorem Laws.Encoded.stF16 (h : Head) (o : VMem) : Laws.Encoded.Statement (.stF16 h o) := ⟨rfl, fun _ hp => by
  cases hp; exact (by decide : (0x2E2 : Nat) < 1024 ∧ (map1Entry 0x2E2).isSome = true)⟩
theorem Laws.Encoded.stB4 (h : Head) (o : VMem) : Laws.Encoded.Statement (.stB4 h o) := ⟨rfl, fun _ hp => by
  cases hp; exact (by decide : (0x2E3 : Nat) < 1024 ∧ (map1Entry 0x2E3).isSome = true)⟩
theorem Laws.Encoded.stW2 (h : Head) (o : VMem) : Laws.Encoded.Statement (.stW2 h o) := ⟨rfl, fun _ hp => by
  cases hp; exact (by decide : (0x2E4 : Nat) < 1024 ∧ (map1Entry 0x2E4).isSome = true)⟩
theorem Laws.Encoded.stW4 (h : Head) (o : VMem) : Laws.Encoded.Statement (.stW4 h o) := ⟨rfl, fun _ hp => by
  cases hp; exact (by decide : (0x2E5 : Nat) < 1024 ∧ (map1Entry 0x2E5).isSome = true)⟩
theorem Laws.Encoded.stsB32 (h : Head) (o : UMem) : Laws.Encoded.Statement (.stsB32 h o) := ⟨rfl, fun _ hp => by
  cases hp; exact (by decide : (0x2E8 : Nat) < 1024 ∧ (map1Entry 0x2E8).isSome = true)⟩
theorem Laws.Encoded.stsW2 (h : Head) (o : UMem) : Laws.Encoded.Statement (.stsW2 h o) := ⟨rfl, fun _ hp => by
  cases hp; exact (by decide : (0x2E9 : Nat) < 1024 ∧ (map1Entry 0x2E9).isSome = true)⟩
theorem Laws.Encoded.stSync (h : Head) (o : VMem) : Laws.Encoded.Statement (.stSync h o) := ⟨rfl, fun _ hp => by
  cases hp; exact (by decide : (0x2F0 : Nat) < 1024 ∧ (map1Entry 0x2F0).isSome = true)⟩
theorem Laws.Encoded.stFill (h : Head) (o : VMem) : Laws.Encoded.Statement (.stFill h o) := ⟨rfl, fun _ hp => by
  cases hp; exact (by decide : (0x2F9 : Nat) < 1024 ∧ (map1Entry 0x2F9).isSome = true)⟩
theorem Laws.Encoded.feClr (h : Head) (m : MemOp) : Laws.Encoded.Statement (.feClr h m) := ⟨rfl, fun _ hp => by
  cases hp; exact (by decide : (0x2FA : Nat) < 1024 ∧ (map1Entry 0x2FA).isSome = true)⟩
theorem Laws.Encoded.pf (h : Head) (o : PfOp) : Laws.Encoded.Statement (.pf h o) := ⟨rfl, fun _ hp => by
  cases hp; exact (by decide : (0x2F8 : Nat) < 1024 ∧ (map1Entry 0x2F8).isSome = true)⟩
theorem Laws.Encoded.loadComplete (w : WaveRef) (k : Nat) : Laws.Encoded.Statement (.loadComplete w k) := ⟨rfl, fun _ hp => nomatch hp⟩
theorem Laws.Encoded.storeRetire (w : WaveRef) (failed : Bool) : Laws.Encoded.Statement (.storeRetire w failed) := ⟨rfl, fun _ hp => nomatch hp⟩
theorem Laws.Encoded.pageWalkComplete (k : Nat) : Laws.Encoded.Statement (.pageWalkComplete k) := ⟨rfl, fun _ hp => nomatch hp⟩
theorem Laws.Encoded.migrationComplete (k : Nat) (failed : Bool) : Laws.Encoded.Statement (.migrationComplete k failed) := ⟨rfl, fun _ hp => nomatch hp⟩
theorem Laws.Encoded.atomAdd (h : Head) (o : AtomOp) : Laws.Encoded.Statement (.atomAdd h o) := ⟨rfl, fun _ hp => by
  cases hp; exact (by decide : (0x300 : Nat) < 1024 ∧ (map1Entry 0x300).isSome = true)⟩
theorem Laws.Encoded.atomMinI32 (h : Head) (o : AtomOp) : Laws.Encoded.Statement (.atomMinI32 h o) := ⟨rfl, fun _ hp => by
  cases hp; exact (by decide : (0x301 : Nat) < 1024 ∧ (map1Entry 0x301).isSome = true)⟩
theorem Laws.Encoded.atomMinN32 (h : Head) (o : AtomOp) : Laws.Encoded.Statement (.atomMinN32 h o) := ⟨rfl, fun _ hp => by
  cases hp; exact (by decide : (0x302 : Nat) < 1024 ∧ (map1Entry 0x302).isSome = true)⟩
theorem Laws.Encoded.atomMaxI32 (h : Head) (o : AtomOp) : Laws.Encoded.Statement (.atomMaxI32 h o) := ⟨rfl, fun _ hp => by
  cases hp; exact (by decide : (0x303 : Nat) < 1024 ∧ (map1Entry 0x303).isSome = true)⟩
theorem Laws.Encoded.atomMaxN32 (h : Head) (o : AtomOp) : Laws.Encoded.Statement (.atomMaxN32 h o) := ⟨rfl, fun _ hp => by
  cases hp; exact (by decide : (0x304 : Nat) < 1024 ∧ (map1Entry 0x304).isSome = true)⟩
theorem Laws.Encoded.atomAnd (h : Head) (o : AtomOp) : Laws.Encoded.Statement (.atomAnd h o) := ⟨rfl, fun _ hp => by
  cases hp; exact (by decide : (0x305 : Nat) < 1024 ∧ (map1Entry 0x305).isSome = true)⟩
theorem Laws.Encoded.atomOr (h : Head) (o : AtomOp) : Laws.Encoded.Statement (.atomOr h o) := ⟨rfl, fun _ hp => by
  cases hp; exact (by decide : (0x306 : Nat) < 1024 ∧ (map1Entry 0x306).isSome = true)⟩
theorem Laws.Encoded.atomXor (h : Head) (o : AtomOp) : Laws.Encoded.Statement (.atomXor h o) := ⟨rfl, fun _ hp => by
  cases hp; exact (by decide : (0x307 : Nat) < 1024 ∧ (map1Entry 0x307).isSome = true)⟩
theorem Laws.Encoded.atomXchg (h : Head) (o : AtomOp) : Laws.Encoded.Statement (.atomXchg h o) := ⟨rfl, fun _ hp => by
  cases hp; exact (by decide : (0x308 : Nat) < 1024 ∧ (map1Entry 0x308).isSome = true)⟩
theorem Laws.Encoded.atomCas (h : Head) (o : AtomOp) : Laws.Encoded.Statement (.atomCas h o) := ⟨rfl, fun _ hp => by
  cases hp; exact (by decide : (0x309 : Nat) < 1024 ∧ (map1Entry 0x309).isSome = true)⟩
theorem Laws.Encoded.atomFadd (h : Head) (o : AtomOp) : Laws.Encoded.Statement (.atomFadd h o) := ⟨rfl, fun _ hp => by
  cases hp; exact (by decide : (0x30A : Nat) < 1024 ∧ (map1Entry 0x30A).isSome = true)⟩
theorem Laws.Encoded.updAdd (h : Head) (o : AtomOp) : Laws.Encoded.Statement (.updAdd h o) := ⟨rfl, fun _ hp => by
  cases hp; exact (by decide : (0x310 : Nat) < 1024 ∧ (map1Entry 0x310).isSome = true)⟩
theorem Laws.Encoded.updMinI32 (h : Head) (o : AtomOp) : Laws.Encoded.Statement (.updMinI32 h o) := ⟨rfl, fun _ hp => by
  cases hp; exact (by decide : (0x311 : Nat) < 1024 ∧ (map1Entry 0x311).isSome = true)⟩
theorem Laws.Encoded.updMinN32 (h : Head) (o : AtomOp) : Laws.Encoded.Statement (.updMinN32 h o) := ⟨rfl, fun _ hp => by
  cases hp; exact (by decide : (0x312 : Nat) < 1024 ∧ (map1Entry 0x312).isSome = true)⟩
theorem Laws.Encoded.updMaxI32 (h : Head) (o : AtomOp) : Laws.Encoded.Statement (.updMaxI32 h o) := ⟨rfl, fun _ hp => by
  cases hp; exact (by decide : (0x313 : Nat) < 1024 ∧ (map1Entry 0x313).isSome = true)⟩
theorem Laws.Encoded.updMaxN32 (h : Head) (o : AtomOp) : Laws.Encoded.Statement (.updMaxN32 h o) := ⟨rfl, fun _ hp => by
  cases hp; exact (by decide : (0x314 : Nat) < 1024 ∧ (map1Entry 0x314).isSome = true)⟩
theorem Laws.Encoded.updAnd (h : Head) (o : AtomOp) : Laws.Encoded.Statement (.updAnd h o) := ⟨rfl, fun _ hp => by
  cases hp; exact (by decide : (0x315 : Nat) < 1024 ∧ (map1Entry 0x315).isSome = true)⟩
theorem Laws.Encoded.updOr (h : Head) (o : AtomOp) : Laws.Encoded.Statement (.updOr h o) := ⟨rfl, fun _ hp => by
  cases hp; exact (by decide : (0x316 : Nat) < 1024 ∧ (map1Entry 0x316).isSome = true)⟩
theorem Laws.Encoded.updXor (h : Head) (o : AtomOp) : Laws.Encoded.Statement (.updXor h o) := ⟨rfl, fun _ hp => by
  cases hp; exact (by decide : (0x317 : Nat) < 1024 ∧ (map1Entry 0x317).isSome = true)⟩
theorem Laws.Encoded.updFadd (h : Head) (o : AtomOp) : Laws.Encoded.Statement (.updFadd h o) := ⟨rfl, fun _ hp => by
  cases hp; exact (by decide : (0x31A : Nat) < 1024 ∧ (map1Entry 0x31A).isSome = true)⟩
theorem Laws.Encoded.remotePromotionRequest (line : Nat) : Laws.Encoded.Statement (.remotePromotionRequest line) := ⟨rfl, fun _ hp => nomatch hp⟩
theorem Laws.Encoded.fence (h : Head) (o : FenceOp) : Laws.Encoded.Statement (.fence h o) := ⟨rfl, fun _ hp => by
  cases hp; exact (by decide : (0x320 : Nat) < 1024 ∧ (map1Entry 0x320).isSome = true)⟩
theorem Laws.Encoded.apGth (h : Head) (o : AsyOp) : Laws.Encoded.Statement (.apGth h o) := ⟨rfl, fun _ hp => by
  cases hp; exact (by decide : (0x332 : Nat) < 1024 ∧ (map1Entry 0x332).isSome = true)⟩
theorem Laws.Encoded.apCpy (h : Head) (o : AsyOp) : Laws.Encoded.Statement (.apCpy h o) := ⟨rfl, fun _ hp => by
  cases hp; exact (by decide : (0x330 : Nat) < 1024 ∧ (map1Entry 0x330).isSome = true)⟩
theorem Laws.Encoded.apCp2 (h : Head) (o : AsyOp) : Laws.Encoded.Statement (.apCp2 h o) := ⟨rfl, fun _ hp => by
  cases hp; exact (by decide : (0x331 : Nat) < 1024 ∧ (map1Entry 0x331).isSome = true)⟩
theorem Laws.Encoded.apSct (h : Head) (o : AsyOp) : Laws.Encoded.Statement (.apSct h o) := ⟨rfl, fun _ hp => by
  cases hp; exact (by decide : (0x333 : Nat) < 1024 ∧ (map1Entry 0x333).isSome = true)⟩
theorem Laws.Encoded.apGatherStep (core : Nat) : Laws.Encoded.Statement (.apGatherStep core) := ⟨rfl, fun _ hp => nomatch hp⟩
theorem Laws.Encoded.apCopyRow (core : Nat) : Laws.Encoded.Statement (.apCopyRow core) := ⟨rfl, fun _ hp => nomatch hp⟩
theorem Laws.Encoded.apScatterPosition (core : Nat) : Laws.Encoded.Statement (.apScatterPosition core) := ⟨rfl, fun _ hp => nomatch hp⟩
theorem Laws.Encoded.apQueuePush (core : Nat) : Laws.Encoded.Statement (.apQueuePush core) := ⟨rfl, fun _ hp => nomatch hp⟩
theorem Laws.Encoded.apQueueStall (core : Nat) : Laws.Encoded.Statement (.apQueueStall core) := ⟨rfl, fun _ hp => nomatch hp⟩
theorem Laws.Encoded.aqPop (h : Head) (o : AqPop) : Laws.Encoded.Statement (.aqPop h o) := ⟨rfl, fun _ hp => by
  cases hp; exact (by decide : (0x334 : Nat) < 1024 ∧ (map1Entry 0x334).isSome = true)⟩
theorem Laws.Encoded.tst (h : Head) (o : AsyOp) : Laws.Encoded.Statement (.tst h o) := ⟨rfl, fun _ hp => by
  cases hp; exact (by decide : (0x350 : Nat) < 1024 ∧ (map1Entry 0x350).isSome = true)⟩
theorem Laws.Encoded.tldV (h : Head) (o : AsyOp) : Laws.Encoded.Statement (.tldV h o) := ⟨rfl, fun _ hp => by
  cases hp; exact (by decide : (0x351 : Nat) < 1024 ∧ (map1Entry 0x351).isSome = true)⟩
theorem Laws.Encoded.versionedTileRead (core : Nat) : Laws.Encoded.Statement (.versionedTileRead core) := ⟨rfl, fun _ hp => nomatch hp⟩
theorem Laws.Encoded.migUp (h : Head) (o : MigOp) : Laws.Encoded.Statement (.migUp h o) := ⟨rfl, fun _ hp => by
  cases hp; exact (by decide : (0x360 : Nat) < 1024 ∧ (map1Entry 0x360).isSome = true)⟩
theorem Laws.Encoded.migDown (h : Head) (o : MigOp) : Laws.Encoded.Statement (.migDown h o) := ⟨rfl, fun _ hp => by
  cases hp; exact (by decide : (0x361 : Nat) < 1024 ∧ (map1Entry 0x361).isSome = true)⟩
theorem Laws.Encoded.bagNew (h : Head) (o : U2) : Laws.Encoded.Statement (.bagNew h o) := ⟨rfl, fun _ hp => by
  cases hp; exact (by decide : (0x390 : Nat) < 1024 ∧ (map1Entry 0x390).isSome = true)⟩
theorem Laws.Encoded.bagPut (h : Head) (o : BagPut) : Laws.Encoded.Statement (.bagPut h o) := ⟨rfl, fun _ hp => by
  cases hp; exact (by decide : (0x391 : Nat) < 1024 ∧ (map1Entry 0x391).isSome = true)⟩
theorem Laws.Encoded.bagSnap (h : Head) (o : AsyOp) : Laws.Encoded.Statement (.bagSnap h o) := ⟨rfl, fun _ hp => by
  cases hp; exact (by decide : (0x392 : Nat) < 1024 ∧ (map1Entry 0x392).isSome = true)⟩
theorem Laws.Encoded.bagEach (h : Head) (o : RootCmd) : Laws.Encoded.Statement (.bagEach h o) := ⟨rfl, fun _ hp => by
  cases hp; exact (by decide : (0x393 : Nat) < 1024 ∧ (map1Entry 0x393).isSome = true)⟩
theorem Laws.Encoded.bagDrain (h : Head) (o : BagDrain) : Laws.Encoded.Statement (.bagDrain h o) := ⟨rfl, fun _ hp => by
  cases hp; exact (by decide : (0x394 : Nat) < 1024 ∧ (map1Entry 0x394).isSome = true)⟩
theorem Laws.Encoded.bagCnt (h : Head) (o : BagCnt) : Laws.Encoded.Statement (.bagCnt h o) := ⟨rfl, fun _ hp => by
  cases hp; exact (by decide : (0x395 : Nat) < 1024 ∧ (map1Entry 0x395).isSome = true)⟩
theorem Laws.Encoded.bagGrow (h : Head) (o : U3) : Laws.Encoded.Statement (.bagGrow h o) := ⟨rfl, fun _ hp => by
  cases hp; exact (by decide : (0x396 : Nat) < 1024 ∧ (map1Entry 0x396).isSome = true)⟩
theorem Laws.Encoded.bagSeal (h : Head) (o : AsyOp) : Laws.Encoded.Statement (.bagSeal h o) := ⟨rfl, fun _ hp => by
  cases hp; exact (by decide : (0x397 : Nat) < 1024 ∧ (map1Entry 0x397).isSome = true)⟩
theorem Laws.Encoded.bagFree (h : Head) (o : AsyOp) : Laws.Encoded.Statement (.bagFree h o) := ⟨rfl, fun _ hp => by
  cases hp; exact (by decide : (0x398 : Nat) < 1024 ∧ (map1Entry 0x398).isSome = true)⟩
theorem Laws.Encoded.bagNewTake (k : Nat) : Laws.Encoded.Statement (.bagNewTake k) := ⟨rfl, fun _ hp => nomatch hp⟩
theorem Laws.Encoded.bagPutTake (k : Nat) : Laws.Encoded.Statement (.bagPutTake k) := ⟨rfl, fun _ hp => nomatch hp⟩
theorem Laws.Encoded.bagSnapTake (k : Nat) : Laws.Encoded.Statement (.bagSnapTake k) := ⟨rfl, fun _ hp => nomatch hp⟩
theorem Laws.Encoded.bagEachTake (k : Nat) : Laws.Encoded.Statement (.bagEachTake k) := ⟨rfl, fun _ hp => nomatch hp⟩
theorem Laws.Encoded.bagDrainTake (k : Nat) : Laws.Encoded.Statement (.bagDrainTake k) := ⟨rfl, fun _ hp => nomatch hp⟩
theorem Laws.Encoded.bagDrainComplete (k : Nat) : Laws.Encoded.Statement (.bagDrainComplete k) := ⟨rfl, fun _ hp => nomatch hp⟩
theorem Laws.Encoded.bagCntTake (k : Nat) : Laws.Encoded.Statement (.bagCntTake k) := ⟨rfl, fun _ hp => nomatch hp⟩
theorem Laws.Encoded.bagGrowTake (k : Nat) : Laws.Encoded.Statement (.bagGrowTake k) := ⟨rfl, fun _ hp => nomatch hp⟩
theorem Laws.Encoded.bagSealTake (k : Nat) : Laws.Encoded.Statement (.bagSealTake k) := ⟨rfl, fun _ hp => nomatch hp⟩
theorem Laws.Encoded.bagFreeTake (k : Nat) : Laws.Encoded.Statement (.bagFreeTake k) := ⟨rfl, fun _ hp => nomatch hp⟩
theorem Laws.Encoded.bagAnswerArrival (k : Nat) : Laws.Encoded.Statement (.bagAnswerArrival k) := ⟨rfl, fun _ hp => nomatch hp⟩
theorem Laws.Encoded.rootRun (h : Head) (o : RootCmd) : Laws.Encoded.Statement (.rootRun h o) := ⟨rfl, fun _ hp => by
  cases hp; exact (by decide : (0x3A0 : Nat) < 1024 ∧ (map1Entry 0x3A0).isSome = true)⟩
theorem Laws.Encoded.rootRunTake (k : Nat) : Laws.Encoded.Statement (.rootRunTake k) := ⟨rfl, fun _ hp => nomatch hp⟩
theorem Laws.Encoded.bmac (h : Head) (o : AsyOp) : Laws.Encoded.Statement (.bmac h o) := ⟨rfl, fun _ hp => by
  cases hp; exact (by decide : (0x3A1 : Nat) < 1024 ∧ (map1Entry 0x3A1).isSome = true)⟩
theorem Laws.Encoded.bmacTake (k : Nat) : Laws.Encoded.Statement (.bmacTake k) := ⟨rfl, fun _ hp => nomatch hp⟩
theorem Laws.Encoded.bmacRowGroup (unit : Nat) (errs : List Nat) : Laws.Encoded.Statement (.bmacRowGroup unit errs) := ⟨rfl, fun _ hp => nomatch hp⟩
theorem Laws.Encoded.crownSum (h : Head) (o : CrownSum) : Laws.Encoded.Statement (.crownSum h o) := ⟨rfl, fun _ hp => by
  cases hp; exact (by decide : (0x3A2 : Nat) < 1024 ∧ (map1Entry 0x3A2).isSome = true)⟩
theorem Laws.Encoded.crownSumTake (k : Nat) : Laws.Encoded.Statement (.crownSumTake k) := ⟨rfl, fun _ hp => nomatch hp⟩
theorem Laws.Encoded.crownClr (h : Head) (sco : Scope) : Laws.Encoded.Statement (.crownClr h sco) := ⟨rfl, fun _ hp => by
  cases hp; exact (by decide : (0x3A3 : Nat) < 1024 ∧ (map1Entry 0x3A3).isSome = true)⟩
theorem Laws.Encoded.crownClrTake (k : Nat) : Laws.Encoded.Statement (.crownClrTake k) := ⟨rfl, fun _ hp => nomatch hp⟩
theorem Laws.Encoded.rootInvocationStart (k : Nat) : Laws.Encoded.Statement (.rootInvocationStart k) := ⟨rfl, fun _ hp => nomatch hp⟩
theorem Laws.Encoded.recLd (h : Head) (o : RecLd) : Laws.Encoded.Statement (.recLd h o) := ⟨rfl, fun _ hp => by
  cases hp; exact (by decide : (0x3A4 : Nat) < 1024 ∧ (map1Entry 0x3A4).isSome = true)⟩
theorem Laws.Encoded.recSt (h : Head) (o : RecSt) : Laws.Encoded.Statement (.recSt h o) := ⟨rfl, fun _ hp => by
  cases hp; exact (by decide : (0x3A5 : Nat) < 1024 ∧ (map1Entry 0x3A5).isSome = true)⟩
theorem Laws.Encoded.recIdx (h : Head) (vd : VReg) : Laws.Encoded.Statement (.recIdx h vd) := ⟨rfl, fun _ hp => by
  cases hp; exact (by decide : (0x3A6 : Nat) < 1024 ∧ (map1Entry 0x3A6).isSome = true)⟩
theorem Laws.Encoded.rld (h : Head) (o : VMem) : Laws.Encoded.Statement (.rld h o) := ⟨rfl, fun _ hp => by
  cases hp; exact (by decide : (0x3A7 : Nat) < 1024 ∧ (map1Entry 0x3A7).isSome = true)⟩
theorem Laws.Encoded.rst (h : Head) (o : VMem) : Laws.Encoded.Statement (.rst h o) := ⟨rfl, fun _ hp => by
  cases hp; exact (by decide : (0x3A8 : Nat) < 1024 ∧ (map1Entry 0x3A8).isSome = true)⟩
theorem Laws.Encoded.zskip (h : Head) (o : U3) : Laws.Encoded.Statement (.zskip h o) := ⟨rfl, fun _ hp => by
  cases hp; exact (by decide : (0x3A9 : Nat) < 1024 ∧ (map1Entry 0x3A9).isSome = true)⟩
theorem Laws.Encoded.crownPut (h : Head) (o : CrownPut) : Laws.Encoded.Statement (.crownPut h o) := ⟨rfl, fun _ hp => by
  cases hp; exact (by decide : (0x3AA : Nat) < 1024 ∧ (map1Entry 0x3AA).isSome = true)⟩
theorem Laws.Encoded.rkNext (h : Head) : Laws.Encoded.Statement (.rkNext h) := ⟨rfl, fun _ hp => by
  cases hp; exact (by decide : (0x3AB : Nat) < 1024 ∧ (map1Entry 0x3AB).isSome = true)⟩
theorem Laws.Encoded.rootBlockLimit (unit : Nat) : Laws.Encoded.Statement (.rootBlockLimit unit) := ⟨rfl, fun _ hp => nomatch hp⟩
theorem Laws.Encoded.mxMma (h : Head) (o : MxMma) : Laws.Encoded.Statement (.mxMma h o) := ⟨rfl, fun _ hp => by
  cases hp; exact (by decide : (0x380 : Nat) < 1024 ∧ (map1Entry 0x380).isSome = true)⟩
theorem Laws.Encoded.mxSt (h : Head) (o : MxSt) : Laws.Encoded.Statement (.mxSt h o) := ⟨rfl, fun _ hp => by
  cases hp; exact (by decide : (0x381 : Nat) < 1024 ∧ (map1Entry 0x381).isSome = true)⟩
theorem Laws.Encoded.mxLd (h : Head) (o : MxLd) : Laws.Encoded.Statement (.mxLd h o) := ⟨rfl, fun _ hp => by
  cases hp; exact (by decide : (0x382 : Nat) < 1024 ∧ (map1Entry 0x382).isSome = true)⟩
theorem Laws.Encoded.mxClr (h : Head) (o : MxClr) : Laws.Encoded.Statement (.mxClr h o) := ⟨rfl, fun _ hp => by
  cases hp; exact (by decide : (0x383 : Nat) < 1024 ∧ (map1Entry 0x383).isSome = true)⟩
theorem Laws.Encoded.mxRq (h : Head) (o : AsyOp) : Laws.Encoded.Statement (.mxRq h o) := ⟨rfl, fun _ hp => by
  cases hp; exact (by decide : (0x384 : Nat) < 1024 ∧ (map1Entry 0x384).isSome = true)⟩
theorem Laws.Encoded.tdLd (h : Head) (o : TdOp) : Laws.Encoded.Statement (.tdLd h o) := ⟨rfl, fun _ hp => by
  cases hp; exact (by decide : (0x385 : Nat) < 1024 ∧ (map1Entry 0x385).isSome = true)⟩
theorem Laws.Encoded.tdSt (h : Head) (o : TdOp) : Laws.Encoded.Statement (.tdSt h o) := ⟨rfl, fun _ hp => by
  cases hp; exact (by decide : (0x386 : Nat) < 1024 ∧ (map1Entry 0x386).isSome = true)⟩
theorem Laws.Encoded.tdBase (h : Head) (o : TdOp) : Laws.Encoded.Statement (.tdBase h o) := ⟨rfl, fun _ hp => by
  cases hp; exact (by decide : (0x387 : Nat) < 1024 ∧ (map1Entry 0x387).isSome = true)⟩
theorem Laws.Encoded.matrixCommandTake (core : Nat) : Laws.Encoded.Statement (.matrixCommandTake core) := ⟨rfl, fun _ hp => nomatch hp⟩
theorem Laws.Encoded.matrixStep (core : Nat) : Laws.Encoded.Statement (.matrixStep core) := ⟨rfl, fun _ hp => nomatch hp⟩
theorem Laws.Encoded.matrixStoreRows (core : Nat) : Laws.Encoded.Statement (.matrixStoreRows core) := ⟨rfl, fun _ hp => nomatch hp⟩
theorem Laws.Encoded.aonStore (core : Nat) : Laws.Encoded.Statement (.aonStore core) := ⟨rfl, fun _ hp => nomatch hp⟩
theorem Laws.Encoded.matrixLoadTile (core : Nat) : Laws.Encoded.Statement (.matrixLoadTile core) := ⟨rfl, fun _ hp => nomatch hp⟩
theorem Laws.Encoded.requantiseBlockColumn (core : Nat) : Laws.Encoded.Statement (.requantiseBlockColumn core) := ⟨rfl, fun _ hp => nomatch hp⟩
theorem Laws.Encoded.emeter (h : Head) (sd : UReg) : Laws.Encoded.Statement (.emeter h sd) := ⟨rfl, fun _ hp => by
  cases hp; exact (by decide : (0x3B0 : Nat) < 1024 ∧ (map1Entry 0x3B0).isSome = true)⟩
theorem Laws.Encoded.emeterShr (h : Head) (sd : UReg) : Laws.Encoded.Statement (.emeterShr h sd) := ⟨rfl, fun _ hp => by
  cases hp; exact (by decide : (0x3B0 : Nat) < 1024 ∧ (map1Entry 0x3B0).isSome = true)⟩
theorem Laws.Encoded.equota (h : Head) (sd : UReg) : Laws.Encoded.Statement (.equota h sd) := ⟨rfl, fun _ hp => by
  cases hp; exact (by decide : (0x3B1 : Nat) < 1024 ∧ (map1Entry 0x3B1).isSome = true)⟩
theorem Laws.Encoded.equotaFill (h : Head) (sd : UReg) : Laws.Encoded.Statement (.equotaFill h sd) := ⟨rfl, fun _ hp => by
  cases hp; exact (by decide : (0x3B1 : Nat) < 1024 ∧ (map1Entry 0x3B1).isSome = true)⟩
theorem Laws.Encoded.equotaCap (h : Head) (sd : UReg) : Laws.Encoded.Statement (.equotaCap h sd) := ⟨rfl, fun _ hp => by
  cases hp; exact (by decide : (0x3B1 : Nat) < 1024 ∧ (map1Entry 0x3B1).isSome = true)⟩
theorem Laws.Encoded.chargePost (k : Nat) : Laws.Encoded.Statement (.chargePost k) := ⟨rfl, fun _ hp => nomatch hp⟩
theorem Laws.Encoded.periodEnd : Laws.Encoded.Statement (.periodEnd) := ⟨rfl, fun _ hp => nomatch hp⟩
theorem Laws.Encoded.sqWrite (fn : Nat) (v : DWord) : Laws.Encoded.Statement (.sqWrite fn v) := ⟨rfl, fun _ hp => nomatch hp⟩
theorem Laws.Encoded.sctlWrite (fn : Nat) (v : DWord) : Laws.Encoded.Statement (.sctlWrite fn v) := ⟨rfl, fun _ hp => nomatch hp⟩
theorem Laws.Encoded.dirtySnap (h : Head) (o : Sys3) : Laws.Encoded.Statement (.dirtySnap h o) := ⟨rfl, fun _ hp => by
  cases hp; exact (by decide : (0x3D0 : Nat) < 1024 ∧ (map1Entry 0x3D0).isSome = true)⟩
theorem Laws.Encoded.dirtySnapFin (h : Head) (o : Sys3) : Laws.Encoded.Statement (.dirtySnapFin h o) := ⟨rfl, fun _ hp => by
  cases hp; exact (by decide : (0x3D0 : Nat) < 1024 ∧ (map1Entry 0x3D0).isSome = true)⟩
theorem Laws.Encoded.vfStop (h : Head) (o : VfStop) : Laws.Encoded.Statement (.vfStop h o) := ⟨rfl, fun _ hp => by
  cases hp; exact (by decide : (0x3D1 : Nat) < 1024 ∧ (map1Entry 0x3D1).isSome = true)⟩
theorem Laws.Encoded.tret (h : Head) : Laws.Encoded.Statement (.tret h) := ⟨rfl, fun _ hp => by
  cases hp; exact (by decide : (0x3C0 : Nat) < 1024 ∧ (map1Entry 0x3C0).isSome = true)⟩
theorem Laws.Encoded.tretNext (h : Head) : Laws.Encoded.Statement (.tretNext h) := ⟨rfl, fun _ hp => by
  cases hp; exact (by decide : (0x3C0 : Nat) < 1024 ∧ (map1Entry 0x3C0).isSome = true)⟩
theorem Laws.Encoded.tretAnc (h : Head) : Laws.Encoded.Statement (.tretAnc h) := ⟨rfl, fun _ hp => by
  cases hp; exact (by decide : (0x3C0 : Nat) < 1024 ∧ (map1Entry 0x3C0).isSome = true)⟩
theorem Laws.Encoded.tretVector (h : Head) (va : VReg) : Laws.Encoded.Statement (.tretVector h va) := ⟨rfl, fun _ hp => by
  cases hp; exact (by decide : (0x3C0 : Nat) < 1024 ∧ (map1Entry 0x3C0).isSome = true)⟩
theorem Laws.Encoded.tinfo (h : Head) (vd : VReg) : Laws.Encoded.Statement (.tinfo h vd) := ⟨rfl, fun _ hp => by
  cases hp; exact (by decide : (0x3C1 : Nat) < 1024 ∧ (map1Entry 0x3C1).isSome = true)⟩
theorem Laws.Encoded.wentSt (h : Head) (sd : UReg) : Laws.Encoded.Statement (.wentSt h sd) := ⟨rfl, fun _ hp => by
  cases hp; exact (by decide : (0x3C2 : Nat) < 1024 ∧ (map1Entry 0x3C2).isSome = true)⟩
theorem Laws.Encoded.wentLd (h : Head) (sd : UReg) : Laws.Encoded.Statement (.wentLd h sd) := ⟨rfl, fun _ hp => by
  cases hp; exact (by decide : (0x3C3 : Nat) < 1024 ∧ (map1Entry 0x3C3).isSome = true)⟩
theorem Laws.Encoded.svEnd (h : Head) : Laws.Encoded.Statement (.svEnd h) := ⟨rfl, fun _ hp => by
  cases hp; exact (by decide : (0x3C4 : Nat) < 1024 ∧ (map1Entry 0x3C4).isSome = true)⟩
theorem Laws.Encoded.svEndRes (h : Head) : Laws.Encoded.Statement (.svEndRes h) := ⟨rfl, fun _ hp => by
  cases hp; exact (by decide : (0x3C4 : Nat) < 1024 ∧ (map1Entry 0x3C4).isSome = true)⟩
theorem Laws.Encoded.dtabLd (h : Head) (o : Sys3) : Laws.Encoded.Statement (.dtabLd h o) := ⟨rfl, fun _ hp => by
  cases hp; exact (by decide : (0x3C5 : Nat) < 1024 ∧ (map1Entry 0x3C5).isSome = true)⟩
theorem Laws.Encoded.tlbInv (h : Head) (o : TlbInv) : Laws.Encoded.Statement (.tlbInv h o) := ⟨rfl, fun _ hp => by
  cases hp; exact (by decide : (0x3C6 : Nat) < 1024 ∧ (map1Entry 0x3C6).isSome = true)⟩
theorem Laws.Encoded.vfStart (h : Head) (o : U2) : Laws.Encoded.Statement (.vfStart h o) := ⟨rfl, fun _ hp => by
  cases hp; exact (by decide : (0x3C7 : Nat) < 1024 ∧ (map1Entry 0x3C7).isSome = true)⟩
theorem Laws.Encoded.vfPre (h : Head) (o : VfPre) : Laws.Encoded.Statement (.vfPre h o) := ⟨rfl, fun _ hp => by
  cases hp; exact (by decide : (0x3C8 : Nat) < 1024 ∧ (map1Entry 0x3C8).isSome = true)⟩
theorem Laws.Encoded.vfRst (h : Head) (sc : UReg) : Laws.Encoded.Statement (.vfRst h sc) := ⟨rfl, fun _ hp => by
  cases hp; exact (by decide : (0x3C9 : Nat) < 1024 ∧ (map1Entry 0x3C9).isSome = true)⟩
theorem Laws.Encoded.sliceSet (h : Head) (o : U2) : Laws.Encoded.Statement (.sliceSet h o) := ⟨rfl, fun _ hp => by
  cases hp; exact (by decide : (0x3CA : Nat) < 1024 ∧ (map1Entry 0x3CA).isSome = true)⟩
theorem Laws.Encoded.poolAdd (h : Head) (o : PoolAdd) : Laws.Encoded.Statement (.poolAdd h o) := ⟨rfl, fun _ hp => by
  cases hp; exact (by decide : (0x3CB : Nat) < 1024 ∧ (map1Entry 0x3CB).isSome = true)⟩
theorem Laws.Encoded.poolAddCap (h : Head) (o : PoolAdd) : Laws.Encoded.Statement (.poolAddCap h o) := ⟨rfl, fun _ hp => by
  cases hp; exact (by decide : (0x3CB : Nat) < 1024 ∧ (map1Entry 0x3CB).isSome = true)⟩
theorem Laws.Encoded.launchRecordTake (fn : Nat) : Laws.Encoded.Statement (.launchRecordTake fn) := ⟨rfl, fun _ hp => nomatch hp⟩
theorem Laws.Encoded.taskStart (launch : Nat) (task : Nat) : Laws.Encoded.Statement (.taskStart launch task) := ⟨rfl, fun _ hp => nomatch hp⟩
theorem Laws.Encoded.teamAdmit (launch : Nat) (task : Nat) (core : Nat) : Laws.Encoded.Statement (.teamAdmit launch task core) := ⟨rfl, fun _ hp => nomatch hp⟩
theorem Laws.Encoded.swapOut (w : WaveRef) : Laws.Encoded.Statement (.swapOut w) := ⟨rfl, fun _ hp => nomatch hp⟩
theorem Laws.Encoded.swapIn (core : Nat) (slot : Nat) : Laws.Encoded.Statement (.swapIn core slot) := ⟨rfl, fun _ hp => nomatch hp⟩
theorem Laws.Encoded.launchComplete (launch : Nat) : Laws.Encoded.Statement (.launchComplete launch) := ⟨rfl, fun _ hp => nomatch hp⟩
theorem Laws.Encoded.ringUnitRelease (launch : Nat) : Laws.Encoded.Statement (.ringUnitRelease launch) := ⟨rfl, fun _ hp => nomatch hp⟩
theorem Laws.Encoded.preemptRequest (fn : Nat) : Laws.Encoded.Statement (.preemptRequest fn) := ⟨rfl, fun _ hp => nomatch hp⟩
theorem Laws.Encoded.saveModeEntry (w : WaveRef) : Laws.Encoded.Statement (.saveModeEntry w) := ⟨rfl, fun _ hp => nomatch hp⟩
theorem Laws.Encoded.engineStopAck (e : EngineRef) : Laws.Encoded.Statement (.engineStopAck e) := ⟨rfl, fun _ hp => nomatch hp⟩
theorem Laws.Encoded.forcedSaveTimeout (fn : Nat) : Laws.Encoded.Statement (.forcedSaveTimeout fn) := ⟨rfl, fun _ hp => nomatch hp⟩
theorem Laws.Encoded.teamRestore (team : Nat) (core : Nat) : Laws.Encoded.Statement (.teamRestore team core) := ⟨rfl, fun _ hp => nomatch hp⟩
theorem Laws.Encoded.sliceStart : Laws.Encoded.Statement (.sliceStart) := ⟨rfl, fun _ hp => nomatch hp⟩
theorem Laws.Encoded.sliceEnd : Laws.Encoded.Statement (.sliceEnd) := ⟨rfl, fun _ hp => nomatch hp⟩
theorem Laws.Encoded.rowDisturbance (ch : Nat) (bank : Nat) (row : Nat) : Laws.Encoded.Statement (.rowDisturbance ch bank row) := ⟨rfl, fun _ hp => nomatch hp⟩
theorem Laws.Encoded.functionLevelReset (fn : Nat) : Laws.Encoded.Statement (.functionLevelReset fn) := ⟨rfl, fun _ hp => nomatch hp⟩
theorem Laws.Encoded.moduleReset : Laws.Encoded.Statement (.moduleReset) := ⟨rfl, fun _ hp => nomatch hp⟩
theorem Laws.Encoded.queueProducerWrite (fn : Nat) (level : BitVec 3) (v : Word) : Laws.Encoded.Statement (.queueProducerWrite fn level v) := ⟨rfl, fun _ hp => nomatch hp⟩
theorem Laws.Encoded.completionConsumerWrite (fn : Nat) (v : Word) : Laws.Encoded.Statement (.completionConsumerWrite fn v) := ⟨rfl, fun _ hp => nomatch hp⟩
theorem Laws.Encoded.pcapWrite (v : DWord) : Laws.Encoded.Statement (.pcapWrite v) := ⟨rfl, fun _ hp => nomatch hp⟩
theorem Laws.Encoded.srateWrite (stack : Nat) (v : DWord) : Laws.Encoded.Statement (.srateWrite stack v) := ⟨rfl, fun _ hp => nomatch hp⟩
theorem Laws.Encoded.stackRetrain (stack : Nat) : Laws.Encoded.Statement (.stackRetrain stack) := ⟨rfl, fun _ hp => nomatch hp⟩
theorem Laws.Encoded.mwselWrite (v : DWord) : Laws.Encoded.Statement (.mwselWrite v) := ⟨rfl, fun _ hp => nomatch hp⟩
theorem Laws.Encoded.bar2Access (a : Nat) (wr : Option (List Byte)) : Laws.Encoded.Statement (.bar2Access a wr) := ⟨rfl, fun _ hp => nomatch hp⟩
theorem Laws.Encoded.attestReport : Laws.Encoded.Statement (.attestReport) := ⟨rfl, fun _ hp => nomatch hp⟩
theorem Laws.Encoded.attestCertChain : Laws.Encoded.Statement (.attestCertChain) := ⟨rfl, fun _ hp => nomatch hp⟩
theorem Laws.Encoded.attestDataReady (ok : Bool) : Laws.Encoded.Statement (.attestDataReady ok) := ⟨rfl, fun _ hp => nomatch hp⟩
theorem Laws.Encoded.registerWrite (fn : Nat) (r : PlainReg) (v : DWord) : Laws.Encoded.Statement (.registerWrite fn r v) := ⟨rfl, fun _ hp => nomatch hp⟩
theorem Laws.Encoded.linkUp (n : Nat) (lcap : DWord) : Laws.Encoded.Statement (.linkUp n lcap) := ⟨rfl, fun _ hp => nomatch hp⟩
theorem Laws.Encoded.bruskoFlitReceive (n : Nat) (b : List Byte) : Laws.Encoded.Statement (.bruskoFlitReceive n b) := ⟨rfl, fun _ hp => nomatch hp⟩
theorem Laws.Encoded.bruskoNakReceive (n : Nat) (seq : Nat) : Laws.Encoded.Statement (.bruskoNakReceive n seq) := ⟨rfl, fun _ hp => nomatch hp⟩
theorem Laws.Encoded.linkRetrain (n : Nat) : Laws.Encoded.Statement (.linkRetrain n) := ⟨rfl, fun _ hp => nomatch hp⟩
theorem Laws.Encoded.cxlPortDown (n : Nat) : Laws.Encoded.Statement (.cxlPortDown n) := ⟨rfl, fun _ hp => nomatch hp⟩
theorem Laws.Encoded.frameRetirement : Laws.Encoded.Statement (.frameRetirement) := ⟨rfl, fun _ hp => nomatch hp⟩
theorem Laws.Encoded.thermalShutdown : Laws.Encoded.Statement (.thermalShutdown) := ⟨rfl, fun _ hp => nomatch hp⟩
theorem Laws.Encoded.functionCreation (fn : Nat) : Laws.Encoded.Statement (.functionCreation fn) := ⟨rfl, fun _ hp => nomatch hp⟩
theorem Laws.Encoded.contextDestruction (fn : Nat) : Laws.Encoded.Statement (.contextDestruction fn) := ⟨rfl, fun _ hp => nomatch hp⟩
theorem Laws.Encoded.linkRetrainingEnd (n : Nat) (ok : Bool) : Laws.Encoded.Statement (.linkRetrainingEnd n ok) := ⟨rfl, fun _ hp => nomatch hp⟩
theorem Laws.Encoded.stackRetrainingEnd (stack : Nat) : Laws.Encoded.Statement (.stackRetrainingEnd stack) := ⟨rfl, fun _ hp => nomatch hp⟩
theorem Laws.Encoded.thermalControllerRequest (stack : Nat) (rate : BitVec 16) : Laws.Encoded.Statement (.thermalControllerRequest stack rate) := ⟨rfl, fun _ hp => nomatch hp⟩

end Sys2Proof
end

