-- ==== Sys2Proof/Tests/Slice0.lean ====
section
/-! SUPPORT. Tests: words of the manual's worked encodings, terms that no word encodes, values that the manual works
out, and for each claim with hypotheses a state and operands that meet all of them. The comment of a test names where its
expected result stands. -/
namespace Sys2Proof.Tests

set_option Elab.async false

open Machine

/-! ### Decoding: the words stand in the sections named -/

/-- The decoder on a list of parcels. -/
noncomputable def words (ps : List Nat) : Option Instr := decodeTableWord (32 * ps.length) (ps.foldr (fun x n => x + 2 ^ 32 * n) 0)

def hd : Head := { hold := 0, acc := 0, pn := false, pred := 0, pfx := none }
def px : Prefix := { go := 0, tz := false, mz := false, v4th := 0, rm := 0, mn := false, mask := 0 }
/-- A vector operand at `[s + disp]`. -/
def addr (space : Space) (ix : Option (VReg × BitVec 2)) (sb : UReg) (d : BitVec 10) : MemOp :=
  { sp := space, ix := ix, sb := sb, disp := .short d }

-- 04_encoding_and_opcode_map and 05_isa_uniform_control_sync
theorem test_decode_add_uniform : words [0x08000002, 0xFFFF040C] =
    some (.addUniform hd { ty := .i32, dst := 8, sa := 6, b := .imm 0xFFFF }) := by decide
theorem test_decode_mov_uniform : words [0x09000302, 0x00010000] =
    some (.movUniformImm hd { dst := 9, imm := .short 1 }) := by decide
theorem test_decode_branch : words [0x51000804, 0x0000E048] =
    some (.brCc hd { cnd := .ne, sa := 5, sb := 9, off := .short 56 }) := by decide
theorem test_decode_lut3 : words [0x0AE0130A, 0x0038080C, 0x96] =
    some (.lut3 { hd with hold := 7 } { dst := 10, sa := 6, sb := 2, sc := 7, table := 0x96 }) := by decide
theorem test_decode_call : words [0x0001400C, 0x01008834, 0x00010000] =
    some (.callVector { hd with pred := 2, pfx := some { px with v4th := 20 } } (.short 64)) := by decide
theorem test_decode_done : words [0x00000A26, 0] = some (.done hd) := by decide
theorem test_decode_setvl : words [0x07000A32, 8] = some (.setvl hd { dst := 7, sa := 4, imm := 0 }) := by decide
theorem test_decode_setvtype : words [0x00000A42, 0] = some (.setvtype hd { sa := 0, imm := 0 }) := by decide
theorem test_decode_wait : words [0x00000B06, 0x8000] = some (.wait hd (.zero 1))
    ∧ words [0x00000B06, 0x10000] = some (.wait hd (.zero 2))
    ∧ words [0x00000B0A, 0, 0x3F013F02] = some (.wait hd (.bounds 0x3F013F02)) := by decide
-- 06_isa_vector_integer_and_lanes
theorem test_decode_lrot : words [0x02001802, 0xFFFF0002] = some (.lrot hd { dst := 2, sa := 1, k := .imm 0xFFFF })
    ∧ words [0x03001802, 0x00010002] = some (.lrot hd { dst := 3, sa := 1, k := .imm 1 }) := by decide
theorem test_decode_fshl : words [0x04001240, 0x01000402] =
    some (.fshl hd { dst := 4, sa := 1, sb := 1, n := 1, va := false }) := by decide
theorem test_decode_mov_vector : words [0x01001F20, 4] = some (.movVectorReg hd { dst := 1, sa := 2 }) := by decide
theorem test_decode_popc : words [0x0040000C, 0x03001400, 2] =
    some (.popc { hd with pfx := some { px with tz := true } } { dst := 3, sa := 1 }) := by decide
theorem test_decode_red : words [0x04001C00, 0x00080006] =
    some (.red hd { op := .add, ty := .i32, dst := .vec 4, sa := 3 }) := by decide
theorem test_decode_cmp : words [0x01001502, 0x400] =
    some (.cmpEq hd { ty := .i32, pd := 1, sa := 0, b := .imm 0 }) := by decide
-- 03_registers_and_the_pool
theorem test_decode_mov_ix : words [0x08001F00, 0x0080000A] = some (.movIxRead hd { dst := 8, a := 5, imm := 16 }) := by
  decide
-- 07_isa_vector_float_and_functions
theorem test_decode_fma : words [0x0000020C, 0x0A082031, 0x50301408] =
    some (.fma { hd with acc := 1, pfx := some { px with rm := 1 } } { ty := .f32, dst := 10, sa := 4, sb := 5, sc := 6 }) := by
  decide
-- 08_isa_loads_and_stores
theorem test_decode_loads : words [0x01002C03, 0x00240004] = some (.ldB32 hd { rd := 1, m := addr .global (some (0, 2)) 2 0 })
    ∧ words [0x05002C03, 0x10280300] = some (.ldB32 hd { rd := 5, m := addr .sp (some (3, 0)) 0 0x40 }) := by decide
theorem test_decode_stores : words [0x01002E03, 0x00240004] = some (.stB32 hd { rd := 1, m := addr .global (some (0, 2)) 2 0 })
    ∧ words [0x04006E03, 0x10000004] = some (.stB32 { hd with pred := 1 } { rd := 4, m := addr .global none 2 64 }) := by
  decide
-- 10_bags
theorem test_decode_bag_new : words [0x0C003900, 0x00000014] = some (.bagNew hd { dst := 12, sa := 10 }) := by decide
theorem test_decode_bag_put : words [0x05003915, 0x00018018] =
      some (.bagPut hd { fp := 0, nf := false, sco := .dev, sb := 12, va := 5 })
    ∧ words [0x05003915, 0x00258018] = some (.bagPut hd { fp := 4, nf := true, sco := .dev, sb := 12, va := 5 }) := by decide
theorem test_decode_bag_cnt : words [0x0E003950, 0x00000018] = some (.bagCnt hd { sel := 0, dst := 14, sa := 12, sb := 0 }) := by
  decide
-- 11_root_units_and_crown; root code's operations have no encoding in a wave's stream
theorem test_decode_root_run : words [0x00003A0A, 0x00019528, 0x00000240] =
    some (.rootRun hd { sco := .dev, sb := 20, sc := 21, tgt := 0x240 }) := by decide
theorem test_decode_record_forms : decodeInstr [0x01003A40, 0x08000000] = some (.recLd hd { dst := 1, off := 4 })
    ∧ decodeInstr [0x00003A50, 0x08000002] = some (.recSt hd { off := 4, sa := 1 })
    ∧ (decodeInstr [0x00003AB0, 0]) = some (.rkNext hd) := by decide
theorem test_decode_bmac : words [0x00083A15, 0x00018028] = some (.bmac { hd with acc := 1 } { sco := .dev, sb := 20 }) := by
  decide
theorem test_decode_crown_sum : words [0x00003A25, 0x00058030] =
      some (.crownSum hd { gw := false, clr := true, sco := .dev, sb := 24 })
    ∧ words [0x00003A25, 0x000D8030] = some (.crownSum hd { gw := true, clr := true, sco := .dev, sb := 24 }) := by decide
-- 17_program_row_gather
theorem test_decode_gather : words [0x00003325, 0x00008010] = some (.apGth hd { sco := .team, sb := 8 }) := by decide
-- 14_accuracy_classes
theorem test_decode_fmul : words [0x05082020, 0x00301C0C] =
    some (.fmul { hd with acc := 1 } { ty := .bf16, dst := 5, sa := 6, b := .vec 7 }) := by decide

/-! ### Ill-formed terms: one for each check of R75 that fields alone decide -/

theorem test_refuses_class : ¬ (Instr.padd hd { ty := .i8, dst := 1, sa := 2, b := .imm 3 }).WellFormed := by decide
theorem test_refuses_accuracy_class :
    ¬ (Instr.addUniform { hd with acc := 1 } { ty := .i32, dst := 1, sa := 2, b := .reg 3 }).WellFormed := by decide
theorem test_refuses_prefix : ¬ (Instr.done { hd with pfx := some px }).WellFormed := by decide
theorem test_refuses_rounding_mode :
    ¬ (Instr.fma { hd with pfx := some { px with rm := 7 } } { ty := .f32, dst := 1, sa := 2, sb := 3, sc := 4 }).WellFormed := by
  decide
theorem test_refuses_type : ¬ (Instr.addUniform hd { ty := .f32, dst := 1, sa := 2, b := .reg 3 }).WellFormed := by decide
theorem test_refuses_odd_pair : ¬ (Instr.mov64 hd { dst := 3, sa := 4 }).WellFormed := by decide
theorem test_refuses_register : ¬ (Instr.ldW2 hd { rd := 511, m := addr .global none 2 0 }).WellFormed := by decide
theorem test_accepts : (Instr.addUniform hd { ty := .i32, dst := 1, sa := 2, b := .imm 3 }).WellFormed
    ∧ (Instr.mov64 hd { dst := 2, sa := 4 }).WellFormed ∧ (Instr.ldW2 hd { rd := 510, m := addr .global none 2 0 }).WellFormed := by
  decide
-- R59, R71: words that are no instruction
theorem test_decode_refuses : words [0x00000007, 0] = none ∧ words [0x0000000E] = none ∧ words [0x0380006F, 8] = none
    ∧ words [0x00000500, 0] = none := by decide

/-! ### The states that the tests and the witnesses use -/

/-- A wave of the physical function: team 1, wave 0, of width 8 on core 0. -/
def r0 : WaveRef := ⟨1, 0⟩
def lane0 : Lane := { pc := 0x100, anchor := 0xF8, pos := .inside, blk := { stop := 0x120, liveV := 16, liveS := 16, liveP := 16 } }
def regs0 : Regs := Regs.init 8 16 16
def wave0 : Wave := { regs := regs0, lanes := List.replicate 8 lane0, group := 1, entry := some 0 }
def team0 : Team :=
  let a : Acc := { e := List.replicate 256 0, g := List.replicate 16 0 }
  { id := 1, launch := 1, winSize := 65536, accs := List.replicate 4 a, act := List.replicate 4 {}, queues := List.replicate 4 [], waves := [wave0] }
def launch0 : Launch := { id := 1, entry := 0xF8, v := 16, s := 16, tw := 1 }
def iss0 : Issue := { agent := .core 0 0 1 [(r0, 0xFF)], pc := 0x100, len := 8, stop := 0x120 }

/-- The machine after reset with that wave, its team changed by `f`, and an issue of all its lanes in progress. -/
def coreTeam (f : Team → Team) : State :=
  { State.reset with nextId := 10, launches := [launch0], teams := [f team0], issue := some iss0 }
def coreWave (f : Wave → Wave) : State := coreTeam fun t => { t with waves := [f wave0] }
/-- The wave's registers changed by `f`. -/
def core (f : Regs → Regs) : State := coreWave fun w => { w with regs := f w.regs }
def core0 : State := core id

/-- An invocation of unit 0 over a window of one page of 1,024 records of 64 bytes, in the frame at 0x20000. -/
def inv0 : Inv :=
  { (Inv.start { kind := .task, nrec := 1024, z := 64, pages := [(0x20000, true)] }) with pc := 0x100, head := false, stop := 0x120 }
def root0 : State :=
  { State.reset with nextId := 10, units := [{ id := 0, invs := [inv0] }]
                     issue := some { agent := .root 0, pc := 0x100, len := 8, stop := 0x120 } }

/-- The state after an instruction. -/
noncomputable def after (x : Instr) (s : State) : State := match exec x s with | .next t => t | _ => s
def S (s : State) (n : Nat) : Word := ((s.wave? r0).map fun w => w.regs.getS n).getD 0
def V (s : State) (n l : Nat) : Word := ((s.wave? r0).map fun w => w.regs.getV n l).getD 0
def P (s : State) (n : Nat) : Mask := ((s.wave? r0).map fun w => w.regs.getP n).getD 0
/-- Where lane `l` stands. -/
def at_ (s : State) (l : Nat) : Nat := (((s.wave? r0).bind fun w => w.lanes[l]?).map (·.pc)).getD 0
/-- Vector register `n` with the same word in every lane. -/
def splat (n : Nat) (x : Word) (r : Regs) : Regs := { r with v := r.v.set n (List.replicate 8 x) }
def U (n : Nat) (x : Word) (r : Regs) : Regs := r.setS n x
/-- A vector register with these words in its lanes. -/
def row (n : Nat) (xs : List Word) (r : Regs) : Regs := { r with v := r.v.set n xs }
def ub (ty : Ty) (d a : UReg) (b : UB) : UBin := { ty := ty, dst := d, sa := a, b := b }
def vb (ty : Ty) (d a : VReg) (b : VB) : VBin := { ty := ty, dst := d, sa := a, b := b }

/-- For every claim whose premise is an issue in progress alone, or one made for all lanes of one wave. -/
theorem witness_issue : core0.issue = some iss0 ∧ iss0.agent = .core 0 0 1 [(r0, 0xFF)] ∧ core0.wave? r0 = some wave0
    ∧ core0.team? r0.team = some team0 ∧ core0.launch? team0.launch = some launch0 := by decide +kernel
/-- For the claims about an issue of a root unit. -/
theorem witness_root_issue : root0.issue = some { agent := .root 0, pc := 0x100, len := 8, stop := 0x120 }
    ∧ root0.inv? 0 = some inv0 := by decide +kernel

/-! ### Uniform instructions -/

-- R80: the worked values of `div`, `rem`, and saturation
theorem test_uniform_divide :
    S (after (.divUniform hd (ub .i32 3 1 (.reg 2))) (core (U 1 0x80000000 ∘ U 2 0xFFFFFFFF))) 3 = 0x80000000
    ∧ S (after (.divUniform hd (ub .n32 3 1 (.reg 2))) (core (U 1 7))) 3 = 0xFFFFFFFF
    ∧ S (after (.divUniform hd (ub .i32 3 1 (.reg 2))) (core (U 1 0xFFFFFFF9 ∘ U 2 2))) 3 = 0xFFFFFFFD
    ∧ S (after (.remUniform hd (ub .i32 3 1 (.reg 2))) (core (U 1 0xFFFFFFF9 ∘ U 2 2))) 3 = 0xFFFFFFFF := by decide +kernel
theorem test_uniform_saturates :
    S (after (.addsUniform hd (ub .i32 3 1 (.imm 1))) (core (U 1 0x7FFFFFFF))) 3 = 0x7FFFFFFF
    ∧ S (after (.subsUniform hd (ub .n32 3 1 (.reg 2))) (core (U 1 1 ∘ U 2 2))) 3 = 0 := by decide +kernel
-- R80: the immediate is sign-extended; R39: s0 ignores a write; R77: the lanes move on
theorem test_uniform_add :
    S (after (.addUniform hd (ub .i32 8 6 (.imm 0xFFFF))) (core (U 6 5))) 8 = 4
    ∧ S (after (.addUniform hd (ub .i32 0 6 (.imm 0xFFFF))) (core (U 6 5))) 0 = 0
    ∧ at_ (after (.addUniform hd (ub .i32 8 6 (.imm 0xFFFF))) core0) 7 = 0x108 := by decide +kernel
theorem test_uniform_mulh : S (after (.mulhUniform hd (ub .i32 3 1 (.reg 2))) (core (U 1 0xFFFFFFFF ∘ U 2 2))) 3 = 0xFFFFFFFF
    ∧ S (after (.mulhUniform hd (ub .n32 3 1 (.reg 2))) (core (U 1 0xFFFFFFFF ∘ U 2 2))) 3 = 1 := by decide +kernel
-- R81
theorem test_uniform_shifts : S (after (.shlUniform hd (ub .i32 3 1 (.imm 32))) (core (U 1 1))) 3 = 0
    ∧ S (after (.shrUniform hd (ub .i32 3 1 (.imm 63))) (core (U 1 0x80000000))) 3 = 0xFFFFFFFF
    ∧ S (after (.shrUniform hd (ub .n32 3 1 (.reg 2))) (core (U 1 0x80000000 ∘ U 2 0x5F))) 3 = 1 := by decide +kernel
-- R82
theorem test_set_cc : S (after (.setCc hd { ty := .i32, cc := .lt, dst := 3, sa := 1, b := .imm 0 }) (core (U 1 0xFFFFFFFF))) 3 = 1
    ∧ S (after (.setCc hd { ty := .n32, cc := .lt, dst := 3, sa := 1, b := .imm 0 }) (core (U 1 0xFFFFFFFF))) 3 = 0 := by
  decide +kernel
-- R83
theorem test_pairs : (let t := after (.add64 hd (ub .b32 4 2 (.reg 6))) (core (U 2 0xFFFFFFFF ∘ U 6 1)); (S t 4, S t 5)) = (0, 1)
    ∧ (let t := after (.lea hd { ty := .i32, k := 2, dst := 4, sa := 2, sb := 6 }) (core (U 3 1 ∘ U 6 0xFFFFFFFF)); (S t 4, S t 5))
        = (0xFFFFFFFC, 0)
    ∧ (let t := after (.sar64 hd (ub .b32 4 2 (.imm 64))) (core (U 3 0x80000000)); (S t 4, S t 5)) = (0xFFFFFFFF, 0xFFFFFFFF) := by
  decide +kernel
-- R85: predicate logic in the lanes of E alone; R12: a lane whose predicate is false moves on unchanged
theorem test_predicates : P (after (.pnot { hd with pred := 2 } { d := 1, a := 3 }) (core fun r => (r.setP 2 0x0F).setP 1 0xF0)) 1 = 0xFF
    ∧ S (after (.pcnt hd { dst := 3, a := 2 }) (core fun r => r.setP 2 0x0F)) 3 = 4
    ∧ P (after (.pset hd { d := 1, sa := 2 }) (core (U 2 0x135))) 1 = 0x35 := by decide +kernel
-- R84: codes 110 and 111 keep %frm
theorem test_frm : ((after (.movToSpecial hd { spec := 0x0E, sa := 1 }) (core (U 1 3))).wave? r0).map (·.regs.frm) = some 3
    ∧ ((after (.movToSpecial hd { spec := 0x0E, sa := 1 }) (core fun r => U 1 7 { r with frm := 2 })).wave? r0).map (·.regs.frm) = some 2 := by
  decide +kernel

/-! ### Vector integer instructions and lanes -/

-- R102
theorem test_vector_arithmetic : V (after (.abs hd { ty := .i32, dst := 3, sa := 1 }) (core (splat 1 0x80000000))) 3 5 = 0x80000000
    ∧ V (after (.absd hd (vb .i32 3 1 (.vec 2))) (core (splat 1 0x80000000 ∘ splat 2 0x7FFFFFFF))) 3 0 = 0xFFFFFFFF
    ∧ V (after (.addsVector hd (vb .i32 3 1 (.uni 2))) (core (splat 1 0x80000000 ∘ U 2 0xFFFFFFFF))) 3 0 = 0x80000000 := by
  decide +kernel
-- R29: elements past %vl, with .tz and without
theorem test_tail : V (after (.movVectorImm hd { dst := 3, imm := .short 5 }) (core fun r => { splat 3 9 r with vl := 4 })) 3 4 = 9
    ∧ V (after (.movVectorImm { hd with pfx := some { px with tz := true } } { dst := 3, imm := .short 5 })
        (core fun r => { splat 3 9 r with vl := 4 })) 3 4 = 0 := by decide +kernel
-- R103, R104
theorem test_vector_shifts : V (after (.fshl hd { dst := 3, sa := 1, sb := 2, n := 8, va := false })
      (core (splat 1 0x11223344 ∘ splat 2 0x55667788))) 3 0 = 0x22334455
    ∧ V (after (.fshr hd { dst := 3, sa := 1, sb := 2, n := 8, va := false }) (core (splat 1 0x11223344 ∘ splat 2 0x55667788))) 3 0
        = 0x44556677
    ∧ V (after (.lut3 hd { dst := 3, sa := 1, sb := 2, sc := 4, table := 0x96 })
        (core (splat 1 0xF0 ∘ splat 2 0xCC ∘ splat 4 0xAA))) 3 0 = 0x96 := by decide +kernel
-- R105, R106
theorem test_fields : V (after (.brev hd { dst := 3, sa := 1 }) (core (splat 1 1))) 3 0 = 0x80000000
    ∧ V (after (.clz hd { dst := 3, sa := 1 }) core0) 3 0 = 32
    ∧ V (after (.bfx hd { ty := .i32, dst := 3, sa := 1, f := .imm 4 4 }) (core (splat 1 0xF0))) 3 0 = 0xFFFFFFFF
    ∧ V (after (.bfi hd { ty := .b32, dst := 3, sa := 1, f := .imm 28 8 }) (core (splat 1 0xAB ∘ splat 3 0x01234567))) 3 0
        = 0xB1234567 := by decide +kernel
-- R109: the worked dot product, and a pack
theorem test_packed : V (after (.pdot hd { ty := .i8, dst := 8, sa := 5, sb := 6, sc := 7 })
      (core (splat 5 0x7F02FF81 ∘ splat 6 0x01030202 ∘ splat 7 10))) 8 0 = 0xFFFFFF8F
    ∧ V (after (.pack hd { ty := .i8, dst := 3, sa := 1, b := .vec 2, h := true }) (core (splat 1 300 ∘ splat 2 0xFFFFFF00))) 3 0
        = 0x807F0000
    ∧ V (after (.padds hd (vb .n8 3 1 (.vec 2))) (core (splat 1 0xFF7F0001 ∘ splat 2 0x01010101))) 3 0 = 0xFF800102 := by
  decide +kernel
-- R111: rotation within %vl, and a shift past an end
theorem test_lanes : (let t := after (.lrot hd { dst := 3, sa := 1, k := .imm 0xFFFF }) (core fun r => { row 1 [1, 2, 3, 4, 5, 6, 7, 8] r with vl := 6 })
      (V t 3 0, V t 3 1, V t 3 6)) = (6, 1, 0)
    ∧ V (after (.lsh hd { dst := 3, sa := 1, k := .imm 2 }) (core (row 1 [1, 2, 3, 4, 5, 6, 7, 8]))) 3 6 = 0
    ∧ V (after (.lsh hd { dst := 3, sa := 1, k := .imm 2 }) (core (row 1 [1, 2, 3, 4, 5, 6, 7, 8]))) 3 0 = 3 := by decide +kernel
-- R112
theorem test_votes : S (after (.voteMsk hd { dst := 2, a := 1 }) (core fun r => r.setP 1 0xA5)) 2 = 0xA5
    ∧ S (after (.voteAll { hd with pred := 2 } { dst := 3, a := 1 }) (core fun r => (r.setP 1 0x0F).setP 2 0x03)) 3 = 1
    ∧ P (after (.elect { hd with pred := 2 } 3) (core fun r => r.setP 2 0xF0)) 3 = 0x10 := by decide +kernel
-- R113: the worked trees of saturating adds
theorem test_reductions : V (after (.red hd { op := .adds, ty := .i32, dst := .vec 3, sa := 1 })
      (core fun r => { row 1 [0x7FFFFFFF, 0, 1, 0xFFFFFFFF, 0, 0, 0, 0] r with vl := 4 })) 3 0 = 0x7FFFFFFF
    ∧ (let t := after (.scan hd { op := .adds, ty := .i32, dst := 3, sa := 1 })
        (core fun r => { row 1 [0x7FFFFFFF, 0, 1, 0xFFFFFFFF, 0, 0, 0, 0] r with vl := 4 })
       (List.range 4).map (V t 3)) = [0x7FFFFFFF, 0x7FFFFFFF, 0x7FFFFFFF, 0x7FFFFFFF]
    ∧ (let t := after (.scanx hd { op := .add, ty := .i32, dst := 3, sa := 1 }) (core (row 1 [3, 1, 3, 2, 2, 3, 0, 0]))
       (List.range 8).map (V t 3)) = [0, 3, 4, 7, 9, 11, 14, 14] := by decide +kernel

/-! ### Floating point, formats and accuracy classes -/

-- 14_accuracy_classes, R221 and R222: products worked to the bit
theorem test_bf16_classes : (List.range 3).map (fun k => V (after (.fmul { hd with acc := BitVec.ofNat 2 k } (vb .bf16 3 1 (.vec 2)))
      (core (splat 1 0x3FB7 ∘ splat 2 0x3FDB))) 3 0) = [0x401D, 0x401C, 0x4012] := by decide +kernel
theorem test_integer_classes : (List.range 3).map (fun k => let h := { hd with acc := BitVec.ofNat 2 k }
      let s := core (splat 1 0xFFFFFFFF ∘ splat 2 0xFFFFFFFF)
      (V (after (.mulhVector h (vb .n32 3 1 (.vec 2))) s) 3 0, V (after (.mulVector h (vb .n32 3 1 (.vec 2))) s) 3 0))
    = [(0xFFFFFFFE, 1), (0xFFFFFFEF, 0x80000000), (0xFFFFFFFE, 0)] := by decide +kernel
theorem test_small_classes : (List.range 3).map (fun k => V (after (.mulVector { hd with acc := BitVec.ofNat 2 k } (vb .n32 3 1 (.vec 2)))
      (core (splat 1 3 ∘ splat 2 3))) 3 0) = [9, 9, 8]
    ∧ V (after (.fmul { hd with acc := 1 } (vb .f32 3 1 (.vec 2))) (core (splat 1 0x3F800000 ∘ splat 2 0x3F800000))) 3 0 = 0x3F800001
    ∧ V (after (.fmul { hd with acc := 1 } (vb .f32 3 1 (.vec 2))) (core (splat 1 0x3FC00000 ∘ splat 2 0x3FC00000))) 3 0 = 0x40100000 := by
  decide +kernel
-- 13_number_formats: E4M3's narrowing of 464, 480 and 500
theorem test_e4m3 : [464, 480, 500].map (fun m => roundEx e4m3 .rne { neg := false, m := m, e := 0 })
    = [(0x7E, flagNX), (0x7F, flagOF ||| flagNX), (0x7F, flagOF ||| flagNX)] := by decide +kernel
-- 13_number_formats: values of BF16 0xBA2B and E4M3 0x7E
theorem test_values : bf16.val 0xBA2B = .fin true 171 (-18) ∧ e4m3.val 0x7E = .fin false 14 5 := by decide +kernel
-- 13_number_formats, R212 and R132's codes: the hybrid block and the E2M1 block
theorem test_block_codes : (quantV .rne 0xDF 0x400CCCCD).1 = 4 ∧ (quantV .rne 0xDF 0xC0666666).1 = 14
    ∧ scaleByte 3 [0x400CCCCD, 0xC0666666] = 0xDF
    ∧ (quantV .rne 0x60 0x40266666).1 = 5 ∧ (quantV .rne 0x60 0x3E800000).1 = 0 ∧ scaleByte 1 [0x40A00000] = 0x60 := by
  decide +kernel
-- 13_number_formats, R214: two draws of a stochastic update of 1 + 2^-9
theorem test_stochastic_update : updSto 0xC123 (.fin false 513 (-9)) = 0x3F81 ∧ updSto 0x1234 (.fin false 513 (-9)) = 0x3F80 := by
  decide +kernel
-- R118 to R123: sums with signed zeros, and exact results
theorem test_float_ops : V (after (.fadd hd (vb .f32 3 1 (.vec 2))) (core (splat 1 0x3F800000 ∘ splat 2 0x40000000))) 3 0 = 0x40400000
    ∧ V (after (.fsub { hd with pfx := some { px with rm := 3 } } (vb .f32 3 1 (.vec 2))) (core (splat 1 0x3F800000 ∘ splat 2 0x3F800000))) 3 0
        = (if (mkCtx none 0 regs0 0 { hd with pfx := some { px with rm := 3 } }).mode = .rdn then 0x80000000 else 0)
    ∧ V (after (.fsqrt hd { ty := .f32, dst := 3, sa := 1 }) (core (splat 1 0x40800000))) 3 0 = 0x40000000
    ∧ V (after (.fdiv hd (vb .f32 3 1 (.vec 2))) (core (splat 1 0x3F800000))) 3 0 = 0x7F800000
    ∧ V (after (.fexp2 hd { dst := 3, sa := 1 }) (core (splat 1 0x40400000))) 3 0 = 0x41000000
    ∧ V (after (.flog2 hd { dst := 3, sa := 1 }) (core (splat 1 0x41000000))) 3 0 = 0x40400000
    ∧ V (after (.fsin hd { dst := 3, sa := 1 }) core0) 3 0 = 0 := by decide +kernel
-- R131: the exact accumulator keeps what a rounded sum loses
theorem test_xacc : S (after (.xaccRd hd 3) ((after (.xaccAdd hd 1)
      ({ core (row 1 [0x7F000000, 0x3F800000, 0xFF000000, 0, 0, 0, 0, 0]) with issue := some iss0 })))) 3 = 0x3F800000 := by decide +kernel

theorem witness_no_float_traps : NoFloatTraps (fun c e => (fsum f32 c.mode (f32.val (c.at_ 1 e).toNat) (f32.val (c.at_ 2 e).toNat)).2)
    hd iss0 core0 := by unfold NoFloatTraps NoTraps; decide +kernel
/-- FloatTrapsSuppress: with overflow enabled, a sum that overflows. -/
theorem witness_float_traps : (let s := core fun r => splat 1 0x7F7FFFFF (splat 2 0x7F7FFFFF { r with fflags := 0x00003F00 })
    ∃ c ∈ contexts s iss0 hd, (if c.ref = none then [] else c.e.lanes.filterMap fun l =>
      let x := laneFlags c (fun e => (onHalves .f32 (fun xs => faddV f32 c.mode (xs.getD 0 0) (xs.getD 1 0))
        [c.at_ 1 e, c.at_ 2 e]).2) l &&& c.r.fflags.extractLsb' 8 6
      if x = 0 then none else some l) ≠ []) := by
  exact ⟨_, List.mem_cons_self, by decide +kernel⟩
theorem witness_rounding : f32 ∈ [f32, f16, bf16, e5m2, e4m3] ∧ 0 < 1 ∧ 1 ≤ f32.maxCode := by decide +kernel
theorem witness_overflow : (roundEx f32 .rne { neg := true, m := 2 ^ 129, e := 0 }).2 &&& flagOF ≠ 0
    ∧ f32.bias + 1 < (Nat.log2 (2 ^ 129) : Int) + 0 := by decide +kernel
theorem witness_indexed_moves : (∀ c ∈ contexts core0 iss0 hd, (c.r.getS 1).toNat + 15 < c.r.v.length)
    ∧ ∃ c ∈ contexts core0 iss0 hd, c.e ≠ 0 ∧ ¬ (c.r.getS 1).toNat + 16 < c.r.v.length :=
  ⟨by decide +kernel, _, List.mem_cons_self, by decide +kernel, by decide +kernel⟩

/-! ### Bags: the worked placements -/

/-- A bag of four shares with SLACK `s` and capacity `c`. -/
def bag4 (s c : Nat) : Bag := { lb := 2, z := 8, kw := 32, slack := s, cap := c, shares := List.replicate 4 {} }
-- 09_program_bag_doubling: the homes, and the twelve records
theorem test_homes : [1, 2, 3, 4, 5, 6, 7, 8, 9, 10, 13, 14].map (homeShare (bag4 1 64)) = [2, 0, 3, 1, 0, 2, 1, 3, 2, 0, 0, 2] := by decide +kernel
theorem test_placement_twelve : ([1, 2, 6, 3, 5, 10, 7, 9, 8, 4, 13, 14].foldl
      (fun (a : Bag × List Nat) k => (placeRecord a.1 k (leBytes 8 k), a.2 ++ [targetShare a.1 k])) (bag4 1 64, [])).2
    = [2, 0, 1, 3, 0, 1, 2, 3, 3, 1, 0, 2] := by decide +kernel
-- 10_bags: eleven records with SLACK 2 and a capacity of 3
theorem test_placement_eleven : ([2, 5, 10, 13, 1, 6, 9, 14, 2, 4, 5].foldl
      (fun (a : Bag × List Nat) k => (placeRecord a.1 k (leBytes 8 k), a.2 ++ [targetShare a.1 k])) (bag4 2 3, [])).2
    = [0, 0, 1, 2, 2, 3, 2, 1, 0, 1, 3] := by decide +kernel

/-! ### Control flow, barriers and traps -/

/-- Tables of the physical function: page 0 is code in the frame at 0x10000, page 1 data in the frame at 0x20000, page 2
data in a frame of the capacity tier. A header of 6 parcels (04_encoding_and_opcode_map) stands at 0x140. -/
def tables : List Host.Cell :=
  writeCells 0x10140 (leBytes 8 0x000000080380006F)
    ([(0, 2 ^ 63 + 0x2000), (0x2000, 2 ^ 63 + 0x4000), (0x4000, 2 ^ 63 + 0x6000), (0x6000, 2 ^ 63 + 2 ^ 60 + 2 ^ 58 + 0x10000),
      (0x6008, 2 ^ 63 + 2 ^ 59 + 2 ^ 58 + 0x20000), (0x6010, 2 ^ 63 + 2 ^ 59 + 2 ^ 58 + 2 ^ 48 + 0x30000)].foldl
        (fun m e => writeCells e.1 (leBytes 8 e.2) m) [])
def mapped (s : State) : State := { s with mem := tables }
def lane (s : State) (k : Nat) : Lane := ((s.wave? r0).bind fun w => w.lanes[k]?).getD {}
/-- Every lane in trap mode, with a record of a trap at 0x108. -/
def trapped : State := coreWave fun w => { w with lanes := w.lanes.map fun l =>
  { l with mode := .trap, trap := { tpc := 0x108, tanc := 0xF8, tdet := 0x1234567890, blk := lane0.blk } } }

-- R87: taken by every lane to the branch's address plus 8 times the offset; R89: the link
theorem test_branch : at_ (after (.brCc hd { cnd := .ltn, sa := 1, sb := 2, off := .short 8 }) (mapped (core (U 2 1)))) 3 = 0x140
    ∧ at_ (after (.brCc hd { cnd := .ge, sa := 1, sb := 2, off := .short 8 }) (mapped (core (U 2 1)))) 3 = 0x108
    ∧ S (after (.callUniform hd { sa := 5, off := .short 8 }) (mapped core0)) 5 = 0x28
    ∧ at_ (after (.jmpUniform hd 1) (mapped (core (U 1 0x48)))) 0 = 0x140
    ∧ at_ (after (.brVote { hd with pred := 2 } { cnd := .any, pa := 3, off := .short 8 }) (mapped (core fun r => r.setP 3 0xF0))) 0 = 0x108 := by
  decide +kernel
theorem witness_branches : TargetsHold (fun c => c.e.lanes.map fun l => (l, 0x140)) hd iss0 (mapped core0)
    ∧ (∀ c ∈ contexts (mapped core0) iss0 hd, ∀ x ∈ c.e.lanes.map (fun l => (l, (0x140 : Int))),
        targetAt (mapped core0) (ctxFn (mapped core0) c) x.2 = .header) := by
  unfold TargetsHold; decide +kernel
-- R86: no page, and a page with no header
theorem witness_branch_traps : (mkCtx (some r0) 0 wave0.regs 0xFF hd).e ≠ 0
    ∧ targetAt core0 0 0xF8 = .bad ∧ targetAt (mapped core0) 0 0xF8 = .noHeader := by decide +kernel
-- R90
theorem test_exit : (lane (after (.exit { hd with pred := 1 }) (core fun r => r.setP 1 1)) 0).run = .ended
    ∧ (lane (after (.exit { hd with pred := 1 }) (core fun r => r.setP 1 1)) 1).run = .runnable
    ∧ (lane (after (.done { hd with pred := 1 }) (core fun r => r.setP 1 1)) 7).run = .ended := by decide +kernel
theorem witness_done : wave0.lanes.length ≤ 64 ∧ wave0.regs.width = wave0.lanes.length ∧ (0xFF &&& predLanes wave0.regs hd) ≠ 0
    ∧ ([(r0, (0xFF : Mask))].map (·.1)).Nodup := by decide +kernel
-- R91, R93: a nap; a wait that parks and one that does not
theorem test_wait : (lane (after (.wait hd (.zero 1)) (coreWave fun w => { w with ld := [(3, false)] })) 0).run = .parked (.wait 0 63 63 63 0x108)
    ∧ (lane (after (.wait hd (.bounds 0x3F3F3F01)) (coreWave fun w => { w with ld := [(3, false)] })) 0).run = .runnable
    ∧ ((after (.nap hd 100) core0).wave? r0).map (·.naps) = some [(0xFF, 100)] := by decide +kernel
theorem witness_nap_ends : (coreWave fun w => { w with naps := [(0xFF, 100)] }).wave? r0 = some { wave0 with naps := [(0xFF, 100)] } := by
  decide +kernel
theorem test_nap_ends : ((after (.napExpiry r0) (coreWave fun w => { w with naps := [(0xFF, 100)] })).wave? r0).map (·.naps) = some [] := by
  decide +kernel
theorem witness_lagging : (let g : Group := { id := 1, hist := List.replicate 64 [] }
    let s : State := { core0 with cores := [{ id := 0, slots := ({ groups := [g] } : Slot) :: List.replicate 3 {} }] }
    lagging s (members s 0 0 1) (s.group 0 0 1) = some r0) := by decide +kernel
-- R27, R94: one lane arrives and parks; the last one releases all
theorem test_barriers : (lane (after (.barTeam { hd with pred := 1 }) (core fun r => r.setP 1 1)) 0).run = .parked (.teamBar 0x108)
    ∧ (lane (after (.barTeam hd) core0) 0).run = .runnable ∧ at_ (after (.barGang hd) core0) 7 = 0x108 := by decide +kernel
theorem witness_barriers : NoTraps barTrap hd iss0 core0 := by unfold NoTraps; decide +kernel
theorem witness_barrier_releases : core0.team? 1 = some team0 ∧ (∀ w ∈ team0.waves, ∀ l ∈ w.lanes, l.gangArr = false)
    ∧ (∃ w ∈ team0.waves, ∃ l ∈ w.lanes, l.run ≠ .ended) ∧ (∀ w ∈ team0.waves, w.save = .no) ∧ ¬ (∀ w ∈ team0.waves, ∀ l ∈ w.lanes, l.run = .ended ∨ l.teamArr = true)
    ∧ (∀ w ∈ (team0.waves.map fun (w : Wave) => { w with lanes := w.lanes.map fun (l : Lane) => { l with teamArr := true } }), ∀ l ∈ w.lanes,
        l.run = .ended ∨ l.teamArr = true) := by decide +kernel
-- R20
theorem witness_barrier_in_trap_mode : ∀ w, trapped.wave? r0 = some w → (0xFF &&& predLanes w.regs hd) ≠ 0
    ∧ (0xFF &&& predLanes w.regs hd).toNat < 2 ^ w.lanes.length
    ∧ ∀ l ∈ w.lanes, l.mode = .trap ∧ l.teamArr = false ∧ l.gangArr = false := by
  intro w h; obtain rfl : w = _ := (Option.some.inj h).symm; decide +kernel
theorem test_barrier_in_trap_mode : (lane (after (.barTeam hd) trapped) 4).run = .ended ∧ (lane (after (.barTeam hd) trapped) 4).tcause = 0x00000A01 := by
  decide +kernel
/-- A launch whose kernel names a handler, 0x48 after its entry. -/
def handled (s : State) : State := { s with launches := [{ launch0 with hb := 0x48 }] }
-- R313, R97: the handler, and no handler
theorem test_traps : (let t := after (.trap hd 5) (handled core0); (lane t 2).mode = .trap ∧ (lane t 2).pc = 0x140 ∧ (lane t 2).trap.tpc = 0x100
      ∧ (lane t 2).tcause = 0x0005000C)
    ∧ (let t := after (.trap hd 5) core0; (lane t 2).run = .ended ∧ (t.fn 0).lost = 1) := by decide +kernel
theorem witness_trap_entry : (handled core0).team? 1 = some team0 ∧ (handled core0).launch? 1 = some { launch0 with hb := 0x48 }
    ∧ (handled core0).wave? r0 = some wave0 ∧ wave0.lanes[3]? = some lane0 ∧ lane0.mode = .ordinary
    ∧ team0.ctx.dmask.getLsbD 12 = false ∧ (0x48 ≠ 0 ∨ team0.ctx.hdef ≠ 0)
    ∧ (∀ l ∈ wave0.lanes, l.mode = .ordinary) ∧ (0xFF &&& predLanes wave0.regs hd).toNat < 2 ^ wave0.lanes.length := by decide +kernel
/-- A ring of four records for the physical function's errors. -/
def ring (s : State) : State := s.modFn 0 fun f => { f with err := { base := 0x1000, size := 4 } }
theorem witness_trap_ends_lane : (ring core0).team? 1 = some team0 ∧ (ring core0).launch? 1 = some launch0 ∧ (ring core0).wave? r0 = some wave0
    ∧ (launch0.hb = 0 ∧ team0.ctx.hdef = 0) ∧ (ring core0).hasFn 0 = true ∧ core0.hasFn 0 = true
    ∧ (((ring core0).fn 0).err.prod - ((ring core0).fn 0).err.cons).toNat < ((ring core0).fn 0).err.size.toNat
    ∧ (core0.fn 0).err.size.toNat ≤ ((core0.fn 0).err.prod - (core0.fn 0).err.cons).toNat := by decide +kernel
-- R315: the record's cause and task
theorem test_trap_record : (let t := after (.trap hd 5) (ring core0); (t.fn 0).err.prod = 1 ∧ (t.fn 0).msix1 = true ∧ (t.fn 0).lost = 0) := by
  decide +kernel
-- R314
theorem test_trap_return : (let t := after (.tret hd) trapped; (lane t 1).pc = 0x108 ∧ (lane t 1).mode = .ordinary)
    ∧ (lane (after (.tretAnc hd) trapped) 1).pc = 0xF8
    ∧ (let t := after (.tinfo hd 2) trapped; (V t 2 1, V t 3 1)) = (0x34567890, 0x12)
    ∧ (lane (after (.tret hd) core0) 1).tcause = 0x00000F01 := by decide +kernel
theorem witness_trap_return : AllInMode .trap hd iss0 trapped := by unfold AllInMode; decide +kernel
theorem witness_trap_return_vector : (let s := mapped (coreWave fun w => { w with regs := splat 2 0x48 w.regs })
    ∀ c ∈ contexts s iss0 hd, ∀ l ∈ c.e.lanes, (headerAt s (ctxFn s c) (ctxEntry s c + (c.r.getV 2 l).toNat)).isSome = true
      ∧ targetAt s (ctxFn s c) (ctxEntry s c + (c.r.getV 2 l).toNat) = .header) := by decide +kernel
theorem witness_trap_return_outside : (0xFF &&& predLanes wave0.regs hd) ≠ 0 ∧ ctxMode core0 (mkCtx (some r0) 0 wave0.regs 0xFF hd) ≠ .trap := by
  decide +kernel

/-! ### Loads, stores and atomics -/

/-- Every element reaches the place given: what `AllAt` says, as a check. -/
theorem allAt_of {s : State} {r : WaveRef} {f : MemForm} {xs : List Elem} {place : Elem → Loc}
    (h : (xs.all fun x => match reach s r f x.a with
      | .ok l _ _ => decide (l = place x)
      | _ => false) = true) : AllAt s r f xs place := by
  intro x hx
  have := List.all_eq_true.mp h x hx
  revert this
  cases hr : reach s r f x.a <;> simp_all

/-- The leaf of page 1 with D clear, and with D set. -/
def leaf1 (d : Bool) : DWord := BitVec.ofNat 64 (2 ^ 63 + 2 ^ 59 + 2 ^ 58 + (if d then 2 ^ 57 else 0) + 0x20000)
/-- The core holds the translation of page 1. -/
def tlb (d : Bool) (s : State) : State :=
  let k : Core := { id := 0, slots := List.replicate 4 {}, tlb := [{ fn := 0, page := 1, leaf := leaf1 d }] }
  { mapped s with cores := [k] }
def ramp (n : Nat) (r : Regs) : Regs := row n ((List.range 8).map (BitVec.ofNat 32)) r
/-- `[s2:s3 + v1*4]` with s2 at page 1. -/
def op1 (sz : BitVec 2) : VMem := { rd := 3, m := addr .global (some (1, sz)) 2 0 }
def reg1 : Regs := ramp 1 (U 2 0x10000 regs0)
def loadState (d : Bool) : State := tlb d (core fun _ => splat 3 0xA1B2C3D4 reg1)
def place1 (x : Elem) : Loc := .dev (0x10000 + x.a.toNat)
def elems1 (s : State) (o : VMem) (nib : Bool) : List Elem :=
  let c := mkCtx (some r0) 0 (((s.wave? r0).map (·.regs)).getD {}) 0xFF hd
  c.actives.map fun e => ({ e := e, l := e % c.w, a := memAddr c o.m nib e } : Elem)

theorem witness_vector_loads : AllAt (loadState false) r0 { sp := .global, size := 4, rd := true, wr := false }
    (elems1 (loadState false) (op1 2) false) place1 ∧ elems1 (loadState false) (op1 2) false ≠ []
    ∧ (((loadState false).wave? r0).map (·.ld.length)) = some 0 :=
  ⟨allAt_of (by decide +kernel), by decide +kernel, by decide +kernel⟩
theorem witness_vector_stores : AllAt (loadState false) r0 { sp := .global, size := 4, rd := false, wr := true }
    (elems1 (loadState false) (op1 2) false) place1 ∧ (((loadState false).wave? r0).map (·.st.length)) = some 0 :=
  ⟨allAt_of (by decide +kernel), by decide +kernel⟩
theorem witness_uniform_accesses : AllAt (loadState false) r0 { sp := .global, size := 8, rd := true, wr := false }
    [{ e := 0, l := 0, a := 0x10000 }] (fun _ => .dev 0x20000)
    ∧ AllAt (loadState false) r0 { sp := .global, size := 8, rd := false, wr := true } [{ e := 0, l := 0, a := 0x10000 }]
      (fun _ => .dev 0x20000) := ⟨allAt_of (by decide +kernel), allAt_of (by decide +kernel)⟩
theorem witness_atomics : AllAt (loadState false) r0 { sp := .global, size := 4, rd := true, wr := true }
    (elems1 (loadState false) (op1 2) false) place1 ∧ (ctxLaunch (loadState false) (mkCtx (some r0) 0 reg1 0xFF hd)).det = false :=
  ⟨allAt_of (by decide +kernel), by decide +kernel⟩
theorem witness_access_frame : ∀ x ∈ elems1 (loadState true) (op1 2) false,
    ∃ q, reach (loadState true) r0 { sp := .global, size := 4, rd := false, wr := true } x.a = .ok (place1 x) q false := by
  intro x hx
  refine ⟨1, ?_⟩
  revert x
  decide +kernel

-- R136: range, then alignment, of an access; R140: what is loaded, little-endian and extended
theorem test_access_checks : (lane (after (.ldB32 hd (op1 0)) (loadState false)) 1).tcause = 7
    ∧ (lane (after (.ldB32 hd { rd := 3, m := addr .sp none 0 0x1FF }) core0) 1).tcause = 7
    ∧ (lane (after (.ldB32 hd { rd := 3, m := { addr .sp none 0 0 with disp := .long 65536 } }) core0) 1).tcause = 8
    ∧ (lane (after (.ldB32 hd (op1 2)) (mapped (core fun _ => reg1))) 1).run = .parked .miss := by decide +kernel
/-- The device's memory with four bytes at the start of page 1. -/
def bytes (s : State) : State := { s with mem := writeCells 0x20000 [0x80, 0xFF, 0x02, 0x01] s.mem }
/-- A load issued and its data arrived. -/
noncomputable def loaded (x : Instr) (s : State) : State := after (.loadComplete r0 10) (after x s)
theorem test_loads : V (loaded (.ldB32 hd (op1 2)) (bytes (loadState false))) 3 0 = 0x0102FF80
    ∧ V (loaded (.ldI8 hd (op1 0)) (bytes (loadState false))) 3 0 = 0xFFFFFF80
    ∧ V (loaded (.ldN8 hd (op1 0)) (bytes (loadState false))) 3 1 = 0xFF
    ∧ V (loaded (.ldF16 hd (op1 1)) (bytes (loadState false))) 3 0 = 0xFF80
    ∧ V (loaded (.ldB4 hd (op1 0)) (bytes (loadState false))) 3 1 = 8
    ∧ V (loaded (.ldB4 hd (op1 0)) (bytes (loadState false))) 3 2 = 15 := by decide +kernel
theorem test_uniform_load : (let t := loaded (.ldsW2 hd { rd := 4, m := addr .global none 2 0 }) (bytes (loadState false)); (S t 4, S t 5))
    = (0x0102FF80, 0) := by decide +kernel
theorem test_load_counts : ((after (.ldB32 hd (op1 2)) (loadState false)).wave? r0).map (·.ld) = some [(10, false)]
    ∧ ((loaded (.ldB32 hd (op1 2)) (loadState false)).wave? r0).map (·.ld) = some [] := by decide +kernel
-- R140, R270: what is stored, and D
noncomputable def stored (x : Instr) (s : State) : State := after (.storeRetire r0 false) (after x s)
theorem test_stores : readBytes (stored (.stB32 hd (op1 2)) (loadState false)) (.dev 0x20000) 8 = [0xD4, 0xC3, 0xB2, 0xA1, 0xD4, 0xC3, 0xB2, 0xA1]
    ∧ readBytes (stored (.stN8 hd (op1 0)) (loadState false)) (.dev 0x20007) 2 = [0xD4, 0]
    ∧ readBytes (stored (.stB4 { hd with pred := 1 } (op1 0)) (bytes (tlb false (core fun _ => splat 3 5 (reg1.setP 1 2))))) (.dev 0x20000) 2
        = [0x50, 0xFF]
    ∧ leafD (readEntry (after (.stB32 hd (op1 2)) (loadState false)) 0 0x6008) = true := by decide +kernel
-- R281: the old value is loaded, in ascending lanes; R144: the full/empty forms
def atom1 (rmt : Bool) : AtomOp := { rd := 3, sp := .global, ix := none, sb := 2, disp := none, ord := .relaxed, sco := .team, rmt := rmt }
theorem test_atomic : (let t := loaded (.atomAdd hd (atom1 false)) (bytes (tlb false (core fun _ => splat 3 1 reg1)))
      (V t 3 0, V t 3 7, readWord t (.dev 0x20000))) = (0x0102FF80, 0x0102FF87, 0x0102FF88)
    ∧ readWord (stored (.updMaxI32 hd (atom1 false)) (bytes (loadState false))) (.dev 0x20000) = 0x0102FF80 := by decide +kernel

/-- One active lane, and the window word at 0x40. -/
def h1 : Head := { hd with pred := 1 }
def feOp : VMem := { rd := 3, m := addr .sp none 0 0x40 }
def fe (full : Bool) : State := coreTeam fun t => { t with
  fe := (if full then [{ off := 0x40, full := true }] else []), win := writeCells 0x40 [7] []
  waves := [{ wave0 with regs := splat 3 9 (regs0.setP 1 4) }] }
theorem test_full_empty : V (after (.ldSync h1 feOp) (fe true)) 3 2 = 7
    ∧ (((after (.ldSync h1 feOp) (fe true)).team? 1).map fun t => (t.feWord 0x40).full) = some false
    ∧ (lane (after (.ldSync h1 feOp) (fe false)) 2).run = .parked (.word 1 0x40 true)
    ∧ (lane (after (.stSync h1 feOp) (fe true)) 2).run = .parked (.word 1 0x40 false)
    ∧ readWord (after (.stFill h1 feOp) (fe true)) (.win 1 0x40) = 9 := by decide +kernel
theorem witness_full_empty : ∀ full, (let c := mkCtx (some r0) 0 (splat 3 9 (regs0.setP 1 4)) 0xFF h1
    c.actives = [2] ∧ (c.elems.all fun x => c.kind x != .zeroed) = true ∧ c.w = 8 ∧ wave0.lanes[2 % c.w]? = some lane0
    ∧ reach (fe full) r0 { sp := .sp, size := 4, rd := false, wr := false } (memAddr c feOp.m false 2) = .ok (.win 1 0x40) 0 false
    ∧ ∀ tw, (fe full).team? 1 = some tw → (tw.feWord 0x40).queue = [] ∧ (tw.feWord 0x40).reserved = none ∧ Memory.wf tw.win = true
        ∧ (tw.feWord 0x40).full = full) := by
  intro full
  refine ⟨by decide +kernel, by decide +kernel, by decide +kernel, by decide +kernel, by cases full <;> decide +kernel, ?_⟩
  intro tw h; obtain rfl : tw = _ := (Option.some.inj h).symm; cases full <;> decide +kernel

/-- A lane that has parked on the word. -/
def waiting : State := coreTeam fun t => { t with
  fe := [{ off := 0x40, full := false, queue := [(1, 0, 2)] }]
  waves := [{ wave0 with lanes := wave0.lanes.set 2 { lane0 with run := .parked (.word 1 0x40 true) } }] }
theorem witness_full_empty_wakes : (((waiting).team? 1).map fun t => t.feWord 0x40)
      = some { off := 0x40, full := !true, queue := [(1, 0, 2)], reserved := none }
    ∧ (lane waiting 2).run = .parked (.word 1 0x40 true) := by decide +kernel
theorem test_full_empty_wakes : (lane (after (.stFill { hd with pred := 1 } feOp)
      (waiting.modWave r0 fun w => { w with regs := splat 3 9 (regs0.setP 1 1) })) 2).run = .runnable := by decide +kernel

theorem witness_first_fault : (let c := mkCtx (some r0) 0 (ramp 1 (U 2 0x1FFF8 regs0)) 0xFF hd
    let s := tlb false (core fun _ => ramp 1 (U 2 0x1FFF8 regs0))
    c.actives = 0 :: [1, 2, 3, 4, 5, 6, 7]
    ∧ reach s r0 { sp := .global, size := 1, rd := true, wr := false } (memAddr c (op1 0).m false 0) = .ok (.dev 0x2FFF8) 1 true
    ∧ ∀ e ∈ [1, 2, 3, 4, 5, 6, 7], ∃ l p d, reach s r0 { sp := .global, size := 1, rd := true, wr := false } (memAddr c (op1 0).m false e) = .ok l p d) := by
  refine ⟨by decide +kernel, by decide +kernel, fun e he => ?_⟩
  refine ⟨.dev (0x2FFF8 + e), 1, true, ?_⟩
  revert e; decide +kernel
-- R143: %vl becomes the first element that is misaligned
theorem test_first_fault : ((after (.ldFfB32 hd (op1 0)) (tlb false (core fun _ => row 1 [0, 4, 8, 9, 12, 0, 0, 0] (U 2 0x10000 regs0)))).wave? r0).map
    (·.regs.vl) = some 3 := by decide +kernel

/-- A load and a store in flight, on the device's memory. -/
def inFlight (ls : List PendLoad) (ss : List PendStore) : State := bytes (coreWave fun w =>
  { w with loads := ls, stores := ss, ld := ls.map fun p => (p.id, false), st := ss.map fun p => (p.id, false) })
def pend : PendLoad := { id := 5, elems := [{ dst := .v 3 0, src := .mem (.dev 0x20000) .word }] }
def pendAtom : PendLoad := { id := 5, elems := [{ dst := .v 3 0, src := .atom (.dev 0x20000) .add 1 0 }] }
def pendSt : PendStore := { id := 6, elems := [{ loc := .dev 0x20000, val := .bytes [1, 2, 3, 4] }] }
theorem witness_load_delivers : (inFlight [pend] []).wave? r0 = some { wave0 with loads := [pend], ld := [(5, false)] }
    ∧ ((inFlight [pend] []).team? 1).map (·.staged) = some [] ∧ Loc.broken (inFlight [pend] []) (.dev 0x20000) = false
    ∧ ({ wave0 with loads := [pend] } : Wave).allEnded = false := by decide +kernel
theorem witness_atomic_delivers : (inFlight [pendAtom] []).MemWf ∧ Loc.broken (inFlight [pendAtom] []) (.dev 0x20000) = false
    ∧ (((inFlight [pendAtom] []).team? 1).map fun t => (inFlight [pendAtom] []).isDet t) = some false := by
  unfold State.MemWf; decide +kernel
theorem witness_store_retires : (inFlight [] [pendSt]).wave? r0 = some { wave0 with stores := [pendSt], st := [(6, false)] }
    ∧ Loc.broken (inFlight [] [pendSt]) (.dev 0x20000) = false ∧ pendSt.fail = none ∧ pendSt.teamRel = false
    ∧ (ring (inFlight [] [pendSt])).hasFn 0 = true
    ∧ (((ring (inFlight [] [pendSt])).fn 0).err.prod - ((ring (inFlight [] [pendSt])).fn 0).err.cons).toNat < ((ring (inFlight [] [pendSt])).fn 0).err.size.toNat := by
  decide +kernel
theorem test_failed_store : (let p : PendStore := { pendSt with elems := pendSt.elems ++ [{ loc := .dev (2 ^ 48 + 0x30000), val := .bytes [5] }] }
    let t := after (.storeRetire r0 true) (ring (inFlight [] [p])); readWord t (.dev 0x20000) = 0x04030201
      ∧ readLoc t (.dev (2 ^ 48 + 0x30000)) = 0 ∧ (t.fn 0).err.prod = 1) := by decide +kernel
theorem witness_memory : Memory.wf (writeCells 0x20000 [1] tables) = true ∧ (mapped core0).MemWf
    ∧ (∀ t ∈ (mapped core0).teams, Memory.wf t.win = true) := by unfold State.MemWf; decide +kernel
theorem witness_release : (∀ p ∈ [pend], p.id < (inFlight [pend] [pendSt]).nextId) := by decide +kernel

/-! ### Walks, migration, prefetches -/

/-- One lane prefetches from page 2, which is away. -/
theorem witness_prefetch : (let c := mkCtx (some r0) 0 (U 2 0x20000 (regs0.setP 1 1)) 0xFF h1
    c.actives = [0] ∧ memAddr c (addr .global none 2 0) false 0 = 0x20000 ∧ findVa (mapped core0) 0 0x20000 = .away 2
    ∧ walk (mapped core0) 0 2 = some (0x6010, BitVec.ofNat 64 (2 ^ 63 + 2 ^ 59 + 2 ^ 58 + 2 ^ 48 + 0x30000))
    ∧ leafMig (BitVec.ofNat 64 (2 ^ 63 + 2 ^ 59 + 2 ^ 58 + 2 ^ 48 + 0x30000)) = false) := by decide +kernel
theorem test_prefetch : (after (.pf h1 { lvl := 1, m := addr .global none 2 0 }) (mapped (core fun _ => U 2 0x20000 (regs0.setP 1 1)))).migrations.map
    (fun g => (g.page, g.up)) = [(2, true)] := by decide +kernel
theorem witness_promotion : 7 ∈ [7] ∧ alGet [(7, 0)] 7 = some 0 := by decide +kernel

def walking : State := { mapped core0 with walks := [{ core := 0, fn := 0, page := 1 }] }
theorem witness_walk : walking.walks[0]? = some { core := 0, fn := 0, page := 1 }
    ∧ (walking.walks.take 0).countP (fun y => y.core / 256 == 0) < 64
    ∧ ((alGet walking.groveTlb 0).getD []).find? (fun y => y.hits 0 1) = none
    ∧ walk walking 0 1 = some (0x6008, leaf1 false) ∧ leafMig (leaf1 false) = false ∧ walk walking 0 9 = none := by decide +kernel
theorem test_walk : ((after (.pageWalkComplete 0) walking).core 0).tlb = [{ fn := 0, page := 1, leaf := leaf1 false }] := by decide +kernel
-- 18_memory_movement_and_tiers: the worked walk's frame and D bit
theorem test_leaf : leafFrame 0x8C0000042A7C0000 0x00123456789A + 0xBCDE = 0x42A7CBCDE ∧ setBit64 0x8C0000042A7C0000 57 true = 0x8E0000042A7C0000
    ∧ bits 0x00123456789A 39 30 = 0x048 ∧ bits 0x00123456789A 29 20 = 0x345 ∧ bits 0x00123456789A 19 10 = 0x19E
    ∧ bits 0x00123456789A 9 0 = 0x09A := by decide +kernel

/-- Page 2 on its way to the frame at 0x50000. -/
def migLeaf : DWord := BitVec.ofNat 64 (2 ^ 63 + 2 ^ 59 + 2 ^ 58 + 2 ^ 56 + 2 ^ 48 + 0x30000)
def mig : Migration := { fn := 0, page := 2, leafAt := 0x6010, leaf := migLeaf, up := true }
def moving : State := ({ core0 with mem := writeCells (2 ^ 48 + 0x30010) [0x5A] (writeCells 0x6010 (leBytes 8 migLeaf.toNat) tables)
                                    migrations := [mig] }).modFn 0 fun f => { f with fast := [0x50000] }
theorem witness_migration : moving.migrations[0]? = some mig ∧ moving.MemWf ∧ frameBusy moving (leafFrame migLeaf 2) = false
    ∧ leafFrame migLeaf 2 = 2 ^ 48 + 0x30000 ∧ 0x50000 % 65536 = 0 ∧ (moving.fn 0).fast = [0x50000] ∧ moving.hasFn 0 = true
    ∧ Loc.reachable moving (.dev (2 ^ 48 + 0x30000)) = true ∧ Loc.reachable moving (.dev 0x50000) = true
    ∧ (∀ n ∈ moving.badLines, n / 1024 ≠ (2 ^ 48 + 0x30000) / 65536) ∧ locOfPa moving 0 0x6010 = some (.dev 0x6010)
    ∧ (∀ j < 8, (0x6010 + j) / 65536 ≠ 0x50000 / 65536 ∧ (0x6010 + j) / 65536 ≠ (2 ^ 48 + 0x30000) / 65536)
    ∧ readEntry moving 0 0x6010 = migLeaf
    ∧ (∀ u ∈ moving.units, ∀ v ∈ u.invs, v.wait = none ∧ v.lost = false)
    ∧ (∀ x ∈ moving.teams, ∀ w ∈ x.waves, ∀ l ∈ w.lanes, l.run ≠ .parked (.migration 0 2)) := by
  unfold State.MemWf; decide +kernel

/-! ### Commands to the engines, units and bags -/

/-- The machine with a window that holds these bytes from its start on. -/
def win (b : List Byte) : State := coreTeam fun t => { t with win := writeCells 0 b [] }
def c0 : Ctx := mkCtx (some r0) 0 regs0 0xFF hd
/-- A tile descriptor (R227). -/
def desc (base stride rows cols ty : Nat) (spc : Bool) (aon : Bool := false) : List Byte :=
  leBytes 16 (base + 2 ^ 64 * stride + 2 ^ 88 * rows + 2 ^ 100 * cols + 2 ^ 112 * ty + 2 ^ 120 * spc.toNat + 2 ^ 122 * aon.toNat)
def zeros (n : Nat) : List Byte := List.replicate n 0
/-- A gather block: one row of 64 bytes, of 4. -/
def gth (idx dst sig : Nat) : List Byte :=
  leBytes 8 0x10000 ++ leBytes 4 4 ++ leBytes 2 64 ++ [1, 0] ++ leBytes 4 idx ++ leBytes 4 dst ++ leBytes 4 sig ++ zeros 4
/-- A copy block: 64 bytes within the window. -/
def cpy (nr : Nat) : List Byte :=
  leBytes 8 0x100 ++ leBytes 8 0x200 ++ leBytes 4 64 ++ leBytes 4 nr ++ zeros 8 ++ leBytes 4 0x300 ++ [5] ++ zeros 27
def mma : List Byte := [1, 1, 1, 0] ++ zeros 12 ++ desc 0x1000 32 16 16 6 true ++ desc 0x2000 32 16 16 6 true ++ zeros 16
def tile (ty : Nat) : List Byte := zeros 16 ++ desc 0x1000 64 16 16 ty true ++ zeros 32
def rq : List Byte := [0, 1] ++ zeros 14 ++ desc 0x1000 32 32 32 10 true ++ desc 0x2000 32 32 32 10 true ++ zeros 16
def copyOut : List Byte := desc 0x1000 64 16 16 5 true ++ desc 0x10000 64 16 16 5 false ++ zeros 32
def copyIn : List Byte := desc 0x10008 64 16 16 5 false ++ desc 0x1000 64 16 16 5 true ++ zeros 32
def o0 : AsyOp := { sco := .team, sb := 0 }

theorem witness_access_processor : gthChecks o0 (win (gth 0x100 0x200 0x300)) c0 = [] ∧ cpyChecks false o0 (win (cpy 0)) c0 = []
    ∧ cpyChecks true o0 (win (cpy 1)) c0 = [] ∧ c0.e ≠ 0 ∧ (∀ k ∈ [Ctr.cp, .tl, .st], wave0.ctr k < 63) := by decide +kernel
def fwRegs : Regs := splat 1 0x566 (U 1 1 regs0)
theorem witness_matrix_commands :
    mmaChecks hd { va := 1, sb := 0, sco := .team } (win mma) (mkCtx (some r0) 0 fwRegs 0xFF hd) = []
    ∧ mxChecks 0 (fun _ => none) [0x10] (stFields 5) stAccs 0 (win (tile 5)) c0 = []
    ∧ ldChecks { sto := false, ty := .f32, sb := 0, sco := .team } (win (tile 5)) c0 = []
    ∧ clrChecks { sto := false, sb := 0, sc := 1, sco := .team } core0 (mkCtx (some r0) 0 fwRegs 0xFF hd) = []
    ∧ mxChecks 0 (fun _ => none) [0x10, 0x20] rqFields noAccs 0 (win rq) c0 = []
    ∧ mxChecks 0 (fun _ => none) [0, 0x10] (copyFields false) noAccs 0 (win copyOut) c0 = []
    ∧ mxChecks 0 (fun _ => none) [0, 0x10] (copyFields true) noAccs 0 (win copyIn) c0 = [] := by decide +kernel
theorem witness_root_commands : runTraps { sco := .dev, sb := 0, sc := 0, tgt := 0 } core0 c0 = [] ∧ bmacTraps o0 core0 c0 = []
    ∧ crownTraps { gw := false, clr := false, sco := .dev, sb := 0 } core0 c0 = [] ∧ detTrap core0 c0 = [] := by decide +kernel
-- R231: a command counts on TL, and on ST too when it stores to global memory; R232: a vote that fails; R233: a bad field
theorem test_matrix_commands :
    ((after (.tst hd o0) (win copyOut)).wave? r0).map (fun w => (w.tl.length, w.st.length)) = some (1, 1)
    ∧ ((after (.tldV hd o0) (win copyIn)).wave? r0).map (fun w => (w.tl.length, w.st.length)) = some (1, 0)
    ∧ (lane (after (.mxMma hd { va := 1, sb := 0, sco := .team }) ((win mma).modWave r0 fun w => { w with regs := splat 1 5 regs0 })) 0).tcause = 0x00400E01
    ∧ (lane (after (.mxMma hd { va := 1, sb := 0, sco := .team }) ((win mma).modWave r0 fun w => { w with regs := ramp 1 regs0 })) 3).tcause = 6 := by
  decide +kernel
/-- The counter of commands is full. -/
def full63 : State := coreWave fun w => { w with cp := (List.range 63).map fun k => (k, false) }
theorem witness_full_counter : (full63.wave? r0).map (·.cp.length) = some 63
    ∧ gthChecks o0 (coreTeam fun t => { t with win := writeCells 0 (gth 0x100 0x200 0x300) []
                                               waves := [{ wave0 with cp := (List.range 63).map fun k => (k, false) }] }) c0 = [] := by
  decide +kernel
theorem test_full_counter : (lane (after (.crownClr hd .dev) full63) 0).run = .parked (.full .cp) := by decide +kernel

/-- The physical function has one bag, with the handle 0. -/
def bagged (b : Bag) (s : State) : State := s.modFn 0 fun f => { f with bags := [{ slot := 0, gen := 0, bag := some b }] }
theorem witness_bag_commands : bagChecks 0 (bagged (bag4 1 64) core0) c0 = []
    ∧ putChecks { fp := 0, nf := false, sco := .dev, sb := 0, va := 1 } (bagged (bag4 1 64) core0) c0 = []
    ∧ putRecords { fp := 0, nf := false, sco := .dev, sb := 0, va := 1 } (bagged (bag4 1 64) core0) c0 ≠ []
    ∧ putRecords { fp := 0, nf := false, sco := .dev, sb := 0, va := 1 } (bagged (bag4 1 64) (core fun r => { r with vl := 0 }))
        (mkCtx (some r0) 0 { regs0 with vl := 0 } 0xFF hd) = []
    ∧ isDetCtx core0 c0 = false ∧ detTrap core0 c0 = [] := by decide +kernel
-- R157: the wave awaits the answer; R165: an unknown handle
theorem test_bag_commands : ((after (.bagSnap hd o0) (bagged (bag4 1 64) core0)).wave? r0).map (fun w => (w.blocked, w.cp.length)) = some (true, 1)
    ∧ (lane (after (.bagSeal hd o0) core0) 0).tcause = 8
    ∧ ((after (.bagPut hd { fp := 0, nf := false, sco := .dev, sb := 0, va := 1 }) (bagged (bag4 1 64) core0)).bagCmds.map fun c =>
        match c.op with | .put _ rs => rs.length | _ => 0) = [8] := by decide +kernel

theorem witness_posts : (0 % 64 = 0 ∧ 0 + 256 ≤ team0.winSize)
    ∧ ((coreTeam fun t => { t with queues := [[[1]], [], [], []] }).team? 1).map (fun t => t.queues[0]?) = some (some ([1] :: [])) := by
  decide +kernel
-- R278: element e of a queue entry
theorem test_pop : V (after (.aqPop hd { vd := 2, q := 0 }) (coreTeam fun t => { t with queues := [[[0, 0, 0, 0, 7, 1]], [], [], []] })) 2 1 = 0x107 := by
  decide +kernel
-- R285: a page of the capacity tier is asked for
theorem test_hint : (after (.migUp hd { sb := 2, sc := 4 }) (mapped (core fun _ => U 4 2 (U 2 0x10000 regs0)))).migrations.map (·.page) = [2] := by
  decide +kernel
/-- A post whose record names no predecessor. -/
def posted (b : List Byte) : State :=
  { coreWave (fun w => { w with replies := [{ id := 5, kind := .reg 4 false false }] }) with
    posts := [{ id := 5, by_ := { launch := 1, team := 1 }, rec_ := b }] }
def record : List Byte := zeros 32 ++ List.replicate 16 0xFF ++ zeros 208
theorem witness_post : (posted record).posts = [{ id := 5, by_ := { launch := 1, team := 1 }, rec_ := record }]
    ∧ (posted record).launch? 1 = some launch0 ∧ ((posted record).wave? r0).map (·.replies) = some [{ id := 5, kind := .reg 4 false false }] := by
  decide +kernel
-- R95: the first index, and the failures 3 and 2
theorem test_post : S (after (.taskPostReply 5) (posted record)) 4 = 0 ∧ S (after (.taskPostReply 5) (posted (record.set 0x30 9))) 4 = 0x80000003
    ∧ S (after (.taskPostReply 5) (posted (zeros 256))) 4 = 0x80000002 := by decide +kernel

theorem test_descriptor_registers : ((after (.tdLd hd { t := 3, sb := 0 }) (win [1, 2])).wave? r0).map (fun w => w.regs.getT 3) = some 0x201
    ∧ readBytes (after (.tdSt hd { t := 3, sb := 0 }) (coreWave fun w => { w with regs := w.regs.setT 3 0x201 })) (.win 1 0) 3 = [1, 2, 0] := by
  decide +kernel
theorem witness_tables : team0.act[(0 : BitVec 2).toNat]? = some {} ∧ 0 % 16 = 0 ∧ 0 + 1040 ≤ team0.winSize
    ∧ imageOk (zeros 4 ++ leBytes 4 0x3F800000 ++ zeros 1032) = true ∧ imageOk (zeros 1040) = false := by decide +kernel
/-- A loaded table that waits for its wave. -/
def shadowed : State := coreTeam fun t => { t with
  act := ({ shadow := some ({}, 0, 5) } : ActSlot) :: List.replicate 3 {}
  waves := [{ wave0 with replies := [{ id := 5, kind := .reg 4 false true }] }] }
theorem witness_table_flip : ((shadowed.team? 1).map fun t => t.act[0]?) = some (some { shadow := some ({}, 0, 5) })
    ∧ ((shadowed.wave? r0).map (·.replies)) = some [{ id := 5, kind := .reg 4 false true }]
    ∧ (∀ t, shadowed.team? 1 = some t → ∀ u ∈ t.waves, ∀ f ∈ u.facts, f.table ≠ 0) := by
  refine ⟨by decide +kernel, by decide +kernel, ?_⟩
  intro t h; obtain rfl : t = _ := (Option.some.inj h).symm; decide +kernel
-- R126
theorem test_table_flip : ((after (.actLdFlip 1 0) shadowed).team? 1).map (fun t => (t.act.map (·.version)).take 2) = some [1, 0] := by decide +kernel
def fact1 : PendFact := { table := 0, elems := [(3, 0, 7)], flags := flagNX }
theorem witness_fact : ((coreWave fun w => { w with facts := [fact1] }).wave? r0).map (·.facts) = some [fact1]
    ∧ (regs0.fflags.extractLsb' 8 6) &&& fact1.flags = 0 := by decide +kernel
-- R125: halfway between two entries, 0.5 / 255 of the way
theorem test_fact : V (after (.factComplete r0) (coreWave fun w => { w with facts := [fact1] })) 3 0 = 7
    ∧ V (after (.factComplete r0) (after (.fact hd { tb := 0, dst := 3, sa := 1 }) (coreTeam fun t => { t with
        act := ({ live := { y := List.replicate 256 0x40000000 } } : ActSlot) :: List.replicate 3 {}
        waves := [{ wave0 with regs := splat 1 0x3F000000 regs0 }] }))) 3 0 = 0x40000000 := by decide +kernel

/-! ### The engines at work -/

/-- The team's commands come from wave 0 of team 1. -/
def by0 : Issuer := { fn := 0, launch := 1, team := 1 }
/-- The machine with these commands at core 0's engines, and a window. -/
def engines (mx : List MxCmd) (ap : List ApCmd) (b : List Byte) : State :=
  let t : Tlb := { fn := 0, page := 1, leaf := leaf1 true }
  let k : Core := { id := 0, slots := List.replicate 4 {}, matrix := mx, access := ap, mxTlb := [t], apTlb := [t] }
  { mapped (coreTeam fun t => { t with win := writeCells 0 b [] }) with cores := [k] }
def apc (opc : Nat) (b : List Byte) : ApCmd := { id := 5, by_ := by0, opc := opc, blk := b }
def mxc (opc : Nat) (b : List Byte) : MxCmd := { id := 5, by_ := by0, opc := opc, blk := b, taken := true }
/-- The only row index is `x`, at 0x100; the gathered row goes to 0x200 and its signal to 0x300. -/
def gathering (opc x : Nat) (sig : Nat) : State :=
  let s := engines [] [apc opc (gth 0x100 0x200 sig)] (zeros 0x100 ++ leBytes 4 x)
  { s with mem := writeCells 0x20040 [9, 8, 7] s.mem }

theorem witness_gather : (gathering 0x332 1 0x300).team? 1 = some { team0 with win := writeCells 0 (zeros 0x100 ++ leBytes 4 1) [] }
    ∧ ((gathering 0x332 1 0x300).core 0).access = [apc 0x332 (gth 0x100 0x200 0x300)] ∧ by0.held (gathering 0x332 1 0x300) = false
    ∧ Memory.wf (writeCells 0 (zeros 0x100 ++ leBytes 4 1) []) = true
    ∧ (let g := gthBlk (gth 0x100 0x200 0x300); g.ni = 1 ∧ g.rb % 16 = 0 ∧ g.swz = false ∧ g.sig ≠ 0xFFFFFFFF ∧ g.dst + g.rb ≤ g.sig ∧ 1 < g.nrows)
    ∧ leNat (readBytes (gathering 0x332 1 0x300) (.win 1 0x100) 4) = 1 ∧ leNat (readBytes (gathering 0x332 4 0x300) (.win 1 0x100) 4) = 4
    ∧ (∀ ch < 4, engineAccess (gathering 0x332 1 0x300) (apHas (gathering 0x332 1 0x300) 0 (apc 0x332 (gth 0x100 0x200 0x300))) 0 (0x10000 + 64 + 16 * ch) 16 false none false = .ok) := by decide +kernel
-- R260: the row and its signal; an index that is out of range
theorem test_gather : readBytes (after (.apGatherStep 0) (gathering 0x332 1 0x300)) (.win 1 0x200) 4 = [9, 8, 7, 0]
    ∧ readWord (after (.apGatherStep 0) (gathering 0x332 1 0x300)) (.win 1 0x300) = 1
    ∧ readWord (after (.apGatherStep 0) (gathering 0x332 4 0x300)) (.win 1 0x300) = 0x01000004 := by decide +kernel
theorem witness_scatter : (let s := gathering 0x333 1 0xFFFFFFFF
    leNat (readBytes s (.win 1 0x100) 4) = 1 ∧ engineAccess s (apHas s 0 (apc 0x333 (gth 0x100 0x200 0xFFFFFFFF))) 0 (0x10000 + 64) 64 true none false = .ok
    ∧ ((s.team? 1).map fun t => s.isDet t) = some false ∧ (gthBlk (gth 0x100 0x200 0xFFFFFFFF)).sig = 0xFFFFFFFF) := by decide +kernel
theorem test_copy : (let s := engines [] [apc 0x330 (cpy 0)] (zeros 0x100 ++ [1, 2, 3]); let t := after (.apCopyRow 0) s
    readBytes t (.win 1 0x200) 4 = [1, 2, 3, 0] ∧ readWord t (.win 1 0x300) = 1 ∧ (t.core 0).access = []) := by decide +kernel
theorem witness_copy : (let g := cpyBlk (cpy 0); g.ss = 1 ∧ g.ds = 1 ∧ 0 < g.rb ∧ g.rb ≤ 4096 ∧ g.sig ≠ 0xFFFFFFFF ∧ g.dst + g.rb ≤ g.sig)
    ∧ (team0.feWord 0x300).queue = [] := by decide +kernel
/-- A copy of 4 bytes into queue 1 that has read them. -/
def push1 : ApCmd := { apc 0x330 (leBytes 8 0x100 ++ leBytes 8 1 ++ leBytes 4 4 ++ zeros 12 ++ leBytes 4 0xFFFFFFFF ++ [9] ++ zeros 27) with
  buf := [1, 2, 3, 4], rowI := 1 }
def pushState (n : Nat) : State :=
  (ring (engines [] [push1] [])).modTeam 1 fun t => { t with queues := [[], List.replicate n [], [], []] }
theorem witness_queue_push : pushing (pushState 0) 0 = some (push1, cpyBlk push1.blk) ∧ pushing (pushState 32) 0 = some (push1, cpyBlk push1.blk)
    ∧ (((pushState 0).team? 1).map fun t => t.queues[(cpyBlk push1.blk).dst]?) = some (some [])
    ∧ (((pushState 32).team? 1).map fun t => (t.queues[(cpyBlk push1.blk).dst]?).map (·.length)) = some (some 32)
    ∧ (cpyBlk push1.blk).sig = 0xFFFFFFFF ∧ (pushState 32).hasFn 0 = true := by decide +kernel
theorem test_queue_push : ((after (.apQueuePush 0) (pushState 0)).team? 1).map (fun t => t.queues.getD 1 []) = some [[1, 2, 3, 4] ++ zeros 252]
    ∧ ((after (.apQueueStall 0) (pushState 32)).fn 0).err.prod = 1 := by decide +kernel

theorem witness_matrix_take : (let s := ring (engines [{ mxc 0x380 mma with taken := false, fw := 0x566 }] [] [])
    (s.core 0).matrix = [{ mxc 0x380 mma with taken := false, fw := 0x566 }] ∧ by0.held s = false ∧ (getAcc s 1 0).fmt = .f32
    ∧ (mmaBlk mma 0x566).mode = 0 ∧ (mmaBlk (mma.set 3 1) 0x666).mode = 1 ∧ s.hasFn 0 = true) := by decide +kernel
-- R234: accumulating into a tile of another format is refused with a record
theorem test_matrix_take : (let t := after (.matrixCommandTake 0) (ring (engines [{ mxc 0x380 (mma.set 3 1) with taken := false, fw := 0x666 }] [] []))
    (t.fn 0).err.prod = 1 ∧ (t.core 0).matrix = []) := by decide +kernel
/-- A has 1.0 at (0, 0) and 2.0 at (0, 1); B has 3.0 at (0, 0) and 5.0 at (1, 0); the tile takes their product. -/
def product : State := (engines [{ mxc 0x380 mma with fw := 0x566 }] [] []).modTeam 1 fun t =>
  { t with win := writeCells 0x1000 [0x80, 0x3F, 0x00, 0x40] (writeCells 0x2000 [0x40, 0x40] (writeCells 0x2020 [0xA0, 0x40] [])) }
theorem witness_matrix_step : (fetchRows 0 (mmaBlk mma 0x566) 0 0 0 32 product { mxc 0x380 mma with fw := 0x566 }).2.2 = .ok
    ∧ (mmaBlk mma 0x566).acn < team0.accs.length ∧ (mmaBlk mma 0x566).steps = 1 := by decide +kernel
theorem test_product : (let t := after (.matrixStep 0) product; ((getAcc t 1 0).e.take 2, (t.core 0).matrix)) = ([0x41500000, 0], []) := by
  decide +kernel
theorem witness_tile_update : ({ e := List.replicate 256 0 } : Acc).e.length = 256 ∧ ({ e := List.replicate 256 0 } : Acc).fmt = .f32
    ∧ (∀ x ∈ [FVal.fin false 3 0, .zero true], x.finite = true) := by decide +kernel
/-- Two tiles from a1 on are cleared. -/
def clearing : State := engines [mxc 0x383 (leBytes 2 1 ++ leBytes 2 2 ++ zeros 60)] [] []
theorem witness_clear : fieldB (leBytes 2 1 ++ leBytes 2 2 ++ zeros 60) 0 2 + fieldB (leBytes 2 1 ++ leBytes 2 2 ++ zeros 60) 2 2 ≤ team0.accs.length
    ∧ (clearing.core 0).matrix = [mxc 0x383 (leBytes 2 1 ++ leBytes 2 2 ++ zeros 60)] := by decide +kernel
theorem witness_matrix_units : (let c := mxc 0x381 (tile 5); let s := engines [c] [] []; let d := descAt c.blk 0x10
      d.aon = false ∧ piecesAccess s 0 c d ((groupRows c c.step).flatMap (rowPieces d)) true = .ok)
    ∧ (let c := mxc 0x382 (tile 5); let s := engines [c] [] []
       piecesAccess s 0 c (descAt c.blk 0x10) ((List.range 256).map fun n => elemPiece (descAt c.blk 0x10) (n / 16) (n % 16)) false = .ok)
    ∧ ((rqBlk rq).src.spc = true ∧ (rqBlk rq).dst.spc = true) := by decide +kernel
-- R238: a tile's first two elements as E4M3 in the window
theorem test_tile_store : (let b := zeros 16 ++ desc 0x1000 16 16 16 8 true ++ zeros 32
    let s := (engines [{ mxc 0x381 b with func := 8 }] [] []).modTeam 1 fun t =>
      { t with accs := ({ e := [0x3F800000, 0x40000000] ++ List.replicate 254 0, g := List.replicate 16 0 } : Acc) :: t.accs.drop 1 }
    readBytes (after (.matrixStoreRows 0) s) (.win 1 0x1000) 2) = [0x38, 0x40] := by decide +kernel
/-- A versioned store and a versioned load. -/
def aonBlk : List Byte := zeros 16 ++ desc 0x1008 64 16 16 5 true true ++ zeros 32
theorem witness_versioned_store : (let d := descAt aonBlk 0x10; d.aon = true ∧ d.spc = true)
    ∧ (mxc 0x381 aonBlk).ver = none ∧ (mxc 0x381 aonBlk).row = 0 ∧ (readWord (engines [] [] []) (.win 1 0x1000)).getLsbD 0 = false
    ∧ (readWord ((engines [] [] []).modTeam 1 fun t => { t with win := [(0x1000, 1)] }) (.win 1 0x1000)).getLsbD 0 = true := by decide +kernel
theorem test_versioned_store : readWord (after (.aonStore 0) (engines [{ mxc 0x381 aonBlk with row := 1 }] [] [])) (.win 1 0x1000) = 1 := by decide +kernel
theorem witness_versioned_load : (let c := mxc 0x351 copyIn; let x := descAt copyIn 0
      piecesAccess (engines [c] [] []) 0 c x ((x.base - 8, 4) :: (List.range x.lrows).flatMap (rowPieces x)) false = .ok ∧ (descAt copyIn 0x10).spc = true) := by decide +kernel

/-! ### Bags at their placement units -/

/-- A take of one command of the bag with handle 0. -/
def taking (b : Bag) (op : BagOp) : State := { mapped (bagged b core0) with bagCmds := [{ id := 5, by_ := by0, op := op }] }
/-- A bag whose first share holds one record. -/
def one : Bag := placeRecord (bag4 1 64) 2 (leBytes 8 2)
theorem witness_bag_takes : findBag (taking one .snap) 0 0 = some one ∧ one.drain = none ∧ (taking one .snap).hasFn 0 = true
    ∧ (∀ x ∈ one.shares, x.busy = false) ∧ ({ one with shares := [{ busy := true }] } : Bag).anyBusy = true
    ∧ one.cap < 65 ∧ ((3 : Nat) < one.cap ∨ 2 ^ 20 < 3) ∧ one.sealed = false ∧ one.total + 1 ≤ one.cap * one.shares.length
    ∧ (bag4 1 0).cap * 4 < (bag4 1 0).total + 1 := by decide +kernel
theorem test_bag_takes : ((findBag (after (.bagSnapTake 5) (taking one .snap)) 0 0).map fun b => b.shares.map (·.snap)) = some [1, 0, 0, 0]
    ∧ ((after (.bagCntTake 5) (taking one (.cnt 0 0))).arrivals.map (·.ans)) = [.reply 1]
    ∧ ((after (.bagCntTake 5) (taking one (.cnt 1 4))).arrivals.map (·.ans)) = [.reply 0xFFFFFFFF]
    ∧ (findBag (after (.bagFreeTake 5) (taking one .free)) 0 0).isNone
    ∧ ((after (.bagGrowTake 5) (taking one (.grow 3))).arrivals.map (·.ans)) = [.reply 0x80000001] := by decide +kernel
theorem test_bag_put : ((findBag (after (.bagPutTake 5) (taking one (.put false [(0, 4, leBytes 8 4)]))) 0 0).map fun b => b.shares.map (·.c))
      = some [1, 1, 0, 0]
    ∧ ((after (.bagPutTake 5) (taking { one with sealed := true } (.put false [(0, 4, leBytes 8 4)]))).arrivals.map (·.ans))
      = [.refused { cause := 9, code := 1 }] := by decide +kernel
/-- Part II's descriptor, at the start of page 1. Whether its rows are free is a free value (log 14). -/
def bagDesc : List Byte := [0, 0, 2, 0, 0, 8, 1, 0] ++ leBytes 4 64 ++ zeros 20
theorem witness_bag_new : (let s : State := { taking one (.new 0x10000) with mem := writeCells 0x20000 bagDesc tables }
    checkRange s 0 0x10000 32 false = .ok ∧ bagDescOk (readVa s 0 0x10000 32) = true ∧ freeSlots (s.fn 0) ≠ []
    ∧ (∀ i < (bagOf bagDesc).shares.length, s.stackMask.getLsbD (((bagOf bagDesc).q0 + i) / 64) = true)
    ∧ bagDescOk (readVa (taking one (.new 0x10000)) 0 0x10000 32) = false) := by decide +kernel
theorem witness_placement : one.shares.length = 2 ^ one.lb ∧ one.lb ≤ 10 ∧ (∀ h ∈ one.shares, h.c ≤ one.cap) ∧ one.total < one.cap * one.shares.length
    ∧ 0 ∈ one.shares.map (·.c) ∧ (∀ y ∈ one.shares.map (·.c), 0 ≤ y) ∧ 0 + one.slack ≤ (one.shares.map (·.c)).getD (homeShare one 2) 0
    ∧ (one.shares.map (·.c)).getD (homeShare one 1) 0 < 0 + one.slack := by decide +kernel
/-- Its snapshot is taken. -/
def snapped : Bag := { one with shares := one.shares.map fun (x : Share) => { x with snap := x.c } }
theorem witness_bag_each : (let s : State := { taking snapped (.each 7 0x48) with launches := [launch0] }
    findBag s 0 0 = some snapped ∧ (∀ x ∈ snapped.shares, x.busy = false) ∧ (∃ x ∈ snapped.shares, x.snap ≠ 0)
    ∧ rootTarget s 0 (0xF8 + 0x48) = .good) := by decide +kernel
theorem witness_bag_drain : 0 < snapped.total * snapped.z ∧ checkRange (taking snapped (.drain 0x10000)) 0 0x10000 (snapped.total * snapped.z) true = .ok := by
  decide +kernel
/-- A copy that has ended. -/
def drained : State := bagged { snapped with drain := some { id := 5, by_ := by0 } } core0
theorem witness_drain_ends : drained.fns = [{ bags := [{ slot := 0, gen := 0, bag := some { snapped with drain := some { id := 5, by_ := by0 } } }] }] := by
  decide +kernel
theorem test_drain_ends : ((findBag (after (.bagDrainComplete 5) drained) 0 0).map (·.total)) = some 0 := by decide +kernel
/-- An answer on its way to the wave. -/
def answered (a : Answer) (k : ReplyKind) : State :=
  { coreWave (fun w => { w with replies := [{ id := 5, kind := k }] }) with arrivals := [{ id := 5, team := 1, wave := 0, ans := a }] }
theorem witness_answers : (answered (.reply 7) (.reg 4 false false)).arrivals = [{ id := 5, team := 1, wave := 0, ans := .reply 7 }]
    ∧ ((answered (.accepted []) (.answer [] none)).wave? r0).map (·.replies) = some [{ id := 5, kind := .answer [] none }] := by decide +kernel
theorem test_answers : S (after (.bagAnswerArrival 5) (answered (.reply 7) (.reg 4 false false))) 4 = 7
    ∧ (lane (after (.bagAnswerArrival 5) (answered (.refused { cause := 9, code := 1 }) (.answer [(0, { lane0 with pc := 0xF8 })] none))) 0).run = .ended := by
  decide +kernel

/-! ### Root units and the crown -/

/-- An invocation that waits for its free unit. -/
def waitingInv : State := { root0 with units := [{ id := 0, invs := [{ kind := .run, nrec := 40, z := 64, param := 7, idx := 2, pages := [(0x20000, true)] }] }] }
theorem witness_root_start : (waitingInv.unit 0).invs = [{ kind := .run, nrec := 40, z := 64, param := 7, idx := 2, pages := [(0x20000, true)] }]
    ∧ (waitingInv.unit 0).bmacs = [] ∧ ({} : Issuer).held waitingInv = false := by decide +kernel
def R (s : State) (n : Nat) : Word := ((s.inv? 0).map fun v => v.regs.getS n).getD 0
def RV (s : State) (n l : Nat) : Word := ((s.inv? 0).map fun v => v.regs.getV n l).getD 0
-- R175
theorem test_root_start : (let t := after (.rootInvocationStart 0) waitingInv; (R t 2, R t 3, R t 4, R t 5, (t.inv? 0).map (·.regs.vl)))
    = (7, 2, 40, 0, some 32) := by decide +kernel
/-- The unit's memory holds 7 and 9 in the first two words of record 1. -/
def rootMem (f : Inv → Inv) : State :=
  { root0 with mem := writeCells 0x20040 [7, 0, 0, 0, 9] [], units := [{ id := 0, invs := [f inv0] }] }
-- R182, R183: a record's word, the index of its record, and an address in the window
theorem test_records : RV (after (.recLd hd { dst := 1, off := 4 }) (rootMem id)) 1 1 = 9
    ∧ RV (after (.recIdx hd 1) (rootMem fun v => { v with block := 2 })) 1 3 = 67
    ∧ readWord (after (.recSt hd { off := 0, sa := 1 }) (rootMem fun v => { v with regs := { v.regs with v := v.regs.v.set 1 (List.replicate 32 5) } })) (.dev 0x20080) = 5 := by
  decide +kernel
-- R184: the bitmap's next set bit at or above 65, which is bit 66 of bytes 0x40 to 0x48, and none below 4
theorem test_zskip : R (after (.zskip hd { dst := 6, sa := 10, sb := 7 }) (rootMem fun v => { v with regs := ((v.regs.setS 10 0x40).setS 11 64).setS 7 3 })) 6 = 32
    ∧ R (after (.zskip hd { dst := 6, sa := 10, sb := 7 }) (rootMem fun v => { v with regs := ((v.regs.setS 10 0x40).setS 11 8).setS 7 3 })) 6 = 8 := by
  decide +kernel
theorem witness_root_blocks : 32 * (inv0.block + 1) < inv0.nrec ∧ inv0.by_.held root0 = false ∧ inv0.started = true ∧ inv0.bound = true ∧ inv0.count < 2 ^ 20
    ∧ ({ inv0 with nrec := 32 } : Inv).nrec ≤ 32 * (inv0.block + 1) ∧ 2 ^ 20 ≤ ({ inv0 with count := 2 ^ 20 } : Inv).count := by decide +kernel
-- R176, R185: the next block, the end of the last, and a block without an end
theorem test_root_blocks : ((after (.rkNext hd) root0).inv? 0).map (fun v => (v.block, v.regs.vl)) = some (1, 32)
    ∧ ((after (.rkNext hd) (rootMem fun v => { v with nrec := 32 })).unit 0).invs = []
    ∧ ((after (.rootBlockLimit 0) (rootMem fun v => { v with count := 2 ^ 20 })).unit 0).invs = [] := by decide +kernel
theorem witness_record_forms : (let c := mkCtx none 0 inv0.regs (Mask.full 32) hd
      4 + 4 ≤ inv0.z ∧ (∀ k ∈ c.actives, 32 * inv0.block + k < inv0.nrec ∧ k < 32)
      ∧ (∀ k ∈ c.actives, windowFault inv0 false ((32 * inv0.block + k) * inv0.z + 4 : Nat) = none)
      ∧ (∀ k ∈ c.actives, windowFault inv0 true ((32 * inv0.block + k) * inv0.z + 4 : Nat) = none) ∧ c.e ≠ 0
      ∧ 0 + (64 + 7) / 8 ≤ inv0.size ∧ root0.badLines = []) := by decide +kernel
-- R188, R189: an addition to a slot; the poison value wins
theorem test_crown : (crownSlot (after (.crownPut hd { ty := .f32, sa := 1, sb := 0 })
      (rootMem fun v => { v with regs := { v.regs with v := v.regs.v.set 1 (List.replicate 32 0x3F800000) } })) 0 0).getD 3 0 = 0x3F800000
    ∧ crownNode 0x7FC00E0E 0x3F800000 = 0x7FC00E0E ∧ crownNode 0x3F800000 0x3F800000 = 0x40000000 := by decide +kernel
/-- A command at the root engine. -/
def rooted (op : RootOp) (b : List Byte) : State :=
  { mapped (coreTeam fun t => { t with win := writeCells 0 b [] }) with rootCmds := [{ id := 5, by_ := by0, op := op }] }
theorem witness_root_takes : (rooted (.clr) []).rootCmds = [{ id := 5, by_ := by0, op := .clr }] ∧ by0.held (rooted .clr []) = false
    ∧ (rooted .clr []).team? 1 = some { team0 with win := [] } ∧ (crownSlot (rooted .clr []) 0 0).length = 256
    ∧ fieldB (readBytes (rooted (.run 0 0 0) []) (.win 1 0) 16) 0 2 = 0 ∧ fieldB (readBytes (rooted (.run 0 0 0) [1]) (.win 1 0) 16) 0 2 = 1
    ∧ runEntry (rooted (.run 0 0 0) [1]) 0 true 0 0 0 = .inl 18
    ∧ runEntry { rooted (.run 0 0 0) [] with mem := writeCells 0x6008 (leBytes 8 (2 ^ 63 + 2 ^ 62 + 2 ^ 59 + 2 ^ 58 + 0x20000)) tables } 0 true 4 0x10000 64
        = .inr (0, [(0x20000, true)])
    ∧ bmacFieldsOk (readBytes (rooted (.bmac 0) []) (.win 1 0) (32 + 32 * fieldB (readBytes (rooted (.bmac 0) []) (.win 1 0) 32) 9 1)) 65536 = false := by
  decide +kernel
-- R180, R187: an entry that is refused, and a block that is not valid
theorem test_root_takes : readWord (after (.rootRunTake 5) (rooted (.run 0 0 0) [1])) (.win 1 28) = 74
    ∧ readWord (after (.bmacTake 5) (rooted (.bmac 0) [])) (.win 1 12) = 6 := by decide +kernel
/-- Two groups of rows of a unit's entry. -/
def bmacEnt0 : BmacEnt := { cmd := 5, w := 0x10000, rows := 64, stride := 4, y := 0x10000 }
def bmacState : State := { rooted (.bmac 0) [] with units := [{ id := 0, bmacs := [bmacEnt0] }] }
theorem witness_bmac_rows : (bmacState.unit 0).bmacs = [bmacEnt0] ∧ (bmacState.unit 0).invs = [] ∧ bmacEnt0.next + 32 < bmacEnt0.rows
    ∧ pagesOf (bmacEnt0.y + 4 * bmacEnt0.next) 128 = [1] ∧ walk bmacState 0 1 = some (0x6008, leaf1 false) ∧ leafMig (leaf1 false) = false := by
  decide +kernel

/-! ### Save mode and the system instructions -/

/-- Every lane in save mode, and the team's block at page 1. -/
def saving (p : SavePhase) : State := mapped (coreTeam fun t => { t with
  ctx := { save := 0x10000 }, saveSlot := some 0
  waves := [{ wave0 with lanes := List.replicate 8 { lane0 with mode := .save }, save := p, latch := { regs := regs0, lanes := List.replicate 8 lane0 } }] })
theorem witness_save_mode : AllInMode .save hd iss0 (saving (.saving false)) ∧ c0.e ≠ 0
    ∧ (((saving .restoring).wave? r0).map fun w => (w.st.length, w.ld.length, w.loads.length, w.stores.length)) = some (0, 0, 0, 0)
    ∧ (((saving .restoring).wave? r0).map (·.save)) = some .restoring ∧ (((saving (.saving false)).wave? r0).map (·.allEnded)) = some false := by
  unfold AllInMode; decide +kernel
theorem witness_save_block : ∀ t, (saving (.saving false)).team? 1 = some t → 0x10000 ≤ t.block
    ∧ firstUnmapped (saving (.saving false)) 0 t.block (min (teamLayout (saving (.saving false)) t).size 4096) true = none := by
  intro t h; obtain rfl : t = _ := (Option.some.inj h).symm; decide +kernel
theorem test_save_mode : ((after (.svEnd hd) (saving (.saving false))).wave? r0).map (fun w => (w.save, w.entry)) = some (.saved, none)
    ∧ ((after (.svEndRes hd) (saving (.saving true))).wave? r0).map (·.save) = some .no
    ∧ ((after (.svEndRes hd) (saving .restoring)).wave? r0).map (·.save) = some .restored := by decide +kernel

/-- A virtual function beside the physical one. -/
def virt (x : Fn) (s : State) : State := { s with fns := [{}, { x with id := 3 }] }
theorem witness_one_part : OnePart core0 iss0 r0 0xFF wave0 team0 := ⟨rfl, ⟨0, 0, 1, rfl⟩, rfl, rfl⟩
theorem witness_tables_system : (virt {} core0).hasFn 3 = true ∧ (0x10000 : Nat) % 8192 = 0 ∧ fnIdle (virt {} core0) 3 = true
    ∧ fnIdle core0 0 = false ∧ (firstUnmapped core0 0 0 8192 false).isSome = true ∧ firstUnmapped (mapped core0) 0 0x10000 8192 false = none
    ∧ entryLegal (BitVec.ofNat 64 (fieldB (zeros 8) 0 8)) = true ∧ entryLegal (BitVec.ofNat 64 (2 ^ 62)) = false
    ∧ (0x10000 : Nat) % 65536 = 0 ∧ 0x10000 + 2 ^ 22 ≤ 2 ^ 56 ∧ ((virt {} core0).fn 3).armed = none
    ∧ firstUnmapped (mapped core0) 0 0x10000 8 false = none := by decide +kernel
-- R73, R328: a map that cannot be read, and one for a context with work
theorem test_dtab : S (after (.dtabLd hd { rd := 4, sb := 2, sc := 6 }) (virt {} (core (U 6 3)))) 4 = 0xC0000002
    ∧ S (after (.dtabLd hd { rd := 4, sb := 2, sc := 0 }) core0) 4 = 0xC0000001 := by decide +kernel
theorem witness_function_control : (virt {} core0).hasFn 3 = true ∧ 3 ≠ 0 ∧ ((virt {} core0).fn 3).state ≠ .stopped
    ∧ ((virt { state := .stopped } core0).fn 3).state = .stopped ∧ ((virt {} core0).fn 3).preemptible = false
    ∧ ((virt { save := 0x10000, saveLen := 0x100000, svs := 0x48, svr := 0x48 } core0).fn 3).preemptible = true
    ∧ (∀ k ∈ (virt {} core0).collects, k.fn ≠ 3) ∧ (∃ k ∈ ({ core0 with collects := [{ fn := 3 }] } : State).collects, k.fn = 3)
    ∧ (firstUnmapped core0 0 0 65536 true).isSome = true ∧ firstUnmapped (mapped core0) 0 0x10000 65536 true = none
    ∧ core0.slice = none ∧ firstUnmapped (mapped core0) 0 0x10000 32 false = none := by decide +kernel
-- R328: replies
theorem test_function_control : S (after (.vfStart hd { dst := 4, sa := 2 }) (virt {} (core (U 2 3)))) 4 = 0x80000001
    ∧ (let t := after (.vfStart hd { dst := 4, sa := 2 }) (virt { state := .stopped } (core (U 2 3))); (S t 4, (t.fn 3).state)) = (0, .run)
    ∧ S (after (.vfStop hd { rd := 4, sb := 0, sc := 2, nb := 1 }) (virt {} (core (U 2 3)))) 4 = 0x80000003
    ∧ S (after (.vfStop hd { rd := 4, sb := 0, sc := 2, nb := 1 }) (virt { state := .stopping } (core (U 2 3)))) 4 = 0x80000002
    ∧ S (after (.vfPre hd { rd := 4, sc := 2, m := 1 }) (virt {} (core (U 2 3)))) 4 = 0x80000005
    ∧ S (after (.sliceSet hd { dst := 4, sa := 2 }) (mapped (core (U 2 0x10000)))) 4 = 0x80000002 := by decide +kernel
theorem test_reset_function : ((after (.functionLevelReset 3) (virt { state := .halt, events := 9 } core0)).fn 3).state = .reset
    ∧ ((finishResets (after (.functionLevelReset 3) (virt { state := .halt, events := 9 } core0))).fn 3).state = .run
    ∧ (finishResets (after (.functionLevelReset 0) core0)).teams = [] := by decide +kernel

/-! ### Launches, tasks and teams -/

/-- The physical function with every entry and granule of its cores. -/
def wholeFn : Fn := { sten0 := 0x400, sten1 := BitVec.ofNat 64 (32 * (2 ^ 5 + 2 ^ 16 + 2 ^ 27 + 2 ^ 38)) }
/-- A launch record at host address 0x5000, as the head of level 7, of one task of the kernel described at the start of page 1. -/
def launchRecord (nt : Nat) : List Byte := leBytes 8 0x10000 ++ leBytes 4 nt ++ zeros 20 ++ leBytes 4 77 ++ zeros 28
def kernel : List Byte := leBytes 8 0xF8 ++ leBytes 4 0x1010 ++ [16, 0, 16, 0, 0, 0, 1, 0] ++ zeros 44
def queued (nt : Nat) : State :=
  let q : Ring := { base := 0x5000, size := 4, prod := 1 }
  { State.reset with
    fns := [{ wholeFn with queues := List.replicate 7 {} ++ [q], compl := { base := 0x6000, size := 2 } }]
    mem := writeCells 0x20000 kernel tables, hostMem := writeCells 0x5000 (launchRecord nt) [] }
theorem witness_record : launchTurn (queued 1) = some 0 ∧ launchTurn (queued 0) = some 0 ∧ ((queued 1).fn 0).heldCompl = [] ∧ headRecord (queued 1) 0 7 = some (launchRecord 1)
    ∧ (checkedLaunch (queued 1) 0 7 (launchRecord 1)).isSome = true ∧ checkedLaunch (queued 0) 0 7 (launchRecord 0) = none
    ∧ ((queued 0).fn 0).compl.full = false ∧ ({ size := 1, prod := 1 } : Ring).full = true := by decide +kernel
-- R306 to R308, R329: the launch that a record makes, and the completion of one that is refused
theorem test_record : ((after (.launchRecordTake 0) (queued 1)).launches.map fun l => (l.entry, l.v, l.tw, l.params.headD 0, l.number)) = [(0xF8, 16, 1, 77, 0)]
    ∧ (let t := after (.launchRecordTake 0) (queued 0); (t.launches, (t.fn 0).compl.prod, readBytes t (.host 0x6004) 2)) = ([], 1, [2, 0]) := by
  decide +kernel

/-- A launch of one task that is in this list. -/
def tasked (ts : List Task) : State :=
  { State.reset with nextId := 10, fns := [wholeFn], launches := [{ launch0 with nt := 1, pool := 0x1010, params := [9], tasks := ts }] }
def task0 : Task := { index := 0, params := [9], phase := .ready }
theorem witness_task : (tasked []).launch? 1 = some { launch0 with nt := 1, pool := 0x1010, params := [9], tasks := [] } ∧ dispatches (tasked []) 0 = true
    ∧ ({ launch0 with nt := 1 } : Launch).task? 0 = none ∧ launch0.decl = 0
    ∧ ({ launch0 with tasks := [{ task0 with phase := .waiting, preds := [0] }] } : Launch).task? 0 = some { task0 with phase := .waiting, preds := [0] }
    ∧ predDone (tasked [task0]) { launch0 with tasks := [task0] } 0 = false
    ∧ predDone (tasked []) { launch0 with tasks := [{ task0 with phase := .done }] } 0 = true := by decide +kernel
theorem test_task : ((after (.taskStart 1 0) (tasked [])).launches.map fun l => l.tasks) = [[task0]] := by decide +kernel
theorem witness_admission : canAdmit (tasked [task0]) { launch0 with nt := 1, pool := 0x1010, params := [9], tasks := [task0] } task0 3 = true
    ∧ choosable (tasked [task0]) (.admission 3) (waitingFns (tasked [task0]) 3) = [0]
    ∧ picksBefore ({ launch0 with tasks := [task0] }, task0) (launch0, task0) = false := by decide +kernel
-- R11, R13: a wave's lanes at the entry header, the parameters from s2 up (its slot and entry are a free choice, log 9)
theorem test_admission : (let w := freshWave { launch0 with params := [9] } task0 0; (w.regs.getS 2, w.lanes.map (·.pc))) = (9, List.replicate 8 0xF8) := by
  decide +kernel

/-- Two waves of a launch with a swap area, of which the second waits. -/
def wantsIn : Wave := { wave0 with entry := none, ready := 1 }
def swapping (e : Option Nat) : State :=
  { coreTeam (fun t => { t with waves := [{ wave0 with entry := e }, wantsIn] }) with
    fns := [wholeFn], cycle := 5000, launches := [{ launch0 with pool := 0x101010 }] }
theorem witness_swap : swappable (swapping (some 0)) r0 wave0 = true
    ∧ (∀ x ∈ slotRefs (swapping (some 0)) 0 0, swappable (swapping (some 0)) x.1 x.2 = true → wave0.held ≤ x.2.held)
    ∧ swapInOrder (swapping (some 0)) 0 0 = [(⟨1, 1⟩, wantsIn)] ∧ (swapping (some 0)).wave? ⟨1, 1⟩ = some wantsIn
    ∧ (freeEntries (swapping (some 0)) 0 0 0).headD 0 = 1
    ∧ drawn (swapping (some 0)) 0 0 .rf + ({ launch0 with pool := 0x101010 } : Launch).footprint ≤ ownBytes (swapping (some 0)) 0 .rf 0x101010 := by
  decide +kernel
theorem test_swap : ((after (.swapOut r0) (swapping (some 0))).wave? r0).map (·.entry) = some none
    ∧ ((after (.swapIn 0 0) (swapping none)).wave? ⟨1, 1⟩).map (·.entry) = some (some 0) := by decide +kernel

/-- A launch whose one task is done, and its ended team. -/
def ended (n : Nat) : State := { coreTeam (fun t => { t with done := true }) with
  fns := [{ wholeFn with compl := { base := 0x6000, size := 2 } }]
  launches := [{ launch0 with nt := 1, number := 5, records := n, tasks := [{ task0 with phase := .done }] }] }
theorem witness_launch_ends : launchDone (ended 0) { launch0 with nt := 1, number := 5, records := 0, tasks := [{ task0 with phase := .done }] } = true
    ∧ (ended 0).hasFn 0 = true ∧ ((ended 0).fn 0).heldCompl = [] ∧ ((ended 0).fn 0).compl.full = false := by decide +kernel
theorem test_launch_ends : (let t := after (.launchComplete 1) (ended 2); (t.launches, t.teams, readBytes t (.host 0x6000) 8)) = ([], [], [5, 0, 0, 0, 1, 0, 2, 0]) := by
  decide +kernel
/-- The first team of a deterministic launch, ended, with one staged store. -/
def staged0 : Team := { team0 with waves := [], done := true, staged := [.store 0 0 0 0 { loc := .dev 0x40, val := .bytes [7] }] }
def releasing : State := { core0 with teams := [staged0], launches := [{ launch0 with det := true }] }
theorem witness_team_release : releasing.launch? 1 = some { launch0 with det := true } ∧ (releasing.fn 0).frozen = false
    ∧ releasing.teams.find? (fun x => x.launch == 1 && ({ launch0 with det := true } : Launch).ordinal x == 0) = some staged0
    ∧ noWork releasing (fun b => b.team == 1) = true ∧ staged0.failed = false ∧ StElem.fails releasing [{ loc := .dev 0x40, val := .bytes [7] }] { loc := .dev 0x40, val := .bytes [7] } = false := by decide +kernel
theorem test_team_release : readBytes (after (.ringUnitRelease 1) releasing) (.dev 0x40) 1 = [7] := by decide +kernel

/-! ### Meters and quotas -/

theorem witness_meter : ({ core0 with charges := [{ fn := 0, dom := 3, fj := 5 }] } : State).charges[0]? = some { fn := 0, dom := 3, fj := 5 }
    ∧ core0.hasFn 0 = true ∧ (virt {} core0).hasFn 3 = true := by decide +kernel
theorem test_meter : ((after (.chargePost 0) { core0 with charges := [{ fn := 0, dom := 3, fj := 5 }] }).fn 0).events = 5
    ∧ (let t := after (.sctlWrite 3 0x0D) (virt {} core0); ((t.fn 3).en, (t.fn 3).irq, (t.fn 3).rls)) = (true, true, false)
    ∧ ((after (.sqWrite 3 9) (virt {} core0)).fn 3).qWrite = some 9 := by decide +kernel
-- R253: the worked example, split between events and shares
theorem test_quota : (let f : Fn := { id := 3, en := true, q := 500, refill := 300, cap := 1000, period := 1000000000000 }
    let g := f.quotaUpdate 234567891000
    (g.q.toInt, g.carry, g.exh, (({ g with period := 0 } : Fn).quotaUpdate (50 * 10 ^ 9)).q.toInt)) = (-434, 567891000, true, -184) := by decide +kernel

/-! ### Pre-emption -/

/-- The physical function has a save area, in page 1, and handlers. -/
def saves (s : State) : State :=
  { mapped s with fns := [{ wholeFn with save := 0x10000, saveLen := 0x1000, svs := 0x48, svr := 0x48 }] }
def ctx0 : TeamCtx := { save := 0x10000, svs := 0x140, svr := 0x140 }
def preempting (c : Collect) : State := { saves core0 with collects := [c] }
theorem witness_preempt : areaOf (preempting {}) 0 (saveRanges (preempting {}) {}) = .ready [1] ∧ (preempting {}).hasFn 0 = true
    ∧ ({} : Collect).wide = true
    ∧ areaOf { core0 with collects := [{}] } 0 (saveRanges { core0 with collects := [{}] } {}) = .bad 0 := by decide +kernel
theorem test_preempt : (let t := after (.preemptRequest 0) (preempting {}); (t.collects.map (·.begun), t.pinned, (t.fn 0).frozen)) = ([true], [(0, 1)], true)
    ∧ ((after (.preemptRequest 3) (virt {} { core0 with collects := [{ fn := 3 }] })).fn 0).lost = 1 := by decide +kernel

/-- A pre-emption of team 1 under way, its lanes at the header at 0x140. -/
def col1 : Collect := { begun := true, teams := [1], pins := [1] }
def atHead : Wave := { wave0 with lanes := wave0.lanes.map fun (l : Lane) => { l with pc := 0x140, anchor := 0x140, pos := .atHeader } }
def enters (w : Wave) : State := { preempting col1 with teams := [{ team0 with ctx := ctx0, waves := [w] }] }
theorem witness_save_entry : (enters atHead).wave? r0 = some atHead ∧ atHead.save = .no ∧ settledWave (enters atHead) r0 atHead = true
    ∧ collectOf (enters atHead) 1 = some col1 ∧ (reconverged (enters atHead) 0 atHead).isSome = true ∧ wave0.allEnded = false
    ∧ reconverged (enters wave0) 0 wave0 = none ∧ settledWave (enters wave0) r0 wave0 = true := by decide +kernel
theorem test_save_entry : (let t := after (.saveModeEntry r0) (enters atHead); ((lane t 0).mode, (lane t 0).pc)) = (.save, 0x140)
    ∧ (lane (after (.saveModeEntry r0) (enters wave0)) 0).mode = .ordinary
    ∧ (let t := after (.forcedSaveTimeout 0) (enters wave0); ((lane t 0).mode, (lane t 0).pc)) = (.save, 0x140) := by decide +kernel

/-- The access processor of core 0 holds a command of team 1. -/
def stopping : State := { enters { wave0 with cp := [(5, false)] } with
  cores := [{ id := 0, slots := List.replicate 4 {}, access := [apc 0x330 (cpy 0)] }] }
theorem witness_engine_stops : stopping.cores = [{ id := 0, slots := List.replicate 4 {}, access := [apc 0x330 (cpy 0)] }]
    ∧ (apc 0x330 (cpy 0)).by_.team = 1 ∧ (apc 0x330 (cpy 0)).by_.wave = 0
    ∧ EngineRef.matrix 0 ∈ ({ col1 with acks := [.matrix 0] } : Collect).acks ∧ (enters wave0).units = []
    ∧ (∀ k ∈ (enters wave0).cores, k.matrix = [] ∧ k.access = []) := by decide +kernel
theorem test_engine_stops : (let t := after (.engineStopAck (.access 0)) stopping
    ((t.core 0).access.length, t.collects.map (·.work.length), (t.wave? r0).map (·.cp))) = (0, [1], some []) := by decide +kernel

/-- Team 1 as saved, with an empty window. -/
def saved0 : Saved := { team := { team0 with ctx := ctx0, winSize := 0, saveSlot := some 0, waves := [{ wave0 with save := .saved, entry := none }] } }
def restoring : State := { saves core0 with teams := [], saved := [saved0], launches := [{ launch0 with pool := 0x1010 }] }
theorem witness_restore : restoreCores restoring saved0 2 = some [2]
    ∧ 0 ∈ choosable restoring (.admission 2) (waitingFns restoring 2)
    ∧ areaOf restoring 0 (restoreRanges restoring [saved0]) = .ready [1] := by decide +kernel
-- R320: what a restored wave starts with (its slot and entry are a free choice, log 9)
theorem test_restore : (let w := Wave.startRestore launch0 0x140 7 { wave0 with save := .saved }; ((w.lanes.map fun l => (l.pc, l.mode)).dedup, w.regs.getS 2))
    = ([(0x140, .save)], 0) := by decide +kernel
theorem witness_slice : ({ core0 with slice := some { start := 9, len := 4 } } : State).slice = some { start := 9, len := 4 }
    ∧ ((saves core0).fn 0).preemptible = true := by decide +kernel
/-- A slice in force, from 9 to 13, and one that waits. -/
def sliced (f : Nat) (b : Bool) : State := { saves core0 with slice := some { start := 9, len := 4, fn := f, active := b } }
theorem test_slice_start : (after .sliceStart (sliced 3 false)).collects.map (·.fn) = [0] := by decide +kernel
theorem test_slice_end : (after .sliceEnd (sliced 0 true)).ctime = 13 := by decide +kernel

/-! ### The host's registers, links and services -/

theorem test_registers : ((after (.registerWrite 0 .tenancy0 (2 ^ 64 - 1)) core0).fn 0).sten0 = 0xFFFFFFFFFFF807FF
    ∧ ((after (.registerWrite 0 .scap 5) core0).fn 0).cap = 0 ∧ ((after (.registerWrite 3 .scap 5) (virt {} core0)).fn 3).cap = 5 := by decide +kernel
theorem witness_indices : ({ size := 1 } : Ring).full = false ∧ ({ size := 1, prod := 1 } : Ring).full = true
    ∧ 1000 ≤ ((4000 : DWord).setWidth 13).toNat ∧ ((4000 : DWord).setWidth 13).toNat ≤ 4800 ∧ ((999 : DWord).setWidth 13).toNat < 1000
    ∧ 4800 < ((4801 : DWord).setWidth 13).toNat ∧ bits 0x1FFF 15 12 ≤ 1 ∧ 1 < bits 0x2000 15 12 := by decide +kernel
theorem test_indices : ((after (.queueProducerWrite 0 7 3) core0).fn 0).posted.getD 7 0 = 3
    ∧ (let s : State := { core0 with fns := [{ compl := { base := 0x6000, size := 1, prod := 1 }, heldCompl := [{ launch := 4, status := 1, count := 2 }] }] }
       let t := after (.completionConsumerWrite 0 1) s; ((t.fn 0).compl.prod, (t.fn 0).heldCompl, readBytes t (.host 0x6000) 8)) = (2, [], [4, 0, 0, 0, 1, 0, 2, 0])
    ∧ (after (.pcapWrite 4801) core0).pcap = 4800 ∧ (after (.mwselWrite 0x2005) core0).mwsel = 5 := by decide +kernel
theorem witness_aperture : (let pa := bits core0.mwsel.toNat 15 12 * 2 ^ 48 + bits core0.mwsel.toNat 11 0 * 2 ^ 36 + 0x40
      (∀ k < 8, frameEnabled core0 (pa + k) = true ∧ portDown core0 (pa + k) = false) ∧ 0x40 + 8 ≤ 2 ^ 36 ∧ ¬ (2 ^ 36 - 4 + 8 ≤ 2 ^ 36))
    ∧ core0.recovery = false := by decide +kernel
theorem test_aperture : (after (.bar2Access 0x40 none) (after (.bar2Access 0x40 (some [1, 2])) core0)).lastBar2 = [1, 2, 0, 0, 0, 0, 0, 0]
    ∧ (let t := after (.bar2Access (2 ^ 36 - 4) none) core0; (t.lastBar2, t.aerAborts)) = (List.replicate 8 0xFF, 1) := by decide +kernel
theorem witness_rates : core0.rates[2]? = some ({} : Rate) ∧ rateAllowed 3200 = true ∧ rateAllowed 3201 = false
    ∧ ((preempting col1).collects.filter fun c => c.begun && savesOn (preempting col1) c.fn c.pins 0) = [col1]
    ∧ (core0.collects.filter fun c => c.begun && savesOn core0 c.fn c.pins 2) = [] := by decide +kernel
theorem test_rates : ((after (.stackRetrainingEnd 2) (after (.stackRetrain 2) (after (.srateWrite 2 3200) core0))).rates.getD 2 {}) = { mbps := 3200 }
    ∧ ((after (.srateWrite 0 3200) (preempting col1)).rates.getD 0 {}) = { st := 1, want := some 3200, hold := 22000 } := by decide +kernel
theorem witness_mailbox : core0.recovery = false ∧ core0.mailbox.sts ≠ 1 ∧ ({ sts := 1 } : Mailbox).sts = 1 ∧ core0.mailbox.nonce.length = 4 := by decide +kernel
theorem test_mailbox : (let s : State := { core0 with mailbox := { sts := 1, next := [4, 5] } }
    ((after (.attestDataReady true) s).mailbox.data, (after (.attestDataReady true) s).mailbox.len, (after (.attestDataReady false) s).mailbox.sts)) = ([4, 5], 2, 3) := by
  decide +kernel
-- whether the image verifies, and its rollback number, are free values (log 5)
theorem witness_lifetimes : core0.recovery = false ∧ core0.hasFn 3 = false ∧ (virt {} core0).hasFn 3 = true := by decide +kernel
theorem test_lifetimes : ((after (.functionCreation 3) core0).fns.map (·.id)) = [0, 3] ∧ ((after (.contextDestruction 3) (virt {} core0)).fns.map (·.id)) = [0]
    ∧ (after .thermalShutdown core0).fns.map (·.state) = [.reset] ∧ (after .thermalShutdown core0).teams.map (·.stop) = [true] := by decide +kernel
/-- A row whose count has passed the threshold, which is a free value (log 17). -/
theorem witness_row : ∃ n, Config.rowThreshold < n ∧ ({ core0 with rowCounts := [((65, 2, 7, 0), n)] } : State).rowCounts = [((65, 2, 7, 0), n)] :=
  ⟨_, Nat.lt_succ_self _, rfl⟩
def bad0 : State := { ring core0 with toRetire := [5] }
theorem witness_frame : frameUsers bad0 5 = [] ∧ bad0.toRetire = [5] ∧ bad0.retired.length < Config.retiredMax ∧ (bad0.fn 0).err.full = false ∧ (bad0.fn 0).fast.Nodup := by decide +kernel
theorem test_frame : (let t := after .frameRetirement bad0; (t.retired, (t.fn 0).err.prod)) = ([5], 1)
    ∧ (lineError core0 (1024 * 5) false).toRetire = [5] ∧ (lineError core0 (1024 * 5) true).toRetire = []
    ∧ (lineError { core0 with corrected := List.replicate 15 (5, 0) } (1024 * 5 + 9) true).toRetire = [5] := by decide +kernel

/-- Link 1 in a state, and a flit that ends a command. -/
def linked (l : Link) : State := { core0 with links := [{}, l] }
def flit (k q : Nat) : List Byte := flitBytes { ctx := 0, kind := BitVec.ofNat 4 k, ack := 0, seq := BitVec.ofNat 12 q, payload := [1, 2] }
-- R336: the polynomial's published check value, of the nine digits from 1 up
theorem test_crc : crc64 ([0x31, 0x32, 0x33, 0x34, 0x35, 0x36, 0x37, 0x38, 0x39] : List Byte) = 0x6C40DF5F0B497347 := by decide +kernel
theorem witness_links : (linked { st := 2 }).links[1]? = some { st := 2 } ∧ crcOk (flit 4 0) = true ∧ crcOk ((flit 4 0).set 0 1) = false
    ∧ (flitOf (flit 4 0)).seq.toNat = ({ st := 2 } : Link).expect ∧ (flitOf (flit 4 1)).seq.toNat ≠ ({ st := 2 } : Link).expect
    ∧ (linked { st := 2 }).recovery = false ∧ ({ st := 2 } : Link).pend = [] ∧ (List.replicate 240 (0 : Byte)).length = 240 ∧ bits 0x0103 15 8 ≤ 1 ∧ 1 ≤ bits 0x0103 7 0 ∧ 1 < bits 0x0203 15 8
    ∧ (10 : Nat) ≤ ({ st := 2, nakRun := (3, 10) } : Link).nakRun.2 := by decide +kernel
def link1 (s : State) : Link := s.links.getD 1 {}
theorem test_links : ((link1 (after (.linkUp 1 0x0103) (linked ({} : Link)))).st, (link1 (after (.linkUp 1 0x0203) (linked {}))).st) = (2, 3)
    ∧ (let y := link1 (after (.bruskoFlitReceive 1 (flit 4 0)) (linked { st := 2 })); (y.expect, y.executed, y.out.map (·.ack))) = (1, 1, [1])
    ∧ (let y := link1 (after (.bruskoFlitReceive 1 ((flit 4 0).set 0 1)) (linked { st := 2 })); (y.expect, y.executed, y.out.map (·.kind))) = (0, 0, [5])
    ∧ (link1 (after (.linkRetrain 1) (linked { st := 2, nakRun := (3, 10) }))).st = 1
    ∧ (link1 (after (.linkRetrainingEnd 1 false) (linked { st := 1, fails := 2 }))).st = 4 := by decide +kernel

/-! ### From a turn to an instruction -/

/-- `add.i32 s8, s6, -1` where the next step fetches. -/
def placed : State := State.reset.withFetchWord 64 (0x08000002 + 2 ^ 32 * 0xFFFF040C)
def addInstr : Instr := .addUniform hd { ty := .i32, dst := 8, sa := 6, b := .imm 0xFFFF }
/-- The state of its turn: the turn taken from the agenda. -/
noncomputable def turnOf (s : State) : State := { settle (tick s) with agenda := [] }
noncomputable def settled (s : State) (rs : List WaveRef) : State × List (WaveRef × Nat × TrapInfo) :=
  rs.foldl (fun (a : State × List (WaveRef × Nat × TrapInfo)) r =>
    ((settleWave a.1 r .ordinary).1, a.2 ++ (settleWave a.1 r .ordinary).2)) (s, [])
theorem witness_turn : (settle (tick placed)).agenda = [.issue 0 0 1 .ordinary] ∧ members (turnOf placed) 0 0 1 = [⟨1, 0⟩]
    ∧ (settled (turnOf placed) [⟨1, 0⟩]).2 = []
    ∧ (let s1 := (settled (turnOf placed) [⟨1, 0⟩]).1
       (s1.group 0 0 1).lag = none ∧ lagging s1 [⟨1, 0⟩] (s1.group 0 0 1) = none
       ∧ issueAt s1 [⟨1, 0⟩] .ordinary = some (0x100, [(⟨1, 0⟩, 0xFF)])
       ∧ (((s1.wave? ⟨1, 0⟩).bind fun w => w.lanes[0]?).getD ({} : Lane)).pos ≠ .atHeader
       ∧ (fetchInstr s1 0 0x100 8).2 = [0x08000002, 0xFFFF040C]
       ∧ (match (fetchInstr s1 0 0x100 8).1 with | .word p => decide (p = 0x08000002) | _ => false) = true
       ∧ (match decodeAt (decCtx s1 0 false) 8 [0x08000002, 0xFFFF040C] with | .ok (.instr x n) => decide (x = addInstr ∧ n = 2) | _ => false) = true
       ∧ ∀ sh ∈ addInstr.shape, ∀ c ∈ contexts s1 { agent := .core 0 0 1 [(⟨1, 0⟩, 0xFF)], pc := 0x100, len := 8, stop := 0x120 } sh.head,
          preTraps addInstr sh c = [] ∧ ∀ r ∈ c.ref, waveReady s1 addInstr sh c r = true) := by decide +kernel
-- R17, R80: the step runs it
theorem test_step : (match step placed with | .next t => ((t.wave? ⟨1, 0⟩).map fun w => (w.regs.getS 8, w.lanes.map (·.pc))) | _ => none)
    = some (0xFFFFFFFF, List.replicate 8 0x108) := by decide +kernel
/-- `rk.next` in root code. -/
def placedRoot : State := State.reset.withFetchWord 64 0x00003AB0
noncomputable def rootInv (s : State) : Inv := ((settle (tick s)).inv? 0).getD {}
theorem witness_root_turn : (settle (tick placedRoot)).agenda = [.root 0] ∧ (turnOf placedRoot).inv? 0 = some (rootInv placedRoot)
    ∧ (rootInv placedRoot).started = true ∧ (rootInv placedRoot).wait = none ∧ (rootInv placedRoot).bound = true
    ∧ (rootInv placedRoot).count < Config.rootBlockLimit := by decide +kernel
theorem witness_root_fetch : settleInv (turnOf placedRoot) settleFuel (rootInv placedRoot) = (rootInv placedRoot, none) ∧ (rootInv placedRoot).head = false
    ∧ (let s1 := (turnOf placedRoot).modUnit 0 fun u => { u with invs := u.invs.set 0 (rootInv placedRoot) }
       (fetchInstr s1 0 0x100 8).2 = [0x00003AB0, 0]
       ∧ (match (fetchInstr s1 0 0x100 8).1 with | .word p => decide (p = 0x00003AB0) | _ => false) = true
       ∧ (match decodeAt (decCtx s1 0 true) 8 [0x00003AB0, 0] with | .ok (.instr x n) => decide (x = .rkNext hd ∧ n = 2) | _ => false) = true
       ∧ ∀ sh ∈ Instr.shape (.rkNext hd), ∀ c ∈ contexts s1 { agent := .root 0, pc := 0x100, len := 8, stop := 0x120 } sh.head,
          preTraps (.rkNext hd) sh c = []) := by decide +kernel
theorem witness_agenda : (settle (tick { core0 with agenda := [.event .sliceStart] })).agenda = [.event .sliceStart] ∧ Instr.shape .sliceStart = none
    ∧ (settle (tick { core0 with agenda := [.event addInstr] })).agenda = [.event addInstr] ∧ addInstr.shape ≠ none
    ∧ (settle (tick { core0 with agenda := [.hostWrite 8 [1]] })).agenda = [.hostWrite 8 [1]] := by decide +kernel
theorem test_host_write : (match step { core0 with agenda := [.hostWrite 8 [1]] } with | .next t => t.hostMem | _ => []) = [(8, 1)] := by decide +kernel

/-! ### The whole machine -/

theorem witness_parts : ([(r0, (0xFF : Mask))].map (·.1)).Nodup := by decide
theorem witness_register_writes : (let c := mkCtx (some r0) 0 regs0 0xFF hd
    0 < c.w ∧ (∀ x ∈ c.r.v, x.length = c.w) ∧ (3 : Nat) + c.g ≤ c.r.v.length ∧ 8 < c.r.s.length ∧ 2 < c.r.p.length ∧ c.r.width ≤ 64) := by decide +kernel
theorem witness_encoding : addInstr.shape.isSome = true ∧ addInstr.WellFormed := by decide +kernel
theorem witness_decoding : (parcelCls 2).toNat < 7 ∧ (parcelCls 0xA).toNat = 10 ∧ (parcelCls 0xC).toNat = 12 ∧ (parcelCls 0xF).toNat = 15
    ∧ (parcelCls 7).toNat = 7 ∧ map1Entry (opcOf 2) ≠ none := by decide +kernel
theorem witness_memory_form : State.reset.MemWf := ⟨rfl, rfl⟩

/-! ### Witnesses of single clauses -/

theorem witness_reductions : (0 : Nat) < 3 ∧ c0.vl ≤ 2 ^ 3 ∧ 2 ^ 2 < c0.vl ∧ c0.vl ≤ c0.w * c0.g ∧ (RedOp.add = .add) := by decide +kernel
theorem witness_exact_rounding : f32.val 0x3F800000 = .fin false 0x800000 (-23) ∧ f32.val 0x40000000 = .fin false 0x800000 (-22)
    ∧ (1 : ℚ) * (0x800000 : ℚ) * (2 : ℚ) ^ (-23 : ℤ) + 1 * (0x800000 : ℚ) * (2 : ℚ) ^ (-22 : ℤ) ≠ 0
    ∧ (1 : ℚ) * (0x800000 : ℚ) * (2 : ℚ) ^ (-23 : ℤ) - 1 * (0x800000 : ℚ) * (2 : ℚ) ^ (-22 : ℤ) ≠ 0 :=
  ⟨by decide +kernel, by decide +kernel, by norm_num, by norm_num⟩
/-- Every operand is a signalling NaN, and NV is enabled. -/
def enabledNv : Regs := splat 1 0x7F800001 (splat 2 0x7F800001 (splat 4 0x7F800001 { regs0 with fflags := 0x00003F00 }))
theorem witness_suppressed : ∃ c ∈ contexts (core fun _ => enabledNv) iss0 hd, let n := 0x7F800001
    c.e ≠ 0 ∧ c.ref ≠ none
    ∧ ∀ x ∈ [(fsubV f32 .rne n n).2, (fmulV f32 0 .rne n n).2, (fdivV f32 .rne n n).2, (fminmaxV f32 false n n).2, (fminmaxV f32 true n n).2,
        (fmaV f32 0 false false .rne n n n).2, (fsqrtV f32 .rne n).2, (frsqV .rne n).2, (ftrigV false .rne n).2, (ftrigV true .rne n).2,
        (fexp2V .rne n).2, (flog2V .rne n).2, (frintV .rne n).2, (mulF f32.prec 0 (f32.val n) (f32.val n)).2, snanFlag [f32.val n],
        (cvtAt hd { dty := .f16, src := .f32, dst := 3, sa := 1, pos := 0, sat := false } c 0).2,
        (cvtIntAt { dty := .i32, src := .f32, dst := 3, sa := 1, pos := 0, sat := false } c 0).2,
        (bscaleAt { bt := 1, dst := 3, sa := 1 } c 0).2, (bqAt hd { dst := 3, sa := 1, b := .vec 2, pos := 0 } c 0).2,
        (frelV .eq n n).2],
      x &&& c.r.fflags.extractLsb' 8 6 ≠ 0 := ⟨_, List.mem_cons_self, by decide +kernel⟩
/-- The exact accumulator holds a sum that no FP32 number is. -/
theorem witness_xacc_traps : let c := mkCtx (some r0) 0 { enabledNv with x := ({} : Xacc).addVal (.fin false 0x1000001 0) } 0xFF hd
    c.e ≠ 0 ∧ c.ref ≠ none ∧ (c.r.x.read c.mode).2 &&& c.r.fflags.extractLsb' 8 6 ≠ 0 := by decide +kernel

-- turns, branches and barriers
theorem witness_turn_ready : (1, SetKind.ordinary) ∈ slotChoices (turnOf placed) 0 0
    ∧ (let s1 := (settled (turnOf placed) [⟨1, 0⟩]).1
       let i : Issue := { agent := .core 0 0 1 [(⟨1, 0⟩, 0xFF)], pc := 0x100, len := 8, stop := 0x120 }
       ∀ sh ∈ addInstr.shape, (∀ c ∈ contexts s1 i sh.head, preTraps addInstr sh c = [] ∧ partReady s1 addInstr sh c = true)
         ∧ engineRoom s1 0 addInstr (contexts s1 i sh.head) = true) := by decide +kernel
/-- Page 2, which is away, may be executed too. -/
def awayCode (s : State) : State := { s with mem := writeCells 0x6010 (leBytes 8 (2 ^ 63 + 2 ^ 60 + 2 ^ 58 + 2 ^ 48 + 0x30000)) tables }
theorem witness_branch_parks : targetAt (awayCode core0) 0 0x20040 = .away 2 ∧ (awayCode core0).wave? r0 = some wave0
    ∧ wave0.lanes[3]? = some lane0 := by decide +kernel
theorem test_branch_parks : (let s := awayCode (core fun r => (U 1 0x1FF48 r).setP 2 8)
    let t := after (.jmpUniform { hd with pred := 2 } 1) s
    ((lane t 3).run, (lane t 2).pc, t.migrations.map (·.page))) = (.parked (.migration 0 2), 0x108, [2]) := by decide +kernel
theorem witness_branch_traps_all : (∃ c ∈ contexts core0 iss0 hd, ∃ y ∈ (c.e.lanes.map fun l => (l, ((ctxEntry core0 c + 0 : Nat) : Int))),
      targetAt core0 (ctxFn core0 c) y.2 = .bad)
    ∧ (∃ c ∈ contexts (mapped core0) iss0 hd, ∃ y ∈ (c.e.lanes.map fun l => (l, ((ctxEntry (mapped core0) c + 0 : Nat) : Int))),
      targetAt (mapped core0) (ctxFn (mapped core0) c) y.2 = .noHeader)
    ∧ ∀ c ∈ contexts (mapped core0) iss0 hd, ∀ y ∈ (c.e.lanes.map fun l => (l, ((ctxEntry (mapped core0) c + 0 : Nat) : Int))),
      targetAt (mapped core0) (ctxFn (mapped core0) c) y.2 ≠ .bad :=
  ⟨⟨_, List.mem_cons_self, (0, 0xF8), by decide +kernel, by decide +kernel⟩,
   ⟨_, List.mem_cons_self, (0, 0xF8), by decide +kernel, by decide +kernel⟩, by decide +kernel⟩
/-- The gang of team 1 is itself, and all its lanes have arrived. -/
def gangs (b : Bool) : State := coreWave fun w => { w with lanes := w.lanes.map fun (l : Lane) => { l with gangArr := b } }
theorem witness_gang_barrier : ∀ b, (let s := gangs b
    (s.team? 1).isSome = true ∧ s.launch? 1 = some launch0 ∧ (s.teams.map (·.id)).Nodup
    ∧ (s.teams.filter fun t => t.launch == 1 && t.task == 0).length = max 1 launch0.gt
    ∧ (∀ t ∈ s.teams, ∀ w ∈ t.waves, w.save = .no ∧ ∀ l ∈ w.lanes, l.teamArr = false)
    ∧ (b = true ↔ ∀ t ∈ s.teams, ∀ w ∈ t.waves, ∀ l ∈ w.lanes, l.run = .ended ∨ l.gangArr = true)) := by decide +kernel

-- loads, stores and atomics
/-- No element is active. -/
def none0 : Regs := { reg1 with vl := 0 }
theorem witness_no_elements : ((mkCtx (some r0) 0 none0 0xFF hd).actives.map fun e =>
    ({ e := e, l := e % 8, a := memAddr (mkCtx (some r0) 0 none0 0xFF hd) (op1 2).m false e } : Elem)) = [] := by decide +kernel
theorem witness_atomics_full : elems1 (loadState false) (op1 2) false ≠ [] ∧ (atom1 true).ord = .relaxed ∧ (atom1 true).sco = .team
    ∧ wave0.ld.length < 63 ∧ wave0.st.length < 63 := by decide +kernel
/-- Two loads in flight, the second behind an older store of the same word. -/
def pend2 : PendLoad := { id := 8, elems := [{ dst := .v 4 0, src := .mem (.dev 0x20000) .word }] }
theorem witness_load_behind : let s := inFlight [pend, pend2] [pendSt]
    ∃ w tm, s.wave? r0 = some w ∧ s.team? 1 = some tm ∧ tm.staged = [] ∧ pend2 ∈ w.loads ∧ (w.loads.map (·.id)).Nodup ∧ w.joint = []
      ∧ (∀ q ∈ w.loads, ∀ e ∈ q.elems, e.src = .mem (.dev 0x20000) .word) ∧ Loc.broken s (.dev 0x20000) = false
      ∧ (∀ q ∈ w.stores, ∀ e ∈ q.elems, e.loc.addr % 4 = 0) ∧ w.allEnded = false :=
  ⟨_, _, rfl, rfl, by decide +kernel, by decide +kernel, by decide +kernel, by decide +kernel, by decide +kernel, by decide +kernel, by decide +kernel, by decide +kernel⟩
-- R138, R139: the younger load sees the wave's older store, and LD counts both until the older load's data is there
theorem test_load_behind : (let t := after (.loadComplete r0 8) (inFlight [pend, pend2] [pendSt])
    (V t 4 0, ((t.wave? r0).map (·.ld)))) = (0x04030201, some [(5, false), (8, true)]) := by decide +kernel
theorem witness_atomic_plain : pendAtom.rel = false ∧ pendAtom.rmt = false
    ∧ ((inFlight [pendAtom] []).wave? r0).map (fun w => (w.stores, w.allEnded)) = some ([], false) := by decide +kernel
/-- A store of a whole line that has an uncorrectable error. -/
def lineSt : PendStore := { id := 6, elems := [{ loc := .dev 0x20000, val := .bytes (List.replicate 64 7) }] }
theorem witness_whole_line : let s := { inFlight [] [lineSt] with badLines := [0x20000 / 64] }
    0x20000 / 64 ∈ s.badLines ∧ Loc.reachable s (.dev 0x20000) = true ∧ lineSt.fail = none ∧ lineSt.teamRel = false
    ∧ (s.wave? r0).map (fun w => (w.stores, w.loads, w.joint)) = some ([lineSt], [], [])
    ∧ ((s.team? 1).map fun t => s.isDet t) = some false
    ∧ (∀ k < 64, 0x20000 ≤ 0x20000 / 64 * 64 + k ∧ 0x20000 / 64 * 64 + k < 0x20000 + (List.replicate 64 (7 : Byte)).length) := by decide +kernel
theorem test_whole_line : readWord (after (.storeRetire r0 false) { inFlight [] [lineSt] with badLines := [0x20000 / 64] }) (.dev 0x2003C) = 0x07070707 := by
  decide +kernel
/-- A store of a word of device memory and a byte of the capacity tier. -/
def mixed : PendStore := { pendSt with elems := pendSt.elems ++ [{ loc := .dev (2 ^ 48 + 0x30000), val := .bytes [5] }] }
theorem witness_failed_store : let s := ring (inFlight [] [mixed])
    RingRoom s 0 ∧ s.launch? 1 = some launch0 ∧ (s.wave? r0).map (fun w => (w.stores, w.loads, w.joint)) = some ([mixed], [], [])
    ∧ ((s.team? 1).map fun t => s.isDet t) = some false ∧ mixed.fail = none
    ∧ mixed.elems.find? (fun x => x.fails s mixed.elems || (match x.loc with
      | .dev pa => decide (pa / 2 ^ 48 = 1)
      | .host _ => true
      | .win .. => false)) = some { loc := .dev (2 ^ 48 + 0x30000), val := .bytes [5] } := by unfold RingRoom; decide +kernel

theorem form_load (o : VMem) (u : UMem) (a : AtomOp) : (⟨.ldB32 hd o, { sp := o.m.sp, size := 4, rd := true, wr := false }, false, memElems o.m false, .ld⟩ : AccessForm)
    ∈ accessForms hd o u a := by simp [accessForms]
theorem form_word (o : VMem) : (⟨.ldSync hd o, { sp := o.m.sp, size := 4, rd := false, wr := false }, false, memElems o.m false, .ld⟩ : AccessForm)
    ∈ wordForms hd o := by simp [wordForms]
/-- What an element of a load finds. -/
def found (s : State) (o : VMem) (size : Nat) : List Reach :=
  let c := mkCtx (some r0) 0 (((s.wave? r0).map (·.regs)).getD {}) 0xFF hd
  (memElems o.m false c).map fun y => reach s r0 { sp := o.m.sp, size := size, rd := true, wr := false } y.a
def isTrap : Reach → Bool
  | .trap _ => true
  | _ => false
/-- A misaligned access, one without a translation, one of a page with no leaf, and one of a page that is away, each in every lane. -/
theorem witness_access_forms : (atom1 false).sco = .team
    ∧ (∃ y ∈ memElems (op1 0).m false (mkCtx (some r0) 0 reg1 0xFF hd), stepOne (loadState false) r0 { sp := .global, size := 4, rd := true, wr := false } y.a ≠ none)
    ∧ found (mapped (core fun _ => reg1)) (op1 2) 4 = List.replicate 8 (.miss 1)
    ∧ (∀ y ∈ memElems (op1 2).m false (mkCtx (some r0) 0 reg1 0xFF hd), stepOne (mapped (core fun _ => reg1)) r0 { sp := .global, size := 4, rd := true, wr := false } y.a = none)
    ∧ (found (coreWave fun w => { w with regs := reg1, walked := [({ fn := 0, page := 1, leaf := 0 }, false)] }) (op1 2) 4).all isTrap = true := by
  decide +kernel
/-- The core's translation of page 2, which is away, and a base there. -/
def awayLeaf : DWord := BitVec.ofNat 64 (2 ^ 63 + 2 ^ 59 + 2 ^ 58 + 2 ^ 48 + 0x30000)
def awayData : State := { mapped (core fun _ => ramp 1 (U 2 0x20000 regs0)) with
  cores := [{ id := 0, slots := List.replicate 4 {}, tlb := [{ fn := 0, page := 2, leaf := awayLeaf }] }] }
theorem witness_access_parks : found awayData (op1 2) 4 = List.replicate 8 (.away 2) ∧ walk awayData 0 2 = some (0x6010, awayLeaf) ∧ leafMig awayLeaf = false
    ∧ (∀ k ∈ [Ctr.ld, .st], ({ wave0 with ld := List.replicate 63 (0, false), st := List.replicate 63 (0, false) } : Wave).ctr k = 63)
    ∧ (found (tlb false (core fun _ => reg1)) (op1 2) 4).all (fun x => !isTrap x) = true := by decide +kernel
theorem test_access_parks : (let t := after (.ldB32 hd (op1 2)) awayData; ((lane t 6).run, (lane t 6).pc, t.migrations.map (·.page)))
      = (.parked (.migration 0 2), 0x100, [2])
    ∧ (lane (after (.ldB32 hd (op1 2)) ((loadState false).modWave r0 fun w => { w with ld := List.replicate 63 (0, false) })) 6).run = .parked (.full .ld) := by
  decide +kernel

/-- A walk for an engine whose command awaits the page. -/
def engineWalk (k : Walker) : State :=
  { mapped core0 with walks := [{ core := 0, fn := 0, page := 1, for_ := k }]
                      cores := [{ id := 0, slots := List.replicate 4 {}, matrix := [{ mxc 0x380 mma with misses := [1] }]
                                  access := [{ apc 0x330 (cpy 0) with misses := [1] }] }] }
theorem witness_engine_walk : (engineWalk .matrix).walks[0]? = some { core := 0, fn := 0, page := 1, for_ := .matrix }
    ∧ ((engineWalk .matrix).core 0).matrix[0]? = some { mxc 0x380 mma with misses := [1] } ∧ by0.fn = 0
    ∧ ((engineWalk .access).core 0).access[0]? = some { apc 0x330 (cpy 0) with misses := [1] } := by decide +kernel
theorem test_engine_walk : ((after (.pageWalkComplete 0) (engineWalk .matrix)).core 0).mxTlb.map (·.page) = [1]
    ∧ (((after (.pageWalkComplete 0) (engineWalk .matrix)).core 0).matrix.map fun c => (c.misses, c.walked.map (·.2))) = [([], [true])]
    ∧ ((after (.pageWalkComplete 0) (engineWalk .access)).core 0).apTlb.map (·.page) = [1]
    ∧ (((after (.pageWalkComplete 0) (engineWalk .access)).core 0).access.map fun c => (c.misses, c.walked.map (·.2))) = [([], [true])] := by
  decide +kernel
theorem witness_migration_leaf : Loc.broken moving (.dev 0x6010) = false := by decide +kernel

-- commands at issue
/-- Every counter of the wave is full. -/
def fullWave : Wave := let k := (List.range 63).map fun n => (n, false); { wave0 with ld := k, st := k, cp := k, tl := k }
def fullWin (b : List Byte) : State := coreTeam fun t => { t with win := writeCells 0 b [], waves := [fullWave] }
theorem witness_full_counters : (∀ k ∈ [Ctr.ld, .st, .cp, .tl], 63 ≤ fullWave.ctr k)
    ∧ ([Ctr.tl, .st].find? fun y => decide (63 ≤ fullWave.ctr y)) = some .tl
    ∧ ([Ctr.tl, .st].find? fun y => decide (63 ≤ ({ fullWave with tl := [] } : Wave).ctr y)) = some .st
    ∧ gthChecks o0 (fullWin (gth 0x100 0x200 0x300)) c0 = [] ∧ cpyChecks false o0 (fullWin (cpy 0)) c0 = []
    ∧ mxChecks 0 (fun _ => none) [0x10] (stFields 5) stAccs 0 (fullWin (tile 5)) c0 = []
    ∧ bagChecks 0 (bagged (bag4 1 64) (fullWin [])) c0 = [] := by decide +kernel
theorem test_full_counters : ((lane (after (.tst hd o0) (fullWin copyOut)) 0).run, (lane (after (.bagSnap hd o0) (bagged (bag4 1 64) (fullWin []))) 0).run)
    = (.parked (.full .tl), .parked (.full .cp)) := by decide +kernel
theorem witness_post_limits : (let n := launch0.nt + ({ launch0 with posted := Config.maxTasks } : Launch).posted; Config.maxTasks ≤ n)
    ∧ fieldB (record.set 0x30 9) 0x30 4 = 9 ∧ fieldB record 0x30 4 = 0 ∧ fieldB record 0x34 12 = 0 ∧ fieldB record 0x20 4 = 0xFFFFFFFF
    ∧ (fieldB (zeros 256) 0x20 4 ≠ 0xFFFFFFFF ∧ launch0.nt + launch0.posted ≤ fieldB (zeros 256) 0x20 4)
    ∧ fieldB (record.set (0x40 + 24 * 7 + 20) 1) (0x40 + 24 * 7 + 20) 4 ≠ 0 := by decide +kernel
theorem test_post_reserved : S (after (.taskPostReply 5) (posted (record.set (0x40 + 24 * 7 + 20) 1))) 4 = 0x80000003 := by decide +kernel
/-- A table whose value at any argument is inexact, and a wave that has NX enabled. -/
def inexactTable (en : Word) : State := coreTeam fun t => { t with
  act := ({ live := { y := (List.range 256).map fun k => if k % 2 = 0 then 0x3F800001 else 0x40400000 } } : ActSlot) :: List.replicate 3 {}
  waves := [{ wave0 with regs := splat 1 0x3EAAAAAB { regs0 with fflags := en } }] }
theorem witness_fact_issue : (((inexactTable 0).team? 1).bind fun t => t.act[0]?).isSome = true ∧ c0.e ≠ 0
    ∧ (∀ e ∈ (mkCtx (some r0) 0 (splat 1 0x3EAAAAAB regs0) 0xFF hd).actives, (0 : BitVec 6) &&& regs0.fflags.extractLsb' 8 6 = 0) := by decide +kernel
theorem test_fact_traps : (lane (after (.fact hd { tb := 0, dst := 3, sa := 1 }) (inexactTable 0x1000)) 0).tcause % 256 = 11
    ∧ ((after (.fact hd { tb := 0, dst := 3, sa := 1 }) (inexactTable 0)).wave? r0).map (·.facts.length) = some 1 := by decide +kernel

-- the engines at work
theorem witness_scatter_out : leNat (readBytes (gathering 0x333 4 0xFFFFFFFF) (.win 1 0x100) 4) = 4 ∧ (gthBlk (gth 0x100 0x200 0xFFFFFFFF)).nrows = 4
    ∧ (apc 0x333 (gth 0x100 0x200 0xFFFFFFFF)).trans = [] ∧ (apc 0x333 (gth 0x100 0x200 0xFFFFFFFF)).buf = [] := by decide +kernel
theorem witness_engine_room : let s := pushState 32
    RingRoom s 0 ∧ s.launch? 1 = some launch0 ∧ ((s.team? 1).bind fun t => t.waves[push1.by_.wave]?) = some wave0 := by unfold RingRoom; decide +kernel
-- R315: the stalled copy's record names its queue's unit
theorem test_stall_record : (let t := after (.apQueueStall 0) (pushState 32); readBytes t (.host 0x1004) 8) = [0x13, 0, 0, 0, 8, 0, 0, 0] := by decide +kernel
def refusedTake : State := ring (engines [{ mxc 0x380 (mma.set 3 1) with taken := false, fw := 0x666 }] [] [])
theorem witness_take_refused : RingRoom refusedTake 0 ∧ (let m := mmaBlk (mma.set 3 1) 0x666; m.mode = 1 ∧ 0 < m.mt * m.nt)
    ∧ (getAcc refusedTake 1 (mmaBlk (mma.set 3 1) 0x666).acn).fmt = .f32 ∧ (0x666 : Word).extractLsb' 8 4 = 6
    ∧ ((refusedTake.team? 1).bind fun t => t.waves[0]?) = some wave0 ∧ refusedTake.launch? 1 = some launch0 := by unfold RingRoom; decide +kernel
theorem witness_step_rows : let c := mxc 0x380 mma
    ∀ k < 32, let p := stepRow (mmaBlk mma 0x566) 0 0 0 k
      piecesAccess product 0 { c with fw := 0x566 } p.1 (fetchPieces p.1 p.2.1 p.2.2) false = .ok := by decide +kernel
theorem witness_stochastic_tile : ({ e := List.replicate 256 0, g := List.replicate 16 7, fmt := .sto } : Acc).g.length = 16
    ∧ ({ e := List.replicate 256 0, g := List.replicate 16 7, fmt := .sto } : Acc).fmt = .sto
    ∧ (fetchFmt (mmaBlk mma 0x566).da.ty).val 0x3F80 = .fin false 128 (-7) ∧ (fetchFmt (mmaBlk mma 0x566).da.ty).val 0x7F80 = .inf false
    ∧ (fetchFmt (mmaBlk mma 0x566).da.ty).val 0 = .zero false ∧ ((fetchFmt (mmaBlk mma 0x566).da.ty).val 0x7FC0).isNan = true := by decide +kernel
/-- A requantisation of one row, in the window. -/
def rq1 : List Byte := [0, 1] ++ zeros 14 ++ desc 0x1000 32 32 32 10 true ++ desc 0x2000 32 1 32 10 true ++ zeros 16
def rqAt (x : Nat) : Nat := (rqBlk rq1).dst.at_ 0 (if x < 16 then x else 16)
theorem witness_requantise : let rq := rqBlk rq1
    rq.dst.spc = true ∧ rq.dst.rows = 1 ∧ rq.dst.cols / 2 = 16 ∧ (∀ x < 17, ∀ x' < 17, rqAt x = rqAt x' → x = x')
    ∧ rq.src.rows / 32 ≤ 0 + 1 ∧ 0 + 1 < (rqBlk ([0, 1] ++ zeros 14 ++ desc 0x1000 32 64 32 10 true ++ desc 0x2000 32 1 64 10 true ++ zeros 16)).src.rows / 32
    ∧ (let c := mxc 0x384 rq1; let s := engines [c] [] []
       piecesAccess s 0 c rq.src ((List.range 32).flatMap fun i => b4Pieces rq.src i 0 rq.src.cols) false = .ok
       ∧ piecesAccess s 0 c rq.dst ((List.range rq.dst.rows).flatMap fun r => b4Pieces rq.dst r 0 32) true = .ok) := by decide +kernel
/-- A versioned load of one row into the window. -/
def copyIn1 : List Byte := desc 0x10008 64 1 16 5 false ++ desc 0x1000 64 1 16 5 true ++ zeros 32
theorem witness_versioned_tile : let y := descAt copyIn1 0x10
    y.spc = true ∧ (((List.range (descAt copyIn1 0).lrows).flatMap (rowPieces y)).flatMap fun p => (List.range p.2).map (p.1 + ·)).Nodup
    ∧ (let c : MxCmd := { mxc 0x351 copyIn1 with ver := some 0 }
       piecesAccess (engines [c] [] []) 0 c (descAt copyIn1 0) [((descAt copyIn1 0).base - 8, 4)] false = .ok
       ∧ BitVec.ofNat 32 (leNat (mxRead (engines [c] [] []) c.by_ (descAt copyIn1 0) ((descAt copyIn1 0).base - 8) 4)) = 0) := by decide +kernel
/-- A tile's store to page 3, which is not mapped, and a gather from page 1, whose first line has an uncorrectable error. -/
def storeOut : List Byte := zeros 16 ++ desc 0x30000 64 16 16 6 false ++ zeros 32
def storeCmd : MxCmd := { mxc 0x381 storeOut with walked := [({ fn := 0, page := 3, leaf := 0 }, false)] }
def faulting (mx : List MxCmd) (ap : List ApCmd) : State := { ring (engines mx ap (zeros 0x100 ++ leBytes 4 0)) with badLines := [0x20000 / 64] }
theorem witness_engine_faults : (let c := storeCmd; let d := descAt storeOut 0x10
      d.aon = false ∧ piecesAccess (faulting [c] []) 0 c d ((groupRows c c.step).flatMap (rowPieces d)) true = .fault 8 0x30000)
    ∧ (let c := apc 0x332 (gth 0x100 0x200 0x300); let s := faulting [] [c]
       engineAccess s (apHas s 0 c) 0 0x10000 16 false none false = .fault 0x10 0x10000 ∧ leNat (readBytes s (.win 1 0x100) 4) = 0)
    ∧ RingRoom (faulting [] []) 0 ∧ (faulting [] []).launch? 1 = some launch0 := by unfold RingRoom; decide +kernel
theorem test_engine_faults : (let t := after (.matrixStoreRows 0) (faulting [storeCmd] []); ((t.core 0).matrix, (t.fn 0).err.prod)) = ([], 1)
    ∧ (let t := after (.apGatherStep 0) (faulting [] [apc 0x332 (gth 0x100 0x200 0x300)]); (readWord t (.win 1 0x300), readBytes t (.host 0x1004) 4))
      = (0x04000000, [0x10, 0, 0, 0]) := by decide +kernel

-- bags, root units and the crown
/-- A bag whose first share holds the record of one key and is full. -/
def fullHome : Bag := placeRecord { bag4 2 1 with cap := 1 } 2 (leBytes 8 2)
theorem witness_capacity_fallback : (let cs := fullHome.shares.map (·.c); let home := homeShare fullHome 2
    cs.getD home 0 < 0 + fullHome.slack ∧ cs.getD home 0 = fullHome.cap ∧ 0 ∈ cs ∧ (∀ y ∈ cs, 0 ≤ y)
    ∧ fullHome.shares.length = 2 ^ fullHome.lb ∧ (∀ h ∈ fullHome.shares, h.c ≤ fullHome.cap) ∧ fullHome.total < fullHome.cap * fullHome.shares.length) := by
  decide +kernel
theorem test_capacity_fallback : (homeShare fullHome 2, targetShare fullHome 2) = (0, 1) := by decide +kernel
theorem witness_root_window : (let c := mkCtx none 0 inv0.regs (Mask.full 32) hd
      (∀ k ∈ c.actives, ∀ j < 4, inv0.badLine root0 ((32 * inv0.block + k) * inv0.z + 4 + j) = false)
      ∧ windowFault inv0 false (memAddr c (addr .sp none 0 0x40) false 0) = none ∧ windowFault inv0 true (memAddr c (addr .sp none 0 0x40) false 0) = none
      ∧ (0 : Nat) + (64 + 7) / 8 ≤ inv0.size ∧ 3 < 64) ∧ ∀ o, ({ inv0 with kind := .each } : Inv).badLine root0 o = false :=
  ⟨by decide +kernel, fun _ => rfl⟩
/-- A tree over the slots. -/
def treeOf (s : State) (f : Nat) : Nat → Nat → Nat → Word
  | 0, p, e => (crownSlot s f p).getD e 0
  | n + 1, p, e => crownNode (treeOf s f n (2 * p) e) (treeOf s f n (2 * p + 1) e)
theorem witness_crown_tree : (∀ p, (crownSlot State.reset 0 p).length = 256) ∧ (∀ p e, treeOf State.reset 0 0 p e = (crownSlot State.reset 0 p).getD e 0)
    ∧ ∀ n p e, treeOf State.reset 0 (n + 1) p e = crownNode (treeOf State.reset 0 n (2 * p) e) (treeOf State.reset 0 n (2 * p + 1) e) :=
  ⟨fun _ => List.length_replicate, fun _ _ => rfl, fun _ _ _ => rfl⟩
/-- Page 1 is near memory of unit 0. -/
def near (s : State) : State := { s with mem := writeCells 0x6008 (leBytes 8 (2 ^ 63 + 2 ^ 62 + 2 ^ 59 + 2 ^ 58 + 0x20000)) tables }
/-- A run block of one entry: the first `n` bytes of page `p`, as records of 8 bytes. -/
def runBlk (p n : Nat) : List Byte := leBytes 2 1 ++ [1] ++ zeros 13 ++ leBytes 8 (65536 * p) ++ leBytes 4 n ++ zeros 4
theorem witness_run_entries : (let b := runBlk 1 64
      fieldB b 0 2 = 1 ∧ fieldB b 3 13 = 0 ∧ fieldB b 2 1 ≤ 5 ∧ fieldB b 16 8 = 0x10000 ∧ fieldB b 24 4 = 64
      ∧ nearPages (near (rooted (.run 0 0 0) b)) 0 0x10000 64 = .inr (0, [(0x20000, true)]))
    ∧ nearPages (rooted (.run 0 0 0) (runBlk 1 64)) 0 0x10000 64 = .inl 16 ∧ nearPages (rooted (.run 0 0 0) (runBlk 9 64)) 0 0x90000 64 = .inl 17
    ∧ fieldB (runBlk 1 0) 24 4 = 0 := by decide +kernel
theorem test_run_entries : (let t := after (.rootRunTake 5) (near (rooted (.run 0 7 0) (runBlk 1 64))); (t.unit 0).invs.map fun v => (v.nrec, v.param)) = [(8, 7)]
    ∧ readWord (after (.rootRunTake 5) (rooted (.run 0 0 0) (runBlk 1 64))) (.win 1 28) = 66 := by decide +kernel
/-- A block of four FP32 values of X from 0x200 on, and one entry of 64 rows of W from 0x10000 on, with Y from `y` on. -/
def bmacBlk (y : Nat) : List Byte := leBytes 4 0x200 ++ leBytes 2 4 ++ [0, 0, 0, 1] ++ zeros 22 ++ leBytes 8 0x10000 ++ leBytes 4 64 ++ leBytes 4 16 ++ leBytes 8 y ++ zeros 8
theorem witness_bmac_take : bmacFieldsOk (bmacBlk 0x11000) 65536 = true ∧ fieldB (bmacBlk 0x11000) 9 1 = 1
    ∧ bmacCheck (near (rooted (.bmac 0) (bmacBlk 0x11000))) 0 (bmacBlk 0x11000) 0 = .inr (0, [0x20000])
    ∧ bmacCheck (near (rooted (.bmac 0) (bmacBlk 0x11001))) 0 (bmacBlk 0x11001) 0 = .inl 4 ∧ bmacCheck (near (rooted (.bmac 0) (bmacBlk 0x91000))) 0 (bmacBlk 0x91000) 0 = .inl 3
    ∧ bmacCheck (rooted (.bmac 0) (bmacBlk 0x11000)) 0 (bmacBlk 0x11000) 0 = .inl 2
    ∧ ([4, 3, 2, 5].takeWhile (· ≠ 3)) = [4] := by decide +kernel
theorem test_bmac_take : (let t := after (.bmacTake 5) (near (rooted (.bmac 0) (bmacBlk 0x11000))); ((t.unit 0).bmacs.map fun e => (e.w, e.rows, e.y), t.rootCmds.map (·.left)))
      = ([(0x10000, 64, 0x11000)], [1])
    ∧ readWord (after (.bmacTake 5) (rooted (.bmac 0) (bmacBlk 0x11000))) (.win 1 12) = 10 := by decide +kernel
/-- The rows of a command with one entry, or two, left. -/
def bmacRowsState (next left : Nat) (bad : List Nat) : State :=
  let c : Machine.RootCmd := { id := 5, by_ := by0, op := .bmac 0, taken := true, left := left, k := 1, x := [0x3F800000] }
  let e : BmacEnt := { cmd := 5, w := 0x10000, rows := 33, stride := 4, y := 0x11000, wpages := [0x20000], next := next }
  ring { near (rooted (.bmac 0) []) with rootCmds := [c], units := [{ id := 0, bmacs := [e] }], badLines := bad }
theorem witness_bmac_ends : (∀ b ∈ [[], [0x20000 / 64]], (bmacRowsState 32 1 b).launch? 1 = some launch0 ∧ RingRoom (bmacRowsState 32 1 b) 0
      ∧ ((bmacRowsState 32 1 b).team? 1).map (fun t => t.waves) = some [wave0]
      ∧ (∀ p ∈ pagesOf (0x11000 + 4 * 32) 4, (walk (bmacRowsState 32 1 b) 0 p).map (fun x => leafMig x.2) = some false))
    ∧ (let s := bmacRowsState 0 2 [0x20000 / 64]
       ∀ e ∈ (s.unit 0).bmacs, ∀ c ∈ s.rootCmds, (rowErrors s c e [] 0).map (·.1) = [0x10000] ∧ rowErrors s c e [] 31 = [] ∧ outputFault s 0 e (e.y + 4 * 31) = none
         ∧ e.wait = none ∧ s.savedRoots = [] ∧ findVa s 0 0x10000 = .at_ (2 ^ 63 + 2 ^ 62 + 2 ^ 59 + 2 ^ 58 + 0x20000) (.dev 0x20000)) := by
  unfold RingRoom; decide +kernel
-- R187: one failing bank, bank 0 of unit 0, partial
theorem test_bmac_ends : (let t := after (.bmacRowGroup 0 []) (bmacRowsState 32 1 []); (t.rootCmds, (t.unit 0).bmacs, readWord t (.win 1 12))) = ([], [], 0)
    ∧ (let t := after (.bmacRowGroup 0 []) (bmacRowsState 32 2 []); (t.rootCmds.map (·.left), (t.unit 0).bmacs)) = ([1], [])
    ∧ (let t := after (.bmacRowGroup 0 []) (bmacRowsState 32 1 [0x20080 / 64]); (readWord t (.dev 0x21080), readWord t (.win 1 12))) = (0x7FC00E0E, 0x01000001)
    ∧ (let t := after (.bmacRowGroup 0 []) (bmacRowsState 32 2 [0x20080 / 64]); (t.fn 0).err.prod) = 1 := by decide +kernel

-- the system instructions, launches and pre-emption
theorem witness_system_reads : (unreadable core0 0 0 8192).isSome = true ∧ unreadable (mapped core0) 0 0x10000 8192 = none
    ∧ unreadable (mapped core0) 0 0x10000 8 = none ∧ unreadable (mapped core0) 0 0x10000 32 = none
    ∧ poolable core0 false 0x30000 = true ∧ poolable core0 true (2 ^ 48 + 0x30000) = true ∧ poolable core0 true 0x30000 = false := by decide +kernel
theorem test_pool_add : (let s := { mapped (core (U 2 0x10000)) with mem := writeCells 0x20000 (leBytes 8 0x30000) tables }
    let t := after (.poolAdd hd { rd := 4, sb := 2, sc := 0, n := 1 }) s
    let u := after (.poolAddCap hd { rd := 4, sb := 2, sc := 0, n := 1 }) s
    (S t 4, (t.fn 0).fast, S u 4, (u.fn 0).slow)) = (1, [0x30000], 0, []) := by decide +kernel
theorem witness_function_states : ((virt { state := .reset } core0).fn 3).state = .reset ∧ (virt {} core0).hasFn 3 = true
    ∧ (∀ k ∈ (virt {} core0).collects, k.fn ≠ 3) ∧ (2 ^ 56 : Nat) < 2 ^ 56 - 65536 + 65536 * 2
    ∧ (let b := leBytes 8 9 ++ leBytes 4 5 ++ [3, 0, 0, 0] ++ zeros 16
       (virt {} core0).ctime.toNat ≤ fieldB b 0 8 ∧ fieldB b 8 4 ≠ 0 ∧ (virt {} core0).hasFn (fieldB b 12 1) = true ∧ fieldB b 13 3 = 0 ∧ fieldB b 24 8 = 0)
    ∧ fieldB (zeros 32) 8 4 = 0 := by decide +kernel
-- R328: the order of the answers, and the reset of a function, for which the wave waits
theorem test_function_states : S (after (.vfStop hd { rd := 4, sb := 0, sc := 2, nb := 1 }) (virt { state := .reset } (core (U 2 3)))) 4 = 0x80000004
    ∧ (let t := after (.vfRst hd 2) (virt {} (core (U 2 3))); ((t.fn 3).state, (t.sysOps.map (·.resets)), (t.wave? r0).map (·.replies.length)))
      = (.reset, [some 3], some 1) := by decide +kernel
theorem witness_function_reset : (virt {} core0).recovery = false ∧ ((virt {} core0).fn 3).state ≠ .reset
    ∧ (let s := virt { state := .reset } core0
       (s.fn 3).state = .reset ∧ (s.fns.map (·.id)).Nodup ∧ (∀ g ∈ s.fns.map (·.id), g ≠ 3 → (s.fn g).state ≠ .reset) ∧ s.units = [] ∧ s.cores = []) := by
  decide +kernel
theorem test_function_reset : (finishResets (virt { state := .reset, dtab := some [] } core0)).fns.map (fun f => (f.state, f.dtab)) = [(.run, none), (.run, none)] := by
  decide +kernel

/-- A declared tile in page `p`, kept in memory, that may be read. -/
def declared (p : Nat) : Task := { index := 0, params := [9], phase := .waiting, tiles := [desc (65536 * p) 64 16 16 5 false] }
def declaring (p : Nat) : State := mapped (tasked [declared p])
theorem witness_declared_tiles : (let l : Launch := { launch0 with nt := 1, pool := 0x1010, params := [9], tasks := [declared 9] }
      (declared 9).tiles.findSome? (tileFault (declaring 9) l) = some 0x90000 ∧ (declared 2).tiles.findSome? (tileFault (declaring 2) l) = none
      ∧ dispatches (declaring 9) 0 = true)
    ∧ (taskPages (declared 2)).find? (fun p => match findVa (declaring 2) 0 (65536 * p) with
            | .at_ .. => false
            | _ => true) = some 2
    ∧ ({ declared 2 with wait := some 2, lost := true } : Task).preds = [] := by decide +kernel
-- R309: a region that is not mapped, one that is away, and one whose migration has failed
theorem test_declared_tiles : ((after (.taskStart 1 0) (declaring 9)).launches.flatMap fun l => l.tasks.map (·.phase)) = [.done]
    ∧ (let t := after (.taskStart 1 0) (declaring 2); (t.launches.flatMap fun l => l.tasks.map (·.wait), t.migrations.map (·.page))) = ([some 2], [2])
    ∧ ((after (.taskStart 1 0) (mapped (tasked [{ declared 2 with wait := some 2, lost := true }]))).launches.flatMap fun l => l.tasks.map (·.phase)) = [.done] := by
  decide +kernel
/-- The save area is page 2, which is away. -/
def awaySave : State := { mapped core0 with fns := [{ wholeFn with save := 0x20000, saveLen := 0x1000, svs := 0x48, svr := 0x48 }], collects := [{}] }
theorem witness_preempt_away : areaOf awaySave 0 (saveRanges awaySave {}) = .away 2 ∧ ({} : Collect).begun = false ∧ ({} : Collect).wait = none := by decide +kernel
theorem test_preempt_away : (let t := after (.preemptRequest 0) awaySave; (t.collects.map (·.wait), t.migrations.map (·.page))) = ([some 2], [2]) := by decide +kernel
theorem witness_engine_idle : (apc 0x330 (cpy 0)).midUnit = false ∧ (stopping.team? 1).map (·.done) = some false
    ∧ stopping.teams.length = 1 ∧ col1.teams = [1] := by decide +kernel
theorem witness_orders : launchTurn { queued 1 with served := some 0 } = some 0 ∧ (queued 1).fns.map (·.id) = ((queued 1).fns.map (·.id)).mergeSort := by decide +kernel

-- host services
def retraining : State := { core0 with rates := (core0.rates.set 2 { st := 2, want := some 3200 }) }
theorem witness_retraining : retraining.rates[2]? = some { st := 2, want := some 3200 } ∧ rateAllowed 6400 = true
    ∧ (6400 : BitVec 16) ≠ ((({ st := 2, want := some 3200 } : Rate).next.or (some 3200)).getD 12800) := by decide +kernel
theorem test_retraining : ((after (.srateWrite 2 6400) retraining).rates.getD 2 {}) = { st := 2, want := some 3200, next := some 6400 }
    ∧ ((after (.stackRetrainingEnd 2) (after (.srateWrite 2 6400) retraining)).rates.getD 2 {}) = { mbps := 3200, want := some 6400 } := by decide +kernel
theorem witness_recovery : ({ core0 with recovery := true } : State).recovery = true := rfl
theorem test_recovery : ((after (.pcapWrite 2000) { core0 with recovery := true }).pcap, (after .attestReport { core0 with recovery := true }).mailbox.sts) = (4800, 0) := by
  decide +kernel
-- R332: the two halves of MINFO of the full part
theorem test_bar0 : ((bar0Access core0 0 0x13000 false none).lastBar0, (bar0Access core0 0 0x13004 false none).lastBar0.toNat)
    = (0xFFFFFFFF, 64 * 2 ^ 22 + 4096 * 2 ^ 9 + 256) := by decide +kernel
theorem witness_retire : (1024 * 5 : Nat) / 1024 ∉ core0.retired ∧ (1024 * 5 : Nat) / 1024 ∉ core0.volatileRetired
    ∧ (List.replicate 15 ((5 : Nat), (0 : Nat))).length = 15 ∧ (0 : Nat) < 0 + Config.dayCycles
    ∧ (let s : State := { mapped core0 with toRetire := [2], pinned := [(0, 1)] }; (0, 1) ∈ frameUsers s 2 ∧ unpinned s (0, 1) = false) := by decide +kernel
theorem test_pinned_frame : (after .frameRetirement { mapped core0 with toRetire := [2], pinned := [(0, 1)] }).toRetire = [2] := by decide +kernel
theorem witness_replay : ({ replay := List.replicate 512 ({ ctx := 0, kind := 4, ack := 0, seq := 0, payload := [] }, 0) } : Link).replay.length = 512
    ∧ (6 : Nat) ≤ (flitOf (flit 9 0)).kind.toNat ∧ (flitOf (flit 0 0)).kind.toNat = 0 ∧ (flitOf (flit 5 0)).kind.toNat = 5
    ∧ crcOk (flit 9 0) = true ∧ crcOk (flit 0 0) = true ∧ crcOk (flit 5 0) = true := by decide +kernel
theorem test_send_command : (let l := link1 (sendCommand (linked { st := 2 }) 1 0 3 [[1], [2]]); (l.seq, l.out.map fun f => (f.seq, f.kind, f.ctx)))
    = (1, [(0, 1, 3), (1, 3, 3)]) := by decide +kernel
-- R33: a count that a stop has released still holds a `wait`, but not in save mode; R320: the mask that a header cleared
theorem test_wait_stopped : (lane (after (.wait hd (.zero 4)) (coreWave fun w => { w with stopped := [(.cp, 3)] })) 0).run = .parked (.wait 63 63 0 63 0x108)
    ∧ ({ stopped := [(.cp, 3)] } : Wave).owes .save .cp = 0 ∧ ({ cleared := some (4, 2, 1) } : Wave).unpassed.wmV = 4 := by decide +kernel

-- what special registers, comparisons and functions give
theorem witness_special_values : (mkCtx (some r0) 0 wave0.regs 0xFF hd).ref = some r0 ∧ core0.wave? r0 = some wave0
    ∧ core0.team? r0.team = some team0 ∧ core0.launch? team0.launch = some launch0 ∧ wave0.lanes[7]? = some lane0
    ∧ (∀ k ∈ [Ctr.ld, .st, .cp, .tl], wave0.ctr k < 64) ∧ (mkCtx (some r0) 0 wave0.regs 0xFF hd).e ≠ 0
    ∧ (0x04 : Nat) ∈ [0x04, 0x0A, 0x0B, 0x0C] := by decide +kernel
/-- Floating-point operands of every kind that the claims tell apart. -/
theorem witness_float_kinds : (∀ f ∈ [f32, f16, bf16, e5m2], (f.val f.nan).isNan = true ∧ f.val (f.inf true) = .inf true ∧ f.val 0 = .zero false)
    ∧ f32.val 0x7F800001 = .nan true ∧ f32.val 0xFF800000 = .inf true ∧ f32.val 0x80000000 = .zero true
    ∧ f32.val 0x3F800000 = .fin false 0x800000 (-23) ∧ f32.val 0xBF800000 = .fin true 0x800000 (-23)
    ∧ f32.val 1 = .fin false 1 (-149) ∧ f32.val 0x7F7FFFFF = .fin false 0xFFFFFF 104 ∧ e4m3.val 0x7F = .nan false := by decide +kernel
theorem witness_selections : (f32.val 0x80000000).far = (f32.val 0).far ∧ (f32.val 0x80000000).neg = true ∧ (f32.val 0).neg = false
    ∧ (f32.val 0x7F7FFFFF).far < (f32.val 0x7F800000).far ∧ (f32.val 0xFF800000).far < (f32.val 0xFF7FFFFF).far
    ∧ (f32.val 0x7F7FFFFF).isNan = false ∧ (0xFFFFFFFF : Nat) < 2 ^ f32.width := by decide +kernel
theorem witness_function_tables : (2 : ℚ) ^ 30 ≤ |(f32.val 0x4E800000).num| ∧ |(f32.val 0x4E7FFFFF).num| < 2 ^ 30
    ∧ (f32.val 0x42FE0000).num = 127 ∧ (f32.val 0x43000000).num = 128 ∧ (f32.val 0xC3150000).num = -149 ∧ (f32.val 0xC3160000).num = -150
    ∧ (f32.val 0x3F800000).num = (2 : ℚ) ^ (0 : ℤ) ∧ (f32.val 1).num = (2 : ℚ) ^ (-149 : ℤ) := by decide +kernel
theorem witness_functions_of_reals : f32.val 0x3FC00000 = .fin false 0xC00000 (-23) ∧ |(((f32.val 0x3FC00000).num : ℚ) : ℝ)| < 2 ^ 10
    ∧ (((f32.val 0x3FC00000).num : ℚ) : ℝ) ≠ 1 := by
  have h : (f32.val 0x3FC00000).num = 3 / 2 := by decide +kernel
  rw [h]
  exact ⟨by decide +kernel, by norm_num [abs_lt], by norm_num⟩
theorem witness_conversions : (f32.val 0x4F000000).num = 2 ^ 31 ∧ (f32.val 0xCF000000).num = -2 ^ 31 ∧ (f32.val 0x3F000000).num = 1 / 2
    ∧ (∀ x ∈ [0x40E00000, 0], (f32.val x).isNan = false ∧ ∀ n, f32.val x ≠ .inf n) ∧ (∃ x ∈ [0x7F800000], ¬ ∀ n, f32.val x ≠ .inf n)
    ∧ (f32.val 0x40E00000).num / 2 ^ ((32 : ℤ) - 32) = 7 ∧ (62 : Nat) < 63 := by decide +kernel
-- R211: a code's neighbours, as the stochastic choice has them
theorem witness_stochastic_code : (0 : ℚ) ≤ codeVal 0 2 * (5 / 2) ∧ |codeVal 0 2| ≤ |(5 / 2 : ℚ)| ∧ |(5 / 2 : ℚ)| < |codeVal 0 3|
    ∧ (∀ c < 16, 0 ≤ codeVal 0 c * (5 / 2) → |codeVal 0 c| ≤ |codeVal 0 2| ∨ |codeVal 0 3| ≤ |codeVal 0 c|)
    ∧ codeVal 0 8 = -8 ∧ codeVal 2 7 = 16 ∧ codeVal 2 8 = 0 := by decide +kernel
theorem witness_xacc_trap : ∃ c ∈ contexts (core fun r => { r with fflags := 0x00003F00, x := { nan := true } }) iss0 hd,
    c.e ≠ 0 ∧ (if c.ref = none then 0 else (c.r.x.read c.mode).2 &&& c.r.fflags.extractLsb' 8 6) ≠ 0 :=
  ⟨_, List.mem_cons_self, by decide +kernel⟩
/-- An update in flight before a load of the word that it adds to. -/
def pendUpd : PendStore := { id := 4, elems := [{ loc := .dev 0x20000, val := .upd .add 1 }] }
theorem witness_load_after_update : (let s := inFlight [pend] [pendUpd]; s.MemWf ∧ pendUpd.id < pend.id
    ∧ (s.team? 1).map (fun t => (t.staged, s.isDet t)) = some ([], false) ∧ Loc.reachable s (.dev 0x20000) = true ∧ s.badLines = []
    ∧ (s.wave? r0).map (fun w => (w.stores, w.loads, w.allEnded)) = some ([pendUpd], [pend], false) ∧ pend.rmt = false) := by
  unfold State.MemWf; decide +kernel
-- R139: the load has the update performed, and reads the word that it wrote
theorem test_load_after_update : (let s := inFlight [pend] [pendUpd]; let t := after (.loadComplete r0 5) s
    (V t 3 0, readWord t (.dev 0x20000))) = (readWord (inFlight [] []) (.dev 0x20000) + 1, readWord (inFlight [] []) (.dev 0x20000) + 1) := by decide +kernel
-- R290, R291: a store, an atomic on the same word and a barrier, in this order, leave both in effect
theorem test_barrier_order : readWord (after (.storeRetire r0 false) (after (.barTeam hd) (inFlight [pendAtom] [{ pendSt with id := 4 }]))) (.dev 0x20000)
    = 0x04030202 := by decide +kernel
/-- A gang of two teams. -/
def paired : State := { core0 with launches := [{ launch0 with gt := 2 }], teams := [team0, { team0 with id := 2, team := 1, winSize := 4096 }] }
theorem witness_gang_teams : core0.team? r0.team = some team0 ∧ (paired.launch? 1).map (·.gt) = some 2
    ∧ (gangTeam paired r0 1).map (·.winSize) = some 4096 ∧ gangTeam paired r0 2 = none ∧ gangTeam core0 r0 0 = some team0 ∧ gangTeam core0 r0 1 = none := by decide +kernel
-- R135: the last word of a window, the address past it, a team that is not there, and the ends of the nibble forms
theorem test_gang_window : (let f : MemForm := { sp := .gw, size := 4, rd := true, wr := false }
      [0xFFFC, 0x10000, 0xFFFA, 0x1000FFC, 0x1001000, 0x2000000, -4].map fun a => ((stepOne paired r0 f a).map (·.cause)).getD 0) = [0, 8, 7, 0, 8, 8, 8]
    ∧ (let f : MemForm := { sp := .sp, size := 1, nib := true, rd := true, wr := false }
      [0x1FFFF, 0x20000, -1].map fun a => ((stepOne paired r0 f a).map (·.cause)).getD 0) = [0, 8, 8] := by decide +kernel
/-- A bag, and a wave of a deterministic launch. -/
def detBag : State := { bagged (bag4 1 64) core0 with launches := [{ launch0 with det := true }] }
theorem witness_deterministic_bags : isDetCtx detBag c0 = true ∧ c0.e ≠ 0 ∧ putChecks { fp := 0, nf := false, sco := .dev, sb := 0, va := 1 } detBag c0 = []
    ∧ putRecords { fp := 0, nf := false, sco := .dev, sb := 0, va := 1 } detBag c0 ≠ [] ∧ wave0.loads = [] ∧ wave0.stores = [] ∧ wave0.st = []
    ∧ wave0.joint = [] ∧ team0.failed = false
    ∧ team0.stagedBytes + ((putRecords { fp := 0, nf := false, sco := .dev, sb := 0, va := 1 } detBag c0).map fun x => 32 + x.2.2.length).sum ≤ stagingSize := by
  decide +kernel
-- R159, R164
theorem test_deterministic_bags : (lane (after (.bagPut hd { fp := 1, nf := true, sco := .dev, sb := 0, va := 1 }) detBag) 0).tcause = 0x0C01
    ∧ ((after (.bagPut hd { fp := 0, nf := false, sco := .dev, sb := 0, va := 1 }) detBag).team? 1).map (·.stagedBytes) = some 320 := by decide +kernel
theorem witness_bag_retires : (∀ op ∈ [BagOp.snap, .each 0 0], (taking one op).bagCmds.map (·.lost) = [false]) ∧ one.drain = none ∧ one.anyBusy = false
    ∧ (∀ x ∈ one.shares, x.snap = 0) ∧ (∃ x ∈ snapped.shares, x.snap ≠ 0) ∧ (bag4 1 64).total * (bag4 1 64).z = 0 ∧ (bag4 1 64).anyBusy = false
    ∧ one.sealed = false ∧ one.total + 1 ≤ one.cap * one.shares.length ∧ one.cap ≤ 2 ^ 20 ∧ findBag (taking one .snap) 0 0 = some one
    ∧ (let s : State := { taking one (.each 0 0x48) with launches := [launch0] }; rootTarget s 0 (0xF8 + 0x48) = .good)
    ∧ (let s : State := { taking one .snap with fns := [{}] }; findBag s 0 0 = none ∧ s.hasFn 0 = true) := by decide +kernel
-- R164, R165: the records of a bag that holds 4 more, of 5; a growth to the same capacity; a handle that names no bag
theorem test_bag_retires : ((after (.bagPutTake 5) (taking { one with cap := 1 } (.put true ((List.range 4).map fun k => (k, BitVec.ofNat 32 k, leBytes 8 k))))).arrivals.map (·.ans))
      = [.accepted [3]]
    ∧ ((after (.bagGrowTake 5) (taking one (.grow 64))).arrivals.map (·.ans)) = [.reply 0]
    ∧ ((after (.bagCntTake 5) { taking one (.cnt 0 0) with fns := [{}] }).arrivals.map (·.ans)) = [.reply 0x80000006] := by decide +kernel
theorem witness_answer_to_nf : (answered (.accepted [1]) (.answer [] (some (2, [0, 1], [2], 0xFF)))).arrivals.map (·.ans) = [.accepted [1]]
    ∧ 2 < regs0.p.length ∧ regs0.width ≤ 64 := by decide +kernel
-- R164: lane 1's record had no room
theorem test_answer_to_nf : P (after (.bagAnswerArrival 5) (answered (.accepted [1]) (.answer [] (some (2, [0, 1], [2], 0xFF))))) 2 = 2 := by decide +kernel
theorem witness_root_keeps : ∀ r ∈ waitingInv.savedRoots, r.unit = 0 → r.by_.fn = 0 → r.begun = false := by decide +kernel
/-- A command that sums the crown into the gang window's second team. -/
def gangSum : State := { rooted (.sum false true 0x1000040) [] with
  launches := [{ launch0 with gt := 2 }], teams := [team0, { team0 with id := 2, team := 1 }] }
theorem witness_gang_sum : (gangTeam gangSum ⟨1, 0⟩ (0x1000040 / 2 ^ 24)).map (·.id) = some 2 ∧ (gangSum.team? 2).map (fun t => Memory.wf t.win) = some true
    ∧ (crownSum State.reset 0).length = 256 ∧ (0x1000040 : Nat) % 2 ^ 24 = 0x40 := by decide +kernel
/-- The rows of an entry whose output page is away. -/
def awayRows : State :=
  let c : Machine.RootCmd := { id := 5, by_ := by0, op := .bmac 0, taken := true, left := 1, k := 1, x := [0x3F800000] }
  let e : BmacEnt := { cmd := 5, w := 0x10000, rows := 33, stride := 4, y := 0x20000, wpages := [0x20000] }
  { near (rooted (.bmac 0) []) with rootCmds := [c], units := [{ id := 0, bmacs := [e] }] }
theorem witness_bmac_waits : findVa awayRows 0 0x20000 = .away 2 ∧ pagesOf (0x20000 + 4 * 0) (4 * min 32 (33 - 0)) = [2] ∧ awayRows.savedRoots = []
    ∧ (walk awayRows 0 2).map (fun x => leafMig x.2) = some false := by decide +kernel
theorem test_bmac_waits : (let t := after (.bmacRowGroup 0 []) awayRows; ((t.unit 0).bmacs.map (·.wait), t.migrations.map fun m => (m.page, m.up)))
    = ([some 2], [(2, true)]) := by decide +kernel
/-- A launch whose task is done, whose ended wave has an update outstanding. -/
def endedUpd : State := { ended 0 with
  teams := [{ team0 with done := true, waves := [{ wave0 with lanes := wave0.lanes.map fun (l : Lane) => { l with run := .ended }, stores := [pendUpd] }] }] }
theorem witness_launch_flush : (endedUpd.launch? 1).map (launchDone endedUpd) = some true ∧ endedUpd.hasFn 0 = true ∧ (endedUpd.fn 0).state ≠ .reset
    ∧ (∀ x ∈ (ended 0).teams, x.launch = 1 → ∀ w ∈ x.waves, w.loads = [] ∧ w.stores = []) := by decide +kernel
-- R298
theorem test_launch_flush : readWord (after (.launchComplete 1) endedUpd) (.dev 0x20000) = readWord endedUpd (.dev 0x20000) + 1 := by decide +kernel
theorem witness_half_quota : (virt { qWrite := some 5 } core0).hasFn 0 = true ∧ (virt { qWrite := some 5 } core0).recovery = false ∧ (0x12060 : Nat) % 8 = 0
    ∧ regHeld (virt { qWrite := some 5 } core0) 0 0x12060 = 5 := by decide +kernel
-- R329: the upper half of a quota, over the lower half that is written and not yet in force
theorem test_half_quota : (bar0Access (virt { qWrite := some 5 } core0) 0 0x12064 false (some 7)).agenda.head? = some (.event (.sqWrite 3 0x700000005)) := by
  decide +kernel
end Sys2Proof.Tests
end

section
/-! SUPPORT. Traps in lanes that are in trap mode already: a barrier is released at most once, no operation of a double
trap brings an ended lane back, and so O22: a barrier in trap mode ends the lanes of E. -/
namespace Sys2Proof.Machine

/-! ### Releasing a lane and a team (R27) -/

theorem Lane.release_of_not_arrived {gang : Bool} {l : Lane} (h : (bif gang then l.gangArr else l.teamArr) = false) :
    l.release gang = l := by
  simp [Lane.release, h]

/-- A release takes the lane's arrival at that barrier back; it does not end the lane, or change its mode. -/
theorem Lane.release_fields (gang : Bool) (l : Lane) :
    (l.release gang).mode = l.mode ∧ (l.release gang).ended = l.ended
      ∧ (l.release gang).teamArr = (gang && l.teamArr) ∧ (l.release gang).gangArr = (!gang && l.gangArr) := by
  cases h : (bif gang then l.gangArr else l.teamArr)
  · rw [Lane.release_of_not_arrived h]
    cases gang <;> simp_all
  · simp only [Lane.release, h, if_true]
    cases gang <;> dsimp only [cond_true, cond_false] <;> split <;> simp_all [Lane.goTo, Lane.ended]

@[simp] theorem Lane.release_mode (gang : Bool) (l : Lane) : (l.release gang).mode = l.mode := (l.release_fields gang).1
@[simp] theorem Lane.release_ended (gang : Bool) (l : Lane) : (l.release gang).ended = l.ended := (l.release_fields gang).2.1
@[simp] theorem Lane.release_teamArr (gang : Bool) (l : Lane) : (l.release gang).teamArr = (gang && l.teamArr) :=
  (l.release_fields gang).2.2.1
@[simp] theorem Lane.release_gangArr (gang : Bool) (l : Lane) : (l.release gang).gangArr = (!gang && l.gangArr) :=
  (l.release_fields gang).2.2.2

theorem Lane.release_release (gang : Bool) (l : Lane) : (l.release gang).release gang = l.release gang :=
  Lane.release_of_not_arrived (by cases gang <;> simp)

@[simp] theorem Team.release_id (gang : Bool) (t : Team) : (t.release gang).id = t.id := rfl
@[simp] theorem Team.release_launch (gang : Bool) (t : Team) : (t.release gang).launch = t.launch := rfl
@[simp] theorem Team.release_task (gang : Bool) (t : Team) : (t.release gang).task = t.task := rfl

theorem Team.release_release (gang : Bool) (t : Team) : (t.release gang).release gang = t.release gang := by
  simp [Team.release, Function.comp_def, Lane.release_release]

@[simp] theorem Team.release_unsaved (gang : Bool) (t : Team) : (t.release gang).unsaved = t.unsaved := by
  simp [Team.release, Team.unsaved, Wave.allEnded, Function.comp_def]

@[simp] theorem Team.release_someAt_same (gang : Bool) (t : Team) : (t.release gang).someAt gang = false := by
  cases gang <;> simp [Team.release, Team.someAt]

/-- The team barrier is to be released. -/
def Team.due (t : Team) : Bool := t.unsaved && t.allAt false && t.someAt false

theorem Team.due_release_false (t : Team) : (t.release false).due = false := by
  simp [Team.due]

/-- The gang barrier's release leaves the team barrier as it is. -/
theorem Team.due_release_true (t : Team) : (t.release true).due = t.due := by
  have hall : (t.release true).allAt false = t.allAt false := by
    simp [Team.release, Team.allAt, Function.comp_def]
  have hsome : (t.release true).someAt false = t.someAt false := by
    simp [Team.release, Team.someAt, Function.comp_def]
  simp only [Team.due, hall, hsome, Team.release_unsaved]

/-- The gang barrier's release in a team, if the list names it. -/
def Team.releaseIn (ids : List Nat) (t : Team) : Team := if t.id ∈ ids then t.release true else t

theorem Team.releaseIn_cases (ids : List Nat) (t : Team) :
    t.id ∈ ids ∧ t.releaseIn ids = t.release true ∨ t.id ∉ ids ∧ t.releaseIn ids = t := by
  by_cases h : t.id ∈ ids <;> simp [Team.releaseIn, h]

/-- A release, made or not, leaves the team's place and its team barrier as they are. -/
theorem Team.releaseIn_fields (ids : List Nat) (t : Team) :
    (t.releaseIn ids).id = t.id ∧ (t.releaseIn ids).launch = t.launch ∧ (t.releaseIn ids).task = t.task
      ∧ (t.releaseIn ids).due = t.due := by
  obtain ⟨-, h⟩ | ⟨-, h⟩ := t.releaseIn_cases ids <;> simp [h, Team.due_release_true]

/-! ### Changing teams -/

/-- Every team is changed. -/
def State.mapTeams (s : State) (f : Team → Team) : State := { s with teams := s.teams.map f }

@[simp] theorem State.mapTeams_teams (s : State) (f : Team → Team) : (s.mapTeams f).teams = s.teams.map f := rfl

theorem State.team?_mapTeams {f : Team → Team} (hid : ∀ x, (f x).id = x.id) (s : State) (u : Nat) :
    (s.mapTeams f).team? u = (s.team? u).map f := by
  simp [State.team?, List.find?_map, hid]

theorem State.team?_id {s : State} {u : Nat} {t : Team} (h : s.team? u = some t) : t.id = u := by
  simpa using List.find?_some h

theorem State.team?_modTeam {g : Team → Team} (hid : ∀ x, (g x).id = x.id) (s : State) (t u : Nat) :
    (s.modTeam t g).team? u = (s.team? u).map fun x => bif x.id == t then g x else x :=
  State.team?_mapTeams (fun x => by cases x.id == t <;> simp [hid]) s u

theorem State.team?_modTeam_same {g : Team → Team} (hid : ∀ x, (g x).id = x.id) {s : State} {u : Nat} {t : Team}
    (h : s.team? u = some t) : (s.modTeam u g).team? u = some (g t) := by
  simp [State.team?_modTeam hid, h, State.team?_id h]

/-- Releases of teams, one after the other, are one release in each team that the list names. -/
theorem foldl_release (xs : List Team) (s : State) :
    xs.foldl (fun s x => s.modTeam x.id (Team.release true)) s = s.mapTeams (Team.releaseIn (xs.map (·.id))) := by
  induction xs generalizing s with
  | nil =>
    have hid : Team.releaseIn [] = id := funext fun y => by simp [Team.releaseIn]
    simp [State.mapTeams, hid]
  | cons x xs ih =>
    rw [List.foldl_cons, ih]
    simp only [State.mapTeams, State.modTeam, List.map_map, List.map_cons]
    congr 1
    refine List.map_congr_left fun y _ => ?_
    rw [Function.comp_apply]
    cases hx : y.id == x.id
    · simp [Team.releaseIn, beq_eq_false_iff_ne.1 hx]
    · simp [Team.releaseIn, beq_iff_eq.1 hx, Team.release_release]

/-! ### A barrier that is not due -/

/-- The teams of a team's gang. -/
def State.gang (s : State) (t : Team) : List Team := s.teams.filter fun x => x.launch == t.launch && x.task == t.task

/-- The gang barrier of a team's gang is to be released. -/
def State.gangDue (s : State) (t : Team) : Bool :=
  (s.gang t).length = ((s.launch? t.launch).map fun l => max 1 l.gt).getD 1 && (s.gang t).all Team.unsaved
    && (s.gang t).all (Team.allAt · true) && (s.gang t).any (Team.someAt · true)

/-- The release of a gang's barrier, in each of its teams. -/
def State.releaseGang (s : State) (t : Team) : State := s.mapTeams (Team.releaseIn ((s.gang t).map (·.id)))

/-- Neither barrier of the team is due. -/
def State.NoBarrierDue (s : State) (team : Nat) : Prop := ∀ t, s.team? team = some t → t.due = false ∧ s.gangDue t = false

/-- `checkBarriers` looks at the team barrier and then at the gang barrier. -/
theorem checkBarriers_eq {s : State} {team : Nat} {t : Team} (ht : s.team? team = some t) :
    let s' := bif t.due then s.modTeam team (Team.release false) else s
    checkBarriers s team = bif s'.gangDue t then s'.releaseGang t else s' := by
  simp only [checkBarriers, ht, foldl_release, State.gangDue, State.gang, State.releaseGang, Team.due,
    Bool.cond_eq_ite]

theorem State.NoBarrierDue.checkBarriers_eq {s : State} {team : Nat} (h : s.NoBarrierDue team) : checkBarriers s team = s := by
  cases ht : s.team? team with
  | none => simp [checkBarriers, ht]
  | some t =>
    obtain ⟨hteam, hgang⟩ := h t ht
    simp [Machine.checkBarriers_eq ht, hteam, hgang]

theorem State.gang_congr (s : State) {t u : Team} (hl : u.launch = t.launch) (hk : u.task = t.task) : s.gang u = s.gang t := by
  simp only [State.gang, hl, hk]

theorem State.gangDue_congr (s : State) {t u : Team} (hl : u.launch = t.launch) (hk : u.task = t.task) :
    s.gangDue u = s.gangDue t := by
  simp only [State.gangDue, s.gang_congr hl hk, hl]

/-- Whether a barrier is due depends on the teams, and on the sizes of the launches' gangs. -/
theorem State.NoBarrierDue.congr {s s' : State} {team : Nat} (hs : s'.teams = s.teams)
    (hl : ∀ k, (s'.launch? k).map (·.gt) = (s.launch? k).map (·.gt)) (h : s.NoBarrierDue team) : s'.NoBarrierDue team := by
  intro t ht
  have hgt : ((s'.launch? t.launch).map fun l => max 1 l.gt) = (s.launch? t.launch).map fun l => max 1 l.gt := by
    simpa [Function.comp_def] using congrArg (Option.map (max 1)) (hl t.launch)
  have hgang : s'.gang t = s.gang t := by simp only [State.gang, hs]
  simp only [State.gangDue, hgang, hgt]
  exact h t (by simpa only [State.team?, hs] using ht)

/-- The release of a gang's barrier leaves no lane of its teams that has arrived there. -/
theorem gangDue_releaseGang (s : State) (t : Team) : (s.releaseGang t).gangDue t = false := by
  have hnone : ((s.releaseGang t).gang t).any (Team.someAt · true) = false := by
    rw [List.any_eq_false]
    intro y hy
    rw [State.gang, List.mem_filter, State.releaseGang, State.mapTeams_teams, List.mem_map] at hy
    obtain ⟨⟨x, hx, rfl⟩, hmate⟩ := hy
    obtain ⟨-, hl, hk, -⟩ := x.releaseIn_fields ((s.gang t).map (·.id))
    rw [hl, hk] at hmate
    obtain ⟨-, h⟩ | ⟨h, -⟩ := x.releaseIn_cases ((s.gang t).map (·.id))
    · simp [h]
    · exact absurd (List.mem_map_of_mem (List.mem_filter.2 ⟨hx, hmate⟩)) h
  rw [State.gangDue, hnone, Bool.and_false]

theorem noBarrierDue_releaseGang {s : State} {team : Nat} {t : Team} (ht : s.team? team = some t) (hdue : t.due = false) :
    (s.releaseGang t).NoBarrierDue team := by
  intro u hu
  rw [State.releaseGang, State.team?_mapTeams fun x => (x.releaseIn_fields _).1, ht, Option.map_some, Option.some.injEq] at hu
  subst hu
  obtain ⟨-, hl, hk, hd⟩ := t.releaseIn_fields ((s.gang t).map (·.id))
  exact ⟨hd.trans hdue, ((s.releaseGang t).gangDue_congr hl hk).trans (gangDue_releaseGang s t)⟩

/-- R27: once a team's barriers have been looked at, neither is due. -/
theorem noBarrierDue_checkBarriers (s : State) (team : Nat) : (checkBarriers s team).NoBarrierDue team := by
  cases ht : s.team? team with
  | none =>
    simp only [checkBarriers, ht]
    exact fun t h => absurd (ht.symm.trans h) nofun
  | some t =>
    rw [checkBarriers_eq ht]
    generalize hs' : (bif t.due then s.modTeam team (Team.release false) else s) = s'
    obtain ⟨u, hu, hdue, hl, hk⟩ : ∃ u, s'.team? team = some u ∧ u.due = false ∧ u.launch = t.launch ∧ u.task = t.task := by
      subst hs'
      cases hd : t.due
      · exact ⟨t, ht, hd, rfl, rfl⟩
      · exact ⟨t.release false, State.team?_modTeam_same (Team.release_id false) ht, t.due_release_false, rfl, rfl⟩
    cases hgang : s'.gangDue t
    · intro v hv
      obtain rfl : u = v := Option.some.inj (hu.symm.trans hv)
      exact ⟨hdue, (s'.gangDue_congr hl hk).trans hgang⟩
    · have hsame : s'.releaseGang t = s'.releaseGang u := by
        rw [State.releaseGang, State.releaseGang, s'.gang_congr hl hk]
      exact hsame ▸ noBarrierDue_releaseGang hu hdue

/-! ### What a lane keeps -/

/-- The lane `l'` has the mode of `l`, has arrived at no barrier that `l` had not, and has ended if `l` had. -/
structure Lane.Keeps (l l' : Lane) : Prop where
  mode : l'.mode = l.mode
  teamArr : l.teamArr = false → l'.teamArr = false
  gangArr : l.gangArr = false → l'.gangArr = false
  ended : l.run = .ended → l'.run = .ended

theorem Lane.Keeps.refl (l : Lane) : l.Keeps l := ⟨rfl, id, id, id⟩

theorem Lane.Keeps.trans {l l' l'' : Lane} (h : l.Keeps l') (h' : l'.Keeps l'') : l.Keeps l'' :=
  ⟨h'.mode.trans h.mode, h'.teamArr ∘ h.teamArr, h'.gangArr ∘ h.gangArr, h'.ended ∘ h.ended⟩

theorem Lane.keeps_advance (n : Nat) (l : Lane) : l.Keeps (l.advance n) := ⟨rfl, id, id, id⟩

theorem Lane.keeps_release (gang : Bool) (l : Lane) : l.Keeps (l.release gang) where
  mode := l.release_mode gang
  teamArr h := by simp [h]
  gangArr h := by simp [h]
  ended h := by simpa [Lane.ended, h] using l.release_ended gang

/-- The lane `k` of the wave `r`. -/
def State.lane? (s : State) (r : WaveRef) (k : Nat) : Option Lane := (s.wave? r).bind fun w => w.lanes[k]?

/-- The lane `k` of the team's wave `i`. -/
def Team.lane? (t : Team) (i k : Nat) : Option Lane := t.waves[i]?.bind fun w => w.lanes[k]?

theorem State.lane?_eq (s : State) (r : WaveRef) (k : Nat) : s.lane? r k = (s.team? r.team).bind fun t => t.lane? r.wave k := by
  simp only [State.lane?, State.wave?, Team.lane?, Option.bind_assoc]

/-- Every lane of `s` is in `s'` and has kept what `Lane.Keeps` says; the issue in progress is the same. -/
structure State.Keeps (s s' : State) : Prop where
  issue : s'.issue = s.issue
  lanes : ∀ r k l, s.lane? r k = some l → ∃ l', s'.lane? r k = some l' ∧ l.Keeps l'

theorem State.Keeps.refl (s : State) : s.Keeps s := ⟨rfl, fun _ _ l h => ⟨l, h, .refl l⟩⟩

theorem State.Keeps.trans {s s' s'' : State} (h : s.Keeps s') (h' : s'.Keeps s'') : s.Keeps s'' where
  issue := h'.issue.trans h.issue
  lanes r k l hl := by
    obtain ⟨l', hl', hk⟩ := h.lanes r k l hl
    obtain ⟨l'', hl'', hk'⟩ := h'.lanes r k l' hl'
    exact ⟨l'', hl'', hk.trans hk'⟩

theorem State.Keeps.of_teams {s s' : State} (hi : s'.issue = s.issue) (ht : s'.teams = s.teams) : s.Keeps s' :=
  ⟨hi, fun r k l h => ⟨l, by simpa only [State.lane?_eq, State.team?, ht] using h, .refl l⟩⟩

theorem State.Keeps.foldl {α : Type} {f : State → α → State} (hf : ∀ (s : State) x, s.Keeps (f s x)) (xs : List α) (s : State) :
    s.Keeps (xs.foldl f s) := by
  induction xs generalizing s with
  | nil => exact .refl s
  | cons x xs ih => exact (hf s x).trans (ih _)

/-- The team keeps its number, and its lanes what `Lane.Keeps` says. -/
structure Team.Keeps (t t' : Team) : Prop where
  id : t'.id = t.id
  lanes : ∀ i k l, t.lane? i k = some l → ∃ l', t'.lane? i k = some l' ∧ l.Keeps l'

theorem Team.Keeps.of_waves {t t' : Team} (hid : t'.id = t.id) (hw : t'.waves = t.waves) : t.Keeps t' :=
  ⟨hid, fun i k l h => ⟨l, by simpa only [Team.lane?, hw] using h, .refl l⟩⟩

theorem Team.keeps_release (gang : Bool) (t : Team) : t.Keeps (t.release gang) where
  id := rfl
  lanes i k l h := by
    refine ⟨l.release gang, ?_, l.keeps_release gang⟩
    simp only [Team.lane?, Option.bind_eq_some_iff] at h
    obtain ⟨w, hw, hl⟩ := h
    simp [Team.lane?, Team.release, hw, hl]

theorem State.keeps_mapTeams {f : Team → Team} (hf : ∀ t : Team, t.Keeps (f t)) (s : State) : s.Keeps (s.mapTeams f) where
  issue := rfl
  lanes r k l h := by
    rw [State.lane?_eq, Option.bind_eq_some_iff] at h
    obtain ⟨t, ht, hl⟩ := h
    rw [State.lane?_eq, State.team?_mapTeams (fun x => (hf x).id), ht]
    exact (hf t).lanes _ k l hl

theorem State.keeps_modTeam {g : Team → Team} (hg : ∀ t : Team, t.Keeps (g t)) (s : State) (u : Nat) : s.Keeps (s.modTeam u g) :=
  State.keeps_mapTeams (fun t => by cases t.id == u; exacts [.of_waves rfl rfl, hg t]) s

/-! ### Changing the lanes of a wave -/

theorem State.wave?_modWave (g : Wave → Wave) (s : State) (r q : WaveRef) :
    (s.modWave r g).wave? q = (s.wave? q).map fun w => if q = r then g w else w := by
  obtain ⟨qt, qw⟩ := q
  obtain ⟨rt, rw⟩ := r
  rw [State.wave?, State.modWave, State.team?_modTeam (by exact fun _ => rfl), State.wave?]
  cases ht : s.team? qt with
  | none => rfl
  | some t =>
    obtain rfl : t.id = qt := State.team?_id ht
    cases hq : t.id == rt
    · simp [hq, beq_eq_false_iff_ne.1 hq]
    · by_cases hr : rw = qw <;> simp [beq_iff_eq.1 hq, hr, eq_comm (a := qw)]

theorem State.lane?_modWave (g : Wave → Wave) (s : State) (r q : WaveRef) (k : Nat) :
    (s.modWave r g).lane? q k = (s.wave? q).bind fun w => (if q = r then g w else w).lanes[k]? := by
  rw [State.lane?, State.wave?_modWave, Option.bind_map]
  rfl

theorem State.lane?_onLanes (f : Lane → Lane) (s : State) (r q : WaveRef) (m : Mask) (k : Nat) :
    (s.onLanes r m f).lane? q k = (s.lane? q k).map fun l => if q = r ∧ m.has k then f l else l := by
  rw [State.onLanes, State.lane?_modWave, State.lane?]
  cases s.wave? q with
  | none => rfl
  | some w => by_cases hq : q = r <;> cases hm : m.has k <;> simp [hq, hm, Wave.onLanes]

theorem State.lane?_onLanes_has {f : Lane → Lane} {s : State} {r : WaveRef} {m : Mask} {k : Nat} {l : Lane}
    (hl : s.lane? r k = some l) (hm : m.has k = true) : (s.onLanes r m f).lane? r k = some (f l) := by
  rw [State.lane?_onLanes, hl, Option.map_some, if_pos ⟨rfl, hm⟩]

theorem State.keeps_onLanes {f : Lane → Lane} {s : State} {r : WaveRef} {m : Mask}
    (hf : ∀ k l, m.has k = true → s.lane? r k = some l → l.Keeps (f l)) : s.Keeps (s.onLanes r m f) where
  issue := rfl
  lanes q k l h := by
    rw [State.lane?_onLanes, h]
    by_cases hq : q = r ∧ m.has k
    · exact ⟨f l, by simp [hq], hf k l hq.2 (hq.1 ▸ h)⟩
    · exact ⟨l, by simp [hq], .refl l⟩

theorem State.keeps_modWave {g : Wave → Wave} (hg : ∀ w, (g w).lanes = w.lanes) (s : State) (r : WaveRef) :
    s.Keeps (s.modWave r g) where
  issue := rfl
  lanes q k l h := ⟨l, by
    rw [State.lane?_modWave, ← h, State.lane?]
    congr 1
    funext w
    split <;> simp [hg], .refl l⟩

/-! ### No operation of a lane's end brings a lane back -/

theorem keeps_checkBarriers (s : State) (team : Nat) : s.Keeps (checkBarriers s team) := by
  cases ht : s.team? team with
  | none => simpa [checkBarriers, ht] using State.Keeps.refl s
  | some t =>
    have hteam : s.Keeps (bif t.due then s.modTeam team (Team.release false) else s) := by
      cases t.due
      exacts [.refl s, s.keeps_modTeam (Team.keeps_release false) team]
    rw [checkBarriers_eq ht]
    refine hteam.trans ?_
    generalize (bif t.due then s.modTeam team (Team.release false) else s) = s'
    cases s'.gangDue t
    · exact .refl s'
    · refine s'.keeps_mapTeams fun x => ?_
      obtain ⟨-, h⟩ | ⟨-, h⟩ := x.releaseIn_cases ((s'.gang t).map (·.id)) <;> rw [h]
      exacts [x.keeps_release true, .of_waves rfl rfl]

theorem Team.keeps_foldl_setFe {α : Type} (f : α → FeWord) (xs : List α) (t : Team) :
    t.Keeps (xs.foldl (fun t x => t.setFe (f x)) t) := by
  suffices h : ∀ u : Team, (xs.foldl (fun t x => t.setFe (f x)) u).id = u.id
      ∧ (xs.foldl (fun t x => t.setFe (f x)) u).waves = u.waves from .of_waves (h t).1 (h t).2
  induction xs with
  | nil => exact fun u => ⟨rfl, rfl⟩
  | cons x xs ih => exact fun u => ih (u.setFe (f x))

theorem State.lane?_modTeam_setFe (s : State) (u : Nat) (w : FeWord) (r : WaveRef) (k : Nat) :
    (s.modTeam u (Team.setFe · w)).lane? r k = s.lane? r k := by
  rw [State.lane?_eq, State.lane?_eq, State.team?_modTeam (by exact fun _ => rfl), Option.bind_map]
  congr 1
  funext t
  rw [Function.comp_apply]
  cases t.id == u <;> rfl

theorem parked_of_awaits {s : State} {team off : Nat} {full : Bool} {q : Nat × Nat × Nat} {l : Lane}
    (h : awaits s team off full q = true) (hl : s.lane? ⟨q.1, q.2.1⟩ q.2.2 = some l) : l.run = .parked (.word team off full) := by
  rw [State.lane?] at hl
  simpa [awaits, hl] using h

/-- A word that changes wakes no lane, or one that awaits the change. -/
theorem wakeFe_cases (s : State) (team off : Nat) (full : Bool) :
    wakeFe s team off full = s ∨ ∃ q w, awaits s team off full q = true
      ∧ wakeFe s team off full
        = (s.modTeam team (Team.setFe · w)).onLanes ⟨q.1, q.2.1⟩ (Mask.put 0 q.2.2 true) Lane.unpark := by
  unfold wakeFe
  split
  · exact .inl rfl
  dsimp only
  split
  · exact .inl rfl
  split
  · exact .inl rfl
  · next q hq => exact .inr ⟨q, _, List.find?_some hq, rfl⟩

theorem Mask.has_put_zero (n k : Nat) : (Mask.put 0 n true).has k = (decide (k < 64) && k == n) := by
  by_cases hn : k = n
  · simp [Mask.put, Mask.has, BitVec.getLsbD_shiftLeft, hn]
  · have hbit : (!decide (k < n) && decide (k - n = 0)) = false := by simp; omega
    simp [Mask.put, Mask.has, BitVec.getLsbD_shiftLeft, beq_eq_false_iff_ne.2 hn, Bool.and_assoc, hbit]

theorem Mask.has_put_zero_self {k : Nat} (hk : k < 64) : (Mask.put 0 k true).has k = true := by
  rw [Mask.has_put_zero, decide_eq_true hk, beq_self_eq_true, Bool.and_self]

theorem keeps_wakeFe (s : State) (team off : Nat) (full : Bool) : s.Keeps (wakeFe s team off full) := by
  obtain h | ⟨q, w, hwaits, h⟩ := wakeFe_cases s team off full
  · rw [h]
    exact .refl s
  rw [h]
  refine (s.keeps_modTeam (g := (Team.setFe · w)) (fun t => .of_waves rfl rfl) team).trans (State.keeps_onLanes fun k l hk hl => ?_)
  rw [Mask.has_put_zero, Bool.and_eq_true, beq_iff_eq] at hk
  obtain ⟨-, rfl⟩ := hk
  rw [State.lane?_modTeam_setFe] at hl
  have hrun := parked_of_awaits hwaits hl
  exact ⟨rfl, id, id, fun hend => absurd (hrun.symm.trans hend) nofun⟩

/-- Lanes that leave the orders of the full/empty words can wake a lane that waits on one, and bring no ended lane back. -/
theorem keeps_dropFe (s : State) (gone : Nat × Nat × Nat → Bool) : s.Keeps (dropFe s gone) := by
  refine (s.keeps_mapTeams fun t => t.keeps_foldl_setFe (FeWord.without gone) t.fe).trans
    (State.Keeps.foldl (fun s t => State.Keeps.foldl (fun s w => ?_) _ _) _ _)
  cases w.reserved.any gone
  exacts [.refl s, keeps_wakeFe s t.id w.off w.full]

theorem keeps_checkTask (s : State) (launch task : Nat) : s.Keeps (checkTask s launch task) := by
  unfold checkTask
  dsimp only
  split
  · exact .refl s
  split
  · exact .refl s
  split <;> exact .of_teams rfl rfl

theorem keeps_releaseSlot (s : State) (t : Team) : s.Keeps (releaseSlot s t) := by
  unfold releaseSlot
  split <;> exact .of_teams rfl rfl

theorem keeps_checkEnd (s : State) (r : WaveRef) : s.Keeps (checkEnd s r) := by
  unfold checkEnd
  split
  · exact .refl s
  split
  · exact .refl s
  dsimp only
  refine (s.keeps_modWave (g := fun w => { w with entry := none, replies := [], naps := [], facts := [] })
    (fun _ => rfl) r).trans ?_
  split
  · exact .refl _
  split
  · refine State.Keeps.trans ?_ ((keeps_releaseSlot _ _).trans (keeps_checkTask _ _ _))
    exact State.keeps_modTeam (by exact fun t => .of_waves rfl rfl) _ _
  · exact .refl _

theorem keeps_dropLatch (s : State) (r : WaveRef) : s.Keeps (dropLatch s r) := by
  unfold dropLatch
  split
  exacts [.refl s, .of_teams (s.modCore_issue _ _) (s.modCore_teams _ _)]

/-! ### The end of lanes (R26) -/

theorem keeps_endLanes (s : State) (r : WaveRef) (m : Mask) : s.Keeps (endLanes s r m) := by
  refine State.Keeps.trans (State.keeps_onLanes fun k l _ _ => ?_)
    ((keeps_dropFe _ _).trans ((keeps_checkEnd _ r).trans (keeps_checkBarriers _ r.team)))
  exact ⟨rfl, id, id, fun _ => rfl⟩

theorem ended_endLanes {s : State} {r : WaveRef} {m : Mask} {k : Nat} {l : Lane} (hl : s.lane? r k = some l)
    (hm : m.has k = true) : ∃ l', (endLanes s r m).lane? r k = some l' ∧ l'.run = .ended := by
  have hrest : (s.onLanes r m fun l => { l with run := .ended }).Keeps (endLanes s r m) :=
    (keeps_dropFe _ _).trans ((keeps_checkEnd _ r).trans (keeps_checkBarriers _ r.team))
  obtain ⟨l', hl', hk⟩ := hrest.lanes r k { l with run := .ended } (State.lane?_onLanes_has hl hm)
  exact ⟨l', hl', hk.ended rfl⟩

theorem noBarrierDue_endLanes (s : State) (r : WaveRef) (m : Mask) : (endLanes s r m).NoBarrierDue r.team :=
  noBarrierDue_checkBarriers _ r.team

/-! ### Records -/

/-- Bytes written to host memory change nothing else. -/
theorem writeBytes_host (s : State) (a : Nat) (bs : List Byte) :
    ∃ m, writeBytes s (.host a) bs = { s with hostMem := m } := by
  induction bs generalizing s a with
  | nil => exact ⟨s.hostMem, rfl⟩
  | cons b bs ih => exact ih { s with hostMem := writeCell a b s.hostMem } (a + 1)

/-- A record changes no team, launch or issue. -/
theorem pushErrOf_frame (s : State) (owner f : Nat) (e : ErrRec) :
    (pushErrOf s owner f e).issue = s.issue ∧ (pushErrOf s owner f e).teams = s.teams
      ∧ (pushErrOf s owner f e).launches = s.launches := by
  obtain ⟨m, hm⟩ := writeBytes_host s ((s.fn f).err.slot (s.fn f).err.prod 64) (e.bytes (s.fn f).seq)
  unfold pushErrOf
  dsimp only
  split
  · exact ⟨rfl, rfl, rfl⟩
  · rw [hm]
    exact ⟨rfl, rfl, rfl⟩

theorem keeps_record (s : State) (owner f launch : Nat) (e : ErrRec) : s.Keeps (countErr (pushErrOf s owner f e) launch) := by
  obtain ⟨hissue, hteams, -⟩ := pushErrOf_frame s owner f e
  exact .of_teams hissue hteams

theorem noBarrierDue_record {s : State} {team : Nat} (owner f launch : Nat) (e : ErrRec) (h : s.NoBarrierDue team) :
    (countErr (pushErrOf s owner f e) launch).NoBarrierDue team := by
  obtain ⟨-, hteams, hlaunches⟩ := pushErrOf_frame s owner f e
  refine h.congr hteams fun k => ?_
  have hid : ((fun x : Launch => x.id == k) ∘ fun x => bif x.id == launch then { x with records := x.records + 1 } else x)
      = fun x => x.id == k := by
    funext x
    rw [Function.comp_apply]
    cases x.id == launch <;> rfl
  rw [countErr, State.launch?, State.modLaunch, hlaunches, List.find?_map, hid, State.launch?, Option.map_map]
  congr 1
  funext x
  rw [Function.comp_apply]
  cases x.id == launch <;> rfl

/-! ### Traps of lanes in trap mode (R313) -/

/-- The wave's lane `k` ends with a trap. -/
def endTrapped (s : State) (r : WaveRef) (k : Nat) (t : TrapInfo) : State :=
  endLanes ((dropLatch s r).onLanes r (Mask.put 0 k true) fun l => { l with tcause := t.word }) r (Mask.put 0 k true)

/-- The wave's lane `k` ends with a trap, and the record of it is written or is part of an earlier one. -/
def DoubleTrap (s : State) (r : WaveRef) (k : Nat) (t : TrapInfo) (s' : State) : Prop :=
  s' = endTrapped s r k t
    ∨ ∃ owner f launch e, s' = countErr (pushErrOf (endTrapped s r k t) owner f e) launch

/-- `takeTraps` goes through the lanes in order; a lane that is not in ordinary mode takes a double trap. -/
theorem takeTraps_steps : ∃ step : State × List (Nat × TrapWay) → WaveRef × Nat × TrapInfo → State × List (Nat × TrapWay),
    (∀ s ts, takeTraps s ts = (ts.foldl step (s, [])).1)
      ∧ ∀ a r k t l, a.1.lane? r k = some l → l.mode ≠ .ordinary → DoubleTrap a.1 r k t (step a (r, k, t)).1 := by
  refine ⟨_, fun _ _ => rfl, fun a r k t l hl hmode => ?_⟩
  have hway : ∀ s, trapWay s r l t = .double := fun s => if_pos hmode
  rw [State.lane?] at hl
  simp only [hl, hway]
  split
  · exact .inl rfl
  · exact .inr ⟨_, _, _, _, rfl⟩

theorem DoubleTrap.keeps {s s' : State} {r : WaveRef} {k : Nat} {t : TrapInfo} (h : DoubleTrap s r k t s') : s.Keeps s' := by
  have hend : s.Keeps (endTrapped s r k t) := by
    rw [endTrapped]
    refine (keeps_dropLatch s r).trans (State.Keeps.trans ?_ (keeps_endLanes _ _ _))
    exact State.keeps_onLanes fun _ l _ _ => ⟨rfl, id, id, id⟩
  obtain rfl | ⟨owner, f, launch, e, rfl⟩ := h
  exacts [hend, hend.trans (keeps_record _ owner f launch e)]

/-- R313: a lane that takes a double trap ends. -/
theorem DoubleTrap.ended {s s' : State} {r : WaveRef} {k : Nat} {t : TrapInfo} {l : Lane} (h : DoubleTrap s r k t s')
    (hl : s.lane? r k = some l) (hk : k < 64) : ∃ l', s'.lane? r k = some l' ∧ l'.run = .ended := by
  have hm := Mask.has_put_zero_self hk
  obtain ⟨l₁, hl₁, -⟩ := (keeps_dropLatch s r).lanes r k l hl
  obtain ⟨l₂, hl₂, hend⟩ : ∃ l', (endTrapped s r k t).lane? r k = some l' ∧ l'.run = .ended :=
    ended_endLanes (State.lane?_onLanes_has hl₁ hm) hm
  obtain rfl | ⟨owner, f, launch, e, rfl⟩ := h
  · exact ⟨l₂, hl₂, hend⟩
  · obtain ⟨l₃, hl₃, hkeep⟩ := (keeps_record _ owner f launch e).lanes r k l₂ hl₂
    exact ⟨l₃, hl₃, hkeep.ended hend⟩

theorem DoubleTrap.noBarrierDue {s s' : State} {r : WaveRef} {k : Nat} {t : TrapInfo} (h : DoubleTrap s r k t s') :
    s'.NoBarrierDue r.team := by
  obtain rfl | ⟨owner, f, launch, e, rfl⟩ := h
  exacts [noBarrierDue_endLanes _ r _, noBarrierDue_record owner f launch e (noBarrierDue_endLanes _ r _)]

/-- R313: traps of lanes of one wave that are all in trap mode or save mode: what the machine keeps, that the lanes end,
and that the team's barriers have been looked at. -/
theorem takeTraps_double {s : State} {r : WaveRef} (t : TrapInfo) {ks : List Nat}
    (hks : ∀ k ∈ ks, k < 64 ∧ ∃ l, s.lane? r k = some l ∧ l.mode ≠ .ordinary) :
    s.Keeps (takeTraps s (ks.map fun k => (r, k, t)))
      ∧ (∀ k ∈ ks, ∃ l, (takeTraps s (ks.map fun k => (r, k, t))).lane? r k = some l ∧ l.run = .ended)
      ∧ (ks ≠ [] → (takeTraps s (ks.map fun k => (r, k, t))).NoBarrierDue r.team) := by
  obtain ⟨step, htake, hstep⟩ := takeTraps_steps
  rw [htake]
  induction ks using List.reverseRecOn with
  | nil => exact ⟨.refl s, by simp, by simp⟩
  | append_singleton ks k ih =>
    obtain ⟨hkeep, hended, -⟩ := ih fun j hj => hks j (List.mem_append_left _ hj)
    rw [List.map_append, List.map_singleton, List.foldl_append, List.foldl_cons, List.foldl_nil]
    generalize (ks.map fun k => (r, k, t)).foldl step (s, []) = a at hkeep hended ⊢
    obtain ⟨hk, l, hl, hmode⟩ := hks k (by simp)
    obtain ⟨l', hl', hlk⟩ := hkeep.lanes r k l hl
    have hdouble := hstep a r k t l' hl' (by rwa [hlk.mode])
    refine ⟨hkeep.trans hdouble.keeps, fun j hj => ?_, fun _ => hdouble.noBarrierDue⟩
    rcases List.mem_append.1 hj with hj | hj
    · obtain ⟨u, hu, hend⟩ := hended j hj
      obtain ⟨v, hv, huv⟩ := hdouble.keeps.lanes r j u hu
      exact ⟨v, hv, huv.ended hend⟩
    · obtain rfl := List.mem_singleton.1 hj
      exact hdouble.ended hl' hk

/-! ### A barrier in trap mode (R20) -/

theorem exec_barTeam (h : Head) (s : State) : exec (.barTeam h) s = runBarrier false h s := rfl
theorem exec_barGang (h : Head) (s : State) : exec (.barGang h) s = runBarrier true h s := rfl

theorem Mask.mem_lanes {m : Mask} {k : Nat} : k ∈ m.lanes ↔ m.getLsbD k = true := by
  simp only [Mask.lanes, Mask.has, List.mem_filter, List.mem_range, and_iff_right_iff_imp]
  exact BitVec.lt_of_getLsbD

/-- The lowest lane of a set that is not empty is in it. -/
theorem Mask.getLsbD_low {m : Mask} (hm : m ≠ 0) : m.getLsbD (m.low.getD 0) = true := by
  cases hlow : m.low with
  | some k => simpa [Mask.has] using List.find?_some hlow
  | none =>
    refine absurd (BitVec.eq_of_getLsbD_eq fun k hk => ?_) hm
    simpa [Mask.has] using List.find?_eq_none.1 hlow k (List.mem_range.2 hk)

/-- A lane of a set whose number fits `n` bits is below `n`. -/
theorem Mask.lt_of_getLsbD {m : Mask} {n k : Nat} (hm : m.toNat < 2 ^ n) (hk : m.getLsbD k = true) : k < n := by
  by_contra hn
  rw [BitVec.getLsbD, Nat.testBit_lt_two_pow (hm.trans_le (Nat.pow_le_pow_right (by decide) (Nat.le_of_not_lt hn)))] at hk
  exact Bool.false_ne_true hk

theorem contexts_core {s : State} {i : Issue} {core slot group : Nat} {r : WaveRef} {m : Mask} {w : Wave} (h : Head)
    (ha : i.agent = .core core slot group [(r, m)]) (hw : s.wave? r = some w) :
    contexts s i h = [mkCtx (some r) 0 w.regs m h] := by
  simp [contexts, ha, hw]

theorem raiseAll_core {s : State} {c : Ctx} {r : WaveRef} (hr : c.ref = some r) (ts : List (Nat × TrapInfo)) :
    raiseAll s [(c, ts)] = takeTraps s (ts.map fun y => (r, y.1, y.2)) := by
  simp [raiseAll, hr]

/-- R20: what a barrier in trap or save mode raises, in a part whose lowest lane of E is in that mode. -/
theorem barTrap_eq {s : State} {c : Ctx} {r : WaveRef} {l : Lane} (hr : c.ref = some r) (hl : s.lane? r c.lead = some l)
    (hmode : l.mode ≠ .ordinary) : barTrap s c = inLanes c.e (illegal 10) := by
  obtain ⟨w, hw, hlane⟩ := Option.bind_eq_some_iff.1 hl
  simp [barTrap, hr, hw, List.getD_eq_getElem?_getD, hlane, bne_iff_ne.2 hmode]

/-- An issue of a single wave whose lowest lane of E is in trap or save mode: the barrier traps in the lanes of E, and then
looks at the team's barriers. -/
theorem runBarrier_traps {s : State} {i : Issue} {core slot group : Nat} {r : WaveRef} {m : Mask} {w : Wave} {l : Lane}
    (gang : Bool) (h : Head) (hi : s.issue = some i) (ha : i.agent = .core core slot group [(r, m)]) (hw : s.wave? r = some w) :
    let c := mkCtx (some r) 0 w.regs m h
    let t := takeTraps (advance s i c (m &&& ~~~c.e)) (c.e.lanes.map fun k => (r, k, illegal 10))
    c.e ≠ 0 → s.lane? r c.lead = some l → l.mode ≠ .ordinary → t.issue = s.issue →
      runBarrier gang h s = .next (checkBarriers t r.team) := by
  intro c t he hl hmode hissue
  have hbar : barTrap s c = inLanes c.e (illegal 10) := barTrap_eq rfl hl hmode
  have hcs : contexts s i h = [c] := contexts_core h ha hw
  have hne : barTrap s c ≠ [] := by
    have hlead : c.lead ∈ c.e.lanes := Mask.mem_lanes.2 (Mask.getLsbD_low he)
    rw [hbar, inLanes]
    simpa using List.ne_nil_of_mem hlead
  have hrefs : t.issueRefs = [r] := by simp [State.issueRefs, hissue, hi, ha]
  rw [runBarrier, runEach_traps hi (hcs ▸ List.mem_singleton_self c) hne, hcs, List.map_singleton, raiseAll_core rfl, hbar]
  simp only [onNext, inLanes, List.map_map]
  change Host.Outcome.next ((t.issueRefs.map (·.team)).dedup.foldl checkBarriers t) = _
  simp [hrefs]

end Sys2Proof.Machine

namespace Sys2Proof
open Machine

/-- Settles O22: the lanes of E are in trap mode, so that their traps are double traps, and end them; the release of
barriers that ends the instruction finds none that the last end has not released. -/
theorem barrierInTrapMode : Obligations.BarrierInTrapMode := by
  unfold Obligations.BarrierInTrapMode Claim.BarrierInTrapMode
  intro h s i core slot group r m w hi ha hw e he hlt hlanes
  have hlane : ∀ k, s.lane? r k = w.lanes[k]? := fun k => by rw [State.lane?, hw, Option.bind_some]
  have htrap : ∀ k, e.getLsbD k = true → ∃ l, s.lane? r k = some l ∧ l.mode ≠ .ordinary := fun k hk => by
    have hlen := Mask.lt_of_getLsbD hlt hk
    obtain ⟨hmode, -⟩ := hlanes k _ (List.getElem?_eq_getElem hlen) hk
    exact ⟨w.lanes[k], (hlane k).trans (List.getElem?_eq_getElem hlen), by rw [hmode]; exact nofun⟩
  have hadv : s.Keeps (advance s i (mkCtx (some r) 0 w.regs m h) (m &&& ~~~e)) :=
    State.keeps_onLanes fun _ l _ _ => l.keeps_advance i.len
  obtain ⟨hkeep, hended, hbarriers⟩ := takeTraps_double (illegal 10) (ks := e.lanes) fun k hk => by
    have hbit := Mask.mem_lanes.1 hk
    obtain ⟨l, hl, hmode⟩ := htrap k hbit
    obtain ⟨l', hl', hk'⟩ := hadv.lanes r k l hl
    exact ⟨BitVec.lt_of_getLsbD hbit, l', hl', by rwa [hk'.mode]⟩
  have hall := hadv.trans hkeep
  have hne : e.lanes ≠ [] := List.ne_nil_of_mem (Mask.mem_lanes.2 (Mask.getLsbD_low he))
  obtain ⟨l, hl, hmode⟩ := htrap _ (Mask.getLsbD_low he)
  have hrun : ∀ gang, runBarrier gang h s = .next (takeTraps (advance s i (mkCtx (some r) 0 w.regs m h) (m &&& ~~~e))
      (e.lanes.map fun k => (r, k, illegal 10))) := fun gang =>
    (runBarrier_traps gang h hi ha hw he hl hmode hall.issue).trans (congrArg _ (hbarriers hne).checkBarriers_eq)
  intro x hx
  refine ⟨_, ?_, rfl, ?_⟩
  · rcases List.mem_pair.1 hx with rfl | rfl
    exacts [(exec_barTeam h s).trans (hrun false), (exec_barGang h s).trans (hrun true)]
  · obtain ⟨l₁, hl₁, -⟩ := hall.lanes r _ l hl
    obtain ⟨w', hw', -⟩ := Option.bind_eq_some_iff.1 hl₁
    refine ⟨w', hw', fun k l hk hbit => ?_⟩
    obtain ⟨-, hteam, hgang⟩ := hlanes k l hk hbit
    obtain ⟨l', hl', hkeeps⟩ := hall.lanes r k l ((hlane k).trans hk)
    obtain ⟨l'', hl'', hend⟩ := hended k (Mask.mem_lanes.2 hbit)
    obtain rfl : l' = l'' := Option.some.inj (hl'.symm.trans hl'')
    refine ⟨l', ?_, hend, hkeeps.teamArr hteam, hkeeps.gangArr hgang⟩
    rwa [State.lane?, hw', Option.bind_some] at hl'

end Sys2Proof
end

section
/-! SUPPORT. Root code's blocks (R173, R176): what a unit holds after an update of it, that the end of an invocation takes
nothing else off its unit, and so O48: how blocks and invocations end. -/
namespace Sys2Proof.Machine

/-! ### A unit after an update -/

/-- The unit that is updated, when the update leaves its number alone. -/
theorem State.unit_modUnit_same {g : RootUnit → RootUnit} (hid : ∀ u, (g u).id = u.id) (s : State) (q : Nat) :
    (s.modUnit q g).unit q = g (s.unit q) := by
  have hkeep : ∀ u : RootUnit, ((bif u.id == q then g u else u).id == q) = (u.id == q) := fun u => by
    cases h : u.id == q <;> simp [h, hid]
  unfold State.modUnit State.unit
  split
  next hany =>
    obtain ⟨u, hu⟩ := Option.isSome_iff_exists.1 (List.find?_isSome.2 (List.any_eq_true.1 hany))
    have huq := List.find?_some hu
    simp [List.find?_map, hkeep, hu, huq]
  next hany =>
    have hnone : s.units.find? (fun u => u.id == q) = none := by simpa using hany
    simp [List.find?_append, hnone, hid]

theorem State.inv?_some {s : State} {q : Nat} {v : Inv} (hv : s.inv? q = some v) : ∃ rest, (s.unit q).invs = v :: rest :=
  List.head?_eq_some_iff.1 hv

/-- The running invocation is updated. -/
theorem State.inv?_modUnit_modify {s : State} {q : Nat} {v : Inv} (f : Inv → Inv) (hv : s.inv? q = some v) :
    (s.modUnit q fun u => { u with invs := u.invs.modify 0 f }).inv? q = some (f v) := by
  obtain ⟨rest, hrest⟩ := s.inv?_some hv
  rw [State.inv?, State.unit_modUnit_same, hrest]
  exacts [rfl, fun _ => rfl]

theorem State.unit_congr {s t : State} (h : t.units = s.units) (q : Nat) : t.unit q = s.unit q := by
  rw [State.unit, h, State.unit]

/-! ### What leaves every root unit alone -/

@[simp] theorem writeLoc_units (s : State) (b : Byte) (l : Loc) : (writeLoc s b l).units = s.units := by
  cases l <;> rfl

@[simp] theorem writeBytes_units (s : State) (l : Loc) (bs : List Byte) : (writeBytes s l bs).units = s.units := by
  induction bs generalizing s l with
  | nil => rfl
  | cons b bs ih => rw [writeBytes, ih, writeLoc_units]

@[simp] theorem writeStatus_units (s : State) (b : Issuer) (off : Nat) (x : Word) : (writeStatus s b off x).units = s.units :=
  writeBytes_units s _ _

@[simp] theorem pushErr_units (s : State) (f : Nat) (e : ErrRec) : (pushErr s f e).units = s.units := by
  unfold pushErr pushErrOf
  dsimp only
  split
  · rfl
  · rw [State.charge_units, State.modFn_units, writeBytes_units]

@[simp] theorem countErr_units (s : State) (launch : Nat) : (countErr s launch).units = s.units := rfl
@[simp] theorem unpinInv_units (s : State) (i : Inv) : (unpinInv s i).units = s.units := rfl
@[simp] theorem modBag_units (s : State) (f : Nat) (h : Word) (g : Bag → Bag) : (modBag s f h g).units = s.units := rfl
@[simp] theorem retireOp_units (s : State) (r : WaveRef) (c : Ctr) (id : Nat) : (retireOp s r c id).units = s.units := rfl

@[simp] theorem finishRoot_units (s : State) (id : Nat) : (finishRoot s id).units = s.units := by
  unfold finishRoot
  split
  next => rfl
  next c hc =>
    dsimp only
    split
    next => split <;> rfl
    next => rw [retireOp_units, writeStatus_units]
    next => rfl

@[simp] theorem entryEnded_units (s : State) (id : Nat) : (entryEnded s id).units = s.units := by
  unfold entryEnded
  dsimp only
  split
  next c hc => cases c.left == 0 <;> simp
  next => rfl

/-! ### The end of an invocation -/

/-- R176, R177: an invocation that ends, with a fault or without, leaves its unit, and the others stay in their order. -/
theorem endInv_invs (s : State) (q : Nat) (fault : Option (Nat × Nat × Nat)) :
    ((endInv s q fault).unit q).invs = (s.unit q).invs.drop 1 := by
  cases hinvs : (s.unit q).invs with
  | nil => simp [endInv, hinvs]
  | cons i rest =>
    have hunpin (b : Bool) (t : State) : (bif b then unpinInv t i else t).units = t.units := by cases b <;> rfl
    have hunits : (endInv s q fault).units = (s.modUnit q fun u => { u with invs := u.invs.drop 1 }).units := by
      simp only [endInv, hinvs, entryEnded_units, apply_ite State.units, modBag_units, ite_self]
      split
      · rw [writeStatus_units, hunpin]
      · rw [writeStatus_units, hunpin]
      · rw [hunpin]
      · rw [countErr_units, pushErr_units, hunpin]
    rw [State.unit_congr hunits, State.unit_modUnit_same, hinvs]
    exact fun _ => rfl

/-! ### Root code at issue -/

theorem contexts_root {s : State} {i : Issue} {q : Nat} {v : Inv} (h : Head) (ha : i.agent = .root q) (hv : s.inv? q = some v) :
    contexts s i h = [mkCtx none q v.regs (Mask.full 32) h] := by
  simp [contexts, ha, hv]

/-- An instruction of root code that has no trap of its own acts once, for its unit. -/
theorem runEach_root {s : State} {i : Issue} {q : Nat} {v : Inv} (h : Head) (act : Issue → Ctx → State → State)
    (hi : s.issue = some i) (ha : i.agent = .root q) (hv : s.inv? q = some v) :
    runEach h (fun _ _ => []) act s = .next (act i (mkCtx none q v.regs (Mask.full 32) h) s) := by
  rw [runEach_next hi fun _ _ => rfl, partsEffect, contexts_root h ha hv]
  rfl

theorem exec_rkNext_root {s : State} {i : Issue} {q : Nat} {v : Inv} (h : Head) (hi : s.issue = some i)
    (ha : i.agent = .root q) (hv : s.inv? q = some v) : exec (.rkNext h) s = .next (nextBlock s q) :=
  runEach_root h _ hi ha hv

theorem exec_exit_root {s : State} {i : Issue} {q : Nat} {v : Inv} (h : Head) (hi : s.issue = some i)
    (ha : i.agent = .root q) (hv : s.inv? q = some v) : exec (.exit h) s = .next (endInv s q none) :=
  runEach_root h _ hi ha hv

/-! ### The next block -/

/-- R175, R185: blocks that hold records remain, and no stop holds, so the next one is bound. -/
theorem nextBlock_of_more {s : State} {q : Nat} {v : Inv} (hv : s.inv? q = some v) (hmore : 32 * (v.block + 1) < v.nrec)
    (hheld : v.by_.held s = false) :
    nextBlock s q = s.modUnit q fun u => { u with invs := u.invs.modify 0 fun v => v.bind (v.block + 1) } := by
  obtain ⟨rest, hrest⟩ := s.inv?_some hv
  simp only [nextBlock, hrest, if_pos hmore, hheld, cond_false]

theorem nextBlock_of_last {s : State} {q : Nat} {v : Inv} (hv : s.inv? q = some v) (hlast : v.nrec ≤ 32 * (v.block + 1)) :
    nextBlock s q = endInv s q none := by
  obtain ⟨rest, hrest⟩ := s.inv?_some hv
  simp only [nextBlock, hrest, if_neg (Nat.not_lt.2 hlast)]

/-- A uniform register other than `s0` after a write to it; one that the pool does not hold stays as it is. -/
theorem Regs.getS_setS_same {n : Nat} (hn : n ≠ 0) (r : Regs) (x : Word) :
    (r.setS n x).getS n = if n < r.s.length then x else r.getS n := by
  by_cases hlen : n < r.s.length <;> simp [Regs.getS, Regs.setS, hn, hlen, List.getD_eq_getElem?_getD]

theorem Inv.getS_bind (v : Inv) (b : Nat) :
    (v.bind b).regs.getS 5 = if 5 < v.regs.s.length then BitVec.ofNat 32 b else v.regs.getS 5 :=
  v.regs.getS_setS_same (by decide) _

/-! ### The limit of a block -/

theorem exec_rootBlockLimit_eq {s : State} {q : Nat} {v : Inv} (hv : s.inv? q = some v) (hstarted : v.started = true)
    (hbound : v.bound = true) :
    exec (.rootBlockLimit q) s = .next (if 2 ^ 20 ≤ v.count then rootFault s q 5 0 else s) := by
  change execRootBlockLimit q s = _
  rw [execRootBlockLimit, hv]
  simp only [hstarted, hbound, Bool.true_and, cond_eq_ite, decide_eq_true_eq]
  rfl

end Sys2Proof.Machine

namespace Sys2Proof
open Machine

/-- Settles O48: `rk.next` binds the next block or, like `exit`, ends the invocation, which leaves its unit; the limit's
fault is decided by the block's count alone. -/
theorem rootBlocks : Obligations.RootBlocks := by
  unfold Obligations.RootBlocks Claim.RootBlocks
  intro h s i q v hi ha hv
  have hnext := exec_rkNext_root h hi ha hv
  refine ⟨fun hmore hheld => ?_, fun hlast => ?_, exec_exit_root h hi ha hv, endInv_invs s q none,
    fun hstarted hbound => ⟨fun hover => ?_, fun hunder => ?_⟩⟩
  · rw [nextBlock_of_more hv hmore hheld] at hnext
    exact ⟨_, v.bind (v.block + 1), hnext, State.inv?_modUnit_modify _ hv, rfl, rfl, rfl, rfl, rfl, v.getS_bind _,
      State.modUnit_mem s q _⟩
  · rw [hnext, nextBlock_of_last hv hlast]
  · rw [exec_rootBlockLimit_eq hv hstarted hbound, if_pos hover]
  · rw [exec_rootBlockLimit_eq hv hstarted hbound, if_neg (Nat.not_le.2 hunder)]

end Sys2Proof
end

section
/-! SUPPORT. Rounding (R204, R205): the magnitude code that a value rounds to decides whether it overflows, and from
2^(bias + 2) on the code is past the largest finite one. -/
namespace Sys2Proof.Machine

/-! ### The rounded code, and overflow -/

/-- The magnitude code that |x| rounds to, before it is compared with the largest finite one: quanta counted from the
format's smallest exponent, as `roundEx` counts them (`roundEx_of_lt`, `roundEx_of_le`). -/
def roundedCode (f : Fmt) (rm : RMode) (x : Ex) : Nat :=
  let (q, k, r, d) := quantum f x
  (q - f.qmin).toNat * 2 ^ f.fb + bif roundUp rm x.neg k r d x.more then k + 1 else k

theorem roundEx_of_lt {f : Fmt} {rm : RMode} {x : Ex} (h : f.maxCode < roundedCode f rm x) :
    roundEx f rm x = (overflowCode f rm x.neg, flagOF ||| flagNX) :=
  if_pos h

theorem roundEx_of_le {f : Fmt} {rm : RMode} {x : Ex} (h : roundedCode f rm x ≤ f.maxCode) :
    roundEx f rm x = (f.withSign x.neg (roundedCode f rm x),
      bif (quantum f x).2.2.1 != 0 || x.more then
        (bif roundedCode f rm x < 2 ^ f.fb then flagNX ||| flagUF else flagNX) else 0) :=
  if_neg (Nat.not_lt.2 h)

/-- The flags of a value that does not overflow hold no OF, whether it is inexact or not, and small or not. -/
theorem roundEx_flagOF_of_le {f : Fmt} {rm : RMode} {x : Ex} (h : roundedCode f rm x ≤ f.maxCode) :
    (roundEx f rm x).2 &&& flagOF = 0 := by
  have hflags : ∀ inexact small : Bool,
      (bif inexact then (bif small then flagNX ||| flagUF else flagNX) else 0) &&& flagOF = 0 := by decide
  rw [roundEx_of_le h]
  exact hflags _ _

theorem roundEx_flagOF_iff {f : Fmt} {rm : RMode} {x : Ex} :
    (roundEx f rm x).2 &&& flagOF ≠ 0 ↔ f.maxCode < roundedCode f rm x := by
  refine ⟨fun h => Nat.lt_of_not_le fun hle => h (roundEx_flagOF_of_le hle), fun h => ?_⟩
  rw [roundEx_of_lt h]
  exact (by decide : (flagOF ||| flagNX) &&& flagOF ≠ 0)

theorem roundSat_of_flagOF {f : Fmt} {rm : RMode} {x : Ex} (h : (roundEx f rm x).2 &&& flagOF ≠ 0) :
    roundSat f rm true x = (f.withSign x.neg f.maxCode, (roundEx f rm x).2) := by
  simp only [roundSat, Bool.true_and, bne_iff_ne.2 h, cond_true]

theorem Fmt.inf_eq (f : Fmt) (neg : Bool) : f.inf neg = if f.e4m3 then 0x7F else f.withSign neg f.infCode :=
  Bool.cond_eq_ite ..

/-! ### The quantum of a normal value -/

theorem quantum_exponent (f : Fmt) (x : Ex) :
    (quantum f x).1 = max ((Nat.log2 x.m : Int) + x.e) f.emin - f.fb := by
  simp only [quantum]
  split <;> rfl

/-- A value of at least 2^emin holds 2^fb quanta or more: its leading bit is the one that the code does not store. -/
theorem two_pow_le_quantum_floor {f : Fmt} {x : Ex} (hm : x.m ≠ 0) (hnormal : f.emin ≤ (Nat.log2 x.m : Int) + x.e) :
    2 ^ f.fb ≤ (quantum f x).2.1 := by
  have hlead : 2 ^ Nat.log2 x.m ≤ x.m := Nat.log2_self_le hm
  simp only [quantum, max_eq_left hnormal]
  split
  next hlow =>
    refine (Nat.le_div_iff_mul_le (Nat.two_pow_pos _)).2 ?_
    rwa [← Nat.pow_add, show f.fb + ((Nat.log2 x.m : Int) + x.e - f.fb - x.e).toNat = Nat.log2 x.m by omega]
  next hhigh =>
    calc 2 ^ f.fb
      _ = 2 ^ Nat.log2 x.m * 2 ^ (x.e - ((Nat.log2 x.m : Int) + x.e - f.fb)).toNat := by
        rw [← Nat.pow_add]; congr 1; omega
      _ ≤ _ := Nat.mul_le_mul_right _ hlead

/-! ### Values that are too large (R204) -/

/-- No finite code reaches the 2^fb codes above exponent field 2 · bias + 1; E4M3 has finite values in that field. -/
theorem maxCode_lt_of_mem : ∀ f ∈ [f32, f16, bf16, e5m2, e4m3], f.maxCode < (2 * f.bias + 1).toNat * 2 ^ f.fb + 2 ^ f.fb := by
  decide

theorem Fmt.bias_nonneg (f : Fmt) : 0 ≤ f.bias :=
  Int.sub_nonneg_of_le (one_le_pow₀ (by decide))

theorem maxCode_lt_roundedCode {f : Fmt} (hf : f ∈ [f32, f16, bf16, e5m2, e4m3]) (rm : RMode) {x : Ex} (hm : x.m ≠ 0)
    (hlarge : f.bias + 1 < (Nat.log2 x.m : Int) + x.e) : f.maxCode < roundedCode f rm x := by
  have hbias := f.bias_nonneg
  have hnormal : f.emin ≤ (Nat.log2 x.m : Int) + x.e := by unfold Fmt.emin; omega
  have hexponent : (2 * f.bias + 1).toNat ≤ ((quantum f x).1 - f.qmin).toNat := by
    rw [quantum_exponent, max_eq_left hnormal, Fmt.qmin, Fmt.emin]
    omega
  have hround : (quantum f x).2.1 ≤ bif roundUp rm x.neg (quantum f x).2.1 (quantum f x).2.2.1 (quantum f x).2.2.2 x.more
      then (quantum f x).2.1 + 1 else (quantum f x).2.1 := by
    cases roundUp rm x.neg _ _ _ x.more
    · exact Nat.le_refl _
    · exact Nat.le_succ _
  calc f.maxCode
    _ < (2 * f.bias + 1).toNat * 2 ^ f.fb + 2 ^ f.fb := maxCode_lt_of_mem f hf
    _ ≤ ((quantum f x).1 - f.qmin).toNat * 2 ^ f.fb + (quantum f x).2.1 :=
      Nat.add_le_add (Nat.mul_le_mul_right _ hexponent) (two_pow_le_quantum_floor hm hnormal)
    _ ≤ roundedCode f rm x := Nat.add_le_add_left hround _

end Sys2Proof.Machine

namespace Sys2Proof
open Machine

/-- Settles O9: OF arises exactly when the rounded code exceeds the largest finite one, and then the result is R205's;
from 2^(bias + 2) on, the exponent field alone carries the code past it. -/
theorem roundingOverflow : Obligations.RoundingOverflow := by
  unfold Obligations.RoundingOverflow Claim.RoundingOverflow
  intro f hf rm x
  refine ⟨fun hover => ?_, fun hover => ?_, fun hm hlarge => roundEx_flagOF_iff.2 (maxCode_lt_roundedCode hf rm hm hlarge)⟩
  · rw [roundEx_of_lt (roundEx_flagOF_iff.1 hover)]
    refine ⟨rfl, ?_⟩
    simp only [← Fmt.inf_eq]
    cases rm with
    | rtz | rne | rna | sto => rfl
    | rup | rdn => cases x.neg <;> rfl
  · rw [roundSat_of_flagOF hover, roundEx_of_lt (roundEx_flagOF_iff.1 hover)]

end Sys2Proof
end
